-- ==== Sys2Proof/Word.lean ====
section
/-! DEFINITION. The word types of the block: bytes on the serial bus and in frames (R9), and the 6-bit
register addresses of the reader chip (R200). -/

namespace Sys2Proof

/-- A byte is 8 bits (R9). -/
abbrev Byte := BitVec 8

/-- A reader-chip register address, 6 bits (R200). -/
abbrev RegAddr := BitVec 6

end Sys2Proof
end

