-- ==== Sys2Proof/Syntax.lean ====
section
/-! DEFINITION. The instructions: one constructor per row of spec/opcode_table.json, in the table's order.
HCMD rows are host commands (R310, R311), INEV rows input edges (R320), QSUM rows quadrature transition codes
(R321), TXADDR rows register transactions on the serial bus (R322), FRAME rows card frames (R323). -/

namespace Sys2Proof

/-- An instruction with its operands. Operand bytes are copied as they stand (R310). -/
inductive Instr where
  -- HCMD (R311)
  | init
  | acquire
  | release
  | regRead (addr : Byte)
  | regWrite (addr : Byte) (value : Byte)
  | setBits (addr : Byte) (mask : Byte)
  | clearBits (addr : Byte) (mask : Byte)
  | chipReset
  | antennaOn
  | toCard (cmd : Byte) (data : List Byte)
  | calcCrc (data : List Byte)
  | request (mode : Byte)
  | anticoll
  | select (uid : List Byte)
  | auth (mode : Byte) (block : Byte) (key : List Byte) (uid : List Byte)
  | stopCrypto
  | readBlock (block : Byte)
  | writeBlock (block : Byte) (data : List Byte)
  | tryReadId
  | tryReadSector (trailer : Byte)
  | tryWriteSector (text : List Byte) (trailer : Byte)
  | readId
  | readSector (trailer : Byte)
  | writeSector (text : List Byte) (trailer : Byte)
  -- INEV (R320)
  | encoderEdgeClk (now : Nat) (clk dt btn : Bool)
  | encoderEdgeDt (now : Nat) (clk dt btn : Bool)
  | buttonEdge (now : Nat) (clk dt btn : Bool)
  -- QSUM (R321)
  | qsumNop0000
  | qsumCcw0001
  | qsumCw0010
  | qsumNop0011
  | qsumCw0100
  | qsumNop0101
  | qsumNop0110
  | qsumCcw0111
  | qsumCcw1000
  | qsumNop1001
  | qsumNop1010
  | qsumCw1011
  | qsumNop1100
  | qsumCw1101
  | qsumCcw1110
  | qsumNop1111
  -- TXADDR (R322)
  | txaddrRead (addr : RegAddr)
  | txaddrWrite (addr : RegAddr) (value : Byte)
  -- FRAME (R323)
  | frameRequest (mode : Byte)
  | frameAnticoll
  | frameSelect (uid : List Byte) (crcLo crcHi : Byte)
  | frameAuth (mode : Byte) (block : Byte) (key : List Byte) (uid : List Byte)
  | frameRead (block : Byte) (crcLo crcHi : Byte)
  | frameWritePhase1 (block : Byte) (crcLo crcHi : Byte)
  | frameWritePhase2 (data : List Byte) (crcLo crcHi : Byte)
  deriving DecidableEq, Repr, Inhabited

end Sys2Proof
end

