-- ==== Sys2Proof/WellFormed.lean ====
section
/-! DEFINITION. Which instruction terms are encodings of the spec: the byte lists whose length the command or
frame format fixes (R310, R323, R712). Every other operand has its width in its type. The lengths of `data` and
`text` operands are no question of form: the acceptance checks of R712 answer with a status. -/

namespace Sys2Proof

/-- The fixed lengths: `key` 6 and `uid` 5 bytes in HCMD (R310), the lists of the FRAME rows (R323). -/
def Instr.wf : Instr → Bool
  | .select uid => uid.length == 5
  | .auth _ _ key uid => key.length == 6 && uid.length == 5
  | .frameSelect uid _ _ => uid.length == 5
  | .frameAuth _ _ key uid => key.length == 6 && uid.length == 4
  | .frameWritePhase2 data _ _ => data.length == 16
  | _ => true

end Sys2Proof
end

