-- ==== Sys2Proof/Decode.lean ====
section
/-! DEFINITION. The encodings of 30_encoding.md: raw code words of the five encoded formats, the total decoder
that rejects by name, and the encoder written from the same tables. A host command arrives as one record, so its
bytes are delimited by the record and its length is the length of the list (R310, R360). -/

namespace Sys2Proof

/-- An input edge record as the environment presents it (R101, R320): a 2-bit line code, the time in ms and the
three sampled levels. The spec gives the fields and no byte layout, so the record is kept as its fields (A20). -/
structure EdgeRec where
  line : BitVec 2
  now : Nat
  clk : Bool
  dt : Bool
  btn : Bool
  deriving DecidableEq, Repr, Inhabited

/-- The "bit framing" column of R323: what the command writes to `A_BITFRAMING` before the frame, if anything. A frame
with `unchanged` goes out with whatever framing the register holds (R323, R820), so the held value is no part of it. -/
inductive Framing where
  /-- `BF_REQ`: 7 bits. -/
  | req
  /-- `BF_FULL`. -/
  | full
  | unchanged
  deriving DecidableEq, Repr, Inhabited

/-- A card frame as it leaves the engine. R324: byte 0 alone does not identify the kind, the exchange kind
(AUTHENT, or TRANSCEIVE and whether 7 bits are framed for it) and the length do. -/
structure FrameMsg where
  authent : Bool
  framing : Framing
  bytes : List Byte
  deriving DecidableEq, Repr, Inhabited

/-- A code word of one of the encoded formats the block consumes or sends (R300). -/
inductive Code where
  | hcmd (bytes : List Byte)
  | inev (edge : EdgeRec)
  | qsum (sum : BitVec 4)
  | txaddr (byte0 byte1 : Byte)
  | frame (msg : FrameMsg)
  deriving DecidableEq, Repr, Inhabited

/-- A code word of a format the block forms inside (R321 to R323): no host or environment presents one. -/
inductive InnerCode where
  | qsum (sum : BitVec 4)
  | txaddr (byte0 byte1 : Byte)
  | frame (msg : FrameMsg)
  deriving DecidableEq, Repr, Inhabited

/-- An inner code word as a code word. -/
def InnerCode.code : InnerCode → Code
  | .qsum sum => .qsum sum
  | .txaddr byte0 byte1 => .txaddr byte0 byte1
  | .frame msg => .frame msg

/-- Why a code word is no instruction. -/
inductive Reject where
  /-- A command record with no opcode byte. -/
  | emptyCommand
  /-- A command record whose operand bytes do not fit its opcode (R712, R716). -/
  | malformedCommand (op : Byte)
  /-- An opcode that R311 does not list (R350): the command ends ILLEGAL (R713). -/
  | reservedOpcode (op : Byte)
  /-- INEV line code 0b11 (R320). -/
  | reservedLine
  /-- A TXADDR byte 0 with bit 0 set, or a read whose byte 1 is not 0x00 (R322). -/
  | badAddressByte
  /-- A byte list that is no frame of R323. -/
  | unknownFrame
  deriving DecidableEq, Repr, Inhabited

/-! ## HCMD (R310, R311) -/

/-- How many operand bytes the shortest record of an opcode has, none for a reserved opcode (R311, R350). -/
def operandBytes (op : Byte) : Option Nat :=
  match op with
  | 0x01#8 | 0x02#8 | 0x03#8 | 0x14#8 | 0x15#8 | 0x21#8 | 0x31#8 | 0x34#8 | 0x40#8 | 0x48#8 => some 0
  | 0x10#8 | 0x20#8 | 0x30#8 | 0x35#8 | 0x36#8 | 0x41#8 | 0x42#8 | 0x49#8 | 0x4A#8 => some 1
  | 0x11#8 | 0x12#8 | 0x13#8 => some 2
  | 0x32#8 => some 5
  | 0x33#8 => some 13
  | _ => none

/-- A command with no operand. -/
def noOperands (op : Byte) (i : Instr) : List Byte → Except Reject Instr
  | [] => .ok i
  | _ => .error (.malformedCommand op)

/-- A command with one operand byte. -/
def oneByte (op : Byte) (f : Byte → Instr) : List Byte → Except Reject Instr
  | [a] => .ok (f a)
  | _ => .error (.malformedCommand op)

/-- A command with two operand bytes. -/
def twoBytes (op : Byte) (f : Byte → Byte → Instr) : List Byte → Except Reject Instr
  | [a, b] => .ok (f a b)
  | _ => .error (.malformedCommand op)

/-- A command with one byte and then a byte list of any length. -/
def byteThenList (op : Byte) (f : Byte → List Byte → Instr) : List Byte → Except Reject Instr
  | a :: rest => .ok (f a rest)
  | [] => .error (.malformedCommand op)

/-- A command with a byte list of any length and then one byte (`text`, then `trailer`: R310's order). -/
def listThenByte (op : Byte) (f : List Byte → Byte → Instr) (bytes : List Byte) : Except Reject Instr :=
  match bytes.getLast? with
  | some n => .ok (f bytes.dropLast n)
  | none => .error (.malformedCommand op)

/-- `uid`: exactly 5 bytes. -/
def uidOperand (op : Byte) (f : List Byte → Instr) (bytes : List Byte) : Except Reject Instr :=
  if bytes.length = 5 then .ok (f bytes) else .error (.malformedCommand op)

/-- `mode`, `block`, `key` (6 bytes), `uid` (5 bytes). -/
def authOperands (op : Byte) (f : Byte → Byte → List Byte → List Byte → Instr) :
    List Byte → Except Reject Instr
  | m :: b :: rest =>
    if rest.length = 11 then .ok (f m b (rest.take 6) (rest.drop 6)) else .error (.malformedCommand op)
  | _ => .error (.malformedCommand op)

/-- The opcode map of R311 over the operand bytes that follow the opcode. -/
def decodeOperands (op : Byte) (bytes : List Byte) : Except Reject Instr :=
  match op with
  | 0x01#8 => noOperands op .init bytes
  | 0x02#8 => noOperands op .acquire bytes
  | 0x03#8 => noOperands op .release bytes
  | 0x10#8 => oneByte op .regRead bytes
  | 0x11#8 => twoBytes op .regWrite bytes
  | 0x12#8 => twoBytes op .setBits bytes
  | 0x13#8 => twoBytes op .clearBits bytes
  | 0x14#8 => noOperands op .chipReset bytes
  | 0x15#8 => noOperands op .antennaOn bytes
  | 0x20#8 => byteThenList op .toCard bytes
  | 0x21#8 => .ok (.calcCrc bytes)
  | 0x30#8 => oneByte op .request bytes
  | 0x31#8 => noOperands op .anticoll bytes
  | 0x32#8 => uidOperand op .select bytes
  | 0x33#8 => authOperands op .auth bytes
  | 0x34#8 => noOperands op .stopCrypto bytes
  | 0x35#8 => oneByte op .readBlock bytes
  | 0x36#8 => byteThenList op .writeBlock bytes
  | 0x40#8 => noOperands op .tryReadId bytes
  | 0x41#8 => oneByte op .tryReadSector bytes
  | 0x42#8 => listThenByte op .tryWriteSector bytes
  | 0x48#8 => noOperands op .readId bytes
  | 0x49#8 => oneByte op .readSector bytes
  | 0x4A#8 => listThenByte op .writeSector bytes
  | _ => .error (.reservedOpcode op)

/-- A host command record: the opcode byte, then the operand fields (R310, R360). -/
def decodeHcmd : List Byte → Except Reject Instr
  | [] => .error .emptyCommand
  | op :: bytes => decodeOperands op bytes

/-! ## INEV (R320) -/

/-- The line code of an edge record; 0b11 is reserved. -/
def decodeInev (e : EdgeRec) : Except Reject Instr :=
  match e.line with
  | 0b00#2 => .ok (.encoderEdgeClk e.now e.clk e.dt e.btn)
  | 0b01#2 => .ok (.encoderEdgeDt e.now e.clk e.dt e.btn)
  | 0b10#2 => .ok (.buttonEdge e.now e.clk e.dt e.btn)
  | _ => .error .reservedLine

/-! ## QSUM (R321) -/

/-- All 16 transition codes are defined. -/
def decodeQsum (sum : BitVec 4) : Instr :=
  match sum with
  | 0b0000#4 => .qsumNop0000
  | 0b0001#4 => .qsumCcw0001
  | 0b0010#4 => .qsumCw0010
  | 0b0011#4 => .qsumNop0011
  | 0b0100#4 => .qsumCw0100
  | 0b0101#4 => .qsumNop0101
  | 0b0110#4 => .qsumNop0110
  | 0b0111#4 => .qsumCcw0111
  | 0b1000#4 => .qsumCcw1000
  | 0b1001#4 => .qsumNop1001
  | 0b1010#4 => .qsumNop1010
  | 0b1011#4 => .qsumCw1011
  | 0b1100#4 => .qsumNop1100
  | 0b1101#4 => .qsumCw1101
  | 0b1110#4 => .qsumCcw1110
  | _ => .qsumNop1111

/-! ## TXADDR (R322) -/

/-- Byte 0 of a register transaction: `dir << 7 | addr << 1 | 0`. -/
def txAddrByte (read : Bool) (addr : RegAddr) : Byte :=
  (BitVec.ofBool read ++ addr ++ 0#1 : BitVec 8)

/-- Bit 7 is the direction, bits 6 to 1 the address, bit 0 is 0; byte 1 of a read is 0x00. -/
def decodeTxaddr (b0 b1 : Byte) : Except Reject Instr :=
  if b0.getLsbD 0 then .error .badAddressByte
  else if b0.getLsbD 7 then
    if b1 = 0 then .ok (.txaddrRead (b0.extractLsb' 1 6)) else .error .badAddressByte
  else .ok (.txaddrWrite (b0.extractLsb' 1 6) b1)

/-! ## FRAME (R323, R324) -/

/-- The frames sent by TRANSCEIVE with the framing unchanged, told apart by length and by bytes 0 and 1, whatever
framing the register holds. -/
def decodeWholeFrame (bytes : List Byte) : Except Reject Instr :=
  match bytes with
  | [a, block, lo, hi] =>
    if a = 0x30 then .ok (.frameRead block lo hi)
    else if a = 0xA0 then .ok (.frameWritePhase1 block lo hi)
    else .error .unknownFrame
  | [a, b, u0, u1, u2, u3, u4, lo, hi] =>
    if a = 0x93 ∧ b = 0x70 then .ok (.frameSelect [u0, u1, u2, u3, u4] lo hi) else .error .unknownFrame
  | [d0, d1, d2, d3, d4, d5, d6, d7, d8, d9, d10, d11, d12, d13, d14, d15, lo, hi] =>
    .ok (.frameWritePhase2 [d0, d1, d2, d3, d4, d5, d6, d7, d8, d9, d10, d11, d12, d13, d14, d15] lo hi)
  | _ => .error .unknownFrame

/-- REQUEST is the only frame that frames 7 bits, ANTICOLL the only one that frames whole bytes, AUTH the only AUTHENT
frame (R323, R324). -/
def decodeFrame (m : FrameMsg) : Except Reject Instr :=
  match m.authent, m.framing, m.bytes with
  | false, .req, [mode] => .ok (.frameRequest mode)
  | false, .full, [a, b] => if a = 0x93 ∧ b = 0x20 then .ok .frameAnticoll else .error .unknownFrame
  | true, .unchanged, [mode, block, k0, k1, k2, k3, k4, k5, u0, u1, u2, u3] =>
    .ok (.frameAuth mode block [k0, k1, k2, k3, k4, k5] [u0, u1, u2, u3])
  | false, .unchanged, bytes => decodeWholeFrame bytes
  | _, _, _ => .error .unknownFrame

/-- The decoder of all five formats. -/
def decode : Code → Except Reject Instr
  | .hcmd bytes => decodeHcmd bytes
  | .inev e => decodeInev e
  | .qsum sum => .ok (decodeQsum sum)
  | .txaddr b0 b1 => decodeTxaddr b0 b1
  | .frame m => decodeFrame m

/-! ## The encoder -/

/-- A frame of TRANSCEIVE with the framing unchanged. -/
def wholeFrame (bytes : List Byte) : Code := .frame ⟨false, .unchanged, bytes⟩

/-- The code word of an instruction, from R311, R320, R321, R322 and R323. -/
def encode : Instr → Code
  | .init => .hcmd [0x01]
  | .acquire => .hcmd [0x02]
  | .release => .hcmd [0x03]
  | .regRead addr => .hcmd [0x10, addr]
  | .regWrite addr value => .hcmd [0x11, addr, value]
  | .setBits addr mask => .hcmd [0x12, addr, mask]
  | .clearBits addr mask => .hcmd [0x13, addr, mask]
  | .chipReset => .hcmd [0x14]
  | .antennaOn => .hcmd [0x15]
  | .toCard cmd data => .hcmd (0x20 :: cmd :: data)
  | .calcCrc data => .hcmd (0x21 :: data)
  | .request mode => .hcmd [0x30, mode]
  | .anticoll => .hcmd [0x31]
  | .select uid => .hcmd (0x32 :: uid)
  | .auth mode block key uid => .hcmd (0x33 :: mode :: block :: (key ++ uid))
  | .stopCrypto => .hcmd [0x34]
  | .readBlock block => .hcmd [0x35, block]
  | .writeBlock block data => .hcmd (0x36 :: block :: data)
  | .tryReadId => .hcmd [0x40]
  | .tryReadSector trailer => .hcmd [0x41, trailer]
  | .tryWriteSector text trailer => .hcmd (0x42 :: (text ++ [trailer]))
  | .readId => .hcmd [0x48]
  | .readSector trailer => .hcmd [0x49, trailer]
  | .writeSector text trailer => .hcmd (0x4A :: (text ++ [trailer]))
  | .encoderEdgeClk now clk dt btn => .inev ⟨0b00, now, clk, dt, btn⟩
  | .encoderEdgeDt now clk dt btn => .inev ⟨0b01, now, clk, dt, btn⟩
  | .buttonEdge now clk dt btn => .inev ⟨0b10, now, clk, dt, btn⟩
  | .qsumNop0000 => .qsum 0b0000
  | .qsumCcw0001 => .qsum 0b0001
  | .qsumCw0010 => .qsum 0b0010
  | .qsumNop0011 => .qsum 0b0011
  | .qsumCw0100 => .qsum 0b0100
  | .qsumNop0101 => .qsum 0b0101
  | .qsumNop0110 => .qsum 0b0110
  | .qsumCcw0111 => .qsum 0b0111
  | .qsumCcw1000 => .qsum 0b1000
  | .qsumNop1001 => .qsum 0b1001
  | .qsumNop1010 => .qsum 0b1010
  | .qsumCw1011 => .qsum 0b1011
  | .qsumNop1100 => .qsum 0b1100
  | .qsumCw1101 => .qsum 0b1101
  | .qsumCcw1110 => .qsum 0b1110
  | .qsumNop1111 => .qsum 0b1111
  | .txaddrRead addr => .txaddr (txAddrByte true addr) 0x00
  | .txaddrWrite addr value => .txaddr (txAddrByte false addr) value
  | .frameRequest mode => .frame ⟨false, .req, [mode]⟩
  | .frameAnticoll => .frame ⟨false, .full, [0x93, 0x20]⟩
  | .frameSelect uid lo hi => wholeFrame ([0x93, 0x70] ++ uid ++ [lo, hi])
  | .frameAuth mode block key uid => .frame ⟨true, .unchanged, [mode, block] ++ key ++ uid⟩
  | .frameRead block lo hi => wholeFrame [0x30, block, lo, hi]
  | .frameWritePhase1 block lo hi => wholeFrame [0xA0, block, lo, hi]
  | .frameWritePhase2 data lo hi => wholeFrame (data ++ [lo, hi])

/-! ## Words of the opcode table -/

/-- The code word that a word of spec/opcode_table.json stands for. The table's formats overlap as numbers, so
for a byte the format with the most specific mask wins: an HCMD opcode of R311, then a FRAME byte 0, then a
QSUM code, then a TXADDR byte (A18). Operand bytes the table gives no bits are zeros. A 16-bit word is a
frame's first two bytes, byte 0 in the high half, as the spec writes them. -/
def tableCode (nbits w : Nat) : Option Code :=
  let byte : Byte := BitVec.ofNat 8 w
  match nbits with
  | 2 => some (.inev ⟨BitVec.ofNat 2 w, 0, false, false, false⟩)
  | 4 => some (.qsum (BitVec.ofNat 4 w))
  | 8 =>
    match operandBytes byte with
    | some n => some (.hcmd (byte :: List.replicate n 0))
    | none =>
      if w = 0xA0 then some (wholeFrame [byte, 0, 0, 0])
      else if w < 16 then some (.qsum (BitVec.ofNat 4 w))
      else some (.txaddr byte 0)
  | 16 =>
    let hi : Byte := BitVec.ofNat 8 (w / 256)
    if w = 0x9320 then some (.frame ⟨false, .full, [hi, byte]⟩)
    else some (wholeFrame ([hi, byte] ++ List.replicate 7 0))
  | _ => none

/-- The instruction the decoder reads from a word of the opcode table. -/
def decodeTableWord (nbits w : Nat) : Option Instr :=
  match tableCode nbits w with
  | some c => (decode c).toOption
  | none => none

end Sys2Proof
end

