-- ==== Sys2Proof/Config.lean ====
section
/-! DEFINITION. What an implementation of the block fixes (the parameters of R8, R206, R207 and R803 that the
spec leaves open or decides with an alternative), as plain data that State carries and no step writes, and the
free values of the model. The defaults stand in Machine/Params.lean. -/

namespace Sys2Proof

/-- `UID_TO_ID` (R552): which rule makes a CardIdentifier from the anti-collision bytes. -/
inductive UidRule where
  | be4
  | be5
  deriving DecidableEq, Repr, Inhabited

/-- `INIT_ENC_POLICY` (R8, R800): what `last_enc` takes at block reset. -/
inductive EncPolicy where
  | sample
  | zero
  deriving DecidableEq, Repr, Inhabited

/-- The register addresses of the reader chip (R206). -/
structure ChipMap where
  aCommand : RegAddr
  aComIEn : RegAddr
  aComIrq : RegAddr
  aDivIrq : RegAddr
  aError : RegAddr
  aStatus2 : RegAddr
  aFifoData : RegAddr
  aFifoLevel : RegAddr
  aControl : RegAddr
  aBitFraming : RegAddr
  aMode : RegAddr
  aTxControl : RegAddr
  aTxAuto : RegAddr
  aCrcM : RegAddr
  aCrcL : RegAddr
  aTMode : RegAddr
  aTPrescaler : RegAddr
  aTReloadH : RegAddr
  aTReloadL : RegAddr
  deriving DecidableEq, Repr, Inhabited

/-- The command codes of the reader chip (R207). -/
structure ChipCodes where
  cmdIdle : Byte
  cmdCalcCrc : Byte
  cmdReceive : Byte
  cmdTransceive : Byte
  cmdAuthent : Byte
  cmdSoftReset : Byte
  deriving DecidableEq, Repr, Inhabited

/-- The parameters of R8 that are open or decided. `N_ST` is the length of the station list. -/
structure Config extends ChipMap, ChipCodes where
  /-- `W_ENC`, in ms. -/
  wEnc : Nat
  /-- `W_BTN`, in ms. -/
  wBtn : Nat
  reversalClearsOpposite : Bool
  initEncPolicy : EncPolicy
  /-- `EVQ_DEPTH`; none is unbounded. -/
  evqDepth : Option Nat
  maxPolls : Nat
  fifoDepth : Nat
  clrIrqMask : Byte
  flushBit : Byte
  startSend : Byte
  crcDone : Byte
  lastBitsMask : Byte
  /-- `KEY`: exactly 6 bytes. -/
  key : Vector Byte 6
  authMode : Byte
  reqMode : Byte
  uidToId : UidRule
  padByte : Byte
  /-- `INIT_WRITES`: (address, value) pairs in issue order (R803). -/
  initWrites : List (RegAddr × Byte)
  /-- `MAX_ATTEMPTS`; none is unbounded. -/
  maxAttempts : Option Nat
  deriving DecidableEq, Repr, Inhabited

/-- FREE VALUE. The answer of the reader chip to a register read for which State lists none (R40), at the
value of the counter State.draws. Nothing constrains it. -/
opaque Config.freeByte : Nat → Byte

/-- FREE VALUE. Which card engine moves when State lists no turn (R656, R721), at the value of State.draws. -/
opaque Config.freeNat : Nat → Nat

end Sys2Proof
end

