-- ==== Sys2Proof/Machine/Params.lean ====
section
/-! DEFINITION. The parameter values: the constants DOC fixes ("src" in R8) and the defaults of the open and
decided parameters (R8, R206, R207, R803). -/

namespace Sys2Proof.Machine

/-! ## Constants with status src in R8 -/

/-- `STEPS_PER_EVENT`. -/
def stepsPerEvent : Nat := 4

/-- `CW_CODES`. -/
def cwCodes : List (BitVec 4) := [0b1101, 0b0100, 0b0010, 0b1011]

/-- `CCW_CODES`. -/
def ccwCodes : List (BitVec 4) := [0b1110, 0b0111, 0b0001, 0b1000]

/-- `MAX_FRAME`. -/
def maxFrame : Nat := 16

/-- `CRC_POLLS`. -/
def crcPolls : Nat := 256

/-- `ERR_MASK`. -/
def errMask : Byte := 0x1B

/-- `IEN_AUTH`. -/
def ienAuth : Byte := 0x12

/-- `WAIT_AUTH`. -/
def waitAuth : Byte := 0x10

/-- `IEN_TRX`. -/
def ienTrx : Byte := 0x77

/-- `WAIT_TRX`. -/
def waitTrx : Byte := 0x30

/-- `IEN_SET`. -/
def ienSet : Byte := 0x80

/-- `TIMER_IRQ`. -/
def timerIrq : Byte := 0x01

/-- `CRYPTO_ON`. -/
def cryptoOn : Byte := 0x08

/-- `ANT_BITS`. -/
def antBits : Byte := 0x03

/-- `BF_REQ`. -/
def bfReq : Byte := 0x07

/-- `BF_FULL`. -/
def bfFull : Byte := 0x00

/-- `BLOCK_SIZE`. -/
def blockSize : Nat := 16

/-- Data bytes of a sector: `SECTOR_BLOCKS - 1` blocks (R221, R558). -/
def sectorBytes : Nat := 48

end Sys2Proof.Machine

namespace Sys2Proof

/-- The default register map (R206). PRESUMED, the spec's own general knowledge (A27). -/
def ChipMap.default : ChipMap where
  aCommand := 0x01
  aComIEn := 0x02
  aComIrq := 0x04
  aDivIrq := 0x05
  aError := 0x06
  aStatus2 := 0x08
  aFifoData := 0x09
  aFifoLevel := 0x0A
  aControl := 0x0C
  aBitFraming := 0x0D
  aMode := 0x11
  aTxControl := 0x14
  aTxAuto := 0x15
  aCrcM := 0x21
  aCrcL := 0x22
  aTMode := 0x2A
  aTPrescaler := 0x2B
  aTReloadH := 0x2C
  aTReloadL := 0x2D

/-- The default command codes (R207). PRESUMED (A27). -/
def ChipCodes.default : ChipCodes where
  cmdIdle := 0x00
  cmdCalcCrc := 0x03
  cmdReceive := 0x08
  cmdTransceive := 0x0C
  cmdAuthent := 0x0E
  cmdSoftReset := 0x0F

/-- The default `INIT_WRITES` at the addresses of a register map, in the order of R803. PRESUMED (A27). -/
def ChipMap.initWrites (m : ChipMap) : List (RegAddr × Byte) :=
  [(m.aTMode, 0x8D), (m.aTPrescaler, 0x3E), (m.aTReloadL, 0x1E), (m.aTReloadH, 0x00),
   (m.aTxAuto, 0x40), (m.aMode, 0x3D)]

/-- The defaults of R8. `W_BTN` has no default there: 2000 is the value 95_test_vectors.md assumes (A3). -/
def Config.default : Config where
  toChipMap := ChipMap.default
  toChipCodes := ChipCodes.default
  wEnc := 20
  wBtn := 2000
  reversalClearsOpposite := false
  initEncPolicy := .sample
  evqDepth := none
  maxPolls := 10
  fifoDepth := 64
  clrIrqMask := 0x80
  flushBit := 0x80
  startSend := 0x80
  crcDone := 0x04
  lastBitsMask := 0x07
  key := #v[0xFF, 0xFF, 0xFF, 0xFF, 0xFF, 0xFF]
  authMode := 0x60
  reqMode := 0x26
  uidToId := .be4
  padByte := 0x20
  initWrites := ChipMap.default.initWrites
  maxAttempts := none

end Sys2Proof
end

