-- ==== Sys2Proof/Machine/State.lean ====
section
/-! DEFINITION. The machine state (10_state.md, R140), the reasons a step can stop (R716), and block reset (R800).
State is plain data: one station record per station, the shared lock and bus trace, the parameters, and the
model's own scheduling and input fields. -/

namespace Sys2Proof.Machine

open Sys2Proof

/-- `phase` (R120). -/
inductive Phase where
  | idle
  | busy
  | dead
  deriving DecidableEq, Repr, Inhabited

/-- `res.status` (R700). -/
inductive Status where
  | ok
  | noTag
  | error
  | precond
  | cancelled
  | illegal
  | noValue
  | hwFail
  deriving DecidableEq, Repr, Inhabited

/-- `res.sub` (R711). -/
inductive Sub where
  | notInit
  | alreadyInit
  | noLock
  | lockHeld
  | badReg
  | badLen
  | badTrailer
  deriving DecidableEq, Repr, Inhabited

/-- Direction of a turn: CLOCKWISE or ANTI_CLOCKWISE (R13, R340). -/
inductive Direction where
  | cw
  | ccw
  deriving DecidableEq, Repr, Inhabited

/-- An output event (R340). -/
inductive Event where
  | turn (station : Nat) (dir : Direction)
  | button (station : Nat)
  deriving DecidableEq, Repr, Inhabited

/-- The kind of a bus transaction (R220). -/
inductive TxnKind where
  | rd
  | wr
  deriving DecidableEq, Repr, Inhabited

/-- One record of the bus trace (R220). -/
structure Txn where
  station : Nat
  kind : TxnKind
  addr : RegAddr
  value : Byte
  deriving DecidableEq, Repr, Inhabited

/-- The host result record (R124, R330). A field that is none is absent. -/
structure Res where
  status : Option Status
  sub : Option Sub
  byte : Option Byte
  bitlen : Option (BitVec 12)
  data : Option (List Byte)
  id : Option (BitVec 40)
  warn : Option Bool
  deriving DecidableEq, Repr, Inhabited

/-- The fields of the result record, for the host's read of one of them (R740). -/
inductive ResField where
  | status
  | sub
  | byte
  | bitlen
  | data
  | id
  | warn
  deriving DecidableEq, Repr, Inhabited

/-- `cur` (R122, R703): the command record as the host presented it. A record with a reserved opcode has no operand
fields, so the bytes after its opcode are kept as they stand (A22). -/
inductive Command where
  | known (i : Instr)
  | reserved (op : Byte) (operands : List Byte)
  deriving DecidableEq, Repr, Inhabited

/-- Who moves in a step, and the choice an external agent makes (R6, R740; A7). The number q of a `host`, `cpe`
or `probe` turn says how many atomic steps the card engine takes before the next turn. -/
inductive Turn where
  /-- The host presents its next command to the station. -/
  | host (p q : Nat)
  /-- The card engine of the station takes up to q atomic steps of the running command. -/
  | cpe (p q : Nat)
  /-- The environment's next edge of the station is handled. -/
  | edge (p : Nat)
  /-- A code word of an internal format is handled at the unit it is for (A15). -/
  | probe (p q : Nat)
  /-- A cancel pulse (R662). -/
  | cancel (p : Nat)
  /-- The consumer removes the front event (R117). -/
  | consume (p : Nat)
  /-- The host reads one field of the result (R740). -/
  | readResult (p : Nat) (f : ResField)
  /-- The host sets the station's hw_ok input (R740). -/
  | supplyHwOk (p : Nat) (b : Bool)
  deriving DecidableEq, Repr, Inhabited

/-- The station a turn is of. -/
def Turn.station : Turn → Nat
  | .host p _ | .cpe p _ | .edge p | .probe p _ | .cancel p | .consume p | .readResult p _ | .supplyHwOk p _ => p

/-- How many atomic steps of the card engine a turn grants. -/
def Turn.quantum : Turn → Nat
  | .host _ q | .cpe _ q | .probe _ q => q
  | _ => 0

/-- The state of one station (R100): the registers of QD, BT and CPE, then the position inside the running
command (R103), then the station's inputs. -/
structure Station where
  /-- `last_enc` (R110). -/
  lastEnc : BitVec 2
  /-- `cw_cnt` (R111). -/
  cwCnt : BitVec 2
  /-- `ccw_cnt` (R112). -/
  ccwCnt : BitVec 2
  /-- `turn_counter` (R113). -/
  turnCounter : BitVec 32
  /-- `last_acc[CLK]` (R115), in ms. -/
  lastAccClk : Option Nat
  /-- `last_acc[DT]` (R115). -/
  lastAccDt : Option Nat
  /-- `last_acc[BTN]` (R115). -/
  lastAccBtn : Option Nat
  /-- `events` (R117), oldest first. -/
  events : List Event
  /-- `phase` (R120). -/
  phase : Phase
  /-- `inited` (R121). -/
  inited : Bool
  /-- `cur` (R122); none is absent. -/
  cur : Option Command
  /-- `cancel_req` (R123). -/
  cancelReq : Bool
  /-- `res` (R124). -/
  res : Res
  /-- The `res` of each command that has ended, in order, for the observation of R840 (A39). -/
  results : List Res
  /-- `auth_warn` (R125). -/
  authWarn : Bool
  /-- `rst_out` (R126). -/
  rstOut : Bool
  /-- The position inside the running command's pseudocode (R103): the answers its requests have got so far (A9). -/
  pos : List Byte
  /-- `k` of the blocking loop: attempts that found no value (R560). -/
  attempts : Nat
  /-- `hw_ok` (R101), an input. -/
  hwOk : Bool
  /-- Commands the host presents, in order (A8). -/
  hostQ : List (List Byte)
  /-- Edges the environment presents, in order (R610; A8). -/
  edgeQ : List EdgeRec
  /-- Code words set directly at the unit they are for (A15). -/
  probeQ : List InnerCode
  /-- The reader chip's coming answers (R40; A6). -/
  chipQ : List Byte
  /-- `now` of the previous edge presented to the station, for the duty of R600 (A13). -/
  envNow : Option Nat
  deriving DecidableEq, Repr, Inhabited

end Sys2Proof.Machine

namespace Sys2Proof.Machine

open Sys2Proof

/-- The state of the machine (R100). -/
structure State where
  /-- The parameters of R8; no step writes them (A1). -/
  cfg : Config
  /-- The stations, by id (R733). -/
  stations : List Station
  /-- `lock_owner` (R130). -/
  lockOwner : Option Nat
  /-- `trace` (R131), oldest first. -/
  trace : List Txn
  /-- Who moves next; when it is empty, a card engine the free value names (A7). -/
  turns : List Turn
  /-- The station whose agent moves in this turn (A7). -/
  sel : Nat
  /-- The atomic steps the card engine may take in this turn (A7). -/
  quantum : Nat
  /-- The counter of free values (A6). -/
  draws : Nat
  deriving DecidableEq, Repr, Inhabited

/-- The conditions that stop the machine with an error (R716). -/
inductive Fault where
  /-- BUS_NOT_OWNED: a register transaction of the station while `lock_owner` is not that station (R651). Raised by
  busRead and busWrite. Safe: R651 names it, and no command of R311 reaches it from an acceptance. -/
  | busNotOwned (station : Nat)
  /-- ABSENT_FIELD: reading an absent field of `res`, or `cur` absent when its command should run (R124). Raised by
  the host's read of a result field and by a card engine turn. Safe: R716 names it. -/
  | absentField (name : String)
  deriving DecidableEq, Repr, Inhabited

/-- The inputs a model refuses (R716, R740), each by its own name. -/
inductive Refusal where
  /-- No meaning yet: only arms of exec answer with it. Safe. -/
  | notModelled (mnemonic : String)
  /-- A command record that is no HCMD encoding: a `key` not of 6 or a `uid` not of 5 bytes, or operand bytes that do
  not fit the opcode (R712, R716). Raised by acceptance and by a host turn. Safe: R716 refuses it. -/
  | malformedCommand
  /-- An edge record with line code 0b11 (R320, R716). Raised by an edge turn. Safe: R716 refuses it. -/
  | reservedLine
  /-- An edge whose `now` is below the previous edge's at the same station (R600, R716). Raised by the edge meanings.
  R716 refuses it; unsafe only if a real clock could step back. -/
  | nowDecreased
  /-- The host changes hw_ok while INIT runs (R740). Raised by a supplyHwOk turn. Safe: R740 refuses it. -/
  | hwOkDuringInit
  /-- A TXADDR byte 0 with bit 0 set, a read whose byte 1 is not 0x00, or a frame that is none of R323, set directly at
  its unit. Raised by a probe turn. Safe: R322, R323 and R350 say the block never sends one. -/
  | badCodeWord
  /-- exec is asked to run at a station id that is not below N_ST (R733). Never raised by step. Safe. -/
  | noSuchStation
  deriving DecidableEq, Repr, Inhabited

/-- A result record with every field absent (R124). -/
def Res.absent : Res := ⟨none, none, none, none, none, none, none⟩

/-- A station after block reset (R140, R800) whose CLK and DT lines read `levels` at reset (SAMPLE). -/
def Station.reset (cfg : Config) (levels : Bool × Bool) : Station where
  lastEnc := match cfg.initEncPolicy with
    | .sample => BitVec.ofBool levels.1 ++ BitVec.ofBool levels.2
    | .zero => 0
  cwCnt := 0
  ccwCnt := 0
  turnCounter := 0
  lastAccClk := none
  lastAccDt := none
  lastAccBtn := none
  events := []
  phase := .idle
  inited := false
  cur := none
  cancelReq := false
  res := Res.absent
  results := []
  authWarn := false
  rstOut := false
  pos := []
  attempts := 0
  hwOk := true
  hostQ := []
  edgeQ := []
  probeQ := []
  chipQ := []
  envNow := none

/-- Block reset (R800) of a block with parameters `cfg` and one station for each pair of line levels: station 0, and the
others; `N_ST` is at least 1 (R8). -/
def State.resetWith (cfg : Config) (first : Bool × Bool) (others : List (Bool × Bool)) : State where
  cfg := cfg
  stations := (first :: others).map (Station.reset cfg)
  lockOwner := none
  trace := []
  turns := []
  sel := 0
  quantum := 0
  draws := 0

/-- The machine right after reset: the default parameters, two stations (A2), every encoder line high (A4), every
hw_ok input 1 (A5). -/
def State.reset : State := State.resetWith Config.default (true, true) [(true, true)]

end Sys2Proof.Machine
end

