-- ==== Sys2Proof/Machine/Operands.lean ====
section
/-! DEFINITION. Operand forms: sampled levels and transition codes (R110, R321), the trailer check and data blocks
(R553), the sector payload (R558), the identifier (R552), and the bytes of a register transaction (R210, R211). -/

namespace Sys2Proof.Machine

open Sys2Proof

/-- `enc = (clk << 1) | dt` (R321). -/
def encOf (clk dt : Bool) : BitVec 2 := BitVec.ofBool clk ++ BitVec.ofBool dt

/-- `sum = (last_enc << 2) | enc` (R321). -/
def sumOf (lastEnc enc : BitVec 2) : BitVec 4 := lastEnc ++ enc

/-- `sum[1:0]`, the new state (R321). -/
def newEnc (sum : BitVec 4) : BitVec 2 := sum.extractLsb' 0 2

/-- The trailer check `(n + 1) % 4 == 0` on unbounded integers (R10, R553). -/
def trailerOk (n : Byte) : Bool := (n.toNat + 1) % 4 == 0

/-- The data blocks of a trailer: `n - 3`, `n - 2`, `n - 1` (R553). -/
def dataBlocks (n : Byte) : List Byte := [n - 3, n - 2, n - 1]

/-- The text a sector write accepts (R558). -/
def acceptedText (t : List Byte) : List Byte := t.take sectorBytes

/-- The 48 bytes a sector write sends: the accepted text, padded (R558). -/
def sectorPayload (pad : Byte) (t : List Byte) : List Byte :=
  acceptedText t ++ List.replicate (sectorBytes - (acceptedText t).length) pad

/-- Block `i` of the payload: `d[16*i .. 16*i + 16]` (R557). -/
def payloadBlock (d : List Byte) (i : Nat) : List Byte := (d.drop (blockSize * i)).take blockSize

/-- The number whose bytes are listed, most significant first. -/
def beNat (bytes : List Byte) : Nat := bytes.foldl (fun n b => 256 * n + b.toNat) 0

/-- `UID_TO_ID(u)` (R552): BE4 takes the four UID bytes, BE5 all five. -/
def uidToId (rule : UidRule) (u : List Byte) : BitVec 40 :=
  match rule with
  | .be4 => BitVec.ofNat 40 (beNat (u.take 4))
  | .be5 => BitVec.ofNat 40 (beNat (u.take 5))

/-- A register address operand is legal at or below 0x3F (R203). -/
def regAddrOk (addr : Byte) : Bool := addr.toNat ≤ 0x3F

/-- The 6-bit register an 8-bit operand names (R310). -/
def regOf (addr : Byte) : RegAddr := addr.setWidth 6

/-- The two bytes the block sends for a transaction (R210, R211). -/
def Txn.busBytes (t : Txn) : List Byte :=
  match t.kind with
  | .rd => [txAddrByte true t.addr, 0x00]
  | .wr => [txAddrByte false t.addr, t.value]

/-- The station an event carries (R340). -/
def Event.station : Event → Nat
  | .turn p _ => p
  | .button p => p

/-- `dir` of a turn: +1 for CLOCKWISE, -1 for ANTI_CLOCKWISE (R340). -/
def Direction.value : Direction → Int
  | .cw => 1
  | .ccw => -1

/-- The compact code `kind[1:0]` of an event (R340). -/
def Event.kind : Event → BitVec 2
  | .turn _ .cw => 0b01
  | .turn _ .ccw => 0b10
  | .button _ => 0b11

end Sys2Proof.Machine
end

