-- ==== Sys2Proof/Machine/Prog.lean ====
section
/-! DEFINITION. The form in which the spec's pseudocode is written down (R11): a program issues requests one at a
time and goes on with each answer. Programs are not part of State; State holds the answers a running program has
got so far (Station.pos), and `resume` finds the program's place from them (R103; A9). -/

namespace Sys2Proof.Machine

open Sys2Proof

/-- A write of a block register that a command makes besides `res` (R802, R504). -/
inductive RegWrite where
  /-- `x[rst_out] <- 1`. -/
  | rstOut
  /-- `x[inited] <- 1`. -/
  | inited
  /-- `x[auth_warn] <- b`. -/
  | authWarn (b : Bool)
  deriving DecidableEq, Repr

/-- Pseudocode that ends with a value of type α. Each constructor but `ret` and `abort` is one request, and one
atomic step when it is carried out (R6; A10). -/
inductive Prog (α : Type) where
  /-- `return a`. -/
  | ret (a : α)
  /-- `abort()` (R661). -/
  | abort
  /-- `MemRead(a, 1)`. -/
  | rd (a : RegAddr) (k : Byte → Prog α)
  /-- `MemWrite(a, 1, v)`. -/
  | wr (a : RegAddr) (v : Byte) (k : Prog α)
  /-- `Suspend()` (R660). -/
  | suspend (k : Bool → Prog α)
  /-- The wait and the write of `acquire_lock()` (R652). -/
  | acquire (k : Prog α)
  /-- `release_lock()` (R652). -/
  | release (k : Prog α)
  /-- The sample of `hw_ok` (R802). -/
  | sampleHw (k : Bool → Prog α)
  /-- A write of a block register. -/
  | put (w : RegWrite) (k : Prog α)

/-- Sequencing with the first part's value. -/
def Prog.bind {α β : Type} (p : Prog α) (f : α → Prog β) : Prog β :=
  match p with
  | .ret a => f a
  | .abort => .abort
  | .rd a k => .rd a fun b => (k b).bind f
  | .wr a v k => .wr a v (k.bind f)
  | .suspend k => .suspend fun c => (k c).bind f
  | .acquire k => .acquire (k.bind f)
  | .release k => .release (k.bind f)
  | .sampleHw k => .sampleHw fun b => (k b).bind f
  | .put w k => .put w (k.bind f)

/-- Sequencing that drops the first part's value. -/
def Prog.seq {α β : Type} (p : Prog α) (q : Prog β) : Prog β := p.bind fun _ => q

/-- The answer of a yes-or-no request, as it is recorded. -/
def flagByte (b : Bool) : Byte := if b then 1 else 0

/-- The place of a program after its first requests got the answers listed (a request with no answer is recorded
as 0). -/
def Prog.resume {α : Type} (p : Prog α) (answers : List Byte) : Prog α :=
  match answers with
  | [] => p
  | b :: rest =>
    match p with
    | .ret a => .ret a
    | .abort => .abort
    | .rd _ k => (k b).resume rest
    | .wr _ _ k => k.resume rest
    | .suspend k => (k (b != 0)).resume rest
    | .acquire k => k.resume rest
    | .release k => k.resume rest
    | .sampleHw k => (k (b != 0)).resume rest
    | .put _ k => k.resume rest

/-- How a command's program ends. -/
inductive CmdEnd where
  /-- With this result record (R312). -/
  | done (r : Res)
  /-- A blocking command's attempt found no value: the loop goes on (R560). -/
  | again
  deriving DecidableEq, Repr

/-- An exchange's outcome: status, bytes drained, bit length (R451). -/
structure Exchange where
  status : Status
  bytes : List Byte
  bitlen : Nat
  deriving DecidableEq, Repr

end Sys2Proof.Machine
end

