-- ==== Sys2Proof/Machine/Flags.lean ====
section
/-! DEFINITION. The conditions the engine computes from what the chip answers: interrupt masks (R450), fired and
exchange status (R452, R453), bit length (R454), the check byte (R13, R501), the ACK (R508), and the numbers of
statuses and sub-codes (R700, R711). -/

namespace Sys2Proof.Machine

open Sys2Proof

/-- `irq_masks(c)`: the enable mask and the wait mask (R450). -/
def irqMasks (cfg : Config) (c : Byte) : Byte × Byte :=
  if c = cfg.cmdAuthent then (ienAuth, waitAuth)
  else if c = cfg.cmdReceive ∨ c = cfg.cmdTransceive then (ienTrx, waitTrx)
  else (0x00, 0x00)

/-- A poll value ends the wait when the timer bit or a wait bit is set (R452). -/
def fires (wait n : Byte) : Bool := n &&& timerIrq != 0 || n &&& wait != 0

/-- An error value fails the exchange when a bit of `ERR_MASK` is set (R453). -/
def errorSet (e : Byte) : Bool := e &&& errMask != 0

/-- OK degrades to NOTAG when the timer fired and the command expected it (R453). -/
def exchangeStatus (en n : Byte) : Status := if n &&& en &&& timerIrq != 0 then .noTag else .ok

/-- The bit length from the FIFO level and the last-bits count (R454). -/
def bitLength (lvl lastBits : Nat) : Nat :=
  if lvl = 0 then 0 else if lastBits ≠ 0 then (lvl - 1) * 8 + lastBits else lvl * 8

/-- The bytes drained for a FIFO level (R454). -/
def drainCount (lvl : Nat) : Nat := min lvl maxFrame

/-- The check byte of a 5-byte anti-collision response holds (R13, R501). -/
def checkByteOk (b : List Byte) : Bool :=
  match b with
  | [b0, b1, b2, b3, b4] => b0 ^^^ b1 ^^^ b2 ^^^ b3 == b4
  | _ => false

/-- `ack_ok(st, b, bl)` (R508). -/
def ackOk (x : Exchange) : Bool :=
  x.status == .ok && x.bitlen == 4 && x.bytes.headD 0 &&& 0x0F == 0x0A

/-- Status of REQUEST from its exchange (R500). -/
def requestStatus (x : Exchange) : Status :=
  if x.status ≠ .ok ∨ x.bitlen ≠ 16 then .error else x.status

/-- Status of ANTICOLL from its exchange (R501): NOTAG and ERROR pass through. -/
def anticollStatus (x : Exchange) : Status :=
  if x.status = .ok then (if checkByteOk x.bytes then .ok else .error) else x.status

/-- SELECT succeeded: status OK and bit length 24 (R502). -/
def selectOk (x : Exchange) : Bool := x.status == .ok && x.bitlen == 24

/-- READ_BLOCK found a block: status OK and exactly 16 bytes drained (R506). -/
def readOk (x : Exchange) : Bool := x.status == .ok && x.bytes.length == blockSize

/-- The code of a status (R700). -/
def Status.code : Status → BitVec 3
  | .ok => 0
  | .noTag => 1
  | .error => 2
  | .precond => 3
  | .cancelled => 4
  | .illegal => 5
  | .noValue => 6
  | .hwFail => 7

/-- The code of a sub-code (R711). -/
def Sub.code : Sub → BitVec 4
  | .notInit => 1
  | .alreadyInit => 2
  | .noLock => 3
  | .lockHeld => 4
  | .badReg => 5
  | .badLen => 6
  | .badTrailer => 7

/-- A field of the result record is present (R124). -/
def Res.has (r : Res) : ResField → Bool
  | .status => r.status.isSome
  | .sub => r.sub.isSome
  | .byte => r.byte.isSome
  | .bitlen => r.bitlen.isSome
  | .data => r.data.isSome
  | .id => r.id.isSome
  | .warn => r.warn.isSome

/-- The name of a result field. -/
def ResField.name : ResField → String
  | .status => "res.status"
  | .sub => "res.sub"
  | .byte => "res.byte"
  | .bitlen => "res.bitlen"
  | .data => "res.data"
  | .id => "res.id"
  | .warn => "res.warn"

end Sys2Proof.Machine
end

