-- ==== Sys2Proof/Machine/Ops.lean ====
section
/-! DEFINITION. The named operations over State: access to the station that moves, register transactions on the
bus (R210, R211, R220, R651), the lock (R652), acceptance of a command and its checks (R312, R712), the end of a
command with a status, which plays the part of an exception here (R312, R661, R713, R722), and the card engine that
runs a command's program one atomic step at a time (R6). -/

namespace Sys2Proof.Machine

open Sys2Proof

/-- What a meaning answers with. -/
abbrev Result := Host.Outcome State Fault Refusal

/-- Go on from a next state; a fault or a refusal stays. -/
def onNext (r : Result) (f : State → Result) : Result :=
  match r with
  | .next s => f s
  | .fault e => .fault e
  | .refused e => .refused e

/-! ## The station that moves -/

/-- The station whose agent moves. -/
def State.here (s : State) : Option Station := s.stations[s.sel]?

/-- Change the station whose agent moves; no other station is touched (R100). -/
def State.modifyHere (f : Station → Station) (s : State) : State :=
  { s with stations := s.stations.modify s.sel f }

/-! ## Register transactions -/

/-- The read oracle's answer to the next read (R40): the chip's listed answer, else the free value. -/
def State.answer (s : State) : Byte :=
  match s.here with
  | some st => st.chipQ.headD (Config.freeByte s.draws)
  | none => Config.freeByte s.draws

/-- The answer is used up: every read has its own draw (R212). -/
def State.takeAnswer (s : State) : State :=
  match s.here with
  | some st =>
    if st.chipQ = [] then { s with draws := s.draws + 1 }
    else s.modifyHere fun st => { st with chipQ := st.chipQ.tail }
  | none => { s with draws := s.draws + 1 }

/-- Append one record of the moving station to the bus trace (R220). -/
def State.record (kind : TxnKind) (a : RegAddr) (v : Byte) (s : State) : State :=
  { s with trace := s.trace ++ [⟨s.sel, kind, a, v⟩] }

/-- `MemRead(a, 1)` (R210): the value read is `s.answer`. Without the lock it is the fault of R651. -/
def busRead (a : RegAddr) (s : State) : Result :=
  if s.lockOwner = some s.sel then .next (s.record .rd a s.answer).takeAnswer
  else .fault (.busNotOwned s.sel)

/-- `MemWrite(a, 1, v)` (R211). Without the lock it is the fault of R651. -/
def busWrite (a : RegAddr) (v : Byte) (s : State) : Result :=
  if s.lockOwner = some s.sel then .next (s.record .wr a v) else .fault (.busNotOwned s.sel)

/-! ## The lock -/

/-- `x[lock_owner] <- s` (R652). -/
def State.takeLock (s : State) : State := { s with lockOwner := some s.sel }

/-- `release_lock()`: frees the lock of its owner only (R652, R654; A24). -/
def State.releaseLock (s : State) : State :=
  if s.lockOwner = some s.sel then { s with lockOwner := none } else s

/-! ## Results -/

/-- A result with a status alone. -/
def Res.ofStatus (st : Status) : Res := { Res.absent with status := some st }

/-- A precondition refusal with its sub-code (R711). -/
def Res.ofSub (sub : Sub) : Res := { Res.absent with status := some .precond, sub := some sub }

/-- A read-block result (R506): NONE, or OK with the block. -/
def Res.ofBlock : Option (List Byte) → Res
  | none => Res.ofStatus .noValue
  | some d => { Res.ofStatus .ok with data := some d }

/-! ## The life of a command -/

/-- A command is accepted: `cur` takes it and the phase is BUSY (R312). -/
def Station.accept (c : Command) (st : Station) : Station :=
  { st with cur := some c, phase := .busy, pos := [], attempts := 0 }

/-- A command ends (R312, R722): `res` is written, `cancel_req` cleared, the phase is IDLE, or DEAD after HWFAIL. The
result joins those observed (R840). -/
def Station.finish (r : Res) (st : Station) : Station :=
  { st with
    res := r
    results := st.results ++ [r]
    cancelReq := false
    phase := if r.status = some .hwFail then .dead else .idle
    pos := []
    attempts := 0 }

/-- The running program's current request got the answer `b`. -/
def Station.advance (b : Byte) (st : Station) : Station := { st with pos := st.pos ++ [b] }

/-- A blocking attempt found no value (R560): count it, and end NONE at `MAX_ATTEMPTS`, else go round the loop. -/
def Station.nextAttempt (maxAttempts : Option Nat) (st : Station) : Station :=
  if maxAttempts = some (st.attempts + 1) then st.finish (Res.ofStatus .noValue)
  else { st with pos := [], attempts := st.attempts + 1 }

/-- A write of a block register by a command. -/
def RegWrite.apply (w : RegWrite) (st : Station) : Station :=
  match w with
  | .rstOut => { st with rstOut := true }
  | .inited => { st with inited := true }
  | .authWarn b => { st with authWarn := b }

/-- `abort()` (R661): the lock is released if the station holds it, and the command ends CANCELLED. -/
def State.abort (s : State) : State :=
  s.releaseLock.modifyHere (Station.finish (Res.ofStatus .cancelled))

/-- A command with a reserved opcode is accepted and ends at once with ILLEGAL (R713). -/
def State.illegal (op : Byte) (operands : List Byte) (s : State) : State :=
  s.modifyHere fun st => (st.accept (.reserved op operands)).finish (Res.ofStatus .illegal)

/-! ## Acceptance checks (R712) -/

/-- What a command asks of `inited`. -/
inductive InitNeed where
  | required
  | forbidden
  | any
  deriving DecidableEq, Repr

/-- The "lock needed" column of R311. -/
inductive LockNeed where
  | held
  | notHeld
  | any
  deriving DecidableEq, Repr

/-- The acceptance checks of a command; `operand` is the outcome of its operand checks. -/
structure Gate where
  init : InitNeed
  lock : LockNeed
  operand : Option Sub
  deriving DecidableEq, Repr

/-- The checks in the order of R712: the first that fails is the one reported. -/
def Gate.check (g : Gate) (inited owns : Bool) : Option Sub :=
  if g.init = .forbidden ∧ inited = true then some .alreadyInit
  else if g.init = .required ∧ inited = false then some .notInit
  else if g.lock = .held ∧ owns = false then some .noLock
  else if g.lock = .notHeld ∧ owns = true then some .lockHeld
  else g.operand

/-- Low-level commands: INIT done and the lock held (R311). -/
def Gate.lowLevel (operand : Option Sub) : Gate := ⟨.required, .held, operand⟩

/-- Session commands: INIT done and the lock not held (R311). -/
def Gate.session (operand : Option Sub) : Gate := ⟨.required, .notHeld, operand⟩

/-- An operand check that fails with `sub` unless `ok`. -/
def check (ok : Bool) (sub : Sub) : Option Sub := if ok then none else some sub

/-! ## The card engine -/

/-- The moving station's program got the answer `b` in state `s`. -/
def State.answered (b : Byte) (s : State) : State := s.modifyHere (Station.advance b)

/-- One atomic step of the card engine (R6) whose program stands at `node`; `st` is its station. -/
def cpeNode (node : Prog CmdEnd) (st : Station) (s : State) : Result :=
  match node with
  | .ret (.done r) => .next (s.modifyHere (Station.finish r))
  | .ret .again => .next (s.modifyHere (Station.nextAttempt s.cfg.maxAttempts))
  | .abort => .next s.abort
  | .rd a _ => onNext (busRead a s) fun s' => .next (s'.answered s.answer)
  | .wr a v _ => onNext (busWrite a v s) fun s' => .next (s'.answered 0)
  | .suspend _ => .next (s.answered (flagByte st.cancelReq))
  | .acquire _ =>
    if st.cancelReq = true then .next s.abort
    else if s.lockOwner = none then .next (s.takeLock.answered 0)
    else .next s
  | .release _ => .next (s.releaseLock.answered 0)
  | .sampleHw _ => .next (s.answered (flagByte st.hwOk))
  | .put w _ => .next ((s.modifyHere w.apply).answered 0)

/-- One atomic step of the moving station's card engine; outside BUSY it has none. -/
def cpeStep (prog : Prog CmdEnd) (s : State) : Result :=
  match s.here with
  | none => .refused .noSuchStation
  | some st =>
    match st.phase with
    | .busy => cpeNode (prog.resume st.pos) st s
    | .idle | .dead => .next s

/-- Up to `q` atomic steps of the moving station's card engine. -/
def cpeRun (q : Nat) (prog : Prog CmdEnd) (s : State) : Result :=
  match q with
  | 0 => .next s
  | n + 1 => onNext (cpeStep prog s) (cpeRun n prog)

/-- The turn of the moving station with command `i`. IDLE: the command is presented, accepted and checked (R312,
R712), a failed check ending it PRECOND (R714), and its program takes the turn's atomic steps. BUSY with this
command: its program goes on. BUSY with another command, or DEAD: no move (R312). -/
def runCommand (i : Instr) (gate : Gate) (prog : Prog CmdEnd) (s : State) : Result :=
  match s.here with
  | none => .refused .noSuchStation
  | some st =>
    match st.phase with
    | .dead => .next s
    | .busy => if st.cur = some (.known i) then cpeRun s.quantum prog s else .next s
    | .idle =>
      if i.wf = true then
        match gate.check st.inited (s.lockOwner == some s.sel) with
        | some sub =>
          .next (s.modifyHere fun st => (st.accept (.known i)).finish (Res.ofSub sub))
        | none => cpeRun s.quantum prog (s.modifyHere (Station.accept (.known i)))
      else .refused .malformedCommand

end Sys2Proof.Machine
end

