-- ==== Sys2Proof/Machine/RegisterAccess.lean ====
section
/-! DEFINITION. Register access commands (40_register_access.md, R400 to R405) and the register transactions of the
TXADDR rows (R210, R211, R322). -/

namespace Sys2Proof.Machine

open Sys2Proof

/-! ## Sub-operations -/

/-- `read_register(a)` (R400). -/
def readRegister (a : RegAddr) : Prog Byte := .rd a .ret

/-- `write_register(a, v)` (R401). -/
def writeRegister (a : RegAddr) (v : Byte) : Prog Unit := .wr a v (.ret ())

/-- `set_bits(a, m)` (R402). -/
def setBits (a : RegAddr) (m : Byte) : Prog Unit := .rd a fun v => .wr a (v ||| m) (.ret ())

/-- `clear_bits(a, m)` (R403). -/
def clearBits (a : RegAddr) (m : Byte) : Prog Unit := .rd a fun v => .wr a (v &&& ~~~m) (.ret ())

/-- `reset()` (R404). -/
def chipReset (cfg : Config) : Prog Unit := writeRegister cfg.aCommand cfg.cmdSoftReset

/-- `antenna_on()` (R405): the write is skipped when both bits read as set. -/
def antennaOn (cfg : Config) : Prog Unit :=
  .rd cfg.aTxControl fun v =>
    if v &&& antBits ≠ antBits then setBits cfg.aTxControl antBits else .ret ()

/-- The end of a command whose result is OK and nothing else. -/
def endOk : Prog CmdEnd := .ret (.done (Res.ofStatus .ok))

/-! ## Programs of the commands -/

/-- REG_READ (R400). -/
def regReadProg (addr : Byte) : Prog CmdEnd :=
  (readRegister (regOf addr)).bind fun v =>
    .ret (.done { Res.ofStatus .ok with byte := some v })

/-- REG_WRITE (R401). -/
def regWriteProg (addr value : Byte) : Prog CmdEnd := (writeRegister (regOf addr) value).seq endOk

/-- SET_BITS (R402). -/
def setBitsProg (addr mask : Byte) : Prog CmdEnd := (setBits (regOf addr) mask).seq endOk

/-- CLEAR_BITS (R403). -/
def clearBitsProg (addr mask : Byte) : Prog CmdEnd := (clearBits (regOf addr) mask).seq endOk

/-- CHIP_RESET (R404). -/
def chipResetProg (cfg : Config) : Prog CmdEnd := (chipReset cfg).seq endOk

/-- ANTENNA_ON (R405). -/
def antennaOnProg (cfg : Config) : Prog CmdEnd := (antennaOn cfg).seq endOk

/-- The checks of the four commands with an `addr` operand (R712). -/
def regGate (addr : Byte) : Gate := Gate.lowLevel (check (regAddrOk addr) .badReg)

/-! ## Meanings -/

/-- REG_READ (R400): read one reader-chip register into `res.byte`. -/
def execRegRead (addr : Byte) (s : State) : Result :=
  runCommand (.regRead addr) (regGate addr) (regReadProg addr) s

/-- REG_WRITE (R401): write one reader-chip register. -/
def execRegWrite (addr value : Byte) (s : State) : Result :=
  runCommand (.regWrite addr value) (regGate addr) (regWriteProg addr value) s

/-- SET_BITS (R402): read a register, write it back with the mask's bits set. -/
def execSetBits (addr mask : Byte) (s : State) : Result :=
  runCommand (.setBits addr mask) (regGate addr) (setBitsProg addr mask) s

/-- CLEAR_BITS (R403): read a register, write it back with the mask's bits clear. -/
def execClearBits (addr mask : Byte) (s : State) : Result :=
  runCommand (.clearBits addr mask) (regGate addr) (clearBitsProg addr mask) s

/-- CHIP_RESET (R404): write the soft-reset code to the chip's command register. -/
def execChipReset (s : State) : Result :=
  runCommand .chipReset (Gate.lowLevel none) (chipResetProg s.cfg) s

/-- ANTENNA_ON (R405): make sure both antenna driver bits are set. -/
def execAntennaOn (s : State) : Result :=
  runCommand .antennaOn (Gate.lowLevel none) (antennaOnProg s.cfg) s

/-- TXADDR read (R210, R322): one read transaction of the moving station. -/
def execTxaddrRead (addr : RegAddr) (s : State) : Result := busRead addr s

/-- TXADDR write (R211, R322): one write transaction of the moving station. -/
def execTxaddrWrite (addr : RegAddr) (value : Byte) (s : State) : Result := busWrite addr value s

end Sys2Proof.Machine
end

