-- ==== Sys2Proof/Machine/Arbiter.lean ====
section
/-! DEFINITION. Shared-bus arbiter commands ACQUIRE and RELEASE (45_bus_arbiter.md, R653, R654) and INIT, which
constructs the station's card engine (70_reset_and_hazards.md, R802). -/

namespace Sys2Proof.Machine

open Sys2Proof

/-- The register writes of `INIT_WRITES`, in order (R803). -/
def issueWrites (l : List (RegAddr × Byte)) : Prog Unit :=
  match l with
  | [] => .ret ()
  | w :: rest => .wr w.1 w.2 (issueWrites rest)

/-- ACQUIRE (R653). -/
def acquireProg : Prog CmdEnd := .acquire endOk

/-- RELEASE (R654). -/
def releaseProg : Prog CmdEnd := .release endOk

/-- INIT (R802). -/
def initProg (cfg : Config) : Prog CmdEnd :=
  .sampleHw fun hwOk =>
    if hwOk = true then
      .put .rstOut <|
      .acquire <|
      (chipReset cfg).seq <|
      (issueWrites cfg.initWrites).seq <|
      (antennaOn cfg).seq <|
      .put .inited <|
      .release endOk
    else .ret (.done (Res.ofStatus .hwFail))

/-- INIT (R802): sample hw_ok, drive the reset line, configure the chip in one lock tenure, set `inited`. -/
def execInit (s : State) : Result :=
  runCommand .init ⟨.forbidden, .notHeld, none⟩ (initProg s.cfg) s

/-- ACQUIRE (R653): take the lock for a sequence of low-level commands. -/
def execAcquire (s : State) : Result :=
  runCommand .acquire ⟨.any, .notHeld, none⟩ acquireProg s

/-- RELEASE (R654): give up the lock. -/
def execRelease (s : State) : Result :=
  runCommand .release ⟨.any, .held, none⟩ releaseProg s

end Sys2Proof.Machine
end

