-- ==== Sys2Proof/Machine/Quadrature.lean ====
section
/-! DEFINITION. Quadrature decoder and button edge detector (44_quadrature_button.md, R600 to R610), and the QSUM
rows (R321). -/

namespace Sys2Proof.Machine

open Sys2Proof

/-! ## The decoder's state changes, on one station's record -/

/-- `emit(e)` (R608). -/
def Station.emit (e : Event) (st : Station) : Station := { st with events := st.events ++ [e] }

/-- `fire(dir)` of station `p` (R605, R606): the 4th confirmed step. -/
def Station.fire (cfg : Config) (p : Nat) (dir : Direction) (st : Station) : Station :=
  match dir with
  | .cw =>
    Station.emit (.turn p .cw)
      { st with
        cwCnt := 0
        ccwCnt := if cfg.reversalClearsOpposite = true then 0 else st.ccwCnt
        turnCounter := st.turnCounter + 1 }
  | .ccw =>
    Station.emit (.turn p .ccw)
      { st with
        ccwCnt := 0
        cwCnt := if cfg.reversalClearsOpposite = true then 0 else st.cwCnt
        turnCounter := st.turnCounter - 1 }

/-- `step(dir)` (R604). -/
def Station.stepCount (cfg : Config) (p : Nat) (dir : Direction) (st : Station) : Station :=
  match dir with
  | .cw =>
    if st.cwCnt.toNat = stepsPerEvent - 1 then st.fire cfg p .cw else { st with cwCnt := st.cwCnt + 1 }
  | .ccw =>
    if st.ccwCnt.toNat = stepsPerEvent - 1 then st.fire cfg p .ccw else { st with ccwCnt := st.ccwCnt + 1 }

/-- The effect of transition code `sum` (R321, R603): a CW step, a CCW step or nothing, and `last_enc` takes the new
levels in every case. -/
def Station.transition (cfg : Config) (p : Nat) (sum : BitVec 4) (st : Station) : Station :=
  let counted :=
    if sum ∈ cwCodes then st.stepCount cfg p .cw
    else if sum ∈ ccwCodes then st.stepCount cfg p .ccw
    else st
  { counted with lastEnc := newEnc sum }

/-- `on_encoder_edge(clk, dt)` (R603). -/
def Station.onEncoderEdge (cfg : Config) (p : Nat) (clk dt : Bool) (st : Station) : Station :=
  st.transition cfg p (sumOf st.lastEnc (encOf clk dt))

/-- `on_button_edge(btn)` (R607): the button is active low. -/
def Station.onButtonEdge (p : Nat) (btn : Bool) (st : Station) : Station :=
  if btn = false then st.emit (.button p) else st

/-! ## The input filter (R600) -/

/-- The lines of an edge (R320). -/
inductive Line where
  | clk
  | dt
  | btn
  deriving DecidableEq, Repr

/-- `W(L)` (R600). -/
def Line.window (cfg : Config) : Line → Nat
  | .clk | .dt => cfg.wEnc
  | .btn => cfg.wBtn

/-- `x[last_acc[L]]`. -/
def Station.lastAcc (st : Station) : Line → Option Nat
  | .clk => st.lastAccClk
  | .dt => st.lastAccDt
  | .btn => st.lastAccBtn

/-- `x[last_acc[L]] <- now`. -/
def Station.setLastAcc (l : Line) (now : Nat) (st : Station) : Station :=
  match l with
  | .clk => { st with lastAccClk := some now }
  | .dt => { st with lastAccDt := some now }
  | .btn => { st with lastAccBtn := some now }

/-- The filter accepts an edge: it is the line's first, or at least the window after the last accepted one. -/
def Station.accepts (cfg : Config) (l : Line) (now : Nat) (st : Station) : Bool :=
  match st.lastAcc l with
  | none => true
  | some t => t + l.window cfg ≤ now

/-- The environment breaks its duty: `now` is below the previous edge's (R600, R826). -/
def Station.tooEarly (now : Nat) (st : Station) : Bool :=
  match st.envNow with
  | none => false
  | some t => now < t

/-- The handler `f` would emit into a full event stream (R609). -/
def Station.blocked (cfg : Config) (f : Station → Station) (st : Station) : Bool :=
  match cfg.evqDepth with
  | none => false
  | some d => st.events.length < (f st).events.length && d ≤ st.events.length

/-- The effect of an accepted edge on line `l` with handler `f` (R600, R601). -/
def Station.acceptEdge (l : Line) (now : Nat) (f : Station → Station) (st : Station) : Station :=
  f (st.setLastAcc l now)

/-- The edge is held: it is accepted, and its handler would emit into a full stream (R609). -/
def Station.holdsEdge (cfg : Config) (l : Line) (now : Nat) (f : Station → Station) (st : Station) : Bool :=
  st.accepts cfg l now && st.blocked cfg (Station.acceptEdge l now f)

/-- One edge of the moving station (R600 to R602, R609, R716): an early `now` is refused, a DEAD station ignores the edge
but for the environment's clock, a held edge has no move, a rejected edge changes nothing of the block, an accepted one
runs its handler. -/
def handleEdge (l : Line) (now : Nat) (f : Station → Station) (s : State) : Result :=
  match s.here with
  | none => .refused .noSuchStation
  | some st =>
    if st.tooEarly now = true then .refused .nowDecreased
    else if st.phase = .dead then .next (s.modifyHere fun st => { st with envNow := some now })
    else if st.holdsEdge s.cfg l now f = true then .next s
    else
      .next (s.modifyHere fun st =>
        { (if st.accepts s.cfg l now = true then st.acceptEdge l now f else st) with envNow := some now })

/-- One transition code at the moving station's decoder (R603): DEAD ignores it, a full stream holds it. -/
def handleSum (sum : BitVec 4) (s : State) : Result :=
  match s.here with
  | none => .refused .noSuchStation
  | some st =>
    if st.phase = .dead then .next s
    else if st.blocked s.cfg (Station.transition s.cfg s.sel sum) = true then .next s
    else .next (s.modifyHere (Station.transition s.cfg s.sel sum))

/-- The edge of instruction `i` would be held at station `st` of id `p` (R609); false for every other instruction. -/
def holdsInput (cfg : Config) (p : Nat) (i : Instr) (st : Station) : Bool :=
  match i with
  | .encoderEdgeClk now clk dt _ => st.holdsEdge cfg .clk now (Station.onEncoderEdge cfg p clk dt)
  | .encoderEdgeDt now clk dt _ => st.holdsEdge cfg .dt now (Station.onEncoderEdge cfg p clk dt)
  | .buttonEdge now _ _ btn => st.holdsEdge cfg .btn now (Station.onButtonEdge p btn)
  | _ => false

/-! ## Meanings -/

/-- ENCODER_EDGE on CLK (R603). -/
def execEncoderEdgeClk (now : Nat) (clk dt _btn : Bool) (s : State) : Result :=
  handleEdge .clk now (Station.onEncoderEdge s.cfg s.sel clk dt) s

/-- ENCODER_EDGE on DT (R603). -/
def execEncoderEdgeDt (now : Nat) (clk dt _btn : Bool) (s : State) : Result :=
  handleEdge .dt now (Station.onEncoderEdge s.cfg s.sel clk dt) s

/-- BUTTON_EDGE (R607). -/
def execButtonEdge (now : Nat) (_clk _dt btn : Bool) (s : State) : Result :=
  handleEdge .btn now (Station.onButtonEdge s.sel btn) s

/-- Transition 00 → 00: no change. -/
def execQsum0000 (s : State) : Result := handleSum 0b0000 s

/-- Transition 00 → 01: CCW step. -/
def execQsum0001 (s : State) : Result := handleSum 0b0001 s

/-- Transition 00 → 10: CW step. -/
def execQsum0010 (s : State) : Result := handleSum 0b0010 s

/-- Transition 00 → 11: both lines changed, no step. -/
def execQsum0011 (s : State) : Result := handleSum 0b0011 s

/-- Transition 01 → 00: CW step. -/
def execQsum0100 (s : State) : Result := handleSum 0b0100 s

/-- Transition 01 → 01: no change. -/
def execQsum0101 (s : State) : Result := handleSum 0b0101 s

/-- Transition 01 → 10: both lines changed, no step. -/
def execQsum0110 (s : State) : Result := handleSum 0b0110 s

/-- Transition 01 → 11: CCW step. -/
def execQsum0111 (s : State) : Result := handleSum 0b0111 s

/-- Transition 10 → 00: CCW step. -/
def execQsum1000 (s : State) : Result := handleSum 0b1000 s

/-- Transition 10 → 01: both lines changed, no step. -/
def execQsum1001 (s : State) : Result := handleSum 0b1001 s

/-- Transition 10 → 10: no change. -/
def execQsum1010 (s : State) : Result := handleSum 0b1010 s

/-- Transition 10 → 11: CW step. -/
def execQsum1011 (s : State) : Result := handleSum 0b1011 s

/-- Transition 11 → 00: both lines changed, no step. -/
def execQsum1100 (s : State) : Result := handleSum 0b1100 s

/-- Transition 11 → 01: CW step. -/
def execQsum1101 (s : State) : Result := handleSum 0b1101 s

/-- Transition 11 → 10: CCW step. -/
def execQsum1110 (s : State) : Result := handleSum 0b1110 s

/-- Transition 11 → 11: no change. -/
def execQsum1111 (s : State) : Result := handleSum 0b1111 s

end Sys2Proof.Machine
end

