-- ==== Sys2Proof/Machine/CardExchange.lean ====
section
/-! DEFINITION. Card exchange and CRC coprocessor (41_card_exchange.md, R450 to R461). -/

namespace Sys2Proof.Machine

open Sys2Proof

/-! ## Sub-operations -/

/-- The payload into the FIFO, byte 0 first (R214, R451 step 2). -/
def pushFifo (cfg : Config) (p : List Byte) : Prog Unit :=
  match p with
  | [] => .ret ()
  | b :: rest => .wr cfg.aFifoData b (pushFifo cfg rest)

/-- What an interrupt poll ends with (R452): it fired with this value, it timed out, or it was cancelled. -/
inductive PollEnd where
  | fired (n : Byte)
  | timeout
  | cancelled
  deriving DecidableEq, Repr

/-- `poll_irq(wait)` (R452) with `k` polls left. The cancellation point stands between two polls, not after the
last. -/
def pollIrq (cfg : Config) (wait : Byte) (k : Nat) : Prog PollEnd :=
  match k with
  | 0 => .ret .timeout
  | left + 1 =>
    .rd cfg.aComIrq fun n =>
      if fires wait n = true then .ret (.fired n)
      else if left = 0 then .ret .timeout
      else .suspend fun c => if c = true then .ret .cancelled else pollIrq cfg wait left

/-- Drain `k` bytes from the FIFO, in the order read (R214, R454). -/
def drainFifo (cfg : Config) (k : Nat) : Prog (List Byte) :=
  match k with
  | 0 => .ret []
  | left + 1 => .rd cfg.aFifoData fun b => (drainFifo cfg left).bind fun rest => .ret (b :: rest)

/-- `read_reply()` (R454), for an exchange of status `st`. -/
def readReply (cfg : Config) (st : Status) : Prog Exchange :=
  .rd cfg.aFifoLevel fun lvl =>
    .rd cfg.aControl fun ctl =>
      (drainFifo cfg (drainCount lvl.toNat)).bind fun bytes =>
        .ret ⟨st, bytes, bitLength lvl.toNat (ctl &&& cfg.lastBitsMask).toNat⟩

/-- `finish(c, en, n)` (R453). -/
def finishExchange (cfg : Config) (c en n : Byte) : Prog Exchange :=
  .rd cfg.aError fun e =>
    if errorSet e = true then .ret ⟨.error, [], 0⟩
    else if c = cfg.cmdTransceive then readReply cfg (exchangeStatus en n)
    else .ret ⟨exchangeStatus en n, [], 0⟩

/-- Steps 1 and 2 of `to_card` up to the start of the command (R451). -/
def startExchange (cfg : Config) (c : Byte) (p : List Byte) : Prog Unit :=
  (writeRegister cfg.aComIEn ((irqMasks cfg c).1 ||| ienSet)).seq <|
  (clearBits cfg.aComIrq cfg.clrIrqMask).seq <|
  (setBits cfg.aFifoLevel cfg.flushBit).seq <|
  (writeRegister cfg.aCommand cfg.cmdIdle).seq <|
  (pushFifo cfg p).seq <|
  writeRegister cfg.aCommand c

/-- `to_card(c, p)` (R451). -/
def toCard (cfg : Config) (c : Byte) (p : List Byte) : Prog Exchange :=
  (startExchange cfg c p).seq <|
  (if c = cfg.cmdTransceive then setBits cfg.aBitFraming cfg.startSend else .ret ()).seq <|
  (pollIrq cfg (irqMasks cfg c).2 cfg.maxPolls).bind fun poll =>
  (clearBits cfg.aBitFraming cfg.startSend).seq <|
    match poll with
    | .cancelled => .abort
    | .timeout => .ret ⟨.error, [], 0⟩
    | .fired n => finishExchange cfg c (irqMasks cfg c).1 n

/-- The CRC-done polls of `calculate_crc` with `k` left (R460, R461): no sleep, no error when the flag never sets. -/
def pollCrc (cfg : Config) (k : Nat) : Prog Unit :=
  match k with
  | 0 => .ret ()
  | left + 1 =>
    .rd cfg.aDivIrq fun n => if n &&& cfg.crcDone ≠ 0 then .ret () else pollCrc cfg left

/-- `calculate_crc(p)` (R460): `[lo, hi]` (R215). -/
def calculateCrc (cfg : Config) (p : List Byte) : Prog (List Byte) :=
  (clearBits cfg.aDivIrq cfg.crcDone).seq <|
  (setBits cfg.aFifoLevel cfg.flushBit).seq <|
  (pushFifo cfg p).seq <|
  (writeRegister cfg.aCommand cfg.cmdCalcCrc).seq <|
  (pollCrc cfg crcPolls).seq <|
  .rd cfg.aCrcL fun lo => .rd cfg.aCrcM fun hi => .ret [lo, hi]

/-! ## Programs of the commands -/

/-- The result fields of an exchange (R451): status, data, bitlen. -/
def Exchange.res (x : Exchange) (st : Status) : Res :=
  { Res.ofStatus st with data := some x.bytes, bitlen := some (BitVec.ofNat 12 x.bitlen) }

/-- TO_CARD (R451). -/
def toCardProg (cfg : Config) (c : Byte) (p : List Byte) : Prog CmdEnd :=
  (toCard cfg c p).bind fun x => .ret (.done (x.res x.status))

/-- CALC_CRC (R460). -/
def calcCrcProg (cfg : Config) (p : List Byte) : Prog CmdEnd :=
  (calculateCrc cfg p).bind fun crc => .ret (.done { Res.ofStatus .ok with data := some crc })

/-- TO_CARD and CALC_CRC refuse a payload longer than `FIFO_DEPTH` (R712). -/
def payloadGate (cfg : Config) (p : List Byte) : Gate :=
  Gate.lowLevel (check (p.length ≤ cfg.fifoDepth) .badLen)

/-! ## Meanings -/

/-- TO_CARD (R451): one exchange with the card through the reader chip. -/
def execToCard (cmd : Byte) (data : List Byte) (s : State) : Result :=
  runCommand (.toCard cmd data) (payloadGate s.cfg data) (toCardProg s.cfg cmd data) s

/-- CALC_CRC (R460): the chip's CRC coprocessor over a byte list. -/
def execCalcCrc (data : List Byte) (s : State) : Result :=
  runCommand (.calcCrc data) (payloadGate s.cfg data) (calcCrcProg s.cfg data) s

end Sys2Proof.Machine
end

