-- ==== Sys2Proof/Machine/CardCommands.lean ====
section
/-! DEFINITION. Card commands (42_card_commands.md, R500 to R508) and the FRAME rows they send (R323). -/

namespace Sys2Proof.Machine

open Sys2Proof

/-! ## Frames (R323) -/

/-- The REQUEST frame: bit framing `BF_REQ`, TRANSCEIVE, one byte. -/
def sendRequest (cfg : Config) (mode : Byte) : Prog Exchange :=
  (writeRegister cfg.aBitFraming bfReq).seq (toCard cfg cfg.cmdTransceive [mode])

/-- The ANTICOLL frame: bit framing `BF_FULL`, TRANSCEIVE. -/
def sendAnticoll (cfg : Config) : Prog Exchange :=
  (writeRegister cfg.aBitFraming bfFull).seq (toCard cfg cfg.cmdTransceive [0x93, 0x20])

/-- The SELECT frame, with its CRC; bit framing unchanged. -/
def sendSelect (cfg : Config) (uid crc : List Byte) : Prog Exchange :=
  toCard cfg cfg.cmdTransceive ([0x93, 0x70] ++ uid ++ crc)

/-- The AUTH frame: AUTHENT, no CRC, four UID bytes. -/
def sendAuth (cfg : Config) (mode block : Byte) (key uid : List Byte) : Prog Exchange :=
  toCard cfg cfg.cmdAuthent ([mode, block] ++ key ++ uid)

/-- The READ frame, with its CRC. -/
def sendRead (cfg : Config) (block : Byte) (crc : List Byte) : Prog Exchange :=
  toCard cfg cfg.cmdTransceive ([0x30, block] ++ crc)

/-- The WRITE phase 1 frame, with its CRC. -/
def sendWrite1 (cfg : Config) (block : Byte) (crc : List Byte) : Prog Exchange :=
  toCard cfg cfg.cmdTransceive ([0xA0, block] ++ crc)

/-- The WRITE phase 2 frame: 16 data bytes and their CRC. -/
def sendWrite2 (cfg : Config) (data crc : List Byte) : Prog Exchange :=
  toCard cfg cfg.cmdTransceive (data ++ crc)

/-! ## Sub-operations -/

/-- `request(m)` (R500): status and bit length. -/
def request (cfg : Config) (mode : Byte) : Prog (Status × Nat) :=
  (sendRequest cfg mode).bind fun x => .ret (requestStatus x, x.bitlen)

/-- `anticollision()` (R501): status and the bytes read. -/
def anticollision (cfg : Config) : Prog (Status × List Byte) :=
  (sendAnticoll cfg).bind fun x => .ret (anticollStatus x, x.bytes)

/-- `select_tag(u)` (R502): the size byte, none when it failed. -/
def selectTag (cfg : Config) (uid : List Byte) : Prog (Option Byte) :=
  (calculateCrc cfg ([0x93, 0x70] ++ uid)).bind fun crc =>
  (sendSelect cfg uid crc).bind fun x =>
  .ret (if selectOk x = true then some (x.bytes.headD 0) else none)

/-- `authenticate(m, blk, k, u)` (R504): the status, and the value `auth_warn` is left with. -/
def authenticate (cfg : Config) (mode block : Byte) (key uid : List Byte) : Prog (Status × Bool) :=
  .put (.authWarn false) <|
  (sendAuth cfg mode block key (uid.take 4)).bind fun x =>
  .rd cfg.aStatus2 fun s2 =>
    if s2 &&& cryptoOn = 0 then .put (.authWarn true) (.ret (x.status, true))
    else .ret (x.status, false)

/-- `stop_crypto1()` (R505). -/
def stopCrypto (cfg : Config) : Prog Unit := clearBits cfg.aStatus2 cryptoOn

/-- `read_block(blk)` (R506). -/
def readBlock (cfg : Config) (block : Byte) : Prog (Option (List Byte)) :=
  (calculateCrc cfg [0x30, block]).bind fun crc =>
  (sendRead cfg block crc).bind fun x =>
  .ret (if readOk x = true then some x.bytes else none)

/-- `write_block(blk, d)` (R507): phase 2 is sent only when phase 1 was acknowledged. -/
def writeBlock (cfg : Config) (block : Byte) (data : List Byte) : Prog Status :=
  (calculateCrc cfg [0xA0, block]).bind fun crc =>
  (sendWrite1 cfg block crc).bind fun x =>
  if ackOk x = true then
    (calculateCrc cfg data).bind fun crc2 =>
    (sendWrite2 cfg data crc2).bind fun y =>
    .ret (if ackOk y = true then .ok else .error)
  else .ret .error

/-! ## Programs of the commands -/

/-- REQUEST (R500): `bitlen` is reported whatever the status. -/
def requestProg (cfg : Config) (mode : Byte) : Prog CmdEnd :=
  (request cfg mode).bind fun r =>
    .ret (.done { Res.ofStatus r.1 with bitlen := some (BitVec.ofNat 12 r.2) })

/-- ANTICOLL (R501): `data` holds the bytes read whatever the status. -/
def anticollProg (cfg : Config) : Prog CmdEnd :=
  (anticollision cfg).bind fun r => .ret (.done { Res.ofStatus r.1 with data := some r.2 })

/-- SELECT (R502): the flag, not the byte, tells success (C10). -/
def selectProg (cfg : Config) (uid : List Byte) : Prog CmdEnd :=
  (selectTag cfg uid).bind fun r =>
    .ret (.done
      { Res.ofStatus (if r.isSome = true then .ok else .error) with byte := some (r.getD 0) })

/-- AUTH (R504). -/
def authProg (cfg : Config) (mode block : Byte) (key uid : List Byte) : Prog CmdEnd :=
  (authenticate cfg mode block key uid).bind fun r =>
    .ret (.done { Res.ofStatus r.1 with warn := some r.2 })

/-- STOP_CRYPTO (R505). -/
def stopCryptoProg (cfg : Config) : Prog CmdEnd := (stopCrypto cfg).seq endOk

/-- READ_BLOCK (R506). -/
def readBlockProg (cfg : Config) (block : Byte) : Prog CmdEnd :=
  (readBlock cfg block).bind fun r => .ret (.done (Res.ofBlock r))

/-- WRITE_BLOCK (R507). -/
def writeBlockProg (cfg : Config) (block : Byte) (data : List Byte) : Prog CmdEnd :=
  (writeBlock cfg block data).bind fun st => .ret (.done (Res.ofStatus st))

/-- The end of an exchange run by itself (A17): the exchange's own fields, with the status the frame's expected
reply gives (R323). -/
def endExchange (x : Exchange) (st : Status) : Prog CmdEnd := .ret (.done (x.res st))

/-- OK when the expected reply came, ERROR otherwise (R323). -/
def expect (ok : Bool) : Status := if ok then .ok else .error

/-- FRAME REQUEST (R323, R500). -/
def frameRequestProg (cfg : Config) (mode : Byte) : Prog CmdEnd :=
  (sendRequest cfg mode).bind fun x => endExchange x (requestStatus x)

/-- FRAME ANTICOLL (R323, R501). -/
def frameAnticollProg (cfg : Config) : Prog CmdEnd :=
  (sendAnticoll cfg).bind fun x => endExchange x (anticollStatus x)

/-- FRAME SELECT (R323, R502). -/
def frameSelectProg (cfg : Config) (uid : List Byte) (crcLo crcHi : Byte) : Prog CmdEnd :=
  (sendSelect cfg uid [crcLo, crcHi]).bind fun x => endExchange x (expect (selectOk x))

/-- FRAME AUTH (R323, R504). -/
def frameAuthProg (cfg : Config) (mode block : Byte) (key uid : List Byte) : Prog CmdEnd :=
  (sendAuth cfg mode block key uid).bind fun x => endExchange x x.status

/-- FRAME READ (R323, R506). -/
def frameReadProg (cfg : Config) (block crcLo crcHi : Byte) : Prog CmdEnd :=
  (sendRead cfg block [crcLo, crcHi]).bind fun x => endExchange x (expect (readOk x))

/-- FRAME WRITE phase 1 (R323, R507). -/
def frameWrite1Prog (cfg : Config) (block crcLo crcHi : Byte) : Prog CmdEnd :=
  (sendWrite1 cfg block [crcLo, crcHi]).bind fun x => endExchange x (expect (ackOk x))

/-- FRAME WRITE phase 2 (R323, R507). -/
def frameWrite2Prog (cfg : Config) (data : List Byte) (crcLo crcHi : Byte) : Prog CmdEnd :=
  (sendWrite2 cfg data [crcLo, crcHi]).bind fun x => endExchange x (expect (ackOk x))

/-- A frame set directly at the exchange stage passes no acceptance check (A17). -/
def frameGate : Gate := ⟨.any, .any, none⟩

/-! ## Meanings -/

/-- REQUEST (R500): probe for a card in the field. -/
def execRequest (mode : Byte) (s : State) : Result :=
  runCommand (.request mode) (Gate.lowLevel none) (requestProg s.cfg mode) s

/-- ANTICOLL (R501): fetch the UID of one card. -/
def execAnticoll (s : State) : Result :=
  runCommand .anticoll (Gate.lowLevel none) (anticollProg s.cfg) s

/-- SELECT (R502): select the card with a given UID. -/
def execSelect (uid : List Byte) (s : State) : Result :=
  runCommand (.select uid) (Gate.lowLevel none) (selectProg s.cfg uid) s

/-- AUTH (R504): authenticate a block with a key. -/
def execAuth (mode block : Byte) (key uid : List Byte) (s : State) : Result :=
  runCommand (.auth mode block key uid) (Gate.lowLevel none) (authProg s.cfg mode block key uid) s

/-- STOP_CRYPTO (R505): switch the chip's crypto unit off. -/
def execStopCrypto (s : State) : Result :=
  runCommand .stopCrypto (Gate.lowLevel none) (stopCryptoProg s.cfg) s

/-- READ_BLOCK (R506): read one 16-byte card block. -/
def execReadBlock (block : Byte) (s : State) : Result :=
  runCommand (.readBlock block) (Gate.lowLevel none) (readBlockProg s.cfg block) s

/-- WRITE_BLOCK (R507): write one 16-byte card block, in two phases. -/
def execWriteBlock (block : Byte) (data : List Byte) (s : State) : Result :=
  runCommand (.writeBlock block data) (Gate.lowLevel (check (data.length == blockSize) .badLen))
    (writeBlockProg s.cfg block data) s

/-- FRAME REQUEST (R323): the exchange of one REQUEST frame. -/
def execFrameRequest (mode : Byte) (s : State) : Result :=
  runCommand (.frameRequest mode) frameGate (frameRequestProg s.cfg mode) s

/-- FRAME ANTICOLL (R323). -/
def execFrameAnticoll (s : State) : Result :=
  runCommand .frameAnticoll frameGate (frameAnticollProg s.cfg) s

/-- FRAME SELECT (R323). -/
def execFrameSelect (uid : List Byte) (crcLo crcHi : Byte) (s : State) : Result :=
  runCommand (.frameSelect uid crcLo crcHi) frameGate (frameSelectProg s.cfg uid crcLo crcHi) s

/-- FRAME AUTH (R323). -/
def execFrameAuth (mode block : Byte) (key uid : List Byte) (s : State) : Result :=
  runCommand (.frameAuth mode block key uid) frameGate (frameAuthProg s.cfg mode block key uid) s

/-- FRAME READ (R323). -/
def execFrameRead (block crcLo crcHi : Byte) (s : State) : Result :=
  runCommand (.frameRead block crcLo crcHi) frameGate (frameReadProg s.cfg block crcLo crcHi) s

/-- FRAME WRITE phase 1 (R323). -/
def execFrameWritePhase1 (block crcLo crcHi : Byte) (s : State) : Result :=
  runCommand (.frameWritePhase1 block crcLo crcHi) frameGate (frameWrite1Prog s.cfg block crcLo crcHi) s

/-- FRAME WRITE phase 2 (R323). -/
def execFrameWritePhase2 (data : List Byte) (crcLo crcHi : Byte) (s : State) : Result :=
  runCommand (.frameWritePhase2 data crcLo crcHi) frameGate (frameWrite2Prog s.cfg data crcLo crcHi) s

end Sys2Proof.Machine
end

