-- ==== Sys2Proof/Machine/Session.lean ====
section
/-! DEFINITION. Card session commands (43_card_session.md, R550 to R562). -/

namespace Sys2Proof.Machine

open Sys2Proof

/-- What one session attempt ends with: the value it found, and the flag of authenticate if that ran (R555). -/
structure Attempt where
  value : Option (BitVec 40 × List Byte)
  warn : Option Bool
  deriving DecidableEq, Repr

/-- An attempt that found nothing before authenticate. -/
def Attempt.nothing : Attempt := ⟨none, none⟩

/-! ## Sub-operations -/

/-- `attempt(body)` (R550): one lock tenure. -/
def attempt {α : Type} (body : Prog α) : Prog α :=
  .acquire (body.bind fun r => .release (.ret r))

/-- `preamble()` (R551): the anti-collision bytes, none when request or anti-collision failed. -/
def preamble (cfg : Config) : Prog (Option (List Byte)) :=
  (request cfg cfg.reqMode).bind fun r =>
  if r.1 ≠ .ok then .ret none
  else (anticollision cfg).bind fun a => .ret (if a.1 ≠ .ok then none else some a.2)

/-- `try_read_identifier()` (R554). -/
def tryReadIdentifier (cfg : Config) : Prog Attempt :=
  (preamble cfg).bind fun p =>
    .ret ⟨p.map fun u => (uidToId cfg.uidToId u, []), none⟩

/-- The part the two sector operations share (R555, R557): preamble, select, authenticate the trailer block with
`AUTH_MODE` and `KEY`, then `body`; once authenticate was issued every exit runs `stop_crypto1()` (R556). -/
def sectorAttempt (cfg : Config) (n : Byte) (body : Prog (Option (List Byte))) : Prog Attempt :=
  (preamble cfg).bind fun p =>
  match p with
  | none => .ret Attempt.nothing
  | some u =>
    (selectTag cfg u).bind fun sel =>
    match sel with
    | none => .ret Attempt.nothing
    | some _ =>
      (authenticate cfg cfg.authMode n cfg.key.toList u).bind fun a =>
      if a.1 ≠ .ok then (stopCrypto cfg).seq (.ret ⟨none, some a.2⟩)
      else
        body.bind fun r =>
        (stopCrypto cfg).seq <|
        .ret ⟨r.map fun d => (uidToId cfg.uidToId u, d), some a.2⟩

/-- Read the listed blocks in order and join their bytes; stop at the first that fails (R555, R559). -/
def readBlocks (cfg : Config) (blocks : List Byte) : Prog (Option (List Byte)) :=
  match blocks with
  | [] => .ret (some [])
  | blk :: rest =>
    (readBlock cfg blk).bind fun r =>
    match r with
    | none => .ret none
    | some d => (readBlocks cfg rest).bind fun ds => .ret (ds.map (d ++ ·))

/-- `try_read_sector(n)` (R555). -/
def tryReadSector (cfg : Config) (n : Byte) : Prog Attempt :=
  sectorAttempt cfg n (readBlocks cfg (dataBlocks n))

/-- Write the listed (block, 16 bytes) pairs in order; stop at the first that fails (R557, R559). -/
def writeBlocks (cfg : Config) (parts : List (Byte × List Byte)) : Prog Bool :=
  match parts with
  | [] => .ret true
  | part :: rest =>
    (writeBlock cfg part.1 part.2).bind fun st =>
    if st ≠ .ok then .ret false else writeBlocks cfg rest

/-- The three blocks of a sector write with their bytes (R557, R558). -/
def sectorParts (cfg : Config) (t : List Byte) (n : Byte) : List (Byte × List Byte) :=
  let d := sectorPayload cfg.padByte t
  [(n - 3, payloadBlock d 0), (n - 2, payloadBlock d 1), (n - 1, payloadBlock d 2)]

/-- `try_write_sector(t, n)` (R557); its data is the text accepted. -/
def tryWriteSector (cfg : Config) (t : List Byte) (n : Byte) : Prog Attempt :=
  sectorAttempt cfg n <|
    (writeBlocks cfg (sectorParts cfg t n)).bind fun ok =>
      .ret (if ok = true then some (acceptedText t) else none)

/-! ## Results -/

/-- The result of an identifier command that found `v` (R554, R560). -/
def idRes (v : BitVec 40 × List Byte) (_ : Option Bool) : Res :=
  { Res.ofStatus .ok with id := some v.1 }

/-- The result of a sector command that found `v` (R555, R557, R561, R562). -/
def sectorRes (v : BitVec 40 × List Byte) (warn : Option Bool) : Res :=
  { Res.ofStatus .ok with id := some v.1, data := some v.2, warn := warn }

/-- A one-attempt command (R554, R555, R557): NONE when nothing was found, with `warn` if authenticate ran. -/
def once (body : Prog Attempt) (found : BitVec 40 × List Byte → Option Bool → Res) : Prog CmdEnd :=
  (attempt body).bind fun r =>
    match r.value with
    | some v => .ret (.done (found v r.warn))
    | none => .ret (.done { Res.ofStatus .noValue with warn := r.warn })

/-- One round of the loop of a blocking command (R560): the cancellation point, then one attempt. -/
def blocking (body : Prog Attempt) (found : BitVec 40 × List Byte → Option Bool → Res) : Prog CmdEnd :=
  .suspend fun c =>
    if c = true then .abort
    else
      (attempt body).bind fun r =>
        match r.value with
        | some v => .ret (.done (found v r.warn))
        | none => .ret .again

/-! ## Programs of the commands -/

/-- TRY_READ_ID (R554). -/
def tryReadIdProg (cfg : Config) : Prog CmdEnd := once (tryReadIdentifier cfg) idRes

/-- TRY_READ_SECTOR (R555). -/
def tryReadSectorProg (cfg : Config) (n : Byte) : Prog CmdEnd := once (tryReadSector cfg n) sectorRes

/-- TRY_WRITE_SECTOR (R557). -/
def tryWriteSectorProg (cfg : Config) (t : List Byte) (n : Byte) : Prog CmdEnd :=
  once (tryWriteSector cfg t n) sectorRes

/-- READ_ID (R560), one round. -/
def readIdProg (cfg : Config) : Prog CmdEnd := blocking (tryReadIdentifier cfg) idRes

/-- READ_SECTOR (R561), one round. -/
def readSectorProg (cfg : Config) (n : Byte) : Prog CmdEnd := blocking (tryReadSector cfg n) sectorRes

/-- WRITE_SECTOR (R562), one round. -/
def writeSectorProg (cfg : Config) (t : List Byte) (n : Byte) : Prog CmdEnd :=
  blocking (tryWriteSector cfg t n) sectorRes

/-- The checks of the sector commands (R553, R712). -/
def trailerGate (n : Byte) : Gate := Gate.session (check (trailerOk n) .badTrailer)

/-! ## Meanings -/

/-- TRY_READ_ID (R554): one attempt to read a card's identifier. -/
def execTryReadId (s : State) : Result :=
  runCommand .tryReadId (Gate.session none) (tryReadIdProg s.cfg) s

/-- TRY_READ_SECTOR (R555): one attempt to read the three data blocks of a sector. -/
def execTryReadSector (trailer : Byte) (s : State) : Result :=
  runCommand (.tryReadSector trailer) (trailerGate trailer) (tryReadSectorProg s.cfg trailer) s

/-- TRY_WRITE_SECTOR (R557): one attempt to write text into the three data blocks of a sector. -/
def execTryWriteSector (text : List Byte) (trailer : Byte) (s : State) : Result :=
  runCommand (.tryWriteSector text trailer) (trailerGate trailer) (tryWriteSectorProg s.cfg text trailer) s

/-- READ_ID (R560): read an identifier, retrying until a card answers. -/
def execReadId (s : State) : Result :=
  runCommand .readId (Gate.session none) (readIdProg s.cfg) s

/-- READ_SECTOR (R561): read a sector, retrying until it succeeds. -/
def execReadSector (trailer : Byte) (s : State) : Result :=
  runCommand (.readSector trailer) (trailerGate trailer) (readSectorProg s.cfg trailer) s

/-- WRITE_SECTOR (R562): write a sector, retrying until it succeeds. -/
def execWriteSector (text : List Byte) (trailer : Byte) (s : State) : Result :=
  runCommand (.writeSector text trailer) (trailerGate trailer) (writeSectorProg s.cfg text trailer) s

end Sys2Proof.Machine
end

