-- ==== Sys2Proof/Machine/Dispatch.lean ====
section
/-! DEFINITION. The dispatch of an instruction to its meaning, one arm per constructor. -/

namespace Sys2Proof.Machine

open Sys2Proof

def exec (i : Instr) (s : State) : Host.Outcome State Fault Refusal :=
  match i with
  | .init => Sys2Proof.Machine.execInit s
  | .acquire => Sys2Proof.Machine.execAcquire s
  | .release => Sys2Proof.Machine.execRelease s
  | .regRead addr => Sys2Proof.Machine.execRegRead addr s
  | .regWrite addr value => Sys2Proof.Machine.execRegWrite addr value s
  | .setBits addr mask => Sys2Proof.Machine.execSetBits addr mask s
  | .clearBits addr mask => Sys2Proof.Machine.execClearBits addr mask s
  | .chipReset => Sys2Proof.Machine.execChipReset s
  | .antennaOn => Sys2Proof.Machine.execAntennaOn s
  | .toCard cmd data => Sys2Proof.Machine.execToCard cmd data s
  | .calcCrc data => Sys2Proof.Machine.execCalcCrc data s
  | .request mode => Sys2Proof.Machine.execRequest mode s
  | .anticoll => Sys2Proof.Machine.execAnticoll s
  | .select uid => Sys2Proof.Machine.execSelect uid s
  | .auth mode block key uid => Sys2Proof.Machine.execAuth mode block key uid s
  | .stopCrypto => Sys2Proof.Machine.execStopCrypto s
  | .readBlock block => Sys2Proof.Machine.execReadBlock block s
  | .writeBlock block data => Sys2Proof.Machine.execWriteBlock block data s
  | .tryReadId => Sys2Proof.Machine.execTryReadId s
  | .tryReadSector trailer => Sys2Proof.Machine.execTryReadSector trailer s
  | .tryWriteSector text trailer => Sys2Proof.Machine.execTryWriteSector text trailer s
  | .readId => Sys2Proof.Machine.execReadId s
  | .readSector trailer => Sys2Proof.Machine.execReadSector trailer s
  | .writeSector text trailer => Sys2Proof.Machine.execWriteSector text trailer s
  | .encoderEdgeClk now clk dt btn => Sys2Proof.Machine.execEncoderEdgeClk now clk dt btn s
  | .encoderEdgeDt now clk dt btn => Sys2Proof.Machine.execEncoderEdgeDt now clk dt btn s
  | .buttonEdge now clk dt btn => Sys2Proof.Machine.execButtonEdge now clk dt btn s
  | .qsumNop0000 => Sys2Proof.Machine.execQsum0000 s
  | .qsumCcw0001 => Sys2Proof.Machine.execQsum0001 s
  | .qsumCw0010 => Sys2Proof.Machine.execQsum0010 s
  | .qsumNop0011 => Sys2Proof.Machine.execQsum0011 s
  | .qsumCw0100 => Sys2Proof.Machine.execQsum0100 s
  | .qsumNop0101 => Sys2Proof.Machine.execQsum0101 s
  | .qsumNop0110 => Sys2Proof.Machine.execQsum0110 s
  | .qsumCcw0111 => Sys2Proof.Machine.execQsum0111 s
  | .qsumCcw1000 => Sys2Proof.Machine.execQsum1000 s
  | .qsumNop1001 => Sys2Proof.Machine.execQsum1001 s
  | .qsumNop1010 => Sys2Proof.Machine.execQsum1010 s
  | .qsumCw1011 => Sys2Proof.Machine.execQsum1011 s
  | .qsumNop1100 => Sys2Proof.Machine.execQsum1100 s
  | .qsumCw1101 => Sys2Proof.Machine.execQsum1101 s
  | .qsumCcw1110 => Sys2Proof.Machine.execQsum1110 s
  | .qsumNop1111 => Sys2Proof.Machine.execQsum1111 s
  | .txaddrRead addr => Sys2Proof.Machine.execTxaddrRead addr s
  | .txaddrWrite addr value => Sys2Proof.Machine.execTxaddrWrite addr value s
  | .frameRequest mode => Sys2Proof.Machine.execFrameRequest mode s
  | .frameAnticoll => Sys2Proof.Machine.execFrameAnticoll s
  | .frameSelect uid crcLo crcHi => Sys2Proof.Machine.execFrameSelect uid crcLo crcHi s
  | .frameAuth mode block key uid => Sys2Proof.Machine.execFrameAuth mode block key uid s
  | .frameRead block crcLo crcHi => Sys2Proof.Machine.execFrameRead block crcLo crcHi s
  | .frameWritePhase1 block crcLo crcHi => Sys2Proof.Machine.execFrameWritePhase1 block crcLo crcHi s
  | .frameWritePhase2 data crcLo crcHi => Sys2Proof.Machine.execFrameWritePhase2 data crcLo crcHi s

end Sys2Proof.Machine
end

