-- ==== Sys2Proof/Machine/Turns.lean ====
section
/-! DEFINITION. What each agent does in its turn (R6, R740), and how a word of the opcode table is set where the
machine takes its next instruction from. -/

namespace Sys2Proof.Machine

open Sys2Proof

/-- The moving station takes its agent's turn: `sel` and `quantum` are set from the turn. -/
def State.select (t : Turn) (s : State) : State := { s with sel := t.station, quantum := t.quantum }

/-- The host presents its next command (R312): only an IDLE station accepts, otherwise there is no move and the
command stays with the host. A reserved opcode ends ILLEGAL (R713); a record that is no HCMD encoding is refused
(R716). -/
def hostTurn (st : Station) (s : State) : Result :=
  match st.phase, st.hostQ with
  | .idle, bytes :: rest =>
    let s := s.modifyHere fun st => { st with hostQ := rest }
    match decodeHcmd bytes with
    | .ok i => exec i s
    | .error (.reservedOpcode op) => .next (s.illegal op bytes.tail)
    | .error _ => .refused .malformedCommand
  | _, _ => .next s

/-- The card engine goes on with the running command `cur` (R120, R122). -/
def cpeTurn (st : Station) (s : State) : Result :=
  match st.phase with
  | .busy =>
    match st.cur with
    | some (.known i) => exec i s
    | some (.reserved op operands) => .next (s.illegal op operands)
    | none => .fault (.absentField "cur")
  | .idle | .dead => .next s

/-- The environment's next edge is handled (R320, R610). A held edge stays (R609). -/
def edgeTurn (st : Station) (s : State) : Result :=
  match st.edgeQ with
  | [] => .next s
  | e :: rest =>
    match decodeInev e with
    | .ok i =>
      if holdsInput s.cfg s.sel i st = true ∧ st.phase ≠ .dead ∧ st.tooEarly e.now = false then .next s
      else exec i (s.modifyHere fun st => { st with edgeQ := rest })
    | .error _ => .refused .reservedLine

/-- The station can take a code word set directly at its unit: an exchange needs the engine IDLE, a transition code
room in the event stream (a DEAD station ignores it). -/
def probeReady (cfg : Config) (p : Nat) (c : InnerCode) (st : Station) : Bool :=
  match c with
  | .frame _ => st.phase == .idle
  | .qsum sum => st.phase == .dead || !st.blocked cfg (Station.transition cfg p sum)
  | .txaddr _ _ => true

/-- A code word of an internal format is handled at its unit (A15). -/
def probeTurn (st : Station) (s : State) : Result :=
  match st.probeQ with
  | [] => .next s
  | c :: rest =>
    match decode c.code with
    | .ok i =>
      if probeReady s.cfg s.sel c st = true then exec i (s.modifyHere fun st => { st with probeQ := rest })
      else .next s
    | .error _ => .refused .badCodeWord

/-- A cancel pulse: latched only while BUSY (R662). -/
def cancelTurn (st : Station) (s : State) : Result :=
  if st.phase = .busy then .next (s.modifyHere fun st => { st with cancelReq := true }) else .next s

/-- The host reads one field of the result: nothing changes, and an absent field faults (R124, R740). While a command
runs there is no result to read and the host waits. -/
def readResultTurn (f : ResField) (st : Station) (s : State) : Result :=
  if st.phase = .busy then .next s
  else if st.res.has f = true then .next s
  else .fault (.absentField f.name)

/-- The host supplies hw_ok; it may not change it while INIT runs (R740). -/
def hwOkTurn (b : Bool) (st : Station) (s : State) : Result :=
  if st.phase = .busy ∧ st.cur = some (.known .init) ∧ b ≠ st.hwOk then .refused .hwOkDuringInit
  else .next (s.modifyHere fun st => { st with hwOk := b })

/-- One turn. A turn of a station that does not exist has no move. -/
def takeTurn (t : Turn) (s : State) : Result :=
  match s.stations[t.station]? with
  | none => .next s
  | some st =>
    match t with
    | .host _ _ => hostTurn st (s.select t)
    | .cpe _ _ => cpeTurn st (s.select t)
    | .edge _ => edgeTurn st (s.select t)
    | .probe _ _ => probeTurn st (s.select t)
    | .cancel _ => cancelTurn st (s.select t)
    | .consume _ => .next ((s.select t).modifyHere fun st => { st with events := st.events.tail })
    | .readResult _ f => readResultTurn f st (s.select t)
    | .supplyHwOk _ b => hwOkTurn b st (s.select t)

/-- Who moves next, and the state with that choice used up: the first listed turn, or, when none is listed, one atomic
step of the card engine the free value names (R656, R721). -/
def nextTurn (s : State) : Turn × State :=
  match s.turns with
  | t :: rest => (t, { s with turns := rest })
  | [] => (.cpe (Config.freeNat s.draws % s.stations.length) 1, { s with draws := s.draws + 1 })

/-- Set one code word where the next turn takes it from, at station 0 (A19). A register transaction or a frame reaches
its unit only from the station that owns the bus (R651), so for these two station 0 is given the lock. -/
def State.place (c : Code) (s : State) : State :=
  match c with
  | .hcmd bytes =>
    { s with
      turns := .host 0 2 :: s.turns
      stations := s.stations.modify 0 fun st => { st with hostQ := bytes :: st.hostQ } }
  | .inev e =>
    { s with
      turns := .edge 0 :: s.turns
      stations := s.stations.modify 0 fun st => { st with edgeQ := e :: st.edgeQ } }
  | .qsum sum =>
    { s with
      turns := .probe 0 0 :: s.turns
      stations := s.stations.modify 0 fun st => { st with probeQ := .qsum sum :: st.probeQ } }
  | .txaddr b0 b1 =>
    { s with
      turns := .probe 0 1 :: s.turns
      lockOwner := some 0
      stations := s.stations.modify 0 fun st => { st with probeQ := .txaddr b0 b1 :: st.probeQ } }
  | .frame m =>
    { s with
      turns := .probe 0 2 :: s.turns
      lockOwner := some 0
      stations := s.stations.modify 0 fun st => { st with probeQ := .frame m :: st.probeQ } }

end Sys2Proof.Machine
end

