-- ==== Sys2Proof/Machine/Step.lean ====
section
/-! DEFINITION. One step of the machine: the turn that is next is taken (R6, R721). -/

namespace Sys2Proof.Machine

open Sys2Proof

/-- One step. -/
def step (s : State) : Host.Outcome State Fault Refusal :=
  takeTurn (nextTurn s).1 (nextTurn s).2

/-- The state with a word of the opcode table set as the very next instruction (A19). -/
def State.withFetchWord (s : State) (nbits w : Nat) : State :=
  match tableCode nbits w with
  | some c => s.place c
  | none => s

end Sys2Proof.Machine
end

