-- ==== Sys2Proof/Safety.lean ====
section
/-! DEFINITION. The terms in which claims about the machine are stated: the table of commands with their acceptance
checks and programs, the undisturbed run of a program, what the chip answers in one exchange or CRC (the scripts of
R451 to R454 and R460) with the bus records that belong to it, the state a completed command leaves, and the
invariant of the machine. -/

namespace Sys2Proof.Machine

open Sys2Proof

/-! ## The table of commands -/

/-- The acceptance checks of the host commands, from the "lock needed" column of R311 and the operand checks of R712;
none for an instruction that is no host command. -/
def hostGate (cfg : Config) (i : Instr) : Option Gate :=
  match i with
  | .init => some ⟨.forbidden, .notHeld, none⟩
  | .acquire => some ⟨.any, .notHeld, none⟩
  | .release => some ⟨.any, .held, none⟩
  | .regRead a | .regWrite a _ | .setBits a _ | .clearBits a _ =>
    some ⟨.required, .held, if a.toNat ≤ 0x3F then none else some .badReg⟩
  | .chipReset | .antennaOn => some ⟨.required, .held, none⟩
  | .toCard _ d | .calcCrc d =>
    some ⟨.required, .held, if d.length ≤ cfg.fifoDepth then none else some .badLen⟩
  | .request _ | .anticoll | .select _ | .auth _ _ _ _ | .stopCrypto | .readBlock _ =>
    some ⟨.required, .held, none⟩
  | .writeBlock _ d => some ⟨.required, .held, if d.length = 16 then none else some .badLen⟩
  | .tryReadId | .readId => some ⟨.required, .notHeld, none⟩
  | .tryReadSector n | .tryWriteSector _ n | .readSector n | .writeSector _ n =>
    some ⟨.required, .notHeld, if (n.toNat + 1) % 4 = 0 then none else some .badTrailer⟩
  | _ => none

/-- The program of every instruction the card engine runs: the host commands and the FRAME rows. -/
def programOf (cfg : Config) (i : Instr) : Option (Prog CmdEnd) :=
  match i with
  | .init => some (initProg cfg)
  | .acquire => some acquireProg
  | .release => some releaseProg
  | .regRead a => some (regReadProg a)
  | .regWrite a v => some (regWriteProg a v)
  | .setBits a m => some (setBitsProg a m)
  | .clearBits a m => some (clearBitsProg a m)
  | .chipReset => some (chipResetProg cfg)
  | .antennaOn => some (antennaOnProg cfg)
  | .toCard c d => some (toCardProg cfg c d)
  | .calcCrc d => some (calcCrcProg cfg d)
  | .request m => some (requestProg cfg m)
  | .anticoll => some (anticollProg cfg)
  | .select u => some (selectProg cfg u)
  | .auth m b k u => some (authProg cfg m b k u)
  | .stopCrypto => some (stopCryptoProg cfg)
  | .readBlock b => some (readBlockProg cfg b)
  | .writeBlock b d => some (writeBlockProg cfg b d)
  | .tryReadId => some (tryReadIdProg cfg)
  | .tryReadSector n => some (tryReadSectorProg cfg n)
  | .tryWriteSector t n => some (tryWriteSectorProg cfg t n)
  | .readId => some (readIdProg cfg)
  | .readSector n => some (readSectorProg cfg n)
  | .writeSector t n => some (writeSectorProg cfg t n)
  | .frameRequest m => some (frameRequestProg cfg m)
  | .frameAnticoll => some (frameAnticollProg cfg)
  | .frameSelect u lo hi => some (frameSelectProg cfg u lo hi)
  | .frameAuth m b k u => some (frameAuthProg cfg m b k u)
  | .frameRead b lo hi => some (frameReadProg cfg b lo hi)
  | .frameWritePhase1 b lo hi => some (frameWrite1Prog cfg b lo hi)
  | .frameWritePhase2 d lo hi => some (frameWrite2Prog cfg d lo hi)
  | _ => none

/-- The blocking session commands, whose program is one round of a loop (R560 to R562). -/
def isBlocking : Instr → Bool
  | .readId | .readSector _ | .writeSector _ _ => true
  | _ => false

/-- The instructions that run `authenticate` (R504, R555, R557). -/
def runsAuthenticate : Instr → Bool
  | .auth _ _ _ _ | .tryReadSector _ | .tryWriteSector _ _ | .readSector _ | .writeSector _ _ => true
  | _ => false

/-- The instructions that take or give back the lock when they are not cancelled: INIT, ACQUIRE, RELEASE and the session
commands (R652). -/
def usesLock : Instr → Bool
  | .init | .acquire | .release | .tryReadId | .tryReadSector _ | .tryWriteSector _ _ | .readId | .readSector _
  | .writeSector _ _ => true
  | _ => false

/-- The rows of R831: the most transactions a command issues, with INIT for any INIT_WRITES. -/
def transactionBound (cfg : Config) (i : Instr) : Option Nat :=
  match i with
  | .init => some (cfg.initWrites.length + 4)
  | .regRead _ | .regWrite _ _ | .chipReset => some 1
  | .setBits _ _ | .clearBits _ _ | .stopCrypto => some 2
  | .antennaOn => some 3
  | .toCard c d => some (if c = cfg.cmdTransceive then 40 + d.length else 20 + d.length)
  | .calcCrc d => some (7 + d.length + 256)
  | .request _ => some 42
  | .anticoll => some 43
  | .select _ => some 319
  | .auth _ _ _ _ => some 33
  | .readBlock _ => some 309
  | .writeBlock _ _ => some 646
  | _ => none

/-- How many bus transactions a program has issued when its requests so far got the answers listed. -/
def Prog.issued {α : Type} (prog : Prog α) (answers : List Byte) : Nat :=
  match answers with
  | [] => 0
  | b :: rest =>
    match prog with
    | .ret _ | .abort => 0
    | .rd _ k => (k b).issued rest + 1
    | .wr _ _ k => k.issued rest + 1
    | .suspend k => (k (b != 0)).issued rest
    | .acquire k => k.issued rest
    | .release k => k.issued rest
    | .sampleHw k => (k (b != 0)).issued rest
    | .put _ k => k.issued rest

/-- How many transactions the command of program `prog` at the station has issued: none before it is accepted. -/
def Station.issued (prog : Prog CmdEnd) (st : Station) : Nat :=
  if st.phase = .busy then prog.issued st.pos else 0

/-! ## Undisturbed runs -/

/-- What an undisturbed run of a program does: its value, the bus records and block register writes it makes, how many
atomic steps it takes, whether the station holds the lock afterwards, and the chip answers left. -/
structure Run (α : Type) where
  value : α
  txns : List Txn
  writes : List RegWrite
  steps : Nat
  owns : Bool
  rest : List Byte

/-- One atomic step in front of a run. -/
def Run.after {α : Type} (txns : List Txn) (writes : List RegWrite) (u : Run α) : Run α :=
  { u with txns := txns ++ u.txns, writes := writes ++ u.writes, steps := u.steps + 1 }

/-- The run of a program at station `p` that holds the lock or not (`owns`), with the chip's answers listed, no cancel
latched, the hw_ok input at `hw` and the lock free when it is taken. None: it ends in abort, lacks an answer, or breaks
the lock discipline of R651 and R652. -/
def Prog.run {α : Type} (p : Nat) (hw : Bool) (prog : Prog α) (owns : Bool) (chip : List Byte) : Option (Run α) :=
  match prog with
  | .ret a => some ⟨a, [], [], 0, owns, chip⟩
  | .abort => none
  | .rd a k =>
    match owns, chip with
    | true, b :: rest => ((k b).run p hw true rest).map (Run.after [⟨p, .rd, a, b⟩] [])
    | _, _ => none
  | .wr a v k => if owns = true then (k.run p hw true chip).map (Run.after [⟨p, .wr, a, v⟩] []) else none
  | .suspend k => ((k false).run p hw owns chip).map (Run.after [] [])
  | .acquire k => if owns = true then none else (k.run p hw true chip).map (Run.after [] [])
  | .release k => if owns = true then (k.run p hw false chip).map (Run.after [] []) else none
  | .sampleHw k => ((k hw).run p hw owns chip).map (Run.after [] [])
  | .put w k => (k.run p hw owns chip).map (Run.after [] [w])

/-- Block register writes in order. -/
def applyWrites (ws : List RegWrite) (st : Station) : Station :=
  match ws with
  | [] => st
  | w :: rest => applyWrites rest (w.apply st)

/-- The state after command `i` was accepted and ran to its end with result `r`: `txns` appended to the bus trace, the
lock left as `owner`, the block registers of `ws` written, `rest` left of the chip's answers. Everything not named is
as in `s`. -/
def State.completed (i : Instr) (txns : List Txn) (owner : Option Nat) (ws : List RegWrite) (rest : List Byte)
    (r : Res) (s : State) : State :=
  { s with
    trace := s.trace ++ txns
    lockOwner := owner
    stations := s.stations.modify s.sel fun st =>
      { applyWrites ws st with
        cur := some (.known i)
        phase := if r.status = some .hwFail then .dead else .idle
        res := r
        results := st.results ++ [r]
        cancelReq := false
        pos := []
        attempts := 0
        chipQ := rest } }

/-- The state after command `i` was refused at acceptance with sub-code `sub` (R714). -/
def State.refusedWith (i : Instr) (sub : Sub) (s : State) : State :=
  s.modifyHere fun st =>
    { st with
      cur := some (.known i)
      phase := .idle
      res := { Res.absent with status := some .precond, sub := some sub }
      results := st.results ++ [{ Res.absent with status := some .precond, sub := some sub }]
      cancelReq := false
      pos := []
      attempts := 0 }

/-- The state after the moving station's command was cancelled: the lock given back if the station held it, and the
result CANCELLED (R661). -/
def State.cancelled (s : State) : State :=
  { s with
    lockOwner := if s.lockOwner = some s.sel then none else s.lockOwner
    stations := s.stations.modify s.sel fun st =>
      { st with
        phase := .idle
        res := { Res.absent with status := some .cancelled }
        results := st.results ++ [{ Res.absent with status := some .cancelled }]
        cancelReq := false
        pos := []
        attempts := 0 } }

/-- The state after a round of a blocking command that found nothing and is not its last: the loop goes on (R560). -/
def State.nextRound (txns : List Txn) (ws : List RegWrite) (rest : List Byte) (s : State) : State :=
  { s with
    trace := s.trace ++ txns
    lockOwner := none
    stations := s.stations.modify s.sel fun st =>
      { applyWrites ws st with pos := [], attempts := st.attempts + 1, chipQ := rest } }

/-- The moving station is IDLE with no cancel latched, INIT done, the chip's next answers `answers`, then `rest`, and
may take at least `n` atomic steps in this turn. -/
def State.Ready (answers rest : List Byte) (n : Nat) (s : State) : Prop :=
  n ≤ s.quantum ∧
  ∃ st, s.here = some st ∧ st.phase = .idle ∧ st.cancelReq = false ∧ st.inited = true ∧
    st.chipQ = answers ++ rest

/-- The moving station runs command `i` and stands at `pos`, with the cancel latch at `cancel`, the chip's next answers
`answers`, then `rest`, and may take at least `n` atomic steps in this turn. -/
def State.Running (i : Instr) (pos : List Byte) (cancel : Bool) (answers rest : List Byte) (n : Nat)
    (s : State) : Prop :=
  n ≤ s.quantum ∧
  ∃ st, s.here = some st ∧ st.phase = .busy ∧ st.cur = some (.known i) ∧ st.pos = pos ∧ st.cancelReq = cancel ∧
    st.chipQ = answers ++ rest

/-- The moving station holds the lock. -/
def State.Owns (s : State) : Prop := s.lockOwner = some s.sel

/-- At an IDLE station a command that needs INIT and the lock is refused with the first check that fails: NOT_INIT,
then NO_LOCK, then its operand check `operand` (R712, R714). -/
def RefusedUnlessHeld (i : Instr) (operand : Option Sub) (s : State) : Prop :=
  i.wf = true → ∀ st, s.here = some st → st.phase = .idle →
    (st.inited = false → exec i s = .next (s.refusedWith i .notInit)) ∧
    (st.inited = true → ¬ s.Owns → exec i s = .next (s.refusedWith i .noLock)) ∧
    (st.inited = true → s.Owns → ∀ sub, operand = some sub → exec i s = .next (s.refusedWith i sub))

/-- At an IDLE station a command that needs INIT and takes the lock itself is refused with the first check that fails:
NOT_INIT, then LOCK_HELD, then its operand check `operand` (R712, R714). -/
def RefusedIfHeld (i : Instr) (operand : Option Sub) (s : State) : Prop :=
  i.wf = true → ∀ st, s.here = some st → st.phase = .idle →
    (st.inited = false → exec i s = .next (s.refusedWith i .notInit)) ∧
    (st.inited = true → s.Owns → exec i s = .next (s.refusedWith i .lockHeld)) ∧
    (st.inited = true → ¬ s.Owns → ∀ sub, operand = some sub → exec i s = .next (s.refusedWith i sub))

/-! ## Transitions of the decoder -/

/-- The class of a transition code: a step in a direction, or none (the table of R321). -/
def transitionClass (sum : BitVec 4) : Option Direction :=
  match sum with
  | 0b0010#4 | 0b0100#4 | 0b1011#4 | 0b1101#4 => some .cw
  | 0b0001#4 | 0b0111#4 | 0b1000#4 | 0b1110#4 => some .ccw
  | _ => none

/-- Station `p` after transition code `sum` (R603 to R606, R608). -/
def afterTransition (cfg : Config) (p : Nat) (sum : BitVec 4) (st : Station) : Station :=
  match transitionClass sum with
  | none => { st with lastEnc := sum.extractLsb' 0 2 }
  | some .cw =>
    if st.cwCnt = 3 then
      { st with
        lastEnc := sum.extractLsb' 0 2
        cwCnt := 0
        ccwCnt := if cfg.reversalClearsOpposite = true then 0 else st.ccwCnt
        turnCounter := st.turnCounter + 1
        events := st.events ++ [.turn p .cw] }
    else { st with lastEnc := sum.extractLsb' 0 2, cwCnt := st.cwCnt + 1 }
  | some .ccw =>
    if st.ccwCnt = 3 then
      { st with
        lastEnc := sum.extractLsb' 0 2
        ccwCnt := 0
        cwCnt := if cfg.reversalClearsOpposite = true then 0 else st.cwCnt
        turnCounter := st.turnCounter - 1
        events := st.events ++ [.turn p .ccw] }
    else { st with lastEnc := sum.extractLsb' 0 2, ccwCnt := st.ccwCnt + 1 }

/-- The event stream of the station has room for one more event (R117, R609). -/
def Station.Room (cfg : Config) (st : Station) : Prop := ∀ d, cfg.evqDepth = some d → st.events.length < d

/-- The environment keeps its duty: `now` is not below the previous edge's (R600). -/
def Station.InTime (now : Nat) (st : Station) : Prop := ∀ t, st.envNow = some t → t ≤ now

/-- The debounce window of `w` ms after the last accepted edge `last` of a line is over at `now`, or there was no such
edge (R600). -/
def WindowOver (w now : Nat) (last : Option Nat) : Prop := ∀ t, last = some t → w ≤ now - t ∧ t ≤ now

/-! ## Scripts: what the chip answers

A script lists the answers the chip gives to one sub-operation and says how it ends. `Fits` says that the script is a
possible course of the sub-operation; `answers`, `records` and `steps` are what it reads, what it adds to the bus trace
and how many atomic steps it takes. -/

/-- A read record of station `p`. -/
def rdTxn (p : Nat) (a : RegAddr) (v : Byte) : Txn := ⟨p, .rd, a, v⟩

/-- A write record of station `p`. -/
def wrTxn (p : Nat) (a : RegAddr) (v : Byte) : Txn := ⟨p, .wr, a, v⟩

/-- How an exchange that is not cancelled ends (R451 to R454): no poll fires; a poll fires and the error register has a
bit of ERR_MASK set; or a poll fires, the error register is clean, and the reply is read (TRANSCEIVE only). -/
inductive ExchangeEnd where
  | timeout
  | error (fire err : Byte)
  | reply (fire err level control : Byte) (bytes : List Byte)
  deriving DecidableEq, Repr

/-- The chip's answers in one exchange (R451). -/
structure ExchangeScript where
  /-- The interrupt register, read to clear pending flags. -/
  irq : Byte
  /-- The FIFO level register, read to flush. -/
  flush : Byte
  /-- The bit-framing register, read to set START_SEND (TRANSCEIVE only). -/
  framing : Byte
  /-- The polls that fire nothing. -/
  polls : List Byte
  /-- The bit-framing register, read to clear START_SEND. -/
  framing2 : Byte
  ending : ExchangeEnd
  deriving DecidableEq, Repr

/-- The records of `to_card` before the polls (R451 steps 1 to 3). -/
def ExchangeScript.head (cfg : Config) (p : Nat) (c : Byte) (payload : List Byte) (x : ExchangeScript) : List Txn :=
  [wrTxn p cfg.aComIEn ((irqMasks cfg c).1 ||| 0x80),
   rdTxn p cfg.aComIrq x.irq, wrTxn p cfg.aComIrq (x.irq &&& ~~~cfg.clrIrqMask),
   rdTxn p cfg.aFifoLevel x.flush, wrTxn p cfg.aFifoLevel (x.flush ||| cfg.flushBit),
   wrTxn p cfg.aCommand cfg.cmdIdle] ++
  payload.map (wrTxn p cfg.aFifoData) ++
  [wrTxn p cfg.aCommand c] ++
  (if c = cfg.cmdTransceive then
    [rdTxn p cfg.aBitFraming x.framing, wrTxn p cfg.aBitFraming (x.framing ||| cfg.startSend)] else [])

/-- The records of the START_SEND clear (R451 step 5). -/
def ExchangeScript.clear (cfg : Config) (p : Nat) (x : ExchangeScript) : List Txn :=
  [rdTxn p cfg.aBitFraming x.framing2, wrTxn p cfg.aBitFraming (x.framing2 &&& ~~~cfg.startSend)]

/-- The record of the poll that fires. -/
def ExchangeEnd.fireRecords (cfg : Config) (p : Nat) : ExchangeEnd → List Txn
  | .timeout => []
  | .error fire _ | .reply fire _ _ _ _ => [rdTxn p cfg.aComIrq fire]

/-- The records after the START_SEND clear (R453, R454). -/
def ExchangeEnd.tailRecords (cfg : Config) (p : Nat) (c : Byte) : ExchangeEnd → List Txn
  | .timeout => []
  | .error _ err => [rdTxn p cfg.aError err]
  | .reply _ err level control bytes =>
    rdTxn p cfg.aError err ::
      (if c = cfg.cmdTransceive then
        [rdTxn p cfg.aFifoLevel level, rdTxn p cfg.aControl control] ++ bytes.map (rdTxn p cfg.aFifoData)
      else [])

/-- All records of the exchange. -/
def ExchangeScript.records (cfg : Config) (p : Nat) (c : Byte) (payload : List Byte) (x : ExchangeScript) :
    List Txn :=
  x.head cfg p c payload ++ x.polls.map (rdTxn p cfg.aComIrq) ++ x.ending.fireRecords cfg p ++ x.clear cfg p ++
  x.ending.tailRecords cfg p c

/-- The answers up to the polls. -/
def ExchangeScript.headAnswers (cfg : Config) (c : Byte) (x : ExchangeScript) : List Byte :=
  [x.irq, x.flush] ++ (if c = cfg.cmdTransceive then [x.framing] else [])

/-- The answers after the polls that fire nothing. -/
def ExchangeScript.endAnswers (cfg : Config) (c : Byte) (x : ExchangeScript) : List Byte :=
  match x.ending with
  | .timeout => [x.framing2]
  | .error fire err => [fire, x.framing2, err]
  | .reply fire err level control bytes =>
    [fire, x.framing2, err] ++ (if c = cfg.cmdTransceive then [level, control] ++ bytes else [])

/-- The chip's answers, in the order they are read. -/
def ExchangeScript.answers (cfg : Config) (c : Byte) (x : ExchangeScript) : List Byte :=
  x.headAnswers cfg c ++ x.polls ++ x.endAnswers cfg c

/-- The script is a course of an exchange with chip command `c` (R452 to R454): the polls listed fire nothing, a timeout
has MAX_POLLS of them, every other ending fewer; the reply has the bytes that are drained. -/
def ExchangeScript.Fits (cfg : Config) (c : Byte) (x : ExchangeScript) : Prop :=
  (∀ n ∈ x.polls, fires (irqMasks cfg c).2 n = false) ∧
  match x.ending with
  | .timeout => x.polls.length = cfg.maxPolls
  | .error fire err =>
    x.polls.length < cfg.maxPolls ∧ fires (irqMasks cfg c).2 fire = true ∧ err &&& 0x1B ≠ 0
  | .reply fire err level _ bytes =>
    x.polls.length < cfg.maxPolls ∧ fires (irqMasks cfg c).2 fire = true ∧ err &&& 0x1B = 0 ∧
    (c = cfg.cmdTransceive → bytes.length = min level.toNat 16)

/-- What the exchange returns (R451, R453, R454). -/
def ExchangeScript.outcome (cfg : Config) (c : Byte) (x : ExchangeScript) : Exchange :=
  match x.ending with
  | .timeout | .error _ _ => ⟨.error, [], 0⟩
  | .reply fire _ level control bytes =>
    { status := if fire &&& (irqMasks cfg c).1 &&& 0x01 ≠ 0 then .noTag else .ok
      bytes := if c = cfg.cmdTransceive then bytes else []
      bitlen :=
        if c = cfg.cmdTransceive then
          if level = 0 then 0
          else if control &&& cfg.lastBitsMask ≠ 0 then
            (level.toNat - 1) * 8 + (control &&& cfg.lastBitsMask).toNat
          else level.toNat * 8
        else 0 }

/-- The atomic steps of the exchange: its transactions, and the cancellation points between polls (R452). -/
def ExchangeScript.steps (cfg : Config) (c : Byte) (payload : List Byte) (x : ExchangeScript) : Nat :=
  (x.records cfg 0 c payload).length +
  match x.ending with
  | .timeout => x.polls.length - 1
  | _ => x.polls.length

/-- Where the program of the exchange stands when its station may be cancelled after the last of `polls` (R452): the
answers its requests have got, 0 for a request without one (A9). -/
def ExchangeScript.pollPosition (cfg : Config) (c : Byte) (payload : List Byte) (x : ExchangeScript) : List Byte :=
  [0, x.irq, 0, x.flush, 0, 0] ++ List.replicate payload.length 0 ++ [0] ++
  (if c = cfg.cmdTransceive then [x.framing, 0] else []) ++
  x.polls.dropLast.flatMap (fun n => [n, 0]) ++ x.polls.getLast?.toList

/-- Command `i`, when its requests so far got the answers `before`, comes to an exchange with chip command `c` and this
payload (R451). -/
def Exchanges (cfg : Config) (i : Instr) (before : List Byte) (c : Byte) (payload : List Byte) : Prop :=
  ∃ prog rest, programOf cfg i = some prog ∧ prog.resume before = (toCard cfg c payload).bind rest

/-- The chip's answers in one `calculate_crc` (R460). -/
structure CrcScript where
  divIrq : Byte
  flush : Byte
  /-- The polls without the flag. -/
  polls : List Byte
  /-- The poll with the flag set; none when it never sets (R461). -/
  last : Option Byte
  lo : Byte
  hi : Byte
  deriving DecidableEq, Repr

/-- The records of `calculate_crc` (R460). -/
def CrcScript.records (cfg : Config) (p : Nat) (payload : List Byte) (k : CrcScript) : List Txn :=
  [rdTxn p cfg.aDivIrq k.divIrq, wrTxn p cfg.aDivIrq (k.divIrq &&& ~~~cfg.crcDone),
   rdTxn p cfg.aFifoLevel k.flush, wrTxn p cfg.aFifoLevel (k.flush ||| cfg.flushBit)] ++
  payload.map (wrTxn p cfg.aFifoData) ++
  [wrTxn p cfg.aCommand cfg.cmdCalcCrc] ++
  (k.polls ++ k.last.toList).map (rdTxn p cfg.aDivIrq) ++
  [rdTxn p cfg.aCrcL k.lo, rdTxn p cfg.aCrcM k.hi]

/-- The chip's answers, in the order they are read. -/
def CrcScript.answers (k : CrcScript) : List Byte :=
  [k.divIrq, k.flush] ++ k.polls ++ k.last.toList ++ [k.lo, k.hi]

/-- The script is a course of the CRC: 256 polls without the flag (R461), or fewer and then one with it (R460). -/
def CrcScript.Fits (cfg : Config) (k : CrcScript) : Prop :=
  (∀ n ∈ k.polls, n &&& cfg.crcDone = 0) ∧
  match k.last with
  | none => k.polls.length = 256
  | some n => k.polls.length < 256 ∧ n &&& cfg.crcDone ≠ 0

/-- The atomic steps of the CRC: its transactions. -/
def CrcScript.steps (cfg : Config) (payload : List Byte) (k : CrcScript) : Nat :=
  (k.records cfg 0 payload).length

/-- The answers the requests of the CRC have got at its end, 0 for a request without one (A9). -/
def CrcScript.position (payload : List Byte) (k : CrcScript) : List Byte :=
  [k.divIrq, 0, k.flush, 0] ++ List.replicate payload.length 0 ++ [0] ++ k.polls ++ k.last.toList ++ [k.lo, k.hi]

/-- The CRC bytes `[lo, hi]` (R215). -/
def CrcScript.crc (k : CrcScript) : List Byte := [k.lo, k.hi]

/-- A CRC and the exchange that sends it: SELECT, READ and each phase of WRITE (R502, R506, R507). -/
structure FrameScript where
  crc : CrcScript
  ex : ExchangeScript
  deriving DecidableEq, Repr

/-- The records of a frame `f` with its CRC, sent by TRANSCEIVE. -/
def FrameScript.records (cfg : Config) (p : Nat) (f : List Byte) (x : FrameScript) : List Txn :=
  x.crc.records cfg p f ++ x.ex.records cfg p cfg.cmdTransceive (f ++ x.crc.crc)

/-- The answers of a frame with its CRC. -/
def FrameScript.answers (cfg : Config) (x : FrameScript) : List Byte :=
  x.crc.answers ++ x.ex.answers cfg cfg.cmdTransceive

/-- Both parts are courses. -/
def FrameScript.Fits (cfg : Config) (x : FrameScript) : Prop :=
  x.crc.Fits cfg ∧ x.ex.Fits cfg cfg.cmdTransceive

/-- What the exchange returns. -/
def FrameScript.outcome (cfg : Config) (x : FrameScript) : Exchange := x.ex.outcome cfg cfg.cmdTransceive

/-- The atomic steps of a frame `f` with its CRC. -/
def FrameScript.steps (cfg : Config) (f : List Byte) (x : FrameScript) : Nat :=
  x.crc.steps cfg f + x.ex.steps cfg cfg.cmdTransceive (f ++ x.crc.crc)

/-- The records of REQUEST: the bit framing write, then the exchange (R500). -/
def requestRecords (cfg : Config) (p : Nat) (mode : Byte) (x : ExchangeScript) : List Txn :=
  wrTxn p cfg.aBitFraming 0x07 :: x.records cfg p cfg.cmdTransceive [mode]

/-- The records of ANTICOLL (R501). -/
def anticollRecords (cfg : Config) (p : Nat) (x : ExchangeScript) : List Txn :=
  wrTxn p cfg.aBitFraming 0x00 :: x.records cfg p cfg.cmdTransceive [0x93, 0x20]

/-- The success condition of REQUEST (R500). -/
def Exchange.isAnswer (x : Exchange) : Prop := x.status = .ok ∧ x.bitlen = 16

/-- The success condition of ANTICOLL: five bytes with a valid check byte (R501). -/
def Exchange.isUid (x : Exchange) : Prop :=
  x.status = .ok ∧ ∃ a b c d, x.bytes = [a, b, c, d, a ^^^ b ^^^ c ^^^ d]

/-- The success condition of SELECT (R502). -/
def Exchange.isSelected (x : Exchange) : Prop := x.status = .ok ∧ x.bitlen = 24

/-- The success condition of READ (R506). -/
def Exchange.isBlock (x : Exchange) : Prop := x.status = .ok ∧ x.bytes.length = 16

/-- The success condition of both phases of WRITE (R508). -/
def Exchange.isAck (x : Exchange) : Prop :=
  x.status = .ok ∧ x.bitlen = 4 ∧ ∃ b, x.bytes.head? = some b ∧ b &&& 0x0F = 0x0A

/-- What a FRAME row leaves for its exchange `x`, where `ok` says that the expected reply came (R323): the exchange's
bytes and bit length, and OK exactly when `ok`. The other statuses are the model's choice (A17). -/
def FrameResult (ok : Prop) (x : Exchange) (r : Res) : Prop :=
  (∃ status, r = { Res.absent with
    status := some status, data := some x.bytes, bitlen := some (BitVec.ofNat 12 x.bitlen) }) ∧
  (r.status = some .ok ↔ ok) ∧
  r.status ≠ some .precond ∧ r.status ≠ some .hwFail

/-- The exchanges of `write_block` (R507); the second is run only when the first was acknowledged. -/
structure WriteScript where
  first : FrameScript
  second : Option FrameScript
  deriving DecidableEq, Repr

/-- The records of `write_block(blk, d)`. -/
def WriteScript.records (cfg : Config) (p : Nat) (blk : Byte) (d : List Byte) (x : WriteScript) : List Txn :=
  x.first.records cfg p [0xA0, blk] ++ x.second.toList.flatMap (FrameScript.records cfg p d)

/-- The answers of `write_block`. -/
def WriteScript.answers (cfg : Config) (x : WriteScript) : List Byte :=
  x.first.answers cfg ++ x.second.toList.flatMap (FrameScript.answers cfg)

/-- The script is a course of `write_block`. -/
def WriteScript.Fits (cfg : Config) (x : WriteScript) : Prop :=
  x.first.Fits cfg ∧
  match x.second with
  | none => ¬ (x.first.outcome cfg).isAck
  | some y => (x.first.outcome cfg).isAck ∧ y.Fits cfg

/-- The block was written: both phases acknowledged. -/
def WriteScript.Done (cfg : Config) (x : WriteScript) : Prop :=
  ∃ y, x.second = some y ∧ (y.outcome cfg).isAck

/-- The atomic steps of `write_block`. -/
def WriteScript.steps (cfg : Config) (blk : Byte) (d : List Byte) (x : WriteScript) : Nat :=
  x.first.steps cfg [0xA0, blk] + (x.second.toList.map (FrameScript.steps cfg d)).sum

/-- The exchanges of `preamble()` (R551); anti-collision is run only when the request succeeded. -/
structure CardScript where
  req : ExchangeScript
  anti : Option ExchangeScript
  deriving DecidableEq, Repr

/-- The records of `preamble()`. -/
def CardScript.records (cfg : Config) (p : Nat) (x : CardScript) : List Txn :=
  requestRecords cfg p cfg.reqMode x.req ++ x.anti.toList.flatMap (anticollRecords cfg p)

/-- The answers of `preamble()`. -/
def CardScript.answers (cfg : Config) (x : CardScript) : List Byte :=
  x.req.answers cfg cfg.cmdTransceive ++ x.anti.toList.flatMap (ExchangeScript.answers cfg cfg.cmdTransceive)

/-- The script is a course of `preamble()`. -/
def CardScript.Fits (cfg : Config) (x : CardScript) : Prop :=
  x.req.Fits cfg cfg.cmdTransceive ∧
  match x.anti with
  | none => ¬ (x.req.outcome cfg cfg.cmdTransceive).isAnswer
  | some a => (x.req.outcome cfg cfg.cmdTransceive).isAnswer ∧ a.Fits cfg cfg.cmdTransceive

/-- `preamble()` found the card with UID bytes `u`: both checks passed. -/
def CardScript.Finds (cfg : Config) (u : List Byte) (x : CardScript) : Prop :=
  ∃ a, x.anti = some a ∧ (a.outcome cfg cfg.cmdTransceive).isUid ∧ (a.outcome cfg cfg.cmdTransceive).bytes = u

/-- The atomic steps of `preamble()`. -/
def CardScript.steps (cfg : Config) (x : CardScript) : Nat :=
  x.req.steps cfg cfg.cmdTransceive [cfg.reqMode] + 1 +
  (x.anti.toList.map fun a => a.steps cfg cfg.cmdTransceive [0x93, 0x20] + 1).sum

/-- `authenticate` and the `stop_crypto1()` at the end of a sector attempt (R504, R505, R556). -/
structure AuthScript where
  ex : ExchangeScript
  /-- Status-register-2, read by `authenticate`. -/
  status2 : Byte
  /-- Status-register-2, read by `stop_crypto1()`. -/
  stop : Byte
  deriving DecidableEq, Repr

/-- The crypto bit of status-register-2 was clear after authenticate (R504). -/
def AuthScript.warn (x : AuthScript) : Bool := x.status2 &&& 0x08 == 0

/-- A sector attempt around the block reads or writes (R555, R557): the card, select and authenticate, each run only
when all before succeeded. -/
structure SectorScript where
  card : CardScript
  sel : Option FrameScript
  auth : Option AuthScript
  deriving DecidableEq, Repr

/-- The records of a sector attempt on trailer `n` and the card with UID bytes `u`, with the records `body` of its block
reads or writes. -/
def SectorScript.records (cfg : Config) (p : Nat) (n : Byte) (u : List Byte) (body : List Txn) (x : SectorScript) :
    List Txn :=
  x.card.records cfg p ++ x.sel.toList.flatMap (FrameScript.records cfg p ([0x93, 0x70] ++ u)) ++
  x.auth.toList.flatMap fun a =>
    a.ex.records cfg p cfg.cmdAuthent ([cfg.authMode, n] ++ cfg.key.toList ++ u.take 4) ++
    [rdTxn p cfg.aStatus2 a.status2] ++ body ++
    [rdTxn p cfg.aStatus2 a.stop, wrTxn p cfg.aStatus2 (a.stop &&& ~~~0x08)]

/-- The answers of a sector attempt with the answers `body` of its block reads or writes. -/
def SectorScript.answers (cfg : Config) (body : List Byte) (x : SectorScript) : List Byte :=
  x.card.answers cfg ++ x.sel.toList.flatMap (FrameScript.answers cfg) ++
  x.auth.toList.flatMap fun a => a.ex.answers cfg cfg.cmdAuthent ++ [a.status2] ++ body ++ [a.stop]

/-- The attempt reaches its block reads or writes: authenticate ran and its status is OK. -/
def SectorScript.Opens (cfg : Config) (x : SectorScript) : Prop :=
  ∃ a, x.auth = some a ∧ (a.ex.outcome cfg cfg.cmdAuthent).status = .ok

/-- The script is a course of a sector attempt on the card with UID bytes `u` (arbitrary when none was found). -/
def SectorScript.Fits (cfg : Config) (u : List Byte) (x : SectorScript) : Prop :=
  x.card.Fits cfg ∧
  match x.sel with
  | none => x.auth = none ∧ ∀ v, ¬ x.card.Finds cfg v
  | some f =>
    x.card.Finds cfg u ∧ f.Fits cfg ∧
    match x.auth with
    | none => ¬ (f.outcome cfg).isSelected
    | some a => (f.outcome cfg).isSelected ∧ a.ex.Fits cfg cfg.cmdAuthent

/-- The atomic steps of a sector attempt with `body` steps of block reads or writes. -/
def SectorScript.steps (cfg : Config) (n : Byte) (u : List Byte) (body : Nat) (x : SectorScript) : Nat :=
  x.card.steps cfg + (x.sel.toList.map (FrameScript.steps cfg ([0x93, 0x70] ++ u))).sum +
  (x.auth.toList.map fun a =>
    a.ex.steps cfg cfg.cmdAuthent ([cfg.authMode, n] ++ cfg.key.toList ++ u.take 4) + body +
      if a.warn = true then 5 else 4).sum

/-- The records of the block reads of a sector (R555), one script for each block that is read. -/
def readRecords (cfg : Config) (p : Nat) (blocks : List Byte) (xs : List FrameScript) : List Txn :=
  match blocks, xs with
  | b :: blocks, x :: xs => x.records cfg p [0x30, b] ++ readRecords cfg p blocks xs
  | _, _ => []

/-- The atomic steps of the block reads. -/
def readSteps (cfg : Config) (blocks : List Byte) (xs : List FrameScript) : Nat :=
  match blocks, xs with
  | b :: blocks, x :: xs => x.steps cfg [0x30, b] + readSteps cfg blocks xs
  | _, _ => 0

/-- The scripts are a course of the reads of `n` blocks: it stops at the first that fails (R559). -/
def ReadsFit (cfg : Config) (n : Nat) (xs : List FrameScript) : Prop :=
  match n, xs with
  | 0, xs => xs = []
  | _ + 1, [] => False
  | n + 1, x :: xs =>
    x.Fits cfg ∧ ((x.outcome cfg).isBlock ∧ ReadsFit cfg n xs ∨ ¬ (x.outcome cfg).isBlock ∧ xs = [])

/-- Every block that was read is there. -/
def AllRead (cfg : Config) (xs : List FrameScript) : Prop := ∀ x ∈ xs, (x.outcome cfg).isBlock

/-- The records of the block writes of a sector (R557), one script for each block that is written. -/
def writeRecords (cfg : Config) (p : Nat) (parts : List (Byte × List Byte)) (xs : List WriteScript) : List Txn :=
  match parts, xs with
  | b :: parts, x :: xs => x.records cfg p b.1 b.2 ++ writeRecords cfg p parts xs
  | _, _ => []

/-- The atomic steps of the block writes. -/
def writeSteps (cfg : Config) (parts : List (Byte × List Byte)) (xs : List WriteScript) : Nat :=
  match parts, xs with
  | b :: parts, x :: xs => x.steps cfg b.1 b.2 + writeSteps cfg parts xs
  | _, _ => 0

/-- The scripts are a course of the writes of `n` blocks: it stops at the first that fails (R559). -/
def WritesFit (cfg : Config) (n : Nat) (xs : List WriteScript) : Prop :=
  match n, xs with
  | 0, xs => xs = []
  | _ + 1, [] => False
  | n + 1, x :: xs => x.Fits cfg ∧ (x.Done cfg ∧ WritesFit cfg n xs ∨ ¬ x.Done cfg ∧ xs = [])

/-- Every block was written. -/
def AllWritten (cfg : Config) (xs : List WriteScript) : Prop := ∀ x ∈ xs, x.Done cfg

/-- The block register writes of authenticate (R504). -/
def authWrites (warn : Bool) : List RegWrite :=
  if warn = true then [.authWarn false, .authWarn true] else [.authWarn false]

/-! ## The invariant -/

/-- A program run from here keeps the lock discipline (R651, R652), drives the reset line before it sets `inited` (R802),
and ends with a value and lock state that meet `Q`; `owns` and `rst` say whether the station holds the lock and
drives its reset line to 1. -/
def Prog.Keeps {α : Type} (prog : Prog α) (Q : α → Bool → Bool → Prop) (owns rst : Bool) : Prop :=
  match prog with
  | .ret a => Q a owns rst
  | .abort => True
  | .rd _ k => owns = true ∧ ∀ b, (k b).Keeps Q owns rst
  | .wr _ _ k => owns = true ∧ k.Keeps Q owns rst
  | .suspend k => ∀ c, (k c).Keeps Q owns rst
  | .acquire k => owns = false ∧ k.Keeps Q true rst
  | .release k => owns = true ∧ k.Keeps Q false rst
  | .sampleHw k => ∀ b, (k b).Keeps Q owns rst
  | .put .rstOut k => k.Keeps Q owns true
  | .put .inited k => rst = true ∧ k.Keeps Q owns rst
  | .put (.authWarn _) k => k.Keeps Q owns rst

/-- Command `i` passes the checks of its form and of its operands (R712). -/
def Accepted (cfg : Config) (i : Instr) : Prop := i.wf = true ∧ ∀ g, hostGate cfg i = some g → g.operand = none

/-- A result that a program ends a command with: a status other than PRECOND, no sub-code, at most 48 data bytes
(R124, R330). -/
def Res.Ended (r : Res) : Prop :=
  r.status ≠ none ∧ r.status ≠ some .precond ∧ r.sub = none ∧ ∀ d, r.data = some d → d.length ≤ 48

/-- How a command's program may end: a result, without the lock after HWFAIL (R802), or, for a blocking command
only, another round without the lock (R560). -/
def CmdEnd.Fine (blocking : Bool) (e : CmdEnd) (owns _rst : Bool) : Prop :=
  match e with
  | .done r => r.Ended ∧ (r.status = some .hwFail → owns = false)
  | .again => blocking = true ∧ owns = false

/-- The result record at rest (R124, R330): a sub-code exactly with PRECOND, at most 48 data bytes. -/
def Res.Fine (r : Res) : Prop :=
  (r.sub.isSome = true ↔ r.status = some .precond) ∧ ∀ d, r.data = some d → d.length ≤ 48

/-- The invariant of station `p`. -/
structure Station.Inv (cfg : Config) (lockOwner : Option Nat) (p : Nat) (st : Station) : Prop where
  /-- A cancel is latched only while BUSY (R123, R662). -/
  cancel_busy : st.cancelReq = true → st.phase = .busy
  /-- Outside BUSY there is no position. -/
  at_rest : st.phase ≠ .busy → st.pos = [] ∧ st.attempts = 0
  /-- While BUSY, `cur` is a command that passed its checks and whose program keeps the lock discipline from its place
  on. -/
  running : st.phase = .busy → ∃ i prog, st.cur = some (.known i) ∧ programOf cfg i = some prog ∧ Accepted cfg i ∧
    (prog.resume st.pos).Keeps (CmdEnd.Fine (isBlocking i)) (lockOwner == some p) st.rstOut
  /-- A DEAD station does not hold the lock (R733). -/
  dead_free : st.phase = .dead → lockOwner ≠ some p
  /-- INIT drives the reset line before it completes (R126, R802). -/
  inited_rst : st.inited = true → st.rstOut = true
  /-- Every event carries the station's id (R608). -/
  tagged : ∀ e ∈ st.events, e.station = p
  /-- The event stream keeps its capacity (R117, R609). -/
  bounded : ∀ d, cfg.evqDepth = some d → st.events.length ≤ d
  res_fine : st.res.Fine
  /-- No code word is set directly at an internal unit (A15). -/
  no_probe : st.probeQ = []
  /-- `res` is the record of the last command to end, absent before any (R124, R800). -/
  last_result : st.res = st.results.getLast?.getD Res.absent

/-- The invariant of the machine: there is a station (R8), the lock owner is a station (R130), and every station keeps
its invariant. -/
structure State.Inv (s : State) : Prop where
  inhabited : 0 < s.stations.length
  owner : ∀ p, s.lockOwner = some p → p < s.stations.length
  station : ∀ p st, s.stations[p]? = some st → Station.Inv s.cfg s.lockOwner p st

/-! ## The end of a run (R840) -/

/-- A host program run on the stations `ps` has ended: every command presented has ended, so each of them is IDLE or
DEAD, and the environment presents no further edge to any of them. R840 leaves open whether an edge still to come at
another station counts: DESIGN CHOICE, it does not (A40). -/
def State.RunEnded (ps : List Nat) (s : State) : Prop :=
  ∀ p ∈ ps, ∀ st, s.stations[p]? = some st →
    st.phase ≠ .busy ∧ (st.phase = .idle → st.hostQ = []) ∧ st.edgeQ = []

/-- What is observed at the end: for each station, in the run or not (A40), the `res` of each of its commands in order
(A39) and its event stream, and the bus trace and the lock owner. -/
structure Observation where
  results : List (List Res)
  events : List (List Event)
  trace : List Txn
  lockOwner : Option Nat
  deriving DecidableEq, Repr

/-- The observation of a state. -/
def State.observation (s : State) : Observation :=
  ⟨s.stations.map Station.results, s.stations.map Station.events, s.trace, s.lockOwner⟩

end Sys2Proof.Machine
end

