-- ==== Sys2Proof/Certificates/Slice0/Obligations.lean ====
section
/-! DEFINITION. The statements for the provers, from the numbered rules of spec/. `Sys2Proof.Safety` defines the terms:
`State.Ready` and `State.Running` (where a command starts or goes on), `State.completed` (where it ends), the scripts of
the chip's answers, and the invariant. -/

open Sys2Proof Sys2Proof.Machine

/-! ## Encodings -/

/-- Code words of each format, written out from R311, R320, R321, R322 and R323, decode to the instruction they
encode. -/
def Obligations.SampleWordsDecode : Prop :=
  decode (.hcmd [0x01]) = .ok .init ∧
  decode (.hcmd [0x11, 0x0D, 0x07]) = .ok (.regWrite 0x0D 0x07) ∧
  decode (.hcmd [0x20, 0x0C, 0x93, 0x20]) = .ok (.toCard 0x0C [0x93, 0x20]) ∧
  decode (.hcmd [0x33, 0x60, 7, 1, 2, 3, 4, 5, 6, 0x03, 0xC1, 0x52, 0x1F, 0x8F]) =
    .ok (.auth 0x60 7 [1, 2, 3, 4, 5, 6] [0x03, 0xC1, 0x52, 0x1F, 0x8F]) ∧
  decode (.hcmd [0x4A, 0x58, 11]) = .ok (.writeSector [0x58] 11) ∧
  decode (.inev ⟨0b00, 100, false, true, true⟩) = .ok (.encoderEdgeClk 100 false true true) ∧
  decode (.inev ⟨0b10, 1000, true, true, false⟩) = .ok (.buttonEdge 1000 true true false) ∧
  decode (.inev ⟨0b11, 0, true, true, true⟩) = .error .reservedLine ∧
  decode (.qsum 0b1101) = .ok .qsumCw1101 ∧
  decode (.qsum 0b1110) = .ok .qsumCcw1110 ∧
  decode (.txaddr 0x88 0x00) = .ok (.txaddrRead 0x04) ∧
  decode (.txaddr 0x1A 0x07) = .ok (.txaddrWrite 0x0D 0x07) ∧
  decode (.frame ⟨false, .req, [0x26]⟩) = .ok (.frameRequest 0x26) ∧
  decode (.frame ⟨false, .full, [0x93, 0x20]⟩) = .ok .frameAnticoll ∧
  decode (.frame ⟨true, .unchanged, [0x60, 7, 1, 2, 3, 4, 5, 6, 0x03, 0xC1, 0x52, 0x1F]⟩) =
    .ok (.frameAuth 0x60 7 [1, 2, 3, 4, 5, 6] [0x03, 0xC1, 0x52, 0x1F])

/-- Decoding and encoding are inverse on all five formats: a code word decodes to an instruction exactly when the
instruction is well formed and its encoding is that code word. -/
def Obligations.DecodeIffEncode : Prop :=
  ∀ (c : Code) (i : Instr), decode c = .ok i ↔ i.wf = true ∧ encode i = c

/-- The reserved opcodes are those listed in R350, and no other opcode is answered so. -/
def Obligations.ReservedOpcodes : Prop :=
  ∀ (op : Byte) (bytes : List Byte),
    decode (.hcmd (op :: bytes)) = .error (.reservedOpcode op) ↔
      op = 0x00 ∨ (0x04 ≤ op ∧ op ≤ 0x0F) ∨ (0x16 ≤ op ∧ op ≤ 0x1F) ∨ (0x22 ≤ op ∧ op ≤ 0x2F) ∨
      (0x37 ≤ op ∧ op ≤ 0x3F) ∨ (0x43 ≤ op ∧ op ≤ 0x47) ∨ 0x4B ≤ op

/-- The two bytes of every transaction record: byte 0 is `dir << 7 | addr << 1 | 0`, byte 1 the value of a write or 0x00
for a read (R322, R210, R211), and they decode to the transaction. -/
def Obligations.TransactionBytes : Prop :=
  (∀ (p : Nat) (a : RegAddr) (v : Byte),
    Txn.busBytes ⟨p, .rd, a, v⟩ = [0x80#8 ||| (a.setWidth 8 <<< 1), 0x00] ∧
    Txn.busBytes ⟨p, .wr, a, v⟩ = [a.setWidth 8 <<< 1, v] ∧
    decode (.txaddr (0x80#8 ||| (a.setWidth 8 <<< 1)) 0x00) = .ok (.txaddrRead a) ∧
    decode (.txaddr (a.setWidth 8 <<< 1) v) = .ok (.txaddrWrite a v)) ∧
  (∀ (t : Txn) (b : Byte), t.busBytes.head? = some b → b.getLsbD 0 = false)

/-! ## The step -/

/-- A step runs the decoded instruction: the host's command (R312), the running command (R120, R122), the next edge
(R610), or a code word set at its unit; around exec the step sets whose turn it is and takes the input off its list. -/
def Obligations.StepRunsDecoded : Prop :=
  ∀ (s : State) (st : Station) (p q : Nat) (turns : List Turn) (i : Instr), s.stations[p]? = some st →
    (∀ bytes more, s.turns = .host p q :: turns → st.phase = .idle → st.hostQ = bytes :: more →
      decode (.hcmd bytes) = .ok i →
      step s = exec i { s with
        turns := turns, sel := p, quantum := q
        stations := s.stations.modify p fun st => { st with hostQ := more } }) ∧
    (s.turns = .cpe p q :: turns → st.phase = .busy → st.cur = some (.known i) →
      step s = exec i { s with turns := turns, sel := p, quantum := q }) ∧
    (∀ e more, s.turns = .edge p :: turns → st.edgeQ = e :: more → decode (.inev e) = .ok i →
      (holdsInput s.cfg p i st = false ∨ st.phase = .dead) →
      step s = exec i { s with
        turns := turns, sel := p, quantum := 0
        stations := s.stations.modify p fun st => { st with edgeQ := more } }) ∧
    (∀ c more, s.turns = .probe p q :: turns → st.probeQ = c :: more → decode c.code = .ok i →
      probeReady s.cfg p c st = true →
      step s = exec i { s with
        turns := turns, sel := p, quantum := q
        stations := s.stations.modify p fun st => { st with probeQ := more } })

/-! ## Reset -/

/-- Block reset, for every parameter set and every pair of line levels at every station (R800). -/
def Obligations.ResetValues : Prop :=
  ∀ (cfg : Config) (first : Bool × Bool) (others : List (Bool × Bool)),
    (State.resetWith cfg first others).lockOwner = none ∧
    (State.resetWith cfg first others).trace = [] ∧
    (State.resetWith cfg first others).stations.length = others.length + 1 ∧
    ∀ (p : Nat) (clk dt : Bool), (first :: others)[p]? = some (clk, dt) →
      ∃ st : Station, (State.resetWith cfg first others).stations[p]? = some st ∧
      (cfg.initEncPolicy = .sample → st.lastEnc = BitVec.ofBool clk ++ BitVec.ofBool dt) ∧
      (cfg.initEncPolicy = .zero → st.lastEnc = 0b00) ∧
      st.cwCnt = 0 ∧ st.ccwCnt = 0 ∧ st.turnCounter = 0 ∧
      st.lastAccClk = none ∧ st.lastAccDt = none ∧ st.lastAccBtn = none ∧ st.events = [] ∧
      st.phase = .idle ∧ st.inited = false ∧ st.cancelReq = false ∧ st.authWarn = false ∧ st.rstOut = false ∧
      st.cur = none ∧ st.res = ⟨none, none, none, none, none, none, none⟩

/-- The invariant holds after block reset, for every parameter set and every line levels. -/
def Obligations.ResetInv : Prop :=
  ∀ (cfg : Config) (first : Bool × Bool) (others : List (Bool × Bool)), (State.resetWith cfg first others).Inv

/-! ## The whole machine -/

/-- Every step keeps the invariant. -/
def Obligations.StepKeepsInv : Prop := ∀ s t : State, s.Inv → step s = .next t → t.Inv

/-- A transaction without the lock is the fault of R651, and no step from a state that meets the invariant raises it; nor
does a running command lack its record `cur`. -/
def Obligations.NoOwnershipFault : Prop :=
  (∀ (s : State) (a : RegAddr) (v : Byte), s.lockOwner ≠ some s.sel →
    exec (.txaddrRead a) s = .fault (.busNotOwned s.sel) ∧
    exec (.txaddrWrite a v) s = .fault (.busNotOwned s.sel)) ∧
  (∀ (s : State) (p : Nat), s.Inv → step s ≠ .fault (.busNotOwned p)) ∧
  (∀ s : State, s.Inv → step s ≠ .fault (.absentField "cur"))

/-- No step of a station reads or writes the station state of another station (R100): a step leaves every other station
as it was, and whatever another station's state is, the step goes the same way. -/
def Obligations.StationIsolation : Prop :=
  ∀ (s : State) (p : Nat) (other : Station), p ≠ (nextTurn s).1.station →
    (∀ t, step s = .next t →
      t.stations[p]? = s.stations[p]? ∧
      step { s with stations := s.stations.set p other } = .next { t with stations := t.stations.set p other }) ∧
    (∀ e, step s = .fault e → step { s with stations := s.stations.set p other } = .fault e) ∧
    (∀ e, step s = .refused e → step { s with stations := s.stations.set p other } = .refused e)

/-- No step changes the parameters or the number of stations, and a step only appends to the bus trace, each record it
appends being the moving station's (R131, R220, R230, R733). -/
def Obligations.TraceGrows : Prop :=
  ∀ s t : State, step s = .next t →
    t.cfg = s.cfg ∧ t.stations.length = s.stations.length ∧
    ∃ new, t.trace = s.trace ++ new ∧ ∀ x ∈ new, x.station = (nextTurn s).1.station

/-- While a station holds the lock, no step of another station issues a transaction or takes or frees the lock: the
records of a tenure are contiguous (R231, R652, R664). The lock is only ever given to the station that moves, and only
when it was free, and only its owner's step frees it (R130, R652). -/
def Obligations.TenureExclusive : Prop :=
  ∀ s t : State, step s = .next t →
    (∀ owner, s.lockOwner = some owner → (nextTurn s).1.station ≠ owner →
      t.trace = s.trace ∧ t.lockOwner = some owner) ∧
    (t.lockOwner = s.lockOwner ∨
      (t.lockOwner = some (nextTurn s).1.station ∧ s.lockOwner = none) ∨
      (t.lockOwner = none ∧ s.lockOwner = some (nextTurn s).1.station))

/-- A DEAD station stays DEAD, accepts no command and emits no event (R120, R602, R804). -/
def Obligations.DeadStaysDead : Prop :=
  ∀ (s t : State) (p : Nat) (st : Station), step s = .next t → s.stations[p]? = some st → st.phase = .dead →
    ∃ st', t.stations[p]? = some st' ∧ st'.phase = .dead ∧ st'.cur = st.cur ∧ st'.res = st.res ∧
      st'.results = st.results ∧
      st'.inited = st.inited ∧ (st'.events = st.events ∨ st'.events = st.events.tail)

/-- In one step a station's event stream stays, loses its front event to the consumer, or gets one event of its own at
its end, together with the change of turn_counter that the event stands for (R117, R605, R608). -/
def Obligations.EventStream : Prop :=
  ∀ (s t : State) (p : Nat) (st st' : Station), step s = .next t → s.stations[p]? = some st →
    t.stations[p]? = some st' →
    (st'.events = st.events ∧ st'.turnCounter = st.turnCounter) ∨
    (st'.events = st.events.tail ∧ st'.turnCounter = st.turnCounter) ∨
    (st'.events = st.events ++ [.button p] ∧ st'.turnCounter = st.turnCounter) ∨
    (st'.events = st.events ++ [.turn p .cw] ∧ st'.turnCounter = st.turnCounter + 1) ∨
    (st'.events = st.events ++ [.turn p .ccw] ∧ st'.turnCounter = st.turnCounter - 1)

/-! ## The life of a command -/

/-- A command that passes its checks is accepted: `cur` takes it and the phase is BUSY. At a BUSY or DEAD station a
command that is presented has no move: the step changes no station. A command that ends writes `res`, clears
`cancel_req`, and leaves the phase IDLE, or DEAD after HWFAIL (R312). -/
def Obligations.CommandLife : Prop :=
  (∀ (i : Instr) (g : Gate) (s : State) (st : Station), hostGate s.cfg i = some g → i.wf = true →
    s.here = some st → st.phase = .idle → g.check st.inited (s.lockOwner == some s.sel) = none → s.quantum = 0 →
    exec i s = .next (s.modifyHere fun st =>
      { st with cur := some (.known i), phase := .busy, pos := [], attempts := 0 })) ∧
  (∀ (s : State) (st : Station) (p q : Nat) (turns : List Turn), s.turns = .host p q :: turns →
    s.stations[p]? = some st → st.phase ≠ .idle →
    step s = .next { s with turns := turns, sel := p, quantum := q }) ∧
  (∀ (s : State) (st : Station) (r : Res),
    cpeNode (.ret (.done r)) st s = .next (s.modifyHere fun st =>
      { st with
        res := r
        results := st.results ++ [r]
        cancelReq := false
        phase := if r.status = some .hwFail then .dead else .idle
        pos := []
        attempts := 0 }))

/-- The acceptance checks of every host command are made in the order of R712, the first that fails is the one
reported, and the refusal changes `cur`, `res`, `cancel_req` and the phase only: no transaction, no lock action
(R714). -/
def Obligations.AcceptanceChecks : Prop :=
  ∀ (i : Instr) (g : Gate) (s : State) (st : Station) (sub : Sub), hostGate s.cfg i = some g → i.wf = true →
    s.here = some st → st.phase = .idle →
    (if g.init = .forbidden ∧ st.inited = true then some .alreadyInit
      else if g.init = .required ∧ st.inited = false then some .notInit
      else if g.lock = .held ∧ s.lockOwner ≠ some s.sel then some .noLock
      else if g.lock = .notHeld ∧ s.lockOwner = some s.sel then some .lockHeld
      else g.operand) = some sub →
    exec i s = .next (s.refusedWith i sub)

/-- A command with a reserved opcode, presented to an IDLE station, ends at once with ILLEGAL: it changes `res`, `cur`,
`cancel_req` and the phase only (R713, R714). The result joins the model's own list of results (A39). That `cur` keeps
the record (R703) as its opcode and the bytes after it, uninterpreted, is the model's reading (A22). -/
def Obligations.ReservedOpcodeIllegal : Prop :=
  ∀ (s : State) (st : Station) (p q : Nat) (turns : List Turn) (op : Byte) (bytes : List Byte)
    (more : List (List Byte)),
    s.turns = .host p q :: turns → s.stations[p]? = some st → st.phase = .idle → st.hostQ = (op :: bytes) :: more →
    decode (.hcmd (op :: bytes)) = .error (.reservedOpcode op) →
    step s = .next { s with
      turns := turns, sel := p, quantum := q
      stations := s.stations.modify p fun st =>
        { st with
          hostQ := more
          cur := some (.reserved op bytes)
          res := { Res.absent with status := some .illegal }
          results := st.results ++ [{ Res.absent with status := some .illegal }]
          cancelReq := false
          phase := .idle
          pos := []
          attempts := 0 } }

/-- A command record that is no HCMD encoding is refused: it is not a status (R712, R716). The rules name a key not of 6
bytes and a uid not of 5 bytes, which AUTH and SELECT show. That every record of another length than its opcode's
operands is no encoding, and is refused too, is the model's choice (A21, A37). -/
def Obligations.MalformedRefused : Prop :=
  (∀ (s : State) (st : Station) (p q : Nat) (turns : List Turn) (bytes : List Byte) (more : List (List Byte)),
    s.turns = .host p q :: turns → s.stations[p]? = some st → st.phase = .idle → st.hostQ = bytes :: more →
    (∀ i, decode (.hcmd bytes) ≠ .ok i) → (∀ op, decode (.hcmd bytes) ≠ .error (.reservedOpcode op)) →
    step s = .refused .malformedCommand) ∧
  (∀ uid : List Byte, uid.length ≠ 5 → ∀ i, decode (.hcmd (0x32 :: uid)) ≠ .ok i) ∧
  (∀ rest : List Byte, rest.length ≠ 13 → ∀ i, decode (.hcmd (0x33 :: rest)) ≠ .ok i)

/-- Every command that is no blocking one runs to its end, whatever the chip answers: once it has passed its checks and
the lock is free or its own, some number of atomic steps takes its station out of BUSY (R312, R452). -/
def Obligations.CommandsEnd : Prop :=
  ∀ (i : Instr) (g : Gate) (s : State) (st : Station), hostGate s.cfg i = some g → i.wf = true →
    isBlocking i = false → s.here = some st → st.phase = .idle → (s.lockOwner = none ∨ s.Owns) →
    ∃ (q : Nat) (t : State) (st' : Station), exec i { s with quantum := q } = .next t ∧ t.here = some st' ∧
      st'.phase ≠ .busy

/-! ## INIT and the lock -/

/-- INIT (R802). With hw_ok 0 it ends HWFAIL and the station is DEAD, with no lock action and no transaction. With
hw_ok 1 and the lock free it drives the reset line, takes the lock, writes the reset code and INIT_WRITES, makes sure
the antenna is on, sets `inited` and frees the lock. While another station holds the lock it waits with the reset line
driven; a cancel ends the wait, `inited` staying 0. -/
def Obligations.InitRuns : Prop :=
  (∀ (s : State) (st : Station), s.here = some st → st.phase = .idle → st.inited = false → ¬ s.Owns →
    st.hwOk = false → 2 ≤ s.quantum →
    exec .init s = .next (s.completed .init [] s.lockOwner [] st.chipQ { Res.absent with status := some .hwFail })) ∧
  (∀ (s : State) (st : Station) (v : Byte) (rest : List Byte), s.here = some st → st.phase = .idle →
    st.inited = false → st.cancelReq = false → s.lockOwner = none → st.hwOk = true → st.chipQ = v :: rest →
    v &&& 0x03 = 0x03 → s.cfg.initWrites.length + 8 ≤ s.quantum →
    exec .init s = .next (s.completed .init
      ([wrTxn s.sel s.cfg.aCommand s.cfg.cmdSoftReset] ++
        (s.cfg.initWrites.map fun w => wrTxn s.sel w.1 w.2) ++ [rdTxn s.sel s.cfg.aTxControl v])
      none [.rstOut, .inited] rest { Res.absent with status := some .ok })) ∧
  (∀ (s : State) (st : Station) (v w : Byte) (rest : List Byte), s.here = some st → st.phase = .idle →
    st.inited = false → st.cancelReq = false → s.lockOwner = none → st.hwOk = true → st.chipQ = v :: w :: rest →
    v &&& 0x03 ≠ 0x03 → s.cfg.initWrites.length + 10 ≤ s.quantum →
    exec .init s = .next (s.completed .init
      ([wrTxn s.sel s.cfg.aCommand s.cfg.cmdSoftReset] ++
        (s.cfg.initWrites.map fun w => wrTxn s.sel w.1 w.2) ++
        [rdTxn s.sel s.cfg.aTxControl v, rdTxn s.sel s.cfg.aTxControl w,
         wrTxn s.sel s.cfg.aTxControl (w ||| 0x03)])
      none [.rstOut, .inited] rest { Res.absent with status := some .ok })) ∧
  (∀ (s : State) (st : Station) (owner : Nat), s.here = some st → st.phase = .idle → st.inited = false →
    st.cancelReq = false → s.lockOwner = some owner → owner ≠ s.sel → st.hwOk = true → 2 ≤ s.quantum →
    exec .init s = .next (s.modifyHere fun st =>
      { st with cur := some (.known .init), phase := .busy, pos := [1, 0], attempts := 0, rstOut := true })) ∧
  (∀ (s : State) (rest : List Byte), s.Running .init [1, 0] true [] rest 1 → exec .init s = .next s.cancelled)

/-- ACQUIRE (R653): with the lock free it takes the lock and ends OK; it does not need `inited`. From the station that
holds the lock it ends PRECOND LOCK_HELD. While another station holds it, it waits, and a cancel ends the wait. -/
def Obligations.AcquireRuns : Prop :=
  (∀ (s : State) (st : Station), s.here = some st → st.phase = .idle → st.cancelReq = false → s.lockOwner = none →
    2 ≤ s.quantum →
    exec .acquire s = .next (s.completed .acquire [] (some s.sel) [] st.chipQ
      { Res.absent with status := some .ok })) ∧
  (∀ (s : State) (st : Station), s.here = some st → st.phase = .idle → s.Owns →
    exec .acquire s = .next (s.refusedWith .acquire .lockHeld)) ∧
  (∀ (s : State) (st : Station) (owner : Nat), s.here = some st → st.phase = .idle → st.cancelReq = false →
    s.lockOwner = some owner → owner ≠ s.sel →
    exec .acquire s = .next (s.modifyHere fun st =>
      { st with cur := some (.known .acquire), phase := .busy, pos := [], attempts := 0 })) ∧
  (∀ (s : State) (rest : List Byte) (owner : Nat), s.Running .acquire [] false [] rest 0 →
    s.lockOwner = some owner → exec .acquire s = .next s) ∧
  (∀ (s : State) (rest : List Byte), s.Running .acquire [] true [] rest 1 → exec .acquire s = .next s.cancelled)

/-- RELEASE (R654): from the station that holds the lock it frees it and ends OK; from any other it ends PRECOND NO_LOCK
and frees no lock. It does not need `inited`. -/
def Obligations.ReleaseRuns : Prop :=
  (∀ (s : State) (st : Station), s.here = some st → st.phase = .idle → s.Owns → 2 ≤ s.quantum →
    exec .release s = .next (s.completed .release [] none [] st.chipQ { Res.absent with status := some .ok })) ∧
  (∀ (s : State) (st : Station), s.here = some st → st.phase = .idle → ¬ s.Owns →
    exec .release s = .next (s.refusedWith .release .noLock))

/-- A session command or ACQUIRE that stands at its acquire holds while another station has the lock, and a cancel takes
it out with no transaction and no change of the lock (R652, R660, R664). A cancel latched before a round of a blocking
command ends it at the cancellation point before the attempt (R560, R660, R661). -/
def Obligations.WaitForLock : Prop :=
  ∀ (s : State) (i : Instr) (rest : List Byte),
    (∀ (owner : Nat) (pos : List Byte),
      (pos = [] ∧ (i = .acquire ∨ i = .tryReadId ∨ (∃ n, i = .tryReadSector n) ∨ (∃ t n, i = .tryWriteSector t n)) ∨
        pos = [0] ∧ (i = .readId ∨ (∃ n, i = .readSector n) ∨ (∃ t n, i = .writeSector t n))) →
      s.lockOwner = some owner → owner ≠ s.sel →
      (s.Running i pos false [] rest 0 → exec i s = .next s) ∧
      (s.Running i pos true [] rest 1 → exec i s = .next s.cancelled)) ∧
    (isBlocking i = true → s.Running i [] true [] rest 2 → exec i s = .next s.cancelled)

/-! ## Register access -/

/-- REG_READ (R400): one RD record with the chip's answer, which is the result byte. The address must be at or below
0x3F. With no answer listed, the answer is the free value. -/
def Obligations.RegReadRuns : Prop :=
  ∀ (addr : Byte) (s : State),
    (addr.toNat ≤ 0x3F → s.Owns → ∀ v rest, s.Ready [v] rest 2 →
      exec (.regRead addr) s = .next (s.completed (.regRead addr) [rdTxn s.sel (addr.setWidth 6) v] s.lockOwner []
        rest { Res.absent with status := some .ok, byte := some v })) ∧
    (addr.toNat ≤ 0x3F → s.Owns → s.Ready [] [] 2 →
      exec (.regRead addr) s = .next { s.completed (.regRead addr)
        [rdTxn s.sel (addr.setWidth 6) (Config.freeByte s.draws)] s.lockOwner [] []
        { Res.absent with status := some .ok, byte := some (Config.freeByte s.draws) } with
        draws := s.draws + 1 }) ∧
    RefusedUnlessHeld (.regRead addr) (if addr.toNat ≤ 0x3F then none else some .badReg) s

/-- REG_WRITE (R401): one WR record with the value as it stands. -/
def Obligations.RegWriteRuns : Prop :=
  ∀ (addr value : Byte) (s : State),
    (addr.toNat ≤ 0x3F → s.Owns → ∀ rest, s.Ready [] rest 2 →
      exec (.regWrite addr value) s = .next (s.completed (.regWrite addr value)
        [wrTxn s.sel (addr.setWidth 6) value] s.lockOwner [] rest { Res.absent with status := some .ok })) ∧
    RefusedUnlessHeld (.regWrite addr value) (if addr.toNat ≤ 0x3F then none else some .badReg) s

/-- SET_BITS (R402): a read, then always a write of the value read with the mask's bits set. -/
def Obligations.SetBitsRuns : Prop :=
  ∀ (addr mask : Byte) (s : State),
    (addr.toNat ≤ 0x3F → s.Owns → ∀ v rest, s.Ready [v] rest 3 →
      exec (.setBits addr mask) s = .next (s.completed (.setBits addr mask)
        [rdTxn s.sel (addr.setWidth 6) v, wrTxn s.sel (addr.setWidth 6) (v ||| mask)] s.lockOwner [] rest
        { Res.absent with status := some .ok })) ∧
    RefusedUnlessHeld (.setBits addr mask) (if addr.toNat ≤ 0x3F then none else some .badReg) s

/-- CLEAR_BITS (R403): a read, then always a write of the value read with the mask's bits clear. -/
def Obligations.ClearBitsRuns : Prop :=
  ∀ (addr mask : Byte) (s : State),
    (addr.toNat ≤ 0x3F → s.Owns → ∀ v rest, s.Ready [v] rest 3 →
      exec (.clearBits addr mask) s = .next (s.completed (.clearBits addr mask)
        [rdTxn s.sel (addr.setWidth 6) v, wrTxn s.sel (addr.setWidth 6) (v &&& ~~~mask)] s.lockOwner [] rest
        { Res.absent with status := some .ok })) ∧
    RefusedUnlessHeld (.clearBits addr mask) (if addr.toNat ≤ 0x3F then none else some .badReg) s

/-- CHIP_RESET (R404): one write of the reset code to the command register; no other block state, `inited` included. -/
def Obligations.ChipResetRuns : Prop :=
  ∀ s : State,
    (s.Owns → ∀ rest, s.Ready [] rest 2 →
      exec .chipReset s = .next (s.completed .chipReset [wrTxn s.sel s.cfg.aCommand s.cfg.cmdSoftReset] s.lockOwner []
        rest { Res.absent with status := some .ok })) ∧
    RefusedUnlessHeld .chipReset none s

/-- ANTENNA_ON (R405): nothing is written when both antenna bits read as set; otherwise the register is read again and
written with both bits set. -/
def Obligations.AntennaOnRuns : Prop :=
  ∀ s : State,
    (s.Owns → ∀ v rest, v &&& 0x03 = 0x03 → s.Ready [v] rest 2 →
      exec .antennaOn s = .next (s.completed .antennaOn [rdTxn s.sel s.cfg.aTxControl v] s.lockOwner [] rest
        { Res.absent with status := some .ok })) ∧
    (s.Owns → ∀ v w rest, v &&& 0x03 ≠ 0x03 → s.Ready [v, w] rest 4 →
      exec .antennaOn s = .next (s.completed .antennaOn
        [rdTxn s.sel s.cfg.aTxControl v, rdTxn s.sel s.cfg.aTxControl w,
         wrTxn s.sel s.cfg.aTxControl (w ||| 0x03)] s.lockOwner [] rest { Res.absent with status := some .ok })) ∧
    RefusedUnlessHeld .antennaOn none s

/-- STOP_CRYPTO (R505): a read of status-register-2, then always a write with bit 0x08 clear; `auth_warn` is
unchanged. -/
def Obligations.StopCryptoRuns : Prop :=
  ∀ s : State,
    (s.Owns → ∀ v rest, s.Ready [v] rest 3 →
      exec .stopCrypto s = .next (s.completed .stopCrypto
        [rdTxn s.sel s.cfg.aStatus2 v, wrTxn s.sel s.cfg.aStatus2 (v &&& ~~~0x08)] s.lockOwner [] rest
        { Res.absent with status := some .ok })) ∧
    RefusedUnlessHeld .stopCrypto none s

/-- A register transaction of the station that holds the lock (R210, R211, R220): a read appends an RD record with the
chip's next answer and uses it up, or takes the free value when none is listed; a write appends a WR record and uses up
no answer. Nothing else changes. -/
def Obligations.TransactionsRun : Prop :=
  ∀ (s : State) (st : Station) (a : RegAddr), s.Owns → s.here = some st →
    (∀ v rest, st.chipQ = v :: rest →
      exec (.txaddrRead a) s = .next { s with
        trace := s.trace ++ [⟨s.sel, .rd, a, v⟩]
        stations := s.stations.modify s.sel fun st => { st with chipQ := rest } }) ∧
    (st.chipQ = [] →
      exec (.txaddrRead a) s = .next { s with
        trace := s.trace ++ [⟨s.sel, .rd, a, Config.freeByte s.draws⟩]
        draws := s.draws + 1 }) ∧
    (∀ v, exec (.txaddrWrite a v) s = .next { s with trace := s.trace ++ [⟨s.sel, .wr, a, v⟩] })

/-! ## Exchange and CRC -/

/-- TO_CARD (R451 to R455): one exchange with the masks of R450, in the order of the spec's pseudocode, for every course
the chip's answers can take: timeout, error, OK and NOTAG, with and without a reply. -/
def Obligations.ToCardRuns : Prop :=
  ∀ (c : Byte) (d : List Byte) (s : State),
    (d.length ≤ s.cfg.fifoDepth → s.Owns → ∀ (x : ExchangeScript) (rest : List Byte), x.Fits s.cfg c →
      s.Ready (x.answers s.cfg c) rest (x.steps s.cfg c d + 1) →
      exec (.toCard c d) s = .next (s.completed (.toCard c d) (x.records s.cfg s.sel c d) s.lockOwner [] rest
        { Res.absent with
          status := some (x.outcome s.cfg c).status
          data := some (x.outcome s.cfg c).bytes
          bitlen := some (BitVec.ofNat 12 (x.outcome s.cfg c).bitlen) })) ∧
    RefusedUnlessHeld (.toCard c d) (if d.length ≤ s.cfg.fifoDepth then none else some .badLen) s

/-- The interrupt masks of R450, the polls of R452 and the bit length of R454 as numbers: AUTHENT waits on 0x10 with
enables 0x12, RECEIVE and TRANSCEIVE on 0x30 with 0x77, every other code on the timer bit only; NOTAG comes from the
timer bit with TRANSCEIVE or RECEIVE only; a bit length fits its 12 bits. With the default last-bits mask it is at most
2040, a reply of 24 bits has three bytes and one of 4 bits has one, so the byte SELECT and WRITE look at exists. -/
def Obligations.ExchangeNumbers : Prop :=
  ∀ (cfg : Config) (c n : Byte),
    (c = cfg.cmdAuthent → irqMasks cfg c = (0x12, 0x10)) ∧
    (c ≠ cfg.cmdAuthent → (c = cfg.cmdReceive ∨ c = cfg.cmdTransceive) → irqMasks cfg c = (0x77, 0x30)) ∧
    (c ≠ cfg.cmdAuthent → c ≠ cfg.cmdReceive → c ≠ cfg.cmdTransceive →
      irqMasks cfg c = (0x00, 0x00) ∧ (fires (irqMasks cfg c).2 n = true ↔ n &&& 0x01 ≠ 0)) ∧
    (∀ x : ExchangeScript, x.Fits cfg c →
      ((x.outcome cfg c).status = .noTag → c ≠ cfg.cmdAuthent ∧ (c = cfg.cmdReceive ∨ c = cfg.cmdTransceive)) ∧
      (x.outcome cfg c).bitlen < 4096 ∧ (x.outcome cfg c).bytes.length ≤ 16 ∧
      (cfg.lastBitsMask = 0x07 →
        (x.outcome cfg c).bitlen ≤ 2040 ∧
        ((x.outcome cfg c).bitlen = 24 → (x.outcome cfg c).bytes.length = 3) ∧
        ((x.outcome cfg c).bitlen = 4 → (x.outcome cfg c).bytes.length = 1)))

/-- The courses of an exchange and of a CRC are all there are: whatever the chip answers, some course is its answers'
beginning (R40, R452 to R454, R460). -/
def Obligations.CoursesComplete : Prop :=
  ∀ (cfg : Config) (c : Byte) (answers : List Byte),
    (cfg.maxPolls + 23 ≤ answers.length →
      ∃ (x : ExchangeScript) (rest : List Byte), x.Fits cfg c ∧ answers = x.answers cfg c ++ rest) ∧
    (260 ≤ answers.length → ∃ (k : CrcScript) (rest : List Byte), k.Fits cfg ∧ answers = k.answers ++ rest)

/-- A command cancelled between two polls of an exchange (R452, R556, R661). At every cancellation point inside a command
(the one before an attempt of a blocking command is in WaitForLock) a latched cancel clears START_SEND and ends the
command CANCELLED, the lock released: no further transaction, so no stop-crypto. The sleep after a poll that fires
nothing is such a point in every exchange of every command, and these are the exchanges of TO_CARD and the card commands
and the first of the session commands. -/
def Obligations.ToCardCancelled : Prop :=
  (∀ (i : Instr) (prog : Prog CmdEnd) (k : Bool → Prog CmdEnd) (pos : List Byte) (s : State) (v : Byte)
    (rest : List Byte), programOf s.cfg i = some prog → pos ≠ [] → prog.resume pos = .suspend k → s.Owns →
    s.Running i pos true [v] rest 4 →
    exec i s = .next ({ s with
      trace := s.trace ++
        [rdTxn s.sel s.cfg.aBitFraming v, wrTxn s.sel s.cfg.aBitFraming (v &&& ~~~s.cfg.startSend)]
      stations := s.stations.modify s.sel fun st => { st with chipQ := rest } } : State).cancelled) ∧
  (∀ (cfg : Config) (i : Instr) (before : List Byte) (c : Byte) (d : List Byte) (x : ExchangeScript),
    Exchanges cfg i before c d → x.polls ≠ [] → x.polls.length < cfg.maxPolls →
    (∀ n ∈ x.polls, fires (irqMasks cfg c).2 n = false) →
    ∃ prog k, programOf cfg i = some prog ∧ prog.resume (before ++ x.pollPosition cfg c d) = .suspend k) ∧
  (∀ (cfg : Config) (c m b n : Byte) (d key u text : List Byte) (k : CrcScript), k.Fits cfg →
    Exchanges cfg (.toCard c d) [] c d ∧
    Exchanges cfg (.request m) [0] cfg.cmdTransceive [m] ∧
    Exchanges cfg .anticoll [0] cfg.cmdTransceive [0x93, 0x20] ∧
    Exchanges cfg (.select u) (k.position ([0x93, 0x70] ++ u)) cfg.cmdTransceive ([0x93, 0x70] ++ u ++ k.crc) ∧
    Exchanges cfg (.auth m b key u) [0] cfg.cmdAuthent ([m, b] ++ key ++ u.take 4) ∧
    Exchanges cfg (.readBlock b) (k.position [0x30, b]) cfg.cmdTransceive ([0x30, b] ++ k.crc) ∧
    Exchanges cfg (.writeBlock b d) (k.position [0xA0, b]) cfg.cmdTransceive ([0xA0, b] ++ k.crc) ∧
    (∀ i, i = .tryReadId ∨ i = .tryReadSector n ∨ i = .tryWriteSector text n →
      Exchanges cfg i [0, 0] cfg.cmdTransceive [cfg.reqMode]) ∧
    (∀ i, i = .readId ∨ i = .readSector n ∨ i = .writeSector text n →
      Exchanges cfg i [0, 0, 0] cfg.cmdTransceive [cfg.reqMode]))

/-- CALC_CRC (R460, R461): the records of the spec's pseudocode for every course of the polls, flag or no flag, and the
two result registers as `[lo, hi]`. -/
def Obligations.CalcCrcRuns : Prop :=
  ∀ (d : List Byte) (s : State),
    (d.length ≤ s.cfg.fifoDepth → s.Owns → ∀ (k : CrcScript) (rest : List Byte), k.Fits s.cfg →
      s.Ready k.answers rest (k.steps s.cfg d + 1) →
      exec (.calcCrc d) s = .next (s.completed (.calcCrc d) (k.records s.cfg s.sel d) s.lockOwner [] rest
        { Res.absent with status := some .ok, data := some [k.lo, k.hi] })) ∧
    RefusedUnlessHeld (.calcCrc d) (if d.length ≤ s.cfg.fifoDepth then none else some .badLen) s

/-! ## Card commands -/

/-- REQUEST (R500): OK exactly when the exchange is OK with 16 bits, else ERROR; the bit length is reported whatever the
status, the bytes are not. -/
def Obligations.RequestRuns : Prop :=
  ∀ (m : Byte) (s : State),
    (s.Owns → ∀ (x : ExchangeScript) (rest : List Byte), x.Fits s.cfg s.cfg.cmdTransceive →
      s.Ready (x.answers s.cfg s.cfg.cmdTransceive) rest (x.steps s.cfg s.cfg.cmdTransceive [m] + 2) →
      ∃ status, ((x.outcome s.cfg s.cfg.cmdTransceive).isAnswer → status = .ok) ∧
        (¬ (x.outcome s.cfg s.cfg.cmdTransceive).isAnswer → status = .error) ∧
        exec (.request m) s = .next (s.completed (.request m) (requestRecords s.cfg s.sel m x) s.lockOwner [] rest
          { Res.absent with
            status := some status
            bitlen := some (BitVec.ofNat 12 (x.outcome s.cfg s.cfg.cmdTransceive).bitlen) })) ∧
    RefusedUnlessHeld (.request m) none s

/-- ANTICOLL (R501): an OK exchange is OK exactly when it has five bytes with a valid check byte, else ERROR; NOTAG and
ERROR pass through; the bytes read are reported whatever the status. -/
def Obligations.AnticollRuns : Prop :=
  ∀ s : State,
    (s.Owns → ∀ (x : ExchangeScript) (rest : List Byte), x.Fits s.cfg s.cfg.cmdTransceive →
      s.Ready (x.answers s.cfg s.cfg.cmdTransceive) rest (x.steps s.cfg s.cfg.cmdTransceive [0x93, 0x20] + 2) →
      ∃ status, ((x.outcome s.cfg s.cfg.cmdTransceive).isUid → status = .ok) ∧
        ((x.outcome s.cfg s.cfg.cmdTransceive).status = .ok → ¬ (x.outcome s.cfg s.cfg.cmdTransceive).isUid →
          status = .error) ∧
        ((x.outcome s.cfg s.cfg.cmdTransceive).status ≠ .ok →
          status = (x.outcome s.cfg s.cfg.cmdTransceive).status) ∧
        exec .anticoll s = .next (s.completed .anticoll (anticollRecords s.cfg s.sel x) s.lockOwner [] rest
          { Res.absent with
            status := some status
            data := some (x.outcome s.cfg s.cfg.cmdTransceive).bytes })) ∧
    RefusedUnlessHeld .anticoll none s

/-- SELECT (R502): the CRC over the seven bytes, then the nine-byte frame; OK with the first reply byte exactly when the
exchange is OK with 24 bits, else ERROR with byte 0. -/
def Obligations.SelectRuns : Prop :=
  ∀ (u : List Byte) (s : State), u.length = 5 →
    (s.Owns → ∀ (x : FrameScript) (rest : List Byte), x.Fits s.cfg →
      s.Ready (x.answers s.cfg) rest (x.steps s.cfg ([0x93, 0x70] ++ u) + 1) →
      (∀ b, (x.outcome s.cfg).isSelected → (x.outcome s.cfg).bytes.head? = some b →
        exec (.select u) s = .next (s.completed (.select u) (x.records s.cfg s.sel ([0x93, 0x70] ++ u)) s.lockOwner []
          rest { Res.absent with status := some .ok, byte := some b })) ∧
      (¬ (x.outcome s.cfg).isSelected →
        exec (.select u) s = .next (s.completed (.select u) (x.records s.cfg s.sel ([0x93, 0x70] ++ u)) s.lockOwner []
          rest { Res.absent with status := some .error, byte := some 0 }))) ∧
    RefusedUnlessHeld (.select u) none s

/-- AUTH (R504): `auth_warn` is cleared, the twelve-byte frame is sent by AUTHENT, status-register-2 is always read, and
`auth_warn` and `res.warn` are set exactly when its bit 0x08 is clear; the flag never changes the status. -/
def Obligations.AuthRuns : Prop :=
  ∀ (m b : Byte) (k u : List Byte) (s : State), k.length = 6 → u.length = 5 →
    (s.Owns → ∀ (x : ExchangeScript) (s2 : Byte) (rest : List Byte), x.Fits s.cfg s.cfg.cmdAuthent →
      s.Ready (x.answers s.cfg s.cfg.cmdAuthent ++ [s2]) rest
        (x.steps s.cfg s.cfg.cmdAuthent ([m, b] ++ k ++ u.take 4) + 4) →
      exec (.auth m b k u) s = .next (s.completed (.auth m b k u)
        (x.records s.cfg s.sel s.cfg.cmdAuthent ([m, b] ++ k ++ u.take 4) ++ [rdTxn s.sel s.cfg.aStatus2 s2])
        s.lockOwner [.authWarn (s2 &&& 0x08 == 0)] rest
        { Res.absent with
          status := some (x.outcome s.cfg s.cfg.cmdAuthent).status
          warn := some (s2 &&& 0x08 == 0) })) ∧
    RefusedUnlessHeld (.auth m b k u) none s

/-- READ_BLOCK (R506): the CRC, then the frame; OK with the bytes exactly when the exchange is OK with 16 bytes drained,
else NONE. -/
def Obligations.ReadBlockRuns : Prop :=
  ∀ (b : Byte) (s : State),
    (s.Owns → ∀ (x : FrameScript) (rest : List Byte), x.Fits s.cfg →
      s.Ready (x.answers s.cfg) rest (x.steps s.cfg [0x30, b] + 1) →
      ((x.outcome s.cfg).isBlock →
        exec (.readBlock b) s = .next (s.completed (.readBlock b) (x.records s.cfg s.sel [0x30, b]) s.lockOwner [] rest
          { Res.absent with status := some .ok, data := some (x.outcome s.cfg).bytes })) ∧
      (¬ (x.outcome s.cfg).isBlock →
        exec (.readBlock b) s = .next (s.completed (.readBlock b) (x.records s.cfg s.sel [0x30, b]) s.lockOwner [] rest
          { Res.absent with status := some .noValue }))) ∧
    RefusedUnlessHeld (.readBlock b) none s

/-- WRITE_BLOCK (R507, R508): phase 2 is sent only after the acknowledge of phase 1; OK exactly when both phases were
acknowledged, else ERROR; data of another length than 16 ends PRECOND BAD_LEN. -/
def Obligations.WriteBlockRuns : Prop :=
  ∀ (b : Byte) (d : List Byte) (s : State),
    (d.length = 16 → s.Owns → ∀ (x : WriteScript) (rest : List Byte), x.Fits s.cfg →
      s.Ready (x.answers s.cfg) rest (x.steps s.cfg b d + 1) →
      (x.Done s.cfg →
        exec (.writeBlock b d) s = .next (s.completed (.writeBlock b d) (x.records s.cfg s.sel b d) s.lockOwner [] rest
          { Res.absent with status := some .ok })) ∧
      (¬ x.Done s.cfg →
        exec (.writeBlock b d) s = .next (s.completed (.writeBlock b d) (x.records s.cfg s.sel b d) s.lockOwner [] rest
          { Res.absent with status := some .error }))) ∧
    RefusedUnlessHeld (.writeBlock b d) (if d.length = 16 then none else some .badLen) s

/-- The FRAME rows (R323): set directly at the exchange stage of the station that holds the lock, each frame runs one
exchange with the framing, chip command and bytes of its row, for every course the chip's answers can take; the result
fields are the exchange's and the status is OK exactly when the row's expected reply came. That a frame runs by itself,
and the fields and status it leaves, are the model's choice (A17). -/
def Obligations.FramesRun : Prop :=
  ∀ (s : State) (st : Station) (rest : List Byte) (x : ExchangeScript) (m b lo hi : Byte) (k u d : List Byte),
    s.Owns → s.here = some st → st.phase = .idle → st.cancelReq = false →
    (x.Fits s.cfg s.cfg.cmdTransceive → st.chipQ = x.answers s.cfg s.cfg.cmdTransceive ++ rest →
      (x.steps s.cfg s.cfg.cmdTransceive [m] + 2 ≤ s.quantum →
        ∃ r, exec (.frameRequest m) s = .next (s.completed (.frameRequest m) (requestRecords s.cfg s.sel m x)
            s.lockOwner [] rest r) ∧
          FrameResult (x.outcome s.cfg s.cfg.cmdTransceive).isAnswer (x.outcome s.cfg s.cfg.cmdTransceive) r) ∧
      (x.steps s.cfg s.cfg.cmdTransceive [0x93, 0x20] + 2 ≤ s.quantum →
        ∃ r, exec .frameAnticoll s = .next (s.completed .frameAnticoll (anticollRecords s.cfg s.sel x)
            s.lockOwner [] rest r) ∧
          FrameResult (x.outcome s.cfg s.cfg.cmdTransceive).isUid (x.outcome s.cfg s.cfg.cmdTransceive) r) ∧
      (u.length = 5 → x.steps s.cfg s.cfg.cmdTransceive ([0x93, 0x70] ++ u ++ [lo, hi]) + 1 ≤ s.quantum →
        ∃ r, exec (.frameSelect u lo hi) s = .next (s.completed (.frameSelect u lo hi)
            (x.records s.cfg s.sel s.cfg.cmdTransceive ([0x93, 0x70] ++ u ++ [lo, hi])) s.lockOwner [] rest r) ∧
          FrameResult (x.outcome s.cfg s.cfg.cmdTransceive).isSelected (x.outcome s.cfg s.cfg.cmdTransceive) r) ∧
      (x.steps s.cfg s.cfg.cmdTransceive [0x30, b, lo, hi] + 1 ≤ s.quantum →
        ∃ r, exec (.frameRead b lo hi) s = .next (s.completed (.frameRead b lo hi)
            (x.records s.cfg s.sel s.cfg.cmdTransceive [0x30, b, lo, hi]) s.lockOwner [] rest r) ∧
          FrameResult (x.outcome s.cfg s.cfg.cmdTransceive).isBlock (x.outcome s.cfg s.cfg.cmdTransceive) r) ∧
      (x.steps s.cfg s.cfg.cmdTransceive [0xA0, b, lo, hi] + 1 ≤ s.quantum →
        ∃ r, exec (.frameWritePhase1 b lo hi) s = .next (s.completed (.frameWritePhase1 b lo hi)
            (x.records s.cfg s.sel s.cfg.cmdTransceive [0xA0, b, lo, hi]) s.lockOwner [] rest r) ∧
          FrameResult (x.outcome s.cfg s.cfg.cmdTransceive).isAck (x.outcome s.cfg s.cfg.cmdTransceive) r) ∧
      (d.length = 16 → x.steps s.cfg s.cfg.cmdTransceive (d ++ [lo, hi]) + 1 ≤ s.quantum →
        ∃ r, exec (.frameWritePhase2 d lo hi) s = .next (s.completed (.frameWritePhase2 d lo hi)
            (x.records s.cfg s.sel s.cfg.cmdTransceive (d ++ [lo, hi])) s.lockOwner [] rest r) ∧
          FrameResult (x.outcome s.cfg s.cfg.cmdTransceive).isAck (x.outcome s.cfg s.cfg.cmdTransceive) r)) ∧
    (x.Fits s.cfg s.cfg.cmdAuthent → st.chipQ = x.answers s.cfg s.cfg.cmdAuthent ++ rest → k.length = 6 →
      u.length = 4 → x.steps s.cfg s.cfg.cmdAuthent ([m, b] ++ k ++ u) + 1 ≤ s.quantum →
      ∃ r, exec (.frameAuth m b k u) s = .next (s.completed (.frameAuth m b k u)
          (x.records s.cfg s.sel s.cfg.cmdAuthent ([m, b] ++ k ++ u)) s.lockOwner [] rest r) ∧
        FrameResult ((x.outcome s.cfg s.cfg.cmdAuthent).status = .ok) (x.outcome s.cfg s.cfg.cmdAuthent) r)

/-! ## Session commands -/

/-- TRY_READ_ID (R550, R551, R554): one lock tenure with the preamble; OK with the identifier exactly when both the
request and the anti-collision checks passed, else NONE. -/
def Obligations.TryReadIdRuns : Prop :=
  ∀ s : State,
    (s.lockOwner = none → ∀ (x : CardScript) (rest : List Byte), x.Fits s.cfg →
      s.Ready (x.answers s.cfg) rest (x.steps s.cfg + 3) →
      (∀ u, x.Finds s.cfg u →
        exec .tryReadId s = .next (s.completed .tryReadId (x.records s.cfg s.sel) none [] rest
          { Res.absent with status := some .ok, id := some (uidToId s.cfg.uidToId u) })) ∧
      ((∀ u, ¬ x.Finds s.cfg u) →
        exec .tryReadId s = .next (s.completed .tryReadId (x.records s.cfg s.sel) none [] rest
          { Res.absent with status := some .noValue }))) ∧
    RefusedIfHeld .tryReadId none s

/-- The operands of the session commands. The identifier (R552): BE4 is
`u[0] * 2^24 + u[1] * 2^16 + u[2] * 2^8 + u[3]`, BE5 adds the check byte below. The trailer (R553): a legal one has the
three blocks below it, at 0 or above. The payload of a sector write (R558) is the first 48 bytes of the text, padded to
48, in three blocks of 16. -/
def Obligations.SessionOperands : Prop :=
  (∀ a b c d e : Byte,
    (uidToId .be4 [a, b, c, d, e]).toNat = a.toNat * 2 ^ 24 + b.toNat * 2 ^ 16 + c.toNat * 2 ^ 8 + d.toNat ∧
    (uidToId .be5 [a, b, c, d, e]).toNat =
      a.toNat * 2 ^ 32 + b.toNat * 2 ^ 24 + c.toNat * 2 ^ 16 + d.toNat * 2 ^ 8 + e.toNat) ∧
  (∀ n : Byte, (n.toNat + 1) % 4 = 0 →
    3 ≤ n.toNat ∧ (dataBlocks n).map BitVec.toNat = [n.toNat - 3, n.toNat - 2, n.toNat - 1]) ∧
  (∀ (pad : Byte) (t : List Byte),
    acceptedText t = t.take 48 ∧
    sectorPayload pad t = t.take 48 ++ List.replicate (48 - (t.take 48).length) pad ∧
    sectorPayload pad t = payloadBlock (sectorPayload pad t) 0 ++ payloadBlock (sectorPayload pad t) 1 ++
      payloadBlock (sectorPayload pad t) 2 ∧
    ∀ i, i < 3 → (payloadBlock (sectorPayload pad t) i).length = 16)

/-- TRY_READ_SECTOR (R555, R556, R559): one lock tenure; every course of request, anti-collision, select, authenticate
and the three block reads, stopping at the first that fails; once authenticate was issued, stop-crypto ends the attempt;
OK with the identifier and the 48 bytes exactly when all succeeded, else NONE; `warn` exactly when authenticate ran. -/
def Obligations.TryReadSectorRuns : Prop :=
  ∀ (n : Byte) (s : State),
    ((n.toNat + 1) % 4 = 0 → s.lockOwner = none →
      ∀ (x : SectorScript) (body : List FrameScript) (u rest : List Byte), x.Fits s.cfg u →
      (x.Opens s.cfg → ReadsFit s.cfg 3 body) → (¬ x.Opens s.cfg → body = []) →
      s.Ready (x.answers s.cfg (body.flatMap (FrameScript.answers s.cfg))) rest
        (x.steps s.cfg n u (readSteps s.cfg [n - 3, n - 2, n - 1] body) + 3) →
      (x.Opens s.cfg → AllRead s.cfg body →
        exec (.tryReadSector n) s = .next (s.completed (.tryReadSector n)
          (x.records s.cfg s.sel n u (readRecords s.cfg s.sel [n - 3, n - 2, n - 1] body)) none
          (x.auth.toList.map fun a => .authWarn a.warn) rest
          { Res.absent with
            status := some .ok
            id := some (uidToId s.cfg.uidToId u)
            data := some (body.flatMap fun f => (f.outcome s.cfg).bytes)
            warn := x.auth.map AuthScript.warn })) ∧
      (¬ (x.Opens s.cfg ∧ AllRead s.cfg body) →
        exec (.tryReadSector n) s = .next (s.completed (.tryReadSector n)
          (x.records s.cfg s.sel n u (readRecords s.cfg s.sel [n - 3, n - 2, n - 1] body)) none
          (x.auth.toList.map fun a => .authWarn a.warn) rest
          { Res.absent with status := some .noValue, warn := x.auth.map AuthScript.warn }))) ∧
    RefusedIfHeld (.tryReadSector n) (if (n.toNat + 1) % 4 = 0 then none else some .badTrailer) s

/-- TRY_WRITE_SECTOR (R556 to R559): as TRY_READ_SECTOR with three block writes of the padded payload; the data it
reports is the text accepted. -/
def Obligations.TryWriteSectorRuns : Prop :=
  ∀ (t : List Byte) (n : Byte) (s : State),
    ((n.toNat + 1) % 4 = 0 → s.lockOwner = none →
      ∀ (x : SectorScript) (body : List WriteScript) (u rest : List Byte), x.Fits s.cfg u →
      (x.Opens s.cfg → WritesFit s.cfg 3 body) → (¬ x.Opens s.cfg → body = []) →
      s.Ready (x.answers s.cfg (body.flatMap (WriteScript.answers s.cfg))) rest
        (x.steps s.cfg n u (writeSteps s.cfg (sectorParts s.cfg t n) body) + 3) →
      (x.Opens s.cfg → AllWritten s.cfg body →
        exec (.tryWriteSector t n) s = .next (s.completed (.tryWriteSector t n)
          (x.records s.cfg s.sel n u (writeRecords s.cfg s.sel (sectorParts s.cfg t n) body)) none
          (x.auth.toList.map fun a => .authWarn a.warn) rest
          { Res.absent with
            status := some .ok
            id := some (uidToId s.cfg.uidToId u)
            data := some (t.take 48)
            warn := x.auth.map AuthScript.warn })) ∧
      (¬ (x.Opens s.cfg ∧ AllWritten s.cfg body) →
        exec (.tryWriteSector t n) s = .next (s.completed (.tryWriteSector t n)
          (x.records s.cfg s.sel n u (writeRecords s.cfg s.sel (sectorParts s.cfg t n) body)) none
          (x.auth.toList.map fun a => .authWarn a.warn) rest
          { Res.absent with status := some .noValue, warn := x.auth.map AuthScript.warn }))) ∧
    RefusedIfHeld (.tryWriteSector t n) (if (n.toNat + 1) % 4 = 0 then none else some .badTrailer) s

/-- READ_ID, READ_SECTOR and WRITE_SECTOR (R560 to R562) complete in a round whose attempt succeeds, the first or a later
one, with the result of the one-attempt command; they are refused as it is. -/
def Obligations.BlockingFinds : Prop :=
  ∀ (n : Byte) (t : List Byte) (s : State),
    (s.lockOwner = none → ∀ (x : CardScript) (u rest : List Byte), x.Fits s.cfg → x.Finds s.cfg u →
      (s.Ready (x.answers s.cfg) rest (x.steps s.cfg + 4) ∨
        s.Running .readId [] false (x.answers s.cfg) rest (x.steps s.cfg + 4)) →
      exec .readId s = .next (s.completed .readId (x.records s.cfg s.sel) none [] rest
        { Res.absent with status := some .ok, id := some (uidToId s.cfg.uidToId u) })) ∧
    ((n.toNat + 1) % 4 = 0 → s.lockOwner = none →
      ∀ (x : SectorScript) (body : List FrameScript) (u rest : List Byte), x.Fits s.cfg u → x.Opens s.cfg →
      ReadsFit s.cfg 3 body → AllRead s.cfg body →
      (s.Ready (x.answers s.cfg (body.flatMap (FrameScript.answers s.cfg))) rest
          (x.steps s.cfg n u (readSteps s.cfg [n - 3, n - 2, n - 1] body) + 4) ∨
        s.Running (.readSector n) [] false (x.answers s.cfg (body.flatMap (FrameScript.answers s.cfg))) rest
          (x.steps s.cfg n u (readSteps s.cfg [n - 3, n - 2, n - 1] body) + 4)) →
      exec (.readSector n) s = .next (s.completed (.readSector n)
        (x.records s.cfg s.sel n u (readRecords s.cfg s.sel [n - 3, n - 2, n - 1] body)) none
        (x.auth.toList.map fun a => .authWarn a.warn) rest
        { Res.absent with
          status := some .ok
          id := some (uidToId s.cfg.uidToId u)
          data := some (body.flatMap fun f => (f.outcome s.cfg).bytes)
          warn := x.auth.map AuthScript.warn })) ∧
    ((n.toNat + 1) % 4 = 0 → s.lockOwner = none →
      ∀ (x : SectorScript) (body : List WriteScript) (u rest : List Byte), x.Fits s.cfg u → x.Opens s.cfg →
      WritesFit s.cfg 3 body → AllWritten s.cfg body →
      (s.Ready (x.answers s.cfg (body.flatMap (WriteScript.answers s.cfg))) rest
          (x.steps s.cfg n u (writeSteps s.cfg (sectorParts s.cfg t n) body) + 4) ∨
        s.Running (.writeSector t n) [] false (x.answers s.cfg (body.flatMap (WriteScript.answers s.cfg))) rest
          (x.steps s.cfg n u (writeSteps s.cfg (sectorParts s.cfg t n) body) + 4)) →
      exec (.writeSector t n) s = .next (s.completed (.writeSector t n)
        (x.records s.cfg s.sel n u (writeRecords s.cfg s.sel (sectorParts s.cfg t n) body)) none
        (x.auth.toList.map fun a => .authWarn a.warn) rest
        { Res.absent with
          status := some .ok
          id := some (uidToId s.cfg.uidToId u)
          data := some (t.take 48)
          warn := x.auth.map AuthScript.warn })) ∧
    RefusedIfHeld .readId none s ∧
    RefusedIfHeld (.readSector n) (if (n.toNat + 1) % 4 = 0 then none else some .badTrailer) s ∧
    RefusedIfHeld (.writeSector t n) (if (n.toNat + 1) % 4 = 0 then none else some .badTrailer) s

/-- A round of a blocking command that finds nothing gives the lock back and goes round the loop; the round that is
number MAX_ATTEMPTS ends the command NONE instead (R560). A turn of as many atomic steps as the round takes, and `m`
more, is the round and then a turn of `m` steps. -/
def Obligations.BlockingRetries : Prop :=
  ∀ (s : State) (st : Station) (rest : List Byte) (m : Nat), s.here = some st → s.lockOwner = none →
    (∀ x : CardScript, x.Fits s.cfg → (∀ u, ¬ x.Finds s.cfg u) → s.quantum = x.steps s.cfg + 4 + m →
      s.Running .readId [] false (x.answers s.cfg) rest 0 →
      (s.cfg.maxAttempts ≠ some (st.attempts + 1) →
        exec .readId s = onNext (exec .readId
          { s.nextRound (x.records s.cfg s.sel) [] rest with quantum := m })
          fun t => .next { t with quantum := s.quantum }) ∧
      (s.cfg.maxAttempts = some (st.attempts + 1) →
        exec .readId s = .next (s.completed .readId (x.records s.cfg s.sel) none [] rest
          { Res.absent with status := some .noValue }))) ∧
    (∀ (n : Byte) (x : SectorScript) (body : List FrameScript) (u : List Byte), x.Fits s.cfg u →
      (x.Opens s.cfg → ReadsFit s.cfg 3 body) → (¬ x.Opens s.cfg → body = []) →
      ¬ (x.Opens s.cfg ∧ AllRead s.cfg body) →
      s.quantum = x.steps s.cfg n u (readSteps s.cfg [n - 3, n - 2, n - 1] body) + 4 + m →
      s.Running (.readSector n) [] false (x.answers s.cfg (body.flatMap (FrameScript.answers s.cfg))) rest 0 →
      (s.cfg.maxAttempts ≠ some (st.attempts + 1) →
        exec (.readSector n) s = onNext (exec (.readSector n)
          { s.nextRound (x.records s.cfg s.sel n u (readRecords s.cfg s.sel [n - 3, n - 2, n - 1] body))
              (x.auth.toList.map fun a => .authWarn a.warn) rest with quantum := m })
          fun t => .next { t with quantum := s.quantum }) ∧
      (s.cfg.maxAttempts = some (st.attempts + 1) →
        exec (.readSector n) s = .next (s.completed (.readSector n)
          (x.records s.cfg s.sel n u (readRecords s.cfg s.sel [n - 3, n - 2, n - 1] body)) none
          (x.auth.toList.map fun a => .authWarn a.warn) rest { Res.absent with status := some .noValue }))) ∧
    (∀ (t : List Byte) (n : Byte) (x : SectorScript) (body : List WriteScript) (u : List Byte), x.Fits s.cfg u →
      (x.Opens s.cfg → WritesFit s.cfg 3 body) → (¬ x.Opens s.cfg → body = []) →
      ¬ (x.Opens s.cfg ∧ AllWritten s.cfg body) →
      s.quantum = x.steps s.cfg n u (writeSteps s.cfg (sectorParts s.cfg t n) body) + 4 + m →
      s.Running (.writeSector t n) [] false (x.answers s.cfg (body.flatMap (WriteScript.answers s.cfg))) rest 0 →
      (s.cfg.maxAttempts ≠ some (st.attempts + 1) →
        exec (.writeSector t n) s = onNext (exec (.writeSector t n)
          { s.nextRound (x.records s.cfg s.sel n u (writeRecords s.cfg s.sel (sectorParts s.cfg t n) body))
              (x.auth.toList.map fun a => .authWarn a.warn) rest with quantum := m })
          fun t => .next { t with quantum := s.quantum }) ∧
      (s.cfg.maxAttempts = some (st.attempts + 1) →
        exec (.writeSector t n) s = .next (s.completed (.writeSector t n)
          (x.records s.cfg s.sel n u (writeRecords s.cfg s.sel (sectorParts s.cfg t n) body)) none
          (x.auth.toList.map fun a => .authWarn a.warn) rest { Res.absent with status := some .noValue })))

/-! ## Cancel and the host -/

/-- A cancel pulse latches `cancel_req` at a BUSY station and does nothing at an IDLE or DEAD one (R662). -/
def Obligations.CancelPulse : Prop :=
  ∀ (s : State) (st : Station) (p : Nat) (turns : List Turn), s.turns = .cancel p :: turns →
    s.stations[p]? = some st →
    (st.phase = .busy → step s = .next { s with
      turns := turns, sel := p, quantum := 0
      stations := s.stations.modify p fun st => { st with cancelReq := true } }) ∧
    (st.phase ≠ .busy → step s = .next { s with turns := turns, sel := p, quantum := 0 })

/-- The host's other interactions (R124, R117, R740): a read of a result field changes nothing, and an absent field
faults; the consumer removes the front event; hw_ok is supplied, but not changed while INIT runs. The model's choices:
one event for each turn of the consumer (A38); hw_ok may be set at any other time, and setting the value it has is no
change (A5, A25). -/
def Obligations.HostInteractions : Prop :=
  ∀ (s : State) (st : Station) (p : Nat) (turns : List Turn), s.stations[p]? = some st →
    (∀ f, s.turns = .readResult p f :: turns → st.phase ≠ .busy →
      (st.res.has f = true → step s = .next { s with turns := turns, sel := p, quantum := 0 }) ∧
      (st.res.has f = false → step s = .fault (.absentField f.name))) ∧
    (s.turns = .consume p :: turns → step s = .next { s with
      turns := turns, sel := p, quantum := 0
      stations := s.stations.modify p fun st => { st with events := st.events.tail } }) ∧
    (∀ b, s.turns = .supplyHwOk p b :: turns →
      (st.phase ≠ .busy ∨ st.cur ≠ some (.known .init) → step s = .next { s with
        turns := turns, sel := p, quantum := 0
        stations := s.stations.modify p fun st => { st with hwOk := b } }) ∧
      (st.phase = .busy → st.cur = some (.known .init) → b ≠ st.hwOk → step s = .refused .hwOkDuringInit))

/-! ## Edges -/

/-- An edge on CLK or DT that the filter accepts (R600, R601, R603 to R606): `last_acc` of its line takes `now`, and the
transition from `last_enc` to the sampled levels is counted by its class. -/
def Obligations.EncoderEdgeAccepted : Prop :=
  ∀ (now : Nat) (clk dt btn : Bool) (s : State) (st : Station), s.here = some st → st.phase ≠ .dead →
    st.InTime now →
    (st.Room s.cfg ∨ (afterTransition s.cfg s.sel (st.lastEnc ++ encOf clk dt) st).events = st.events) →
    (WindowOver s.cfg.wEnc now st.lastAccClk →
      exec (.encoderEdgeClk now clk dt btn) s = .next (s.modifyHere fun st =>
        { afterTransition s.cfg s.sel (st.lastEnc ++ encOf clk dt) st with
          lastAccClk := some now, envNow := some now })) ∧
    (WindowOver s.cfg.wEnc now st.lastAccDt →
      exec (.encoderEdgeDt now clk dt btn) s = .next (s.modifyHere fun st =>
        { afterTransition s.cfg s.sel (st.lastEnc ++ encOf clk dt) st with
          lastAccDt := some now, envNow := some now }))

/-- A BTN edge that the filter accepts emits one Button event when the line is low, and none when it is high; either way
`last_acc[BTN]` takes `now` (R600, R607, R608). -/
def Obligations.ButtonEdgeAccepted : Prop :=
  ∀ (now : Nat) (clk dt : Bool) (s : State) (st : Station), s.here = some st → st.phase ≠ .dead → st.InTime now →
    WindowOver s.cfg.wBtn now st.lastAccBtn →
    (st.Room s.cfg → exec (.buttonEdge now clk dt false) s = .next (s.modifyHere fun st =>
      { st with events := st.events ++ [.button s.sel], lastAccBtn := some now, envNow := some now })) ∧
    exec (.buttonEdge now clk dt true) s = .next (s.modifyHere fun st =>
      { st with lastAccBtn := some now, envNow := some now })

/-- An edge that is not accepted. Inside the window of its line it changes nothing of the block; the environment's clock
alone moves on (R600). With `now` below the previous edge's at the same station it is refused, at a DEAD station too
(R600, R716). A DEAD station ignores every other edge and every transition code: nothing of the block changes (R602).
The environment's clock `envNow` is the model's own record (A13). -/
def Obligations.EdgeRejected : Prop :=
  ∀ (now : Nat) (clk dt btn : Bool) (i : Instr) (s : State) (st : Station), s.here = some st →
    (st.phase ≠ .dead → st.InTime now →
      (i = .encoderEdgeClk now clk dt btn ∧ ¬ WindowOver s.cfg.wEnc now st.lastAccClk ∨
        i = .encoderEdgeDt now clk dt btn ∧ ¬ WindowOver s.cfg.wEnc now st.lastAccDt ∨
        i = .buttonEdge now clk dt btn ∧ ¬ WindowOver s.cfg.wBtn now st.lastAccBtn) →
      exec i s = .next (s.modifyHere fun st => { st with envNow := some now })) ∧
    (i = .encoderEdgeClk now clk dt btn ∨ i = .encoderEdgeDt now clk dt btn ∨ i = .buttonEdge now clk dt btn →
      (¬ st.InTime now → exec i s = .refused .nowDecreased) ∧
      (st.phase = .dead → st.InTime now →
        exec i s = .next (s.modifyHere fun st => { st with envNow := some now }))) ∧
    (∀ sum, encode i = .qsum sum → st.phase = .dead → exec i s = .next s)

/-- The sixteen transition codes (R321, R603 to R606): a CW or CCW code counts one step and fires on the fourth, a NOP
code counts nothing, and every code leaves the new levels in `last_enc`. -/
def Obligations.TransitionCodes : Prop :=
  ∀ (i : Instr) (sum : BitVec 4) (s : State) (st : Station), encode i = .qsum sum → s.here = some st →
    st.phase ≠ .dead → (st.Room s.cfg ∨ (afterTransition s.cfg s.sel sum st).events = st.events) →
    exec i s = .next (s.modifyHere (afterTransition s.cfg s.sel sum))

/-- With a finite EVQ_DEPTH, an edge whose handler would emit into a full stream has no move and stays with the
environment: no event is dropped or overwritten (R609). -/
def Obligations.FullStreamHolds : Prop :=
  ∀ (s : State) (st : Station) (p : Nat) (turns : List Turn) (e : EdgeRec) (more : List EdgeRec) (i : Instr),
    s.turns = .edge p :: turns → s.stations[p]? = some st → st.edgeQ = e :: more → decode (.inev e) = .ok i →
    st.phase ≠ .dead → st.InTime e.now → ¬ st.Room s.cfg →
    ((e.line = 0b00 → WindowOver s.cfg.wEnc e.now st.lastAccClk) ∧
      (e.line = 0b01 → WindowOver s.cfg.wEnc e.now st.lastAccDt) ∧
      (e.line = 0b10 → WindowOver s.cfg.wBtn e.now st.lastAccBtn)) →
    (if e.line = 0b10 then e.btn = false
      else (afterTransition s.cfg p (st.lastEnc ++ encOf e.clk e.dt) st).events ≠ st.events) →
    step s = .next { s with turns := turns, sel := p, quantum := 0 }

/-- Four confirmed steps in one direction make exactly one event, from any count and whatever steps of the other
direction stand (R604, R605): four transition codes of one class, one after the other, leave one more Turn event of that
direction, the direction's count as it was, and `turn_counter` moved by one. From count 0 the event comes with the
fourth. -/
def Obligations.FourStepsOneEvent : Prop :=
  ∀ (i₁ i₂ i₃ i₄ : Instr) (a b c d : BitVec 4) (dir : Direction) (s : State) (st : Station),
    encode i₁ = .qsum a → encode i₂ = .qsum b → encode i₃ = .qsum c → encode i₄ = .qsum d →
    transitionClass a = some dir → transitionClass b = some dir → transitionClass c = some dir →
    transitionClass d = some dir → s.here = some st → st.phase ≠ .dead → st.Room s.cfg →
    ∃ t₁ t₂ t₃ t₄ st₃ st₄, exec i₁ s = .next t₁ ∧ exec i₂ t₁ = .next t₂ ∧ exec i₃ t₂ = .next t₃ ∧
      exec i₄ t₃ = .next t₄ ∧ t₃.here = some st₃ ∧ t₄.here = some st₄ ∧
      st₄.events = st.events ++ [.turn s.sel dir] ∧
      (dir = .cw → st₄.cwCnt = st.cwCnt ∧ st₄.turnCounter = st.turnCounter + 1 ∧
        (st.cwCnt = 0 → st₃.events = st.events)) ∧
      (dir = .ccw → st₄.ccwCnt = st.ccwCnt ∧ st₄.turnCounter = st.turnCounter - 1 ∧
        (st.ccwCnt = 0 → st₃.events = st.events))

/-! ## Frames -/

/-- What a card engine's turn with any host command or FRAME leaves alone (R100, R102): the parameters, the turns, every
other station, the decoder's and the filter's registers and the events of its own, its inputs; `inited` and `rst_out`
but for INIT; `auth_warn` but for AUTH and the sector commands; the lock but for INIT, ACQUIRE, RELEASE and the session
commands, and but for the release of a command that is cancelled. The bus trace only grows, by records of the
station. -/
def Obligations.CommandFrame : Prop :=
  ∀ (i : Instr) (prog : Prog CmdEnd) (s t : State) (st : Station), programOf s.cfg i = some prog →
    s.here = some st → exec i s = .next t →
    t.cfg = s.cfg ∧ t.turns = s.turns ∧ t.sel = s.sel ∧ t.quantum = s.quantum ∧
    t.stations.length = s.stations.length ∧ (∀ p, p ≠ s.sel → t.stations[p]? = s.stations[p]?) ∧
    (∃ new, t.trace = s.trace ++ new ∧ ∀ x ∈ new, x.station = s.sel) ∧
    ∃ st', t.here = some st' ∧
      st'.lastEnc = st.lastEnc ∧ st'.cwCnt = st.cwCnt ∧ st'.ccwCnt = st.ccwCnt ∧
      st'.turnCounter = st.turnCounter ∧ st'.lastAccClk = st.lastAccClk ∧ st'.lastAccDt = st.lastAccDt ∧
      st'.lastAccBtn = st.lastAccBtn ∧ st'.events = st.events ∧ st'.hwOk = st.hwOk ∧ st'.hostQ = st.hostQ ∧
      st'.edgeQ = st.edgeQ ∧ st'.probeQ = st.probeQ ∧ st'.envNow = st.envNow ∧
      (∃ used, st.chipQ = used ++ st'.chipQ) ∧
      (i ≠ .init → st'.inited = st.inited ∧ st'.rstOut = st.rstOut) ∧
      (runsAuthenticate i = false → st'.authWarn = st.authWarn) ∧
      (usesLock i = false → t.lockOwner = s.lockOwner ∨
        (s.Owns ∧ t.lockOwner = none ∧ st'.res = { Res.absent with status := some .cancelled }))

/-- What an edge or a transition code leaves alone (R100, R600, R603, R607): everything but the registers of its unit. An
edge on CLK leaves the other lines' times alone, and so do DT and BTN; a BTN edge leaves the decoder's registers
alone; a transition code leaves all three times and the environment's clock alone. -/
def Obligations.EdgeFrame : Prop :=
  ∀ (now : Nat) (clk dt btn : Bool) (i : Instr) (s t : State) (st : Station), s.here = some st →
    exec i s = .next t →
    (i = .encoderEdgeClk now clk dt btn → ∃ st', t = s.modifyHere (fun _ => st') ∧
      st' = { st with
        lastEnc := st'.lastEnc, cwCnt := st'.cwCnt, ccwCnt := st'.ccwCnt, turnCounter := st'.turnCounter
        events := st'.events, lastAccClk := st'.lastAccClk, envNow := st'.envNow }) ∧
    (i = .encoderEdgeDt now clk dt btn → ∃ st', t = s.modifyHere (fun _ => st') ∧
      st' = { st with
        lastEnc := st'.lastEnc, cwCnt := st'.cwCnt, ccwCnt := st'.ccwCnt, turnCounter := st'.turnCounter
        events := st'.events, lastAccDt := st'.lastAccDt, envNow := st'.envNow }) ∧
    (i = .buttonEdge now clk dt btn → ∃ st', t = s.modifyHere (fun _ => st') ∧
      st' = { st with events := st'.events, lastAccBtn := st'.lastAccBtn, envNow := st'.envNow }) ∧
    (∀ sum, encode i = .qsum sum → ∃ st', t = s.modifyHere (fun _ => st') ∧
      st' = { st with
        lastEnc := st'.lastEnc, cwCnt := st'.cwCnt, ccwCnt := st'.ccwCnt, turnCounter := st'.turnCounter
        events := st'.events })

/-- The bounds of R831, with MAX_POLLS 10 and AUTHENT and TRANSCEIVE distinct codes: however a command is spread over
turns and whatever the chip answers, the records it has issued before a turn and those of the turn are together no more
than its row says; and while it runs, the count of those issued before the next turn is what the turn makes it. That a
running command passed its operand checks is part of the invariant (StepKeepsInv). -/
def Obligations.TransactionBounds : Prop :=
  ∀ (i : Instr) (n : Nat) (prog : Prog CmdEnd) (s t : State) (st : Station), transactionBound s.cfg i = some n →
    programOf s.cfg i = some prog → s.cfg.maxPolls = 10 → s.cfg.cmdAuthent ≠ s.cfg.cmdTransceive →
    s.here = some st → (st.phase = .idle ∨ st.phase = .busy ∧ st.cur = some (.known i) ∧ Accepted s.cfg i) →
    exec i s = .next t →
    t.trace.length + st.issued prog ≤ s.trace.length + n ∧
    (∀ st', t.here = some st' → st'.phase = .busy →
      t.trace.length + st.issued prog = s.trace.length + st'.issued prog)
end

