-- ==== Sys2Proof/Laws/State.lean ====
section
/-! SUPPORT. One lemma per field per update of State and Station, so that no proof unfolds a record update. -/

namespace Sys2Proof.Machine

open Sys2Proof

/-! ## Updates of State -/

@[simp] theorem State.modifyHere_cfg (f : Station → Station) (s : State) : (State.modifyHere f s).cfg = s.cfg := rfl

@[simp] theorem State.modifyHere_stations (f : Station → Station) (s : State) : (State.modifyHere f s).stations = s.stations.modify s.sel f := rfl

@[simp] theorem State.modifyHere_lockOwner (f : Station → Station) (s : State) : (State.modifyHere f s).lockOwner = s.lockOwner := rfl

@[simp] theorem State.modifyHere_trace (f : Station → Station) (s : State) : (State.modifyHere f s).trace = s.trace := rfl

@[simp] theorem State.modifyHere_turns (f : Station → Station) (s : State) : (State.modifyHere f s).turns = s.turns := rfl

@[simp] theorem State.modifyHere_sel (f : Station → Station) (s : State) : (State.modifyHere f s).sel = s.sel := rfl

@[simp] theorem State.modifyHere_quantum (f : Station → Station) (s : State) : (State.modifyHere f s).quantum = s.quantum := rfl

@[simp] theorem State.modifyHere_draws (f : Station → Station) (s : State) : (State.modifyHere f s).draws = s.draws := rfl

@[simp] theorem State.record_cfg (k : TxnKind) (a : RegAddr) (v : Byte) (s : State) : (State.record k a v s).cfg = s.cfg := rfl

@[simp] theorem State.record_stations (k : TxnKind) (a : RegAddr) (v : Byte) (s : State) : (State.record k a v s).stations = s.stations := rfl

@[simp] theorem State.record_lockOwner (k : TxnKind) (a : RegAddr) (v : Byte) (s : State) : (State.record k a v s).lockOwner = s.lockOwner := rfl

@[simp] theorem State.record_trace (k : TxnKind) (a : RegAddr) (v : Byte) (s : State) : (State.record k a v s).trace = s.trace ++ [⟨s.sel, k, a, v⟩] := rfl

@[simp] theorem State.record_turns (k : TxnKind) (a : RegAddr) (v : Byte) (s : State) : (State.record k a v s).turns = s.turns := rfl

@[simp] theorem State.record_sel (k : TxnKind) (a : RegAddr) (v : Byte) (s : State) : (State.record k a v s).sel = s.sel := rfl

@[simp] theorem State.record_quantum (k : TxnKind) (a : RegAddr) (v : Byte) (s : State) : (State.record k a v s).quantum = s.quantum := rfl

@[simp] theorem State.record_draws (k : TxnKind) (a : RegAddr) (v : Byte) (s : State) : (State.record k a v s).draws = s.draws := rfl

@[simp] theorem State.takeLock_cfg (s : State) : (State.takeLock s).cfg = s.cfg := rfl

@[simp] theorem State.takeLock_stations (s : State) : (State.takeLock s).stations = s.stations := rfl

@[simp] theorem State.takeLock_lockOwner (s : State) : (State.takeLock s).lockOwner = some s.sel := rfl

@[simp] theorem State.takeLock_trace (s : State) : (State.takeLock s).trace = s.trace := rfl

@[simp] theorem State.takeLock_turns (s : State) : (State.takeLock s).turns = s.turns := rfl

@[simp] theorem State.takeLock_sel (s : State) : (State.takeLock s).sel = s.sel := rfl

@[simp] theorem State.takeLock_quantum (s : State) : (State.takeLock s).quantum = s.quantum := rfl

@[simp] theorem State.takeLock_draws (s : State) : (State.takeLock s).draws = s.draws := rfl

@[simp] theorem State.answered_cfg (b : Byte) (s : State) : (State.answered b s).cfg = s.cfg := rfl

@[simp] theorem State.answered_stations (b : Byte) (s : State) : (State.answered b s).stations = s.stations.modify s.sel (Station.advance b) := rfl

@[simp] theorem State.answered_lockOwner (b : Byte) (s : State) : (State.answered b s).lockOwner = s.lockOwner := rfl

@[simp] theorem State.answered_trace (b : Byte) (s : State) : (State.answered b s).trace = s.trace := rfl

@[simp] theorem State.answered_turns (b : Byte) (s : State) : (State.answered b s).turns = s.turns := rfl

@[simp] theorem State.answered_sel (b : Byte) (s : State) : (State.answered b s).sel = s.sel := rfl

@[simp] theorem State.answered_quantum (b : Byte) (s : State) : (State.answered b s).quantum = s.quantum := rfl

@[simp] theorem State.answered_draws (b : Byte) (s : State) : (State.answered b s).draws = s.draws := rfl

@[simp] theorem State.illegal_cfg (op : Byte) (operands : List Byte) (s : State) : (State.illegal op operands s).cfg = s.cfg := rfl

@[simp] theorem State.illegal_lockOwner (op : Byte) (operands : List Byte) (s : State) : (State.illegal op operands s).lockOwner = s.lockOwner := rfl

@[simp] theorem State.illegal_trace (op : Byte) (operands : List Byte) (s : State) : (State.illegal op operands s).trace = s.trace := rfl

@[simp] theorem State.illegal_turns (op : Byte) (operands : List Byte) (s : State) : (State.illegal op operands s).turns = s.turns := rfl

@[simp] theorem State.illegal_sel (op : Byte) (operands : List Byte) (s : State) : (State.illegal op operands s).sel = s.sel := rfl

@[simp] theorem State.illegal_quantum (op : Byte) (operands : List Byte) (s : State) : (State.illegal op operands s).quantum = s.quantum := rfl

@[simp] theorem State.illegal_draws (op : Byte) (operands : List Byte) (s : State) : (State.illegal op operands s).draws = s.draws := rfl

@[simp] theorem State.select_cfg (t : Turn) (s : State) : (State.select t s).cfg = s.cfg := rfl

@[simp] theorem State.select_stations (t : Turn) (s : State) : (State.select t s).stations = s.stations := rfl

@[simp] theorem State.select_lockOwner (t : Turn) (s : State) : (State.select t s).lockOwner = s.lockOwner := rfl

@[simp] theorem State.select_trace (t : Turn) (s : State) : (State.select t s).trace = s.trace := rfl

@[simp] theorem State.select_turns (t : Turn) (s : State) : (State.select t s).turns = s.turns := rfl

@[simp] theorem State.select_sel (t : Turn) (s : State) : (State.select t s).sel = t.station := rfl

@[simp] theorem State.select_quantum (t : Turn) (s : State) : (State.select t s).quantum = t.quantum := rfl

@[simp] theorem State.select_draws (t : Turn) (s : State) : (State.select t s).draws = s.draws := rfl

@[simp] theorem State.releaseLock_cfg (s : State) : (State.releaseLock s).cfg = s.cfg := by
  unfold State.releaseLock; split <;> simp_all

@[simp] theorem State.releaseLock_stations (s : State) : (State.releaseLock s).stations = s.stations := by
  unfold State.releaseLock; split <;> simp_all

@[simp] theorem State.releaseLock_lockOwner (s : State) : (State.releaseLock s).lockOwner = if s.lockOwner = some s.sel then none else s.lockOwner := by
  unfold State.releaseLock; split <;> simp_all

@[simp] theorem State.releaseLock_trace (s : State) : (State.releaseLock s).trace = s.trace := by
  unfold State.releaseLock; split <;> simp_all

@[simp] theorem State.releaseLock_turns (s : State) : (State.releaseLock s).turns = s.turns := by
  unfold State.releaseLock; split <;> simp_all

@[simp] theorem State.releaseLock_sel (s : State) : (State.releaseLock s).sel = s.sel := by
  unfold State.releaseLock; split <;> simp_all

@[simp] theorem State.releaseLock_quantum (s : State) : (State.releaseLock s).quantum = s.quantum := by
  unfold State.releaseLock; split <;> simp_all

@[simp] theorem State.releaseLock_draws (s : State) : (State.releaseLock s).draws = s.draws := by
  unfold State.releaseLock; split <;> simp_all

@[simp] theorem State.abort_cfg (s : State) : (State.abort s).cfg = s.cfg := by
  simp [State.abort]

@[simp] theorem State.abort_stations (s : State) : (State.abort s).stations = s.stations.modify s.sel (Station.finish (Res.ofStatus .cancelled)) := by
  simp [State.abort]

@[simp] theorem State.abort_lockOwner (s : State) : (State.abort s).lockOwner = if s.lockOwner = some s.sel then none else s.lockOwner := by
  simp [State.abort]

@[simp] theorem State.abort_trace (s : State) : (State.abort s).trace = s.trace := by
  simp [State.abort]

@[simp] theorem State.abort_turns (s : State) : (State.abort s).turns = s.turns := by
  simp [State.abort]

@[simp] theorem State.abort_sel (s : State) : (State.abort s).sel = s.sel := by
  simp [State.abort]

@[simp] theorem State.abort_quantum (s : State) : (State.abort s).quantum = s.quantum := by
  simp [State.abort]

@[simp] theorem State.abort_draws (s : State) : (State.abort s).draws = s.draws := by
  simp [State.abort]

@[simp] theorem State.takeAnswer_cfg (s : State) : (State.takeAnswer s).cfg = s.cfg := by
  unfold State.takeAnswer; repeat' split
  all_goals rfl

@[simp] theorem State.takeAnswer_lockOwner (s : State) : (State.takeAnswer s).lockOwner = s.lockOwner := by
  unfold State.takeAnswer; repeat' split
  all_goals rfl

@[simp] theorem State.takeAnswer_trace (s : State) : (State.takeAnswer s).trace = s.trace := by
  unfold State.takeAnswer; repeat' split
  all_goals rfl

@[simp] theorem State.takeAnswer_turns (s : State) : (State.takeAnswer s).turns = s.turns := by
  unfold State.takeAnswer; repeat' split
  all_goals rfl

@[simp] theorem State.takeAnswer_sel (s : State) : (State.takeAnswer s).sel = s.sel := by
  unfold State.takeAnswer; repeat' split
  all_goals rfl

@[simp] theorem State.takeAnswer_quantum (s : State) : (State.takeAnswer s).quantum = s.quantum := by
  unfold State.takeAnswer; repeat' split
  all_goals rfl

@[simp] theorem State.completed_cfg (i : Instr) (txns : List Txn) (owner : Option Nat) (ws : List RegWrite) (rest : List Byte) (r : Res) (s : State) : (State.completed i txns owner ws rest r s).cfg = s.cfg := rfl

@[simp] theorem State.completed_lockOwner (i : Instr) (txns : List Txn) (owner : Option Nat) (ws : List RegWrite) (rest : List Byte) (r : Res) (s : State) : (State.completed i txns owner ws rest r s).lockOwner = owner := rfl

@[simp] theorem State.completed_trace (i : Instr) (txns : List Txn) (owner : Option Nat) (ws : List RegWrite) (rest : List Byte) (r : Res) (s : State) : (State.completed i txns owner ws rest r s).trace = s.trace ++ txns := rfl

@[simp] theorem State.completed_turns (i : Instr) (txns : List Txn) (owner : Option Nat) (ws : List RegWrite) (rest : List Byte) (r : Res) (s : State) : (State.completed i txns owner ws rest r s).turns = s.turns := rfl

@[simp] theorem State.completed_sel (i : Instr) (txns : List Txn) (owner : Option Nat) (ws : List RegWrite) (rest : List Byte) (r : Res) (s : State) : (State.completed i txns owner ws rest r s).sel = s.sel := rfl

@[simp] theorem State.completed_quantum (i : Instr) (txns : List Txn) (owner : Option Nat) (ws : List RegWrite) (rest : List Byte) (r : Res) (s : State) : (State.completed i txns owner ws rest r s).quantum = s.quantum := rfl

@[simp] theorem State.completed_draws (i : Instr) (txns : List Txn) (owner : Option Nat) (ws : List RegWrite) (rest : List Byte) (r : Res) (s : State) : (State.completed i txns owner ws rest r s).draws = s.draws := rfl

/-! ## Updates of Station -/

@[simp] theorem Station.accept_lastEnc (c : Command) (st : Station) : (Station.accept c st).lastEnc = st.lastEnc := rfl

@[simp] theorem Station.accept_cwCnt (c : Command) (st : Station) : (Station.accept c st).cwCnt = st.cwCnt := rfl

@[simp] theorem Station.accept_ccwCnt (c : Command) (st : Station) : (Station.accept c st).ccwCnt = st.ccwCnt := rfl

@[simp] theorem Station.accept_turnCounter (c : Command) (st : Station) : (Station.accept c st).turnCounter = st.turnCounter := rfl

@[simp] theorem Station.accept_lastAccClk (c : Command) (st : Station) : (Station.accept c st).lastAccClk = st.lastAccClk := rfl

@[simp] theorem Station.accept_lastAccDt (c : Command) (st : Station) : (Station.accept c st).lastAccDt = st.lastAccDt := rfl

@[simp] theorem Station.accept_lastAccBtn (c : Command) (st : Station) : (Station.accept c st).lastAccBtn = st.lastAccBtn := rfl

@[simp] theorem Station.accept_events (c : Command) (st : Station) : (Station.accept c st).events = st.events := rfl

@[simp] theorem Station.accept_phase (c : Command) (st : Station) : (Station.accept c st).phase = .busy := rfl

@[simp] theorem Station.accept_inited (c : Command) (st : Station) : (Station.accept c st).inited = st.inited := rfl

@[simp] theorem Station.accept_cur (c : Command) (st : Station) : (Station.accept c st).cur = some c := rfl

@[simp] theorem Station.accept_cancelReq (c : Command) (st : Station) : (Station.accept c st).cancelReq = st.cancelReq := rfl

@[simp] theorem Station.accept_res (c : Command) (st : Station) : (Station.accept c st).res = st.res := rfl

@[simp] theorem Station.accept_results (c : Command) (st : Station) : (Station.accept c st).results = st.results := rfl

@[simp] theorem Station.accept_authWarn (c : Command) (st : Station) : (Station.accept c st).authWarn = st.authWarn := rfl

@[simp] theorem Station.accept_rstOut (c : Command) (st : Station) : (Station.accept c st).rstOut = st.rstOut := rfl

@[simp] theorem Station.accept_pos (c : Command) (st : Station) : (Station.accept c st).pos = [] := rfl

@[simp] theorem Station.accept_attempts (c : Command) (st : Station) : (Station.accept c st).attempts = 0 := rfl

@[simp] theorem Station.accept_hwOk (c : Command) (st : Station) : (Station.accept c st).hwOk = st.hwOk := rfl

@[simp] theorem Station.accept_hostQ (c : Command) (st : Station) : (Station.accept c st).hostQ = st.hostQ := rfl

@[simp] theorem Station.accept_edgeQ (c : Command) (st : Station) : (Station.accept c st).edgeQ = st.edgeQ := rfl

@[simp] theorem Station.accept_probeQ (c : Command) (st : Station) : (Station.accept c st).probeQ = st.probeQ := rfl

@[simp] theorem Station.accept_chipQ (c : Command) (st : Station) : (Station.accept c st).chipQ = st.chipQ := rfl

@[simp] theorem Station.accept_envNow (c : Command) (st : Station) : (Station.accept c st).envNow = st.envNow := rfl

@[simp] theorem Station.finish_lastEnc (r : Res) (st : Station) : (Station.finish r st).lastEnc = st.lastEnc := rfl

@[simp] theorem Station.finish_cwCnt (r : Res) (st : Station) : (Station.finish r st).cwCnt = st.cwCnt := rfl

@[simp] theorem Station.finish_ccwCnt (r : Res) (st : Station) : (Station.finish r st).ccwCnt = st.ccwCnt := rfl

@[simp] theorem Station.finish_turnCounter (r : Res) (st : Station) : (Station.finish r st).turnCounter = st.turnCounter := rfl

@[simp] theorem Station.finish_lastAccClk (r : Res) (st : Station) : (Station.finish r st).lastAccClk = st.lastAccClk := rfl

@[simp] theorem Station.finish_lastAccDt (r : Res) (st : Station) : (Station.finish r st).lastAccDt = st.lastAccDt := rfl

@[simp] theorem Station.finish_lastAccBtn (r : Res) (st : Station) : (Station.finish r st).lastAccBtn = st.lastAccBtn := rfl

@[simp] theorem Station.finish_events (r : Res) (st : Station) : (Station.finish r st).events = st.events := rfl

@[simp] theorem Station.finish_phase (r : Res) (st : Station) : (Station.finish r st).phase = if r.status = some .hwFail then .dead else .idle := rfl

@[simp] theorem Station.finish_inited (r : Res) (st : Station) : (Station.finish r st).inited = st.inited := rfl

@[simp] theorem Station.finish_cur (r : Res) (st : Station) : (Station.finish r st).cur = st.cur := rfl

@[simp] theorem Station.finish_cancelReq (r : Res) (st : Station) : (Station.finish r st).cancelReq = false := rfl

@[simp] theorem Station.finish_res (r : Res) (st : Station) : (Station.finish r st).res = r := rfl

@[simp] theorem Station.finish_results (r : Res) (st : Station) : (Station.finish r st).results = st.results ++ [r] := rfl

@[simp] theorem Station.finish_authWarn (r : Res) (st : Station) : (Station.finish r st).authWarn = st.authWarn := rfl

@[simp] theorem Station.finish_rstOut (r : Res) (st : Station) : (Station.finish r st).rstOut = st.rstOut := rfl

@[simp] theorem Station.finish_pos (r : Res) (st : Station) : (Station.finish r st).pos = [] := rfl

@[simp] theorem Station.finish_attempts (r : Res) (st : Station) : (Station.finish r st).attempts = 0 := rfl

@[simp] theorem Station.finish_hwOk (r : Res) (st : Station) : (Station.finish r st).hwOk = st.hwOk := rfl

@[simp] theorem Station.finish_hostQ (r : Res) (st : Station) : (Station.finish r st).hostQ = st.hostQ := rfl

@[simp] theorem Station.finish_edgeQ (r : Res) (st : Station) : (Station.finish r st).edgeQ = st.edgeQ := rfl

@[simp] theorem Station.finish_probeQ (r : Res) (st : Station) : (Station.finish r st).probeQ = st.probeQ := rfl

@[simp] theorem Station.finish_chipQ (r : Res) (st : Station) : (Station.finish r st).chipQ = st.chipQ := rfl

@[simp] theorem Station.finish_envNow (r : Res) (st : Station) : (Station.finish r st).envNow = st.envNow := rfl

@[simp] theorem Station.advance_lastEnc (b : Byte) (st : Station) : (Station.advance b st).lastEnc = st.lastEnc := rfl

@[simp] theorem Station.advance_cwCnt (b : Byte) (st : Station) : (Station.advance b st).cwCnt = st.cwCnt := rfl

@[simp] theorem Station.advance_ccwCnt (b : Byte) (st : Station) : (Station.advance b st).ccwCnt = st.ccwCnt := rfl

@[simp] theorem Station.advance_turnCounter (b : Byte) (st : Station) : (Station.advance b st).turnCounter = st.turnCounter := rfl

@[simp] theorem Station.advance_lastAccClk (b : Byte) (st : Station) : (Station.advance b st).lastAccClk = st.lastAccClk := rfl

@[simp] theorem Station.advance_lastAccDt (b : Byte) (st : Station) : (Station.advance b st).lastAccDt = st.lastAccDt := rfl

@[simp] theorem Station.advance_lastAccBtn (b : Byte) (st : Station) : (Station.advance b st).lastAccBtn = st.lastAccBtn := rfl

@[simp] theorem Station.advance_events (b : Byte) (st : Station) : (Station.advance b st).events = st.events := rfl

@[simp] theorem Station.advance_phase (b : Byte) (st : Station) : (Station.advance b st).phase = st.phase := rfl

@[simp] theorem Station.advance_inited (b : Byte) (st : Station) : (Station.advance b st).inited = st.inited := rfl

@[simp] theorem Station.advance_cur (b : Byte) (st : Station) : (Station.advance b st).cur = st.cur := rfl

@[simp] theorem Station.advance_cancelReq (b : Byte) (st : Station) : (Station.advance b st).cancelReq = st.cancelReq := rfl

@[simp] theorem Station.advance_res (b : Byte) (st : Station) : (Station.advance b st).res = st.res := rfl

@[simp] theorem Station.advance_results (b : Byte) (st : Station) : (Station.advance b st).results = st.results := rfl

@[simp] theorem Station.advance_authWarn (b : Byte) (st : Station) : (Station.advance b st).authWarn = st.authWarn := rfl

@[simp] theorem Station.advance_rstOut (b : Byte) (st : Station) : (Station.advance b st).rstOut = st.rstOut := rfl

@[simp] theorem Station.advance_pos (b : Byte) (st : Station) : (Station.advance b st).pos = st.pos ++ [b] := rfl

@[simp] theorem Station.advance_attempts (b : Byte) (st : Station) : (Station.advance b st).attempts = st.attempts := rfl

@[simp] theorem Station.advance_hwOk (b : Byte) (st : Station) : (Station.advance b st).hwOk = st.hwOk := rfl

@[simp] theorem Station.advance_hostQ (b : Byte) (st : Station) : (Station.advance b st).hostQ = st.hostQ := rfl

@[simp] theorem Station.advance_edgeQ (b : Byte) (st : Station) : (Station.advance b st).edgeQ = st.edgeQ := rfl

@[simp] theorem Station.advance_probeQ (b : Byte) (st : Station) : (Station.advance b st).probeQ = st.probeQ := rfl

@[simp] theorem Station.advance_chipQ (b : Byte) (st : Station) : (Station.advance b st).chipQ = st.chipQ := rfl

@[simp] theorem Station.advance_envNow (b : Byte) (st : Station) : (Station.advance b st).envNow = st.envNow := rfl

@[simp] theorem Station.emit_lastEnc (e : Event) (st : Station) : (Station.emit e st).lastEnc = st.lastEnc := rfl

@[simp] theorem Station.emit_cwCnt (e : Event) (st : Station) : (Station.emit e st).cwCnt = st.cwCnt := rfl

@[simp] theorem Station.emit_ccwCnt (e : Event) (st : Station) : (Station.emit e st).ccwCnt = st.ccwCnt := rfl

@[simp] theorem Station.emit_turnCounter (e : Event) (st : Station) : (Station.emit e st).turnCounter = st.turnCounter := rfl

@[simp] theorem Station.emit_lastAccClk (e : Event) (st : Station) : (Station.emit e st).lastAccClk = st.lastAccClk := rfl

@[simp] theorem Station.emit_lastAccDt (e : Event) (st : Station) : (Station.emit e st).lastAccDt = st.lastAccDt := rfl

@[simp] theorem Station.emit_lastAccBtn (e : Event) (st : Station) : (Station.emit e st).lastAccBtn = st.lastAccBtn := rfl

@[simp] theorem Station.emit_events (e : Event) (st : Station) : (Station.emit e st).events = st.events ++ [e] := rfl

@[simp] theorem Station.emit_phase (e : Event) (st : Station) : (Station.emit e st).phase = st.phase := rfl

@[simp] theorem Station.emit_inited (e : Event) (st : Station) : (Station.emit e st).inited = st.inited := rfl

@[simp] theorem Station.emit_cur (e : Event) (st : Station) : (Station.emit e st).cur = st.cur := rfl

@[simp] theorem Station.emit_cancelReq (e : Event) (st : Station) : (Station.emit e st).cancelReq = st.cancelReq := rfl

@[simp] theorem Station.emit_res (e : Event) (st : Station) : (Station.emit e st).res = st.res := rfl

@[simp] theorem Station.emit_results (e : Event) (st : Station) : (Station.emit e st).results = st.results := rfl

@[simp] theorem Station.emit_authWarn (e : Event) (st : Station) : (Station.emit e st).authWarn = st.authWarn := rfl

@[simp] theorem Station.emit_rstOut (e : Event) (st : Station) : (Station.emit e st).rstOut = st.rstOut := rfl

@[simp] theorem Station.emit_pos (e : Event) (st : Station) : (Station.emit e st).pos = st.pos := rfl

@[simp] theorem Station.emit_attempts (e : Event) (st : Station) : (Station.emit e st).attempts = st.attempts := rfl

@[simp] theorem Station.emit_hwOk (e : Event) (st : Station) : (Station.emit e st).hwOk = st.hwOk := rfl

@[simp] theorem Station.emit_hostQ (e : Event) (st : Station) : (Station.emit e st).hostQ = st.hostQ := rfl

@[simp] theorem Station.emit_edgeQ (e : Event) (st : Station) : (Station.emit e st).edgeQ = st.edgeQ := rfl

@[simp] theorem Station.emit_probeQ (e : Event) (st : Station) : (Station.emit e st).probeQ = st.probeQ := rfl

@[simp] theorem Station.emit_chipQ (e : Event) (st : Station) : (Station.emit e st).chipQ = st.chipQ := rfl

@[simp] theorem Station.emit_envNow (e : Event) (st : Station) : (Station.emit e st).envNow = st.envNow := rfl

@[simp] theorem Station.setLastAcc_lastEnc (l : Line) (now : Nat) (st : Station) : (Station.setLastAcc l now st).lastEnc = st.lastEnc := by
  cases l <;> rfl

@[simp] theorem Station.setLastAcc_cwCnt (l : Line) (now : Nat) (st : Station) : (Station.setLastAcc l now st).cwCnt = st.cwCnt := by
  cases l <;> rfl

@[simp] theorem Station.setLastAcc_ccwCnt (l : Line) (now : Nat) (st : Station) : (Station.setLastAcc l now st).ccwCnt = st.ccwCnt := by
  cases l <;> rfl

@[simp] theorem Station.setLastAcc_turnCounter (l : Line) (now : Nat) (st : Station) : (Station.setLastAcc l now st).turnCounter = st.turnCounter := by
  cases l <;> rfl

@[simp] theorem Station.setLastAcc_events (l : Line) (now : Nat) (st : Station) : (Station.setLastAcc l now st).events = st.events := by
  cases l <;> rfl

@[simp] theorem Station.setLastAcc_phase (l : Line) (now : Nat) (st : Station) : (Station.setLastAcc l now st).phase = st.phase := by
  cases l <;> rfl

@[simp] theorem Station.setLastAcc_inited (l : Line) (now : Nat) (st : Station) : (Station.setLastAcc l now st).inited = st.inited := by
  cases l <;> rfl

@[simp] theorem Station.setLastAcc_cur (l : Line) (now : Nat) (st : Station) : (Station.setLastAcc l now st).cur = st.cur := by
  cases l <;> rfl

@[simp] theorem Station.setLastAcc_cancelReq (l : Line) (now : Nat) (st : Station) : (Station.setLastAcc l now st).cancelReq = st.cancelReq := by
  cases l <;> rfl

@[simp] theorem Station.setLastAcc_res (l : Line) (now : Nat) (st : Station) : (Station.setLastAcc l now st).res = st.res := by
  cases l <;> rfl

@[simp] theorem Station.setLastAcc_results (l : Line) (now : Nat) (st : Station) : (Station.setLastAcc l now st).results = st.results := by
  cases l <;> rfl

@[simp] theorem Station.setLastAcc_authWarn (l : Line) (now : Nat) (st : Station) : (Station.setLastAcc l now st).authWarn = st.authWarn := by
  cases l <;> rfl

@[simp] theorem Station.setLastAcc_rstOut (l : Line) (now : Nat) (st : Station) : (Station.setLastAcc l now st).rstOut = st.rstOut := by
  cases l <;> rfl

@[simp] theorem Station.setLastAcc_pos (l : Line) (now : Nat) (st : Station) : (Station.setLastAcc l now st).pos = st.pos := by
  cases l <;> rfl

@[simp] theorem Station.setLastAcc_attempts (l : Line) (now : Nat) (st : Station) : (Station.setLastAcc l now st).attempts = st.attempts := by
  cases l <;> rfl

@[simp] theorem Station.setLastAcc_hwOk (l : Line) (now : Nat) (st : Station) : (Station.setLastAcc l now st).hwOk = st.hwOk := by
  cases l <;> rfl

@[simp] theorem Station.setLastAcc_hostQ (l : Line) (now : Nat) (st : Station) : (Station.setLastAcc l now st).hostQ = st.hostQ := by
  cases l <;> rfl

@[simp] theorem Station.setLastAcc_edgeQ (l : Line) (now : Nat) (st : Station) : (Station.setLastAcc l now st).edgeQ = st.edgeQ := by
  cases l <;> rfl

@[simp] theorem Station.setLastAcc_probeQ (l : Line) (now : Nat) (st : Station) : (Station.setLastAcc l now st).probeQ = st.probeQ := by
  cases l <;> rfl

@[simp] theorem Station.setLastAcc_chipQ (l : Line) (now : Nat) (st : Station) : (Station.setLastAcc l now st).chipQ = st.chipQ := by
  cases l <;> rfl

@[simp] theorem Station.setLastAcc_envNow (l : Line) (now : Nat) (st : Station) : (Station.setLastAcc l now st).envNow = st.envNow := by
  cases l <;> rfl

@[simp] theorem RegWrite.apply_lastEnc (w : RegWrite) (st : Station) : (RegWrite.apply w st).lastEnc = st.lastEnc := by
  cases w <;> rfl

@[simp] theorem RegWrite.apply_cwCnt (w : RegWrite) (st : Station) : (RegWrite.apply w st).cwCnt = st.cwCnt := by
  cases w <;> rfl

@[simp] theorem RegWrite.apply_ccwCnt (w : RegWrite) (st : Station) : (RegWrite.apply w st).ccwCnt = st.ccwCnt := by
  cases w <;> rfl

@[simp] theorem RegWrite.apply_turnCounter (w : RegWrite) (st : Station) : (RegWrite.apply w st).turnCounter = st.turnCounter := by
  cases w <;> rfl

@[simp] theorem RegWrite.apply_lastAccClk (w : RegWrite) (st : Station) : (RegWrite.apply w st).lastAccClk = st.lastAccClk := by
  cases w <;> rfl

@[simp] theorem RegWrite.apply_lastAccDt (w : RegWrite) (st : Station) : (RegWrite.apply w st).lastAccDt = st.lastAccDt := by
  cases w <;> rfl

@[simp] theorem RegWrite.apply_lastAccBtn (w : RegWrite) (st : Station) : (RegWrite.apply w st).lastAccBtn = st.lastAccBtn := by
  cases w <;> rfl

@[simp] theorem RegWrite.apply_events (w : RegWrite) (st : Station) : (RegWrite.apply w st).events = st.events := by
  cases w <;> rfl

@[simp] theorem RegWrite.apply_phase (w : RegWrite) (st : Station) : (RegWrite.apply w st).phase = st.phase := by
  cases w <;> rfl

@[simp] theorem RegWrite.apply_cur (w : RegWrite) (st : Station) : (RegWrite.apply w st).cur = st.cur := by
  cases w <;> rfl

@[simp] theorem RegWrite.apply_cancelReq (w : RegWrite) (st : Station) : (RegWrite.apply w st).cancelReq = st.cancelReq := by
  cases w <;> rfl

@[simp] theorem RegWrite.apply_res (w : RegWrite) (st : Station) : (RegWrite.apply w st).res = st.res := by
  cases w <;> rfl

@[simp] theorem RegWrite.apply_results (w : RegWrite) (st : Station) : (RegWrite.apply w st).results = st.results := by
  cases w <;> rfl

@[simp] theorem RegWrite.apply_pos (w : RegWrite) (st : Station) : (RegWrite.apply w st).pos = st.pos := by
  cases w <;> rfl

@[simp] theorem RegWrite.apply_attempts (w : RegWrite) (st : Station) : (RegWrite.apply w st).attempts = st.attempts := by
  cases w <;> rfl

@[simp] theorem RegWrite.apply_hwOk (w : RegWrite) (st : Station) : (RegWrite.apply w st).hwOk = st.hwOk := by
  cases w <;> rfl

@[simp] theorem RegWrite.apply_hostQ (w : RegWrite) (st : Station) : (RegWrite.apply w st).hostQ = st.hostQ := by
  cases w <;> rfl

@[simp] theorem RegWrite.apply_edgeQ (w : RegWrite) (st : Station) : (RegWrite.apply w st).edgeQ = st.edgeQ := by
  cases w <;> rfl

@[simp] theorem RegWrite.apply_probeQ (w : RegWrite) (st : Station) : (RegWrite.apply w st).probeQ = st.probeQ := by
  cases w <;> rfl

@[simp] theorem RegWrite.apply_chipQ (w : RegWrite) (st : Station) : (RegWrite.apply w st).chipQ = st.chipQ := by
  cases w <;> rfl

@[simp] theorem RegWrite.apply_envNow (w : RegWrite) (st : Station) : (RegWrite.apply w st).envNow = st.envNow := by
  cases w <;> rfl

@[simp] theorem applyWrites_lastEnc (ws : List RegWrite) (st : Station) : (applyWrites ws st).lastEnc = st.lastEnc := by
  induction ws generalizing st with
  | nil => rfl
  | cons w rest ih => simp [applyWrites, ih]

@[simp] theorem applyWrites_cwCnt (ws : List RegWrite) (st : Station) : (applyWrites ws st).cwCnt = st.cwCnt := by
  induction ws generalizing st with
  | nil => rfl
  | cons w rest ih => simp [applyWrites, ih]

@[simp] theorem applyWrites_ccwCnt (ws : List RegWrite) (st : Station) : (applyWrites ws st).ccwCnt = st.ccwCnt := by
  induction ws generalizing st with
  | nil => rfl
  | cons w rest ih => simp [applyWrites, ih]

@[simp] theorem applyWrites_turnCounter (ws : List RegWrite) (st : Station) : (applyWrites ws st).turnCounter = st.turnCounter := by
  induction ws generalizing st with
  | nil => rfl
  | cons w rest ih => simp [applyWrites, ih]

@[simp] theorem applyWrites_lastAccClk (ws : List RegWrite) (st : Station) : (applyWrites ws st).lastAccClk = st.lastAccClk := by
  induction ws generalizing st with
  | nil => rfl
  | cons w rest ih => simp [applyWrites, ih]

@[simp] theorem applyWrites_lastAccDt (ws : List RegWrite) (st : Station) : (applyWrites ws st).lastAccDt = st.lastAccDt := by
  induction ws generalizing st with
  | nil => rfl
  | cons w rest ih => simp [applyWrites, ih]

@[simp] theorem applyWrites_lastAccBtn (ws : List RegWrite) (st : Station) : (applyWrites ws st).lastAccBtn = st.lastAccBtn := by
  induction ws generalizing st with
  | nil => rfl
  | cons w rest ih => simp [applyWrites, ih]

@[simp] theorem applyWrites_events (ws : List RegWrite) (st : Station) : (applyWrites ws st).events = st.events := by
  induction ws generalizing st with
  | nil => rfl
  | cons w rest ih => simp [applyWrites, ih]

@[simp] theorem applyWrites_phase (ws : List RegWrite) (st : Station) : (applyWrites ws st).phase = st.phase := by
  induction ws generalizing st with
  | nil => rfl
  | cons w rest ih => simp [applyWrites, ih]

@[simp] theorem applyWrites_cur (ws : List RegWrite) (st : Station) : (applyWrites ws st).cur = st.cur := by
  induction ws generalizing st with
  | nil => rfl
  | cons w rest ih => simp [applyWrites, ih]

@[simp] theorem applyWrites_cancelReq (ws : List RegWrite) (st : Station) : (applyWrites ws st).cancelReq = st.cancelReq := by
  induction ws generalizing st with
  | nil => rfl
  | cons w rest ih => simp [applyWrites, ih]

@[simp] theorem applyWrites_res (ws : List RegWrite) (st : Station) : (applyWrites ws st).res = st.res := by
  induction ws generalizing st with
  | nil => rfl
  | cons w rest ih => simp [applyWrites, ih]

@[simp] theorem applyWrites_results (ws : List RegWrite) (st : Station) : (applyWrites ws st).results = st.results := by
  induction ws generalizing st with
  | nil => rfl
  | cons w rest ih => simp [applyWrites, ih]

@[simp] theorem applyWrites_pos (ws : List RegWrite) (st : Station) : (applyWrites ws st).pos = st.pos := by
  induction ws generalizing st with
  | nil => rfl
  | cons w rest ih => simp [applyWrites, ih]

@[simp] theorem applyWrites_attempts (ws : List RegWrite) (st : Station) : (applyWrites ws st).attempts = st.attempts := by
  induction ws generalizing st with
  | nil => rfl
  | cons w rest ih => simp [applyWrites, ih]

@[simp] theorem applyWrites_hwOk (ws : List RegWrite) (st : Station) : (applyWrites ws st).hwOk = st.hwOk := by
  induction ws generalizing st with
  | nil => rfl
  | cons w rest ih => simp [applyWrites, ih]

@[simp] theorem applyWrites_hostQ (ws : List RegWrite) (st : Station) : (applyWrites ws st).hostQ = st.hostQ := by
  induction ws generalizing st with
  | nil => rfl
  | cons w rest ih => simp [applyWrites, ih]

@[simp] theorem applyWrites_edgeQ (ws : List RegWrite) (st : Station) : (applyWrites ws st).edgeQ = st.edgeQ := by
  induction ws generalizing st with
  | nil => rfl
  | cons w rest ih => simp [applyWrites, ih]

@[simp] theorem applyWrites_probeQ (ws : List RegWrite) (st : Station) : (applyWrites ws st).probeQ = st.probeQ := by
  induction ws generalizing st with
  | nil => rfl
  | cons w rest ih => simp [applyWrites, ih]

@[simp] theorem applyWrites_chipQ (ws : List RegWrite) (st : Station) : (applyWrites ws st).chipQ = st.chipQ := by
  induction ws generalizing st with
  | nil => rfl
  | cons w rest ih => simp [applyWrites, ih]

@[simp] theorem applyWrites_envNow (ws : List RegWrite) (st : Station) : (applyWrites ws st).envNow = st.envNow := by
  induction ws generalizing st with
  | nil => rfl
  | cons w rest ih => simp [applyWrites, ih]

@[simp] theorem Station.fire_lastEnc (cfg : Config) (p : Nat) (d : Direction) (st : Station) : (Station.fire cfg p d st).lastEnc = st.lastEnc := by
  cases d <;> rfl

@[simp] theorem Station.fire_lastAccClk (cfg : Config) (p : Nat) (d : Direction) (st : Station) : (Station.fire cfg p d st).lastAccClk = st.lastAccClk := by
  cases d <;> rfl

@[simp] theorem Station.fire_lastAccDt (cfg : Config) (p : Nat) (d : Direction) (st : Station) : (Station.fire cfg p d st).lastAccDt = st.lastAccDt := by
  cases d <;> rfl

@[simp] theorem Station.fire_lastAccBtn (cfg : Config) (p : Nat) (d : Direction) (st : Station) : (Station.fire cfg p d st).lastAccBtn = st.lastAccBtn := by
  cases d <;> rfl

@[simp] theorem Station.fire_phase (cfg : Config) (p : Nat) (d : Direction) (st : Station) : (Station.fire cfg p d st).phase = st.phase := by
  cases d <;> rfl

@[simp] theorem Station.fire_inited (cfg : Config) (p : Nat) (d : Direction) (st : Station) : (Station.fire cfg p d st).inited = st.inited := by
  cases d <;> rfl

@[simp] theorem Station.fire_cur (cfg : Config) (p : Nat) (d : Direction) (st : Station) : (Station.fire cfg p d st).cur = st.cur := by
  cases d <;> rfl

@[simp] theorem Station.fire_cancelReq (cfg : Config) (p : Nat) (d : Direction) (st : Station) : (Station.fire cfg p d st).cancelReq = st.cancelReq := by
  cases d <;> rfl

@[simp] theorem Station.fire_res (cfg : Config) (p : Nat) (d : Direction) (st : Station) : (Station.fire cfg p d st).res = st.res := by
  cases d <;> rfl

@[simp] theorem Station.fire_results (cfg : Config) (p : Nat) (d : Direction) (st : Station) : (Station.fire cfg p d st).results = st.results := by
  cases d <;> rfl

@[simp] theorem Station.fire_authWarn (cfg : Config) (p : Nat) (d : Direction) (st : Station) : (Station.fire cfg p d st).authWarn = st.authWarn := by
  cases d <;> rfl

@[simp] theorem Station.fire_rstOut (cfg : Config) (p : Nat) (d : Direction) (st : Station) : (Station.fire cfg p d st).rstOut = st.rstOut := by
  cases d <;> rfl

@[simp] theorem Station.fire_pos (cfg : Config) (p : Nat) (d : Direction) (st : Station) : (Station.fire cfg p d st).pos = st.pos := by
  cases d <;> rfl

@[simp] theorem Station.fire_attempts (cfg : Config) (p : Nat) (d : Direction) (st : Station) : (Station.fire cfg p d st).attempts = st.attempts := by
  cases d <;> rfl

@[simp] theorem Station.fire_hwOk (cfg : Config) (p : Nat) (d : Direction) (st : Station) : (Station.fire cfg p d st).hwOk = st.hwOk := by
  cases d <;> rfl

@[simp] theorem Station.fire_hostQ (cfg : Config) (p : Nat) (d : Direction) (st : Station) : (Station.fire cfg p d st).hostQ = st.hostQ := by
  cases d <;> rfl

@[simp] theorem Station.fire_edgeQ (cfg : Config) (p : Nat) (d : Direction) (st : Station) : (Station.fire cfg p d st).edgeQ = st.edgeQ := by
  cases d <;> rfl

@[simp] theorem Station.fire_probeQ (cfg : Config) (p : Nat) (d : Direction) (st : Station) : (Station.fire cfg p d st).probeQ = st.probeQ := by
  cases d <;> rfl

@[simp] theorem Station.fire_chipQ (cfg : Config) (p : Nat) (d : Direction) (st : Station) : (Station.fire cfg p d st).chipQ = st.chipQ := by
  cases d <;> rfl

@[simp] theorem Station.fire_envNow (cfg : Config) (p : Nat) (d : Direction) (st : Station) : (Station.fire cfg p d st).envNow = st.envNow := by
  cases d <;> rfl

@[simp] theorem Station.stepCount_lastEnc (cfg : Config) (p : Nat) (d : Direction) (st : Station) : (Station.stepCount cfg p d st).lastEnc = st.lastEnc := by
  cases d <;> simp only [Station.stepCount] <;> split <;> simp

@[simp] theorem Station.stepCount_lastAccClk (cfg : Config) (p : Nat) (d : Direction) (st : Station) : (Station.stepCount cfg p d st).lastAccClk = st.lastAccClk := by
  cases d <;> simp only [Station.stepCount] <;> split <;> simp

@[simp] theorem Station.stepCount_lastAccDt (cfg : Config) (p : Nat) (d : Direction) (st : Station) : (Station.stepCount cfg p d st).lastAccDt = st.lastAccDt := by
  cases d <;> simp only [Station.stepCount] <;> split <;> simp

@[simp] theorem Station.stepCount_lastAccBtn (cfg : Config) (p : Nat) (d : Direction) (st : Station) : (Station.stepCount cfg p d st).lastAccBtn = st.lastAccBtn := by
  cases d <;> simp only [Station.stepCount] <;> split <;> simp

@[simp] theorem Station.stepCount_phase (cfg : Config) (p : Nat) (d : Direction) (st : Station) : (Station.stepCount cfg p d st).phase = st.phase := by
  cases d <;> simp only [Station.stepCount] <;> split <;> simp

@[simp] theorem Station.stepCount_inited (cfg : Config) (p : Nat) (d : Direction) (st : Station) : (Station.stepCount cfg p d st).inited = st.inited := by
  cases d <;> simp only [Station.stepCount] <;> split <;> simp

@[simp] theorem Station.stepCount_cur (cfg : Config) (p : Nat) (d : Direction) (st : Station) : (Station.stepCount cfg p d st).cur = st.cur := by
  cases d <;> simp only [Station.stepCount] <;> split <;> simp

@[simp] theorem Station.stepCount_cancelReq (cfg : Config) (p : Nat) (d : Direction) (st : Station) : (Station.stepCount cfg p d st).cancelReq = st.cancelReq := by
  cases d <;> simp only [Station.stepCount] <;> split <;> simp

@[simp] theorem Station.stepCount_res (cfg : Config) (p : Nat) (d : Direction) (st : Station) : (Station.stepCount cfg p d st).res = st.res := by
  cases d <;> simp only [Station.stepCount] <;> split <;> simp

@[simp] theorem Station.stepCount_results (cfg : Config) (p : Nat) (d : Direction) (st : Station) : (Station.stepCount cfg p d st).results = st.results := by
  cases d <;> simp only [Station.stepCount] <;> split <;> simp

@[simp] theorem Station.stepCount_authWarn (cfg : Config) (p : Nat) (d : Direction) (st : Station) : (Station.stepCount cfg p d st).authWarn = st.authWarn := by
  cases d <;> simp only [Station.stepCount] <;> split <;> simp

@[simp] theorem Station.stepCount_rstOut (cfg : Config) (p : Nat) (d : Direction) (st : Station) : (Station.stepCount cfg p d st).rstOut = st.rstOut := by
  cases d <;> simp only [Station.stepCount] <;> split <;> simp

@[simp] theorem Station.stepCount_pos (cfg : Config) (p : Nat) (d : Direction) (st : Station) : (Station.stepCount cfg p d st).pos = st.pos := by
  cases d <;> simp only [Station.stepCount] <;> split <;> simp

@[simp] theorem Station.stepCount_attempts (cfg : Config) (p : Nat) (d : Direction) (st : Station) : (Station.stepCount cfg p d st).attempts = st.attempts := by
  cases d <;> simp only [Station.stepCount] <;> split <;> simp

@[simp] theorem Station.stepCount_hwOk (cfg : Config) (p : Nat) (d : Direction) (st : Station) : (Station.stepCount cfg p d st).hwOk = st.hwOk := by
  cases d <;> simp only [Station.stepCount] <;> split <;> simp

@[simp] theorem Station.stepCount_hostQ (cfg : Config) (p : Nat) (d : Direction) (st : Station) : (Station.stepCount cfg p d st).hostQ = st.hostQ := by
  cases d <;> simp only [Station.stepCount] <;> split <;> simp

@[simp] theorem Station.stepCount_edgeQ (cfg : Config) (p : Nat) (d : Direction) (st : Station) : (Station.stepCount cfg p d st).edgeQ = st.edgeQ := by
  cases d <;> simp only [Station.stepCount] <;> split <;> simp

@[simp] theorem Station.stepCount_probeQ (cfg : Config) (p : Nat) (d : Direction) (st : Station) : (Station.stepCount cfg p d st).probeQ = st.probeQ := by
  cases d <;> simp only [Station.stepCount] <;> split <;> simp

@[simp] theorem Station.stepCount_chipQ (cfg : Config) (p : Nat) (d : Direction) (st : Station) : (Station.stepCount cfg p d st).chipQ = st.chipQ := by
  cases d <;> simp only [Station.stepCount] <;> split <;> simp

@[simp] theorem Station.stepCount_envNow (cfg : Config) (p : Nat) (d : Direction) (st : Station) : (Station.stepCount cfg p d st).envNow = st.envNow := by
  cases d <;> simp only [Station.stepCount] <;> split <;> simp

@[simp] theorem Station.transition_lastEnc (cfg : Config) (p : Nat) (sum : BitVec 4) (st : Station) : (Station.transition cfg p sum st).lastEnc = newEnc sum := by
  rfl

@[simp] theorem Station.transition_lastAccClk (cfg : Config) (p : Nat) (sum : BitVec 4) (st : Station) : (Station.transition cfg p sum st).lastAccClk = st.lastAccClk := by
  simp only [Station.transition]
  (repeat' split) <;> simp

@[simp] theorem Station.transition_lastAccDt (cfg : Config) (p : Nat) (sum : BitVec 4) (st : Station) : (Station.transition cfg p sum st).lastAccDt = st.lastAccDt := by
  simp only [Station.transition]
  (repeat' split) <;> simp

@[simp] theorem Station.transition_lastAccBtn (cfg : Config) (p : Nat) (sum : BitVec 4) (st : Station) : (Station.transition cfg p sum st).lastAccBtn = st.lastAccBtn := by
  simp only [Station.transition]
  (repeat' split) <;> simp

@[simp] theorem Station.transition_phase (cfg : Config) (p : Nat) (sum : BitVec 4) (st : Station) : (Station.transition cfg p sum st).phase = st.phase := by
  simp only [Station.transition]
  (repeat' split) <;> simp

@[simp] theorem Station.transition_inited (cfg : Config) (p : Nat) (sum : BitVec 4) (st : Station) : (Station.transition cfg p sum st).inited = st.inited := by
  simp only [Station.transition]
  (repeat' split) <;> simp

@[simp] theorem Station.transition_cur (cfg : Config) (p : Nat) (sum : BitVec 4) (st : Station) : (Station.transition cfg p sum st).cur = st.cur := by
  simp only [Station.transition]
  (repeat' split) <;> simp

@[simp] theorem Station.transition_cancelReq (cfg : Config) (p : Nat) (sum : BitVec 4) (st : Station) : (Station.transition cfg p sum st).cancelReq = st.cancelReq := by
  simp only [Station.transition]
  (repeat' split) <;> simp

@[simp] theorem Station.transition_res (cfg : Config) (p : Nat) (sum : BitVec 4) (st : Station) : (Station.transition cfg p sum st).res = st.res := by
  simp only [Station.transition]
  (repeat' split) <;> simp

@[simp] theorem Station.transition_results (cfg : Config) (p : Nat) (sum : BitVec 4) (st : Station) : (Station.transition cfg p sum st).results = st.results := by
  simp only [Station.transition]
  (repeat' split) <;> simp

@[simp] theorem Station.transition_authWarn (cfg : Config) (p : Nat) (sum : BitVec 4) (st : Station) : (Station.transition cfg p sum st).authWarn = st.authWarn := by
  simp only [Station.transition]
  (repeat' split) <;> simp

@[simp] theorem Station.transition_rstOut (cfg : Config) (p : Nat) (sum : BitVec 4) (st : Station) : (Station.transition cfg p sum st).rstOut = st.rstOut := by
  simp only [Station.transition]
  (repeat' split) <;> simp

@[simp] theorem Station.transition_pos (cfg : Config) (p : Nat) (sum : BitVec 4) (st : Station) : (Station.transition cfg p sum st).pos = st.pos := by
  simp only [Station.transition]
  (repeat' split) <;> simp

@[simp] theorem Station.transition_attempts (cfg : Config) (p : Nat) (sum : BitVec 4) (st : Station) : (Station.transition cfg p sum st).attempts = st.attempts := by
  simp only [Station.transition]
  (repeat' split) <;> simp

@[simp] theorem Station.transition_hwOk (cfg : Config) (p : Nat) (sum : BitVec 4) (st : Station) : (Station.transition cfg p sum st).hwOk = st.hwOk := by
  simp only [Station.transition]
  (repeat' split) <;> simp

@[simp] theorem Station.transition_hostQ (cfg : Config) (p : Nat) (sum : BitVec 4) (st : Station) : (Station.transition cfg p sum st).hostQ = st.hostQ := by
  simp only [Station.transition]
  (repeat' split) <;> simp

@[simp] theorem Station.transition_edgeQ (cfg : Config) (p : Nat) (sum : BitVec 4) (st : Station) : (Station.transition cfg p sum st).edgeQ = st.edgeQ := by
  simp only [Station.transition]
  (repeat' split) <;> simp

@[simp] theorem Station.transition_probeQ (cfg : Config) (p : Nat) (sum : BitVec 4) (st : Station) : (Station.transition cfg p sum st).probeQ = st.probeQ := by
  simp only [Station.transition]
  (repeat' split) <;> simp

@[simp] theorem Station.transition_chipQ (cfg : Config) (p : Nat) (sum : BitVec 4) (st : Station) : (Station.transition cfg p sum st).chipQ = st.chipQ := by
  simp only [Station.transition]
  (repeat' split) <;> simp

@[simp] theorem Station.transition_envNow (cfg : Config) (p : Nat) (sum : BitVec 4) (st : Station) : (Station.transition cfg p sum st).envNow = st.envNow := by
  simp only [Station.transition]
  (repeat' split) <;> simp

@[simp] theorem Station.onEncoderEdge_lastEnc (cfg : Config) (p : Nat) (clk dt : Bool) (st : Station) : (Station.onEncoderEdge cfg p clk dt st).lastEnc = newEnc (sumOf st.lastEnc (encOf clk dt)) := by
  simp [Station.onEncoderEdge]

@[simp] theorem Station.onEncoderEdge_lastAccClk (cfg : Config) (p : Nat) (clk dt : Bool) (st : Station) : (Station.onEncoderEdge cfg p clk dt st).lastAccClk = st.lastAccClk := by
  simp [Station.onEncoderEdge]

@[simp] theorem Station.onEncoderEdge_lastAccDt (cfg : Config) (p : Nat) (clk dt : Bool) (st : Station) : (Station.onEncoderEdge cfg p clk dt st).lastAccDt = st.lastAccDt := by
  simp [Station.onEncoderEdge]

@[simp] theorem Station.onEncoderEdge_lastAccBtn (cfg : Config) (p : Nat) (clk dt : Bool) (st : Station) : (Station.onEncoderEdge cfg p clk dt st).lastAccBtn = st.lastAccBtn := by
  simp [Station.onEncoderEdge]

@[simp] theorem Station.onEncoderEdge_phase (cfg : Config) (p : Nat) (clk dt : Bool) (st : Station) : (Station.onEncoderEdge cfg p clk dt st).phase = st.phase := by
  simp [Station.onEncoderEdge]

@[simp] theorem Station.onEncoderEdge_inited (cfg : Config) (p : Nat) (clk dt : Bool) (st : Station) : (Station.onEncoderEdge cfg p clk dt st).inited = st.inited := by
  simp [Station.onEncoderEdge]

@[simp] theorem Station.onEncoderEdge_cur (cfg : Config) (p : Nat) (clk dt : Bool) (st : Station) : (Station.onEncoderEdge cfg p clk dt st).cur = st.cur := by
  simp [Station.onEncoderEdge]

@[simp] theorem Station.onEncoderEdge_cancelReq (cfg : Config) (p : Nat) (clk dt : Bool) (st : Station) : (Station.onEncoderEdge cfg p clk dt st).cancelReq = st.cancelReq := by
  simp [Station.onEncoderEdge]

@[simp] theorem Station.onEncoderEdge_res (cfg : Config) (p : Nat) (clk dt : Bool) (st : Station) : (Station.onEncoderEdge cfg p clk dt st).res = st.res := by
  simp [Station.onEncoderEdge]

@[simp] theorem Station.onEncoderEdge_results (cfg : Config) (p : Nat) (clk dt : Bool) (st : Station) : (Station.onEncoderEdge cfg p clk dt st).results = st.results := by
  simp [Station.onEncoderEdge]

@[simp] theorem Station.onEncoderEdge_authWarn (cfg : Config) (p : Nat) (clk dt : Bool) (st : Station) : (Station.onEncoderEdge cfg p clk dt st).authWarn = st.authWarn := by
  simp [Station.onEncoderEdge]

@[simp] theorem Station.onEncoderEdge_rstOut (cfg : Config) (p : Nat) (clk dt : Bool) (st : Station) : (Station.onEncoderEdge cfg p clk dt st).rstOut = st.rstOut := by
  simp [Station.onEncoderEdge]

@[simp] theorem Station.onEncoderEdge_pos (cfg : Config) (p : Nat) (clk dt : Bool) (st : Station) : (Station.onEncoderEdge cfg p clk dt st).pos = st.pos := by
  simp [Station.onEncoderEdge]

@[simp] theorem Station.onEncoderEdge_attempts (cfg : Config) (p : Nat) (clk dt : Bool) (st : Station) : (Station.onEncoderEdge cfg p clk dt st).attempts = st.attempts := by
  simp [Station.onEncoderEdge]

@[simp] theorem Station.onEncoderEdge_hwOk (cfg : Config) (p : Nat) (clk dt : Bool) (st : Station) : (Station.onEncoderEdge cfg p clk dt st).hwOk = st.hwOk := by
  simp [Station.onEncoderEdge]

@[simp] theorem Station.onEncoderEdge_hostQ (cfg : Config) (p : Nat) (clk dt : Bool) (st : Station) : (Station.onEncoderEdge cfg p clk dt st).hostQ = st.hostQ := by
  simp [Station.onEncoderEdge]

@[simp] theorem Station.onEncoderEdge_edgeQ (cfg : Config) (p : Nat) (clk dt : Bool) (st : Station) : (Station.onEncoderEdge cfg p clk dt st).edgeQ = st.edgeQ := by
  simp [Station.onEncoderEdge]

@[simp] theorem Station.onEncoderEdge_probeQ (cfg : Config) (p : Nat) (clk dt : Bool) (st : Station) : (Station.onEncoderEdge cfg p clk dt st).probeQ = st.probeQ := by
  simp [Station.onEncoderEdge]

@[simp] theorem Station.onEncoderEdge_chipQ (cfg : Config) (p : Nat) (clk dt : Bool) (st : Station) : (Station.onEncoderEdge cfg p clk dt st).chipQ = st.chipQ := by
  simp [Station.onEncoderEdge]

@[simp] theorem Station.onEncoderEdge_envNow (cfg : Config) (p : Nat) (clk dt : Bool) (st : Station) : (Station.onEncoderEdge cfg p clk dt st).envNow = st.envNow := by
  simp [Station.onEncoderEdge]

@[simp] theorem Station.onButtonEdge_lastEnc (p : Nat) (btn : Bool) (st : Station) : (Station.onButtonEdge p btn st).lastEnc = st.lastEnc := by
  unfold Station.onButtonEdge; split <;> simp

@[simp] theorem Station.onButtonEdge_cwCnt (p : Nat) (btn : Bool) (st : Station) : (Station.onButtonEdge p btn st).cwCnt = st.cwCnt := by
  unfold Station.onButtonEdge; split <;> simp

@[simp] theorem Station.onButtonEdge_ccwCnt (p : Nat) (btn : Bool) (st : Station) : (Station.onButtonEdge p btn st).ccwCnt = st.ccwCnt := by
  unfold Station.onButtonEdge; split <;> simp

@[simp] theorem Station.onButtonEdge_turnCounter (p : Nat) (btn : Bool) (st : Station) : (Station.onButtonEdge p btn st).turnCounter = st.turnCounter := by
  unfold Station.onButtonEdge; split <;> simp

@[simp] theorem Station.onButtonEdge_lastAccClk (p : Nat) (btn : Bool) (st : Station) : (Station.onButtonEdge p btn st).lastAccClk = st.lastAccClk := by
  unfold Station.onButtonEdge; split <;> simp

@[simp] theorem Station.onButtonEdge_lastAccDt (p : Nat) (btn : Bool) (st : Station) : (Station.onButtonEdge p btn st).lastAccDt = st.lastAccDt := by
  unfold Station.onButtonEdge; split <;> simp

@[simp] theorem Station.onButtonEdge_lastAccBtn (p : Nat) (btn : Bool) (st : Station) : (Station.onButtonEdge p btn st).lastAccBtn = st.lastAccBtn := by
  unfold Station.onButtonEdge; split <;> simp

@[simp] theorem Station.onButtonEdge_phase (p : Nat) (btn : Bool) (st : Station) : (Station.onButtonEdge p btn st).phase = st.phase := by
  unfold Station.onButtonEdge; split <;> simp

@[simp] theorem Station.onButtonEdge_inited (p : Nat) (btn : Bool) (st : Station) : (Station.onButtonEdge p btn st).inited = st.inited := by
  unfold Station.onButtonEdge; split <;> simp

@[simp] theorem Station.onButtonEdge_cur (p : Nat) (btn : Bool) (st : Station) : (Station.onButtonEdge p btn st).cur = st.cur := by
  unfold Station.onButtonEdge; split <;> simp

@[simp] theorem Station.onButtonEdge_cancelReq (p : Nat) (btn : Bool) (st : Station) : (Station.onButtonEdge p btn st).cancelReq = st.cancelReq := by
  unfold Station.onButtonEdge; split <;> simp

@[simp] theorem Station.onButtonEdge_res (p : Nat) (btn : Bool) (st : Station) : (Station.onButtonEdge p btn st).res = st.res := by
  unfold Station.onButtonEdge; split <;> simp

@[simp] theorem Station.onButtonEdge_results (p : Nat) (btn : Bool) (st : Station) : (Station.onButtonEdge p btn st).results = st.results := by
  unfold Station.onButtonEdge; split <;> simp

@[simp] theorem Station.onButtonEdge_authWarn (p : Nat) (btn : Bool) (st : Station) : (Station.onButtonEdge p btn st).authWarn = st.authWarn := by
  unfold Station.onButtonEdge; split <;> simp

@[simp] theorem Station.onButtonEdge_rstOut (p : Nat) (btn : Bool) (st : Station) : (Station.onButtonEdge p btn st).rstOut = st.rstOut := by
  unfold Station.onButtonEdge; split <;> simp

@[simp] theorem Station.onButtonEdge_pos (p : Nat) (btn : Bool) (st : Station) : (Station.onButtonEdge p btn st).pos = st.pos := by
  unfold Station.onButtonEdge; split <;> simp

@[simp] theorem Station.onButtonEdge_attempts (p : Nat) (btn : Bool) (st : Station) : (Station.onButtonEdge p btn st).attempts = st.attempts := by
  unfold Station.onButtonEdge; split <;> simp

@[simp] theorem Station.onButtonEdge_hwOk (p : Nat) (btn : Bool) (st : Station) : (Station.onButtonEdge p btn st).hwOk = st.hwOk := by
  unfold Station.onButtonEdge; split <;> simp

@[simp] theorem Station.onButtonEdge_hostQ (p : Nat) (btn : Bool) (st : Station) : (Station.onButtonEdge p btn st).hostQ = st.hostQ := by
  unfold Station.onButtonEdge; split <;> simp

@[simp] theorem Station.onButtonEdge_edgeQ (p : Nat) (btn : Bool) (st : Station) : (Station.onButtonEdge p btn st).edgeQ = st.edgeQ := by
  unfold Station.onButtonEdge; split <;> simp

@[simp] theorem Station.onButtonEdge_probeQ (p : Nat) (btn : Bool) (st : Station) : (Station.onButtonEdge p btn st).probeQ = st.probeQ := by
  unfold Station.onButtonEdge; split <;> simp

@[simp] theorem Station.onButtonEdge_chipQ (p : Nat) (btn : Bool) (st : Station) : (Station.onButtonEdge p btn st).chipQ = st.chipQ := by
  unfold Station.onButtonEdge; split <;> simp

@[simp] theorem Station.onButtonEdge_envNow (p : Nat) (btn : Bool) (st : Station) : (Station.onButtonEdge p btn st).envNow = st.envNow := by
  unfold Station.onButtonEdge; split <;> simp

/-! ## The station that moves -/

@[simp] theorem State.here_modifyHere (f : Station → Station) (s : State) :
    (s.modifyHere f).here = s.here.map f := by
  simp [State.here]

theorem State.getElem?_modifyHere (f : Station → Station) (s : State) (p : Nat) :
    (s.modifyHere f).stations[p]? = if s.sel = p then s.stations[p]?.map f else s.stations[p]? := by
  simp only [State.modifyHere_stations, List.getElem?_modify]
  split <;> simp

/-- No other station is touched (R100). -/
theorem State.modifyHere_other (f : Station → Station) (s : State) (p : Nat) (h : p ≠ s.sel) :
    (s.modifyHere f).stations[p]? = s.stations[p]? := by
  rw [State.getElem?_modifyHere, if_neg (Ne.symm h)]

theorem State.modifyHere_modifyHere (f g : Station → Station) (s : State) :
    (s.modifyHere f).modifyHere g = s.modifyHere (g ∘ f) := by
  simp [State.modifyHere, List.modify_modify_eq]

@[simp] theorem State.length_modifyHere (f : Station → Station) (s : State) :
    (s.modifyHere f).stations.length = s.stations.length := by
  simp

end Sys2Proof.Machine
end

