-- ==== Sys2Proof/Laws/Prog.lean ====
section
/-! SUPPORT. Laws of programs: sequencing, the place after recorded answers, undisturbed runs, and lock discipline,
each through `bind`. -/

namespace Sys2Proof.Machine

open Sys2Proof

variable {α β : Type}

/-! ## Sequencing -/

@[simp] theorem Prog.bind_ret (a : α) (f : α → Prog β) : (Prog.ret a).bind f = f a := rfl

@[simp] theorem Prog.bind_abort (f : α → Prog β) : (Prog.abort : Prog α).bind f = .abort := rfl

@[simp] theorem Prog.bind_rd (a : RegAddr) (k : Byte → Prog α) (f : α → Prog β) :
    (Prog.rd a k).bind f = .rd a fun b => (k b).bind f := rfl

@[simp] theorem Prog.bind_wr (a : RegAddr) (v : Byte) (k : Prog α) (f : α → Prog β) :
    (Prog.wr a v k).bind f = .wr a v (k.bind f) := rfl

@[simp] theorem Prog.bind_suspend (k : Bool → Prog α) (f : α → Prog β) :
    (Prog.suspend k).bind f = .suspend fun c => (k c).bind f := rfl

@[simp] theorem Prog.bind_acquire (k : Prog α) (f : α → Prog β) :
    (Prog.acquire k).bind f = .acquire (k.bind f) := rfl

@[simp] theorem Prog.bind_release (k : Prog α) (f : α → Prog β) :
    (Prog.release k).bind f = .release (k.bind f) := rfl

@[simp] theorem Prog.bind_sampleHw (k : Bool → Prog α) (f : α → Prog β) :
    (Prog.sampleHw k).bind f = .sampleHw fun b => (k b).bind f := rfl

@[simp] theorem Prog.bind_put (w : RegWrite) (k : Prog α) (f : α → Prog β) :
    (Prog.put w k).bind f = .put w (k.bind f) := rfl

theorem Prog.bind_assoc {γ : Type} (p : Prog α) (f : α → Prog β) (g : β → Prog γ) :
    (p.bind f).bind g = p.bind fun a => (f a).bind g := by
  induction p with
  | ret a => rfl
  | abort => rfl
  | rd a k ih => simp [ih]
  | wr a v k ih => simp [ih]
  | suspend k ih => simp [ih]
  | acquire k ih => simp [ih]
  | release k ih => simp [ih]
  | sampleHw k ih => simp [ih]
  | put w k ih => simp [ih]

/-! ## The place after recorded answers -/

@[simp] theorem Prog.resume_nil (p : Prog α) : p.resume [] = p := by
  cases p <;> rfl

/-- Going on from a recorded place is going on from the answers joined. -/
theorem Prog.resume_append (p : Prog α) (l m : List Byte) : p.resume (l ++ m) = (p.resume l).resume m := by
  induction l generalizing p with
  | nil => simp
  | cons b rest ih =>
    cases p with
    | ret a => cases m <;> simp [Prog.resume]
    | abort => cases m <;> simp [Prog.resume]
    | rd a k => simp [Prog.resume, ih]
    | wr a v k => simp [Prog.resume, ih]
    | suspend k => simp [Prog.resume, ih]
    | acquire k => simp [Prog.resume, ih]
    | release k => simp [Prog.resume, ih]
    | sampleHw k => simp [Prog.resume, ih]
    | put w k => simp [Prog.resume, ih]

/-- The place after one more answer. -/
theorem Prog.resume_snoc (p : Prog α) (l : List Byte) (b : Byte) :
    p.resume (l ++ [b]) = (p.resume l).resume [b] := Prog.resume_append p l [b]

@[simp] theorem flagByte_ne_zero (b : Bool) : (flagByte b != 0) = b := by cases b <;> decide

/-! ## Undisturbed runs -/

/-- Two runs one after the other. -/
def Run.andThen (u : Run α) (v : Run β) : Run β :=
  ⟨v.value, u.txns ++ v.txns, u.writes ++ v.writes, u.steps + v.steps, v.owns, v.rest⟩

theorem Run.after_andThen (t : List Txn) (w : List RegWrite) (u : Run α) (v : Run β) :
    (u.after t w).andThen v = (u.andThen v).after t w := by
  simp [Run.after, Run.andThen, Nat.add_right_comm]

/-- The run of a sequence is the runs of its parts, one after the other. -/
theorem Prog.run_bind {p : Nat} {hw : Bool} {prog : Prog α} {f : α → Prog β} {owns : Bool} {chip : List Byte} {u : Run α}
    {v : Run β} (hu : prog.run p hw owns chip = some u) (hv : (f u.value).run p hw u.owns u.rest = some v) :
    (prog.bind f).run p hw owns chip = some (u.andThen v) := by
  induction prog generalizing owns chip u with
  | ret a =>
    simp only [Prog.run, Option.some.injEq] at hu
    subst hu
    simpa [Run.andThen] using hv
  | abort => simp [Prog.run] at hu
  | rd a k ih =>
    cases owns with
    | false => simp [Prog.run] at hu
    | true =>
      cases chip with
      | nil => simp [Prog.run] at hu
      | cons b rest =>
        simp only [Prog.run, Option.map_eq_some_iff] at hu
        obtain ⟨u', hu', rfl⟩ := hu
        simp [Prog.run, ih b hu' hv, Run.after_andThen]
  | wr a v' k ih =>
    cases owns with
    | false => simp [Prog.run] at hu
    | true =>
      simp only [Prog.run, if_true, Option.map_eq_some_iff] at hu
      obtain ⟨u', hu', rfl⟩ := hu
      simp [Prog.run, ih hu' hv, Run.after_andThen]
  | suspend k ih =>
    simp only [Prog.run, Option.map_eq_some_iff] at hu
    obtain ⟨u', hu', rfl⟩ := hu
    simp [Prog.run, ih false hu' hv, Run.after_andThen]
  | acquire k ih =>
    cases owns with
    | true => simp [Prog.run] at hu
    | false =>
      simp only [Prog.run, Bool.false_eq_true, if_false, Option.map_eq_some_iff] at hu
      obtain ⟨u', hu', rfl⟩ := hu
      simp [Prog.run, ih hu' hv, Run.after_andThen]
  | release k ih =>
    cases owns with
    | false => simp [Prog.run] at hu
    | true =>
      simp only [Prog.run, if_true, Option.map_eq_some_iff] at hu
      obtain ⟨u', hu', rfl⟩ := hu
      simp [Prog.run, ih hu' hv, Run.after_andThen]
  | sampleHw k ih =>
    simp only [Prog.run, Option.map_eq_some_iff] at hu
    obtain ⟨u', hu', rfl⟩ := hu
    simp [Prog.run, ih hw hu' hv, Run.after_andThen]
  | put w k ih =>
    simp only [Prog.run, Option.map_eq_some_iff] at hu
    obtain ⟨u', hu', rfl⟩ := hu
    simp [Prog.run, ih hu' hv, Run.after_andThen]

/-! ## Lock discipline -/

/-- A sequence keeps the discipline when its first part does, with the second part's as its postcondition. -/
theorem Prog.Keeps_bind (prog : Prog α) (f : α → Prog β) (Q : β → Bool → Bool → Prop) (owns rst : Bool) :
    (prog.bind f).Keeps Q owns rst ↔ prog.Keeps (fun a o r => (f a).Keeps Q o r) owns rst := by
  induction prog generalizing owns rst with
  | ret a => rfl
  | abort => rfl
  | rd a k ih => simp [Prog.Keeps, ih]
  | wr a v k ih => simp [Prog.Keeps, ih]
  | suspend k ih => simp [Prog.Keeps, ih]
  | acquire k ih => simp [Prog.Keeps, ih]
  | release k ih => simp [Prog.Keeps, ih]
  | sampleHw k ih => simp [Prog.Keeps, ih]
  | put w k ih => cases w <;> simp [Prog.Keeps, ih]

/-- A weaker postcondition. -/
theorem Prog.Keeps_mono {prog : Prog α} {P Q : α → Bool → Bool → Prop} {owns rst : Bool}
    (h : prog.Keeps P owns rst) (hPQ : ∀ a o r, P a o r → Q a o r) : prog.Keeps Q owns rst := by
  induction prog generalizing owns rst with
  | ret a => exact hPQ _ _ _ h
  | abort => trivial
  | rd a k ih => exact ⟨h.1, fun b => ih b (h.2 b)⟩
  | wr a v k ih => exact ⟨h.1, ih h.2⟩
  | suspend k ih => exact fun c => ih c (h c)
  | acquire k ih => exact ⟨h.1, ih h.2⟩
  | release k ih => exact ⟨h.1, ih h.2⟩
  | sampleHw k ih => exact fun b => ih b (h b)
  | put w k ih =>
    cases w with
    | rstOut => exact ih h
    | inited => exact ⟨h.1, ih h.2⟩
    | authWarn b => exact ih h

end Sys2Proof.Machine
end

