-- ==== Sys2Proof/Laws/Keeps.lean ====
section
/-! SUPPORT. The lock discipline of every sub-operation and program, each said once: what may be assumed of the value it
ends with, when it is started holding the lock. -/

namespace Sys2Proof.Machine

open Sys2Proof

variable {α β : Type}

theorem Prog.Keeps.seq {prog : Prog α} {q : Prog β} {Q : β → Bool → Bool → Prop} {owns rst : Bool}
    (h : prog.Keeps (fun _ o r => q.Keeps Q o r) owns rst) : (prog.seq q).Keeps Q owns rst :=
  (Prog.Keeps_bind _ _ _ _ _).2 h

theorem Prog.Keeps.bind {prog : Prog α} {f : α → Prog β} {Q : β → Bool → Bool → Prop} {owns rst : Bool}
    (h : prog.Keeps (fun a o r => (f a).Keeps Q o r) owns rst) : (prog.bind f).Keeps Q owns rst :=
  (Prog.Keeps_bind _ _ _ _ _).2 h

/-! ## Sub-operations -/

theorem writeRegister_keeps {Q : Unit → Bool → Bool → Prop} {rst : Bool} (a : RegAddr) (v : Byte) (h : Q () true rst) :
    (writeRegister a v).Keeps Q true rst := ⟨rfl, h⟩

theorem setBits_keeps {Q : Unit → Bool → Bool → Prop} {rst : Bool} (a : RegAddr) (m : Byte) (h : Q () true rst) :
    (setBits a m).Keeps Q true rst := ⟨rfl, fun _ => ⟨rfl, h⟩⟩

theorem clearBits_keeps {Q : Unit → Bool → Bool → Prop} {rst : Bool} (a : RegAddr) (m : Byte) (h : Q () true rst) :
    (clearBits a m).Keeps Q true rst := ⟨rfl, fun _ => ⟨rfl, h⟩⟩

theorem antennaOn_keeps {Q : Unit → Bool → Bool → Prop} {rst : Bool} (cfg : Config) (h : Q () true rst) :
    (antennaOn cfg).Keeps Q true rst := by
  refine ⟨rfl, fun v => ?_⟩
  dsimp only
  split
  · exact setBits_keeps _ _ h
  · exact h

theorem pushFifo_keeps {Q : Unit → Bool → Bool → Prop} {rst : Bool} (cfg : Config) (p : List Byte)
    (h : Q () true rst) : (pushFifo cfg p).Keeps Q true rst := by
  induction p with
  | nil => exact h
  | cons b rest ih => exact ⟨rfl, ih⟩

theorem issueWrites_keeps {Q : Unit → Bool → Bool → Prop} {rst : Bool} (l : List (RegAddr × Byte))
    (h : Q () true rst) : (issueWrites l).Keeps Q true rst := by
  induction l with
  | nil => exact h
  | cons w rest ih => exact ⟨rfl, ih⟩

theorem pollIrq_keeps {Q : PollEnd → Bool → Bool → Prop} {rst : Bool} (cfg : Config) (wait : Byte) (k : Nat)
    (h : ∀ e, Q e true rst) : (pollIrq cfg wait k).Keeps Q true rst := by
  induction k with
  | zero => exact h _
  | succ n ih =>
    refine ⟨rfl, fun b => ?_⟩
    dsimp only
    split
    · exact h _
    · split
      · exact h _
      · intro c
        dsimp only
        split
        · exact h _
        · exact ih

theorem pollCrc_keeps {Q : Unit → Bool → Bool → Prop} {rst : Bool} (cfg : Config) (k : Nat) (h : Q () true rst) :
    (pollCrc cfg k).Keeps Q true rst := by
  induction k with
  | zero => exact h
  | succ n ih =>
    refine ⟨rfl, fun b => ?_⟩
    dsimp only
    split
    · exact h
    · exact ih

theorem drainFifo_keeps {Q : List Byte → Bool → Bool → Prop} {rst : Bool} (cfg : Config) (k : Nat)
    (h : ∀ l, l.length = k → Q l true rst) : (drainFifo cfg k).Keeps Q true rst := by
  induction k generalizing Q with
  | zero => exact h [] rfl
  | succ n ih =>
    refine ⟨rfl, fun b => Prog.Keeps.bind (ih fun l hl => ?_)⟩
    exact h (b :: l) (by simp [hl])

/-- The status of an exchange is OK, NOTAG or ERROR (R451). -/
def Status.OfExchange (st : Status) : Prop := st = .ok ∨ st = .noTag ∨ st = .error

theorem exchangeStatus_ofExchange (en n : Byte) : (exchangeStatus en n).OfExchange := by
  unfold exchangeStatus
  split
  · exact .inr (.inl rfl)
  · exact .inl rfl

theorem requestStatus_cases (x : Exchange) : requestStatus x = .ok ∨ requestStatus x = .error := by
  unfold requestStatus
  split
  · exact .inr rfl
  · rename_i h
    simp only [ne_eq, not_or, not_not] at h
    exact .inl h.1

theorem anticollStatus_cases (x : Exchange) (h : x.status.OfExchange) : (anticollStatus x).OfExchange := by
  unfold anticollStatus
  split
  · split
    · exact .inl rfl
    · exact .inr (.inr rfl)
  · exact h

/-- The value of an exchange holds at most MAX_FRAME bytes (R454) and a status of an exchange (R451). -/
theorem toCard_keeps' {Q : Exchange → Bool → Bool → Prop} {rst : Bool} (cfg : Config) (c : Byte) (p : List Byte)
    (h : ∀ x, x.bytes.length ≤ 16 → x.status.OfExchange → Q x true rst) : (toCard cfg c p).Keeps Q true rst := by
  have herr : Status.OfExchange .error := .inr (.inr rfl)
  refine Prog.Keeps.seq (Prog.Keeps.seq (writeRegister_keeps _ _ (Prog.Keeps.seq (clearBits_keeps _ _
    (Prog.Keeps.seq (setBits_keeps _ _ (Prog.Keeps.seq (writeRegister_keeps _ _ (Prog.Keeps.seq
    (pushFifo_keeps _ _ (writeRegister_keeps _ _ (Prog.Keeps.seq ?_))))))))))))
  have hpoll : ((pollIrq cfg (irqMasks cfg c).2 cfg.maxPolls).bind fun poll =>
      (clearBits cfg.aBitFraming cfg.startSend).seq
      (match poll with
        | .cancelled => .abort
        | .timeout => .ret ⟨.error, [], 0⟩
        | .fired n => finishExchange cfg c (irqMasks cfg c).1 n)).Keeps Q true rst := by
    refine Prog.Keeps.bind (pollIrq_keeps _ _ _ fun e => Prog.Keeps.seq (clearBits_keeps _ _ ?_))
    cases e with
    | cancelled => trivial
    | timeout => exact h _ (by simp) herr
    | fired n =>
      refine ⟨rfl, fun e => ?_⟩
      dsimp only
      split
      · exact h _ (by simp) herr
      · split
        · refine ⟨rfl, fun lvl => ⟨rfl, fun ctl => Prog.Keeps.bind (drainFifo_keeps _ _ fun l hl => ?_)⟩⟩
          exact h _ (by simp [hl, drainCount, maxFrame]) (exchangeStatus_ofExchange _ _)
        · exact h _ (by simp) (exchangeStatus_ofExchange _ _)
  split
  · exact setBits_keeps _ _ hpoll
  · exact hpoll

theorem toCard_keeps {Q : Exchange → Bool → Bool → Prop} {rst : Bool} (cfg : Config) (c : Byte) (p : List Byte)
    (h : ∀ x, x.bytes.length ≤ 16 → Q x true rst) : (toCard cfg c p).Keeps Q true rst :=
  toCard_keeps' cfg c p fun x hx _ => h x hx

theorem calculateCrc_keeps {Q : List Byte → Bool → Bool → Prop} {rst : Bool} (cfg : Config) (p : List Byte)
    (h : ∀ lo hi, Q [lo, hi] true rst) : (calculateCrc cfg p).Keeps Q true rst := by
  refine Prog.Keeps.seq (clearBits_keeps _ _ (Prog.Keeps.seq (setBits_keeps _ _ (Prog.Keeps.seq (pushFifo_keeps _ _
    (Prog.Keeps.seq (writeRegister_keeps _ _ (Prog.Keeps.seq (pollCrc_keeps _ _ ?_)))))))))
  exact ⟨rfl, fun lo => ⟨rfl, fun hi => h lo hi⟩⟩

theorem request_keeps {Q : Status × Nat → Bool → Bool → Prop} {rst : Bool} (cfg : Config) (m : Byte)
    (h : ∀ x, Q (requestStatus x, x.bitlen) true rst) : (request cfg m).Keeps Q true rst :=
  Prog.Keeps.bind (Prog.Keeps.seq (writeRegister_keeps _ _ (toCard_keeps _ _ _ fun x _ => h x)))

theorem anticollision_keeps {Q : Status × List Byte → Bool → Bool → Prop} {rst : Bool} (cfg : Config)
    (h : ∀ x, x.bytes.length ≤ 16 → Q (anticollStatus x, x.bytes) true rst) :
    (anticollision cfg).Keeps Q true rst :=
  Prog.Keeps.bind (Prog.Keeps.seq (writeRegister_keeps _ _ (toCard_keeps _ _ _ fun x hx => h x hx)))

theorem selectTag_keeps {Q : Option Byte → Bool → Bool → Prop} {rst : Bool} (cfg : Config) (u : List Byte)
    (h : ∀ r, Q r true rst) : (selectTag cfg u).Keeps Q true rst :=
  Prog.Keeps.bind (calculateCrc_keeps _ _ fun _ _ => Prog.Keeps.bind (toCard_keeps _ _ _ fun _ _ => h _))

theorem authenticate_keeps {Q : Status × Bool → Bool → Bool → Prop} {rst : Bool} (cfg : Config) (m b : Byte)
    (k u : List Byte) (h : ∀ x w, Q (Exchange.status x, w) true rst) : (authenticate cfg m b k u).Keeps Q true rst := by
  refine Prog.Keeps.bind (toCard_keeps _ _ _ fun x _ => ⟨rfl, fun s2 => ?_⟩)
  dsimp only
  split
  · exact h x _
  · exact h x _

theorem stopCrypto_keeps {Q : Unit → Bool → Bool → Prop} {rst : Bool} (cfg : Config) (h : Q () true rst) :
    (stopCrypto cfg).Keeps Q true rst := clearBits_keeps _ _ h

/-- A block read has 16 bytes (R506). -/
theorem readBlock_keeps {Q : Option (List Byte) → Bool → Bool → Prop} {rst : Bool} (cfg : Config) (b : Byte)
    (h : ∀ r, (∀ d, r = some d → d.length = 16) → Q r true rst) : (readBlock cfg b).Keeps Q true rst := by
  refine Prog.Keeps.bind (calculateCrc_keeps _ _ fun _ _ => Prog.Keeps.bind (toCard_keeps _ _ _ fun x _ => ?_))
  refine h _ fun d hd => ?_
  split at hd
  · rename_i hx
    simp only [Option.some.injEq] at hd
    simp only [readOk, Bool.and_eq_true, beq_iff_eq, blockSize] at hx
    rw [← hd]
    exact hx.2
  · simp at hd

theorem writeBlock_keeps {Q : Status → Bool → Bool → Prop} {rst : Bool} (cfg : Config) (b : Byte) (d : List Byte)
    (hok : Q .ok true rst) (herr : Q .error true rst) : (writeBlock cfg b d).Keeps Q true rst := by
  refine Prog.Keeps.bind (calculateCrc_keeps _ _ fun _ _ => Prog.Keeps.bind (toCard_keeps _ _ _ fun x _ => ?_))
  split
  · refine Prog.Keeps.bind (calculateCrc_keeps _ _ fun _ _ => Prog.Keeps.bind (toCard_keeps _ _ _ fun y _ => ?_))
    split
    · exact hok
    · exact herr
  · exact herr

theorem preamble_keeps {Q : Option (List Byte) → Bool → Bool → Prop} {rst : Bool} (cfg : Config)
    (h : ∀ r, Q r true rst) : (preamble cfg).Keeps Q true rst := by
  refine Prog.Keeps.bind (request_keeps _ _ fun x => ?_)
  split
  · exact h _
  · exact Prog.Keeps.bind (anticollision_keeps _ fun y _ => h _)

theorem sectorAttempt_keeps {Q : Attempt → Bool → Bool → Prop} {rst : Bool} (cfg : Config) (n : Byte)
    (body : Prog (Option (List Byte))) (P : List Byte → Prop)
    (hb : ∀ {Q' : Option (List Byte) → Bool → Bool → Prop},
      (∀ r, (∀ d, r = some d → P d) → Q' r true rst) → body.Keeps Q' true rst)
    (h : ∀ a : Attempt, (∀ v, a.value = some v → P v.2) → Q a true rst) :
    (sectorAttempt cfg n body).Keeps Q true rst := by
  refine Prog.Keeps.bind (preamble_keeps _ fun p => ?_)
  cases p with
  | none => exact h _ (by simp [Attempt.nothing])
  | some u =>
    refine Prog.Keeps.bind (selectTag_keeps _ _ fun sel => ?_)
    cases sel with
    | none => exact h _ (by simp [Attempt.nothing])
    | some b =>
      refine Prog.Keeps.bind (authenticate_keeps _ _ _ _ _ fun x w => ?_)
      split
      · exact Prog.Keeps.seq (stopCrypto_keeps _ (h _ (by simp)))
      · refine Prog.Keeps.bind (hb fun r hr => Prog.Keeps.seq (stopCrypto_keeps _ (h _ ?_)))
        intro v hv
        cases r with
        | none => simp at hv
        | some d =>
          simp only [Option.map_some, Option.some.injEq] at hv
          rw [← hv]
          exact hr d rfl

theorem readBlocks_keeps {Q : Option (List Byte) → Bool → Bool → Prop} {rst : Bool} (cfg : Config) (bs : List Byte)
    (h : ∀ r, (∀ d, r = some d → d.length = 16 * bs.length) → Q r true rst) :
    (readBlocks cfg bs).Keeps Q true rst := by
  induction bs generalizing Q with
  | nil => exact h _ (by simp)
  | cons b rest ih =>
    refine Prog.Keeps.bind (readBlock_keeps _ _ fun r hr => ?_)
    cases r with
    | none => exact h _ (by simp)
    | some d =>
      refine Prog.Keeps.bind (ih fun r' hr' => h _ ?_)
      intro e he
      cases r' with
      | none => simp at he
      | some ds =>
        simp only [Option.map_some, Option.some.injEq] at he
        have h1 := hr d rfl
        have h2 := hr' ds rfl
        rw [← he]
        simp [h1, h2]
        omega

theorem writeBlocks_keeps {Q : Bool → Bool → Bool → Prop} {rst : Bool} (cfg : Config)
    (parts : List (Byte × List Byte)) (h : ∀ b, Q b true rst) : (writeBlocks cfg parts).Keeps Q true rst := by
  induction parts with
  | nil => exact h _
  | cons part rest ih =>
    refine Prog.Keeps.bind (writeBlock_keeps _ _ _ ?_ ?_)
    · exact ih
    · exact h _

theorem tryReadIdentifier_keeps {Q : Attempt → Bool → Bool → Prop} {rst : Bool} (cfg : Config)
    (h : ∀ a : Attempt, (∀ v, a.value = some v → v.2.length ≤ 48) → Q a true rst) :
    (tryReadIdentifier cfg).Keeps Q true rst := by
  refine Prog.Keeps.bind (preamble_keeps _ fun p => h _ ?_)
  intro v hv
  cases p with
  | none => simp at hv
  | some u =>
    simp only [Option.map_some, Option.some.injEq] at hv
    rw [← hv]
    simp

theorem tryReadSector_keeps {Q : Attempt → Bool → Bool → Prop} {rst : Bool} (cfg : Config) (n : Byte)
    (h : ∀ a : Attempt, (∀ v, a.value = some v → v.2.length ≤ 48) → Q a true rst) :
    (tryReadSector cfg n).Keeps Q true rst := by
  refine sectorAttempt_keeps cfg n _ (fun d => d.length ≤ 48) (fun h' => ?_) h
  refine readBlocks_keeps _ _ fun r hr => h' r fun d hd => ?_
  have := hr d hd
  simp [dataBlocks] at this
  omega

theorem tryWriteSector_keeps {Q : Attempt → Bool → Bool → Prop} {rst : Bool} (cfg : Config) (t : List Byte) (n : Byte)
    (h : ∀ a : Attempt, (∀ v, a.value = some v → v.2.length ≤ 48) → Q a true rst) :
    (tryWriteSector cfg t n).Keeps Q true rst := by
  refine sectorAttempt_keeps cfg n _ (fun d => d.length ≤ 48) (fun h' => ?_) h
  refine Prog.Keeps.bind (writeBlocks_keeps _ _ fun b => h' _ fun d hd => ?_)
  split at hd
  · simp only [Option.some.injEq] at hd
    rw [← hd]
    simp [acceptedText, sectorBytes]
  · simp at hd

/-! ## Ends of commands -/

theorem once_keeps {rst : Bool} {body : Prog Attempt} {found : BitVec 40 × List Byte → Option Bool → Res} (bl : Bool)
    (hb : ∀ {Q : Attempt → Bool → Bool → Prop},
      (∀ a : Attempt, (∀ v, a.value = some v → v.2.length ≤ 48) → Q a true rst) → body.Keeps Q true rst)
    (hf : ∀ v w, v.2.length ≤ 48 → (found v w).Ended ∧ (found v w).status ≠ some .hwFail) :
    (once body found).Keeps (CmdEnd.Fine bl) false rst := by
  refine Prog.Keeps.bind ⟨rfl, Prog.Keeps.bind (hb fun a ha => ⟨rfl, ?_⟩)⟩
  show Prog.Keeps (match a.value with
    | some v => Prog.ret (CmdEnd.done (found v a.warn))
    | none => Prog.ret (CmdEnd.done { Res.ofStatus .noValue with warn := a.warn })) _ _ _
  split
  · rename_i v hv
    have := hf v a.warn (ha v hv)
    exact ⟨this.1, fun h => absurd h this.2⟩
  · exact ⟨by simp [Res.Ended, Res.ofStatus, Res.absent], by simp [Res.ofStatus]⟩

theorem blocking_keeps {rst : Bool} {body : Prog Attempt} {found : BitVec 40 × List Byte → Option Bool → Res}
    (hb : ∀ {Q : Attempt → Bool → Bool → Prop},
      (∀ a : Attempt, (∀ v, a.value = some v → v.2.length ≤ 48) → Q a true rst) → body.Keeps Q true rst)
    (hf : ∀ v w, v.2.length ≤ 48 → (found v w).Ended ∧ (found v w).status ≠ some .hwFail) :
    (blocking body found).Keeps (CmdEnd.Fine true) false rst := by
  intro c
  dsimp only
  split
  · trivial
  · refine Prog.Keeps.bind ⟨rfl, Prog.Keeps.bind (hb fun a ha => ⟨rfl, ?_⟩)⟩
    show Prog.Keeps (match a.value with
      | some v => Prog.ret (CmdEnd.done (found v a.warn))
      | none => Prog.ret CmdEnd.again) _ _ _
    split
    · rename_i v hv
      have := hf v a.warn (ha v hv)
      exact ⟨this.1, fun h => absurd h this.2⟩
    · exact ⟨rfl, rfl⟩

theorem idRes_ended (v : BitVec 40 × List Byte) (w : Option Bool) :
    (idRes v w).Ended ∧ (idRes v w).status ≠ some .hwFail := by
  simp [idRes, Res.Ended, Res.ofStatus, Res.absent]

theorem sectorRes_ended (v : BitVec 40 × List Byte) (w : Option Bool) (h : v.2.length ≤ 48) :
    (sectorRes v w).Ended ∧ (sectorRes v w).status ≠ some .hwFail := by
  simp [sectorRes, Res.Ended, Res.ofStatus, Res.absent, h]

theorem endOk_keeps (bl owns rst : Bool) : endOk.Keeps (CmdEnd.Fine bl) owns rst := by
  simp [endOk, Prog.Keeps, CmdEnd.Fine, Res.Ended, Res.ofStatus, Res.absent]

/-- The status of an exchange is OK, NOTAG or ERROR; every status a command computes from it is too. -/
theorem done_fine {r : Res} {bl owns rst : Bool} (h : r.status ≠ none) (hp : r.status ≠ some .precond)
    (hf : r.status ≠ some .hwFail) (hs : r.sub = none) (hd : ∀ d, r.data = some d → d.length ≤ 48) :
    (Prog.ret (CmdEnd.done r)).Keeps (CmdEnd.Fine bl) owns rst :=
  ⟨⟨h, hp, hs, hd⟩, fun h => absurd h hf⟩

/-- The end of an exchange run as a command. -/
theorem exchange_fine {bl owns rst : Bool} (x : Exchange) (st : Status) (h : st.OfExchange)
    (hd : x.bytes.length ≤ 16) : (Prog.ret (CmdEnd.done (x.res st))).Keeps (CmdEnd.Fine bl) owns rst :=
  done_fine (by simp [Exchange.res, Res.ofStatus]) (by rcases h with h | h | h <;> simp [Exchange.res, Res.ofStatus, h])
    (by rcases h with h | h | h <;> simp [Exchange.res, Res.ofStatus, h])
    (by simp [Exchange.res, Res.ofStatus, Res.absent]) (by simp [Exchange.res]; omega)

end Sys2Proof.Machine
end

