-- ==== Sys2Proof/Laws/Ops.lean ====
section
/-! SUPPORT. What each shared operation can do, said once: bus transactions, one atomic step of the card engine, the
turn of a command, and the completion of a command whose program runs undisturbed. -/

namespace Sys2Proof.Machine

open Sys2Proof

/-! ## Outcomes -/

@[simp] theorem onNext_next (s : State) (f : State → Result) : onNext (.next s) f = f s := rfl

@[simp] theorem onNext_fault (e : Fault) (f : State → Result) : onNext (.fault e) f = .fault e := rfl

@[simp] theorem onNext_refused (e : Refusal) (f : State → Result) : onNext (.refused e) f = .refused e := rfl

/-- A sequence that answers a next state went through one. -/
theorem onNext_eq_next {r : Result} {f : State → Result} {t : State} (h : onNext r f = .next t) :
    ∃ s, r = .next s ∧ f s = .next t := by
  cases r with
  | next s => exact ⟨s, rfl, h⟩
  | fault e => simp at h
  | refused e => simp at h

/-! ## Register transactions -/

theorem busRead_owned {s : State} (a : RegAddr) (h : s.lockOwner = some s.sel) :
    busRead a s = .next (s.record .rd a s.answer).takeAnswer := if_pos h

theorem busWrite_owned {s : State} (a : RegAddr) (v : Byte) (h : s.lockOwner = some s.sel) :
    busWrite a v s = .next (s.record .wr a v) := if_pos h

theorem busRead_not_owned {s : State} (a : RegAddr) (h : s.lockOwner ≠ some s.sel) :
    busRead a s = .fault (.busNotOwned s.sel) := if_neg h

theorem busWrite_not_owned {s : State} (a : RegAddr) (v : Byte) (h : s.lockOwner ≠ some s.sel) :
    busWrite a v s = .fault (.busNotOwned s.sel) := if_neg h

/-- The answer to a read is the chip's next listed one. -/
theorem State.answer_cons {s : State} {st : Station} {b : Byte} {rest : List Byte} (h : s.here = some st)
    (hc : st.chipQ = b :: rest) : s.answer = b := by
  simp [State.answer, h, hc]

/-- Using up a listed answer takes it off the list. -/
theorem State.takeAnswer_cons {s : State} {st : Station} {b : Byte} {rest : List Byte} (h : s.here = some st)
    (hc : st.chipQ = b :: rest) :
    s.takeAnswer = s.modifyHere fun st => { st with chipQ := st.chipQ.tail } := by
  simp [State.takeAnswer, h, hc]

/-- Using up an answer leaves every station alone but for the moving one's chip answers. -/
theorem State.takeAnswer_cases (s : State) :
    s.takeAnswer = { s with draws := s.draws + 1 } ∨
      s.takeAnswer = s.modifyHere fun st => { st with chipQ := st.chipQ.tail } := by
  unfold State.takeAnswer
  split
  · split
    · exact .inl rfl
    · exact .inr rfl
  · exact .inl rfl

@[simp] theorem State.here_record (k : TxnKind) (a : RegAddr) (v : Byte) (s : State) :
    (s.record k a v).here = s.here := rfl

@[simp] theorem State.here_takeLock (s : State) : s.takeLock.here = s.here := rfl

@[simp] theorem State.here_releaseLock (s : State) : s.releaseLock.here = s.here := by
  simp [State.here]

/-! ## One atomic step of the card engine -/

theorem cpeStep_busy {prog : Prog CmdEnd} {s : State} {st : Station} (h : s.here = some st)
    (hb : st.phase = .busy) : cpeStep prog s = cpeNode (prog.resume st.pos) st s := by
  simp [cpeStep, h, hb]

/-- Outside BUSY the card engine has no step. -/
theorem cpeStep_rest {prog : Prog CmdEnd} {s : State} {st : Station} (h : s.here = some st)
    (hb : st.phase ≠ .busy) : cpeStep prog s = .next s := by
  cases hp : st.phase <;> simp_all [cpeStep]

/-- Outside BUSY any number of steps changes nothing. -/
theorem cpeRun_rest {prog : Prog CmdEnd} {s : State} {st : Station} (q : Nat) (h : s.here = some st)
    (hb : st.phase ≠ .busy) : cpeRun q prog s = .next s := by
  induction q with
  | zero => rfl
  | succ n ih => simp [cpeRun, cpeStep_rest h hb, ih]

/-- Atomic steps can be taken in two turns as well as in one. -/
theorem cpeRun_add (m n : Nat) (prog : Prog CmdEnd) (s : State) :
    cpeRun (m + n) prog s = onNext (cpeRun m prog s) (cpeRun n prog) := by
  induction m generalizing s with
  | zero => simp [cpeRun]
  | succ k ih =>
    rw [Nat.succ_add]
    simp only [cpeRun]
    cases cpeStep prog s with
    | next t => simp [ih]
    | fault e => simp
    | refused e => simp

/-! ## Completion of an undisturbed command -/

/-- The end of a command forgets the position, so recording an answer before it makes no difference. -/
theorem finish_applyWrites_pos (ws : List RegWrite) (st : Station) (l : List Byte) (r : Res) :
    (applyWrites ws { st with pos := l }).finish r = (applyWrites ws st).finish r := by
  induction ws generalizing st with
  | nil => rfl
  | cons w rest ih =>
    cases w with
    | rstOut => exact ih (RegWrite.rstOut.apply st)
    | inited => exact ih (RegWrite.inited.apply st)
    | authWarn b => exact ih ((RegWrite.authWarn b).apply st)

/-- The same for a station that differs in the chip's answers too, in the form the runs below meet it. -/
theorem finish_run (ws : List RegWrite) (st : Station) (l q : List Byte) (r : Res) :
    (applyWrites ws { st with pos := l, chipQ := q }).finish r =
      (applyWrites ws { st with chipQ := q }).finish r :=
  finish_applyWrites_pos ws { st with chipQ := q } l r

/-- Three changes of the station that moves, as one. -/
theorem modify_three (l : List Station) (i : Nat) (f g h k : Station → Station) (e : ∀ x, h (g (f x)) = k x) :
    ((l.modify i f).modify i g).modify i h = l.modify i k := by
  rw [List.modify_modify_eq, List.modify_modify_eq]
  exact congrArg (l.modify i) (funext e)

/-- Two changes of the station that moves, as one. -/
theorem modify_two (l : List Station) (i : Nat) (f g k : Station → Station) (e : ∀ x, g (f x) = k x) :
    (l.modify i f).modify i g = l.modify i k := by
  rw [List.modify_modify_eq]
  exact congrArg (l.modify i) (funext e)

/-- A card engine that runs its program undisturbed takes the steps of the run and then ends the command (R6, R312). -/
theorem cpeRun_of_run {prog node : Prog CmdEnd} {s : State} {st : Station} {u : Run CmdEnd} {r : Res} {owns : Bool}
    {q : Nat} (hst : s.here = some st) (hb : st.phase = .busy) (hc : st.cancelReq = false)
    (hl : s.lockOwner = if owns = true then some s.sel else none)
    (hp : prog.resume st.pos = node) (hu : node.run s.sel st.hwOk owns st.chipQ = some u) (hv : u.value = .done r)
    (hq : u.steps < q) :
    cpeRun q prog s = .next
      { s with
        trace := s.trace ++ u.txns
        lockOwner := if u.owns = true then some s.sel else none
        stations := s.stations.modify s.sel fun st =>
          (applyWrites u.writes { st with chipQ := u.rest }).finish r } := by
  induction node generalizing s st owns u q with
  | ret a =>
    simp only [Prog.run, Option.some.injEq] at hu
    subst hu
    simp only at hv
    subst hv
    obtain ⟨n, rfl⟩ : ∃ n, q = n + 1 := ⟨q - 1, by omega⟩
    have hmod : ∀ (f : Station → Station), (s.stations.modify s.sel f)[s.sel]? = some (f st) := by
      intro f
      have : s.stations[s.sel]? = some st := hst
      simp [this]
    have hlist : s.stations.modify s.sel (fun x => x.finish r) =
        s.stations.modify s.sel fun x => (applyWrites [] { x with chipQ := st.chipQ }).finish r := by
      apply List.ext_getElem?
      intro i
      by_cases hi : s.sel = i
      · subst hi
        rw [hmod, hmod]
        rfl
      · simp [hi]
    rw [cpeRun, cpeStep_busy hst hb, hp]
    simp only [cpeNode, onNext_next]
    rw [cpeRun_rest (st := st.finish r) n]
    · simp [State.modifyHere, hlist, hl]
    · simp [hst]
    · simp only [Station.finish_phase]
      split <;> simp
  | abort => simp [Prog.run] at hu
  | rd a k ih =>
    cases owns with
    | false => simp [Prog.run] at hu
    | true =>
      cases hch : st.chipQ with
      | nil => simp [Prog.run, hch] at hu
      | cons b rest =>
        simp only [Prog.run, hch, Option.map_eq_some_iff] at hu
        obtain ⟨u', hu', rfl⟩ := hu
        obtain ⟨n, rfl⟩ : ∃ n, q = n + 1 := ⟨q - 1, by omega⟩
        have hl' : s.lockOwner = some s.sel := by simpa using hl
        have hrec : (s.record .rd a b).here = some st := hst
        rw [cpeRun, cpeStep_busy hst hb, hp]
        simp only [cpeNode, State.answer_cons hst hch, busRead_owned a hl', onNext_next,
          State.takeAnswer_cons hrec hch]
        rw [ih b (s := ((s.record .rd a b).modifyHere fun st => { st with chipQ := st.chipQ.tail }).answered b)
          (st := ({ st with chipQ := rest } : Station).advance b) (u := u') (owns := true)]
        · refine congrArg Host.Outcome.next ?_
          rw [State.mk.injEq]
          refine ⟨rfl, ?_, rfl, ?_, rfl, rfl, rfl, rfl⟩
          · exact modify_three _ _ _ _ _ _ fun x => finish_run _ x _ _ _
          · simp [Run.after, State.answered, State.modifyHere, State.record]
        · simp [State.answered, hst, hch]
        · simpa using hb
        · simpa using hc
        · simpa using hl'
        · simp [Prog.resume_snoc, hp, Prog.resume]
        · simpa using hu'
        · simpa [Run.after] using hv
        · simp [Run.after] at hq; omega
  | wr a v k ih =>
    cases owns with
    | false => simp [Prog.run] at hu
    | true =>
      simp only [Prog.run, if_true, Option.map_eq_some_iff] at hu
      obtain ⟨u', hu', rfl⟩ := hu
      obtain ⟨n, rfl⟩ : ∃ n, q = n + 1 := ⟨q - 1, by omega⟩
      have hl' : s.lockOwner = some s.sel := by simpa using hl
      rw [cpeRun, cpeStep_busy hst hb, hp]
      simp only [cpeNode, busWrite_owned a v hl', onNext_next]
      rw [ih (s := (s.record .wr a v).answered 0) (st := st.advance 0) (u := u') (owns := true)]
      · refine congrArg Host.Outcome.next ?_
        rw [State.mk.injEq]
        refine ⟨rfl, ?_, rfl, ?_, rfl, rfl, rfl, rfl⟩
        · exact modify_two _ _ _ _ _ fun x => finish_run _ x _ _ _
        · simp [Run.after, State.answered, State.modifyHere, State.record, *]
      · simp [State.answered, hst]
      · simpa using hb
      · simpa using hc
      · simpa using hl'
      · simp [Prog.resume_snoc, hp, Prog.resume]
      · simpa using hu'
      · simpa [Run.after] using hv
      · simp [Run.after] at hq; omega
  | suspend k ih =>
    simp only [Prog.run, Option.map_eq_some_iff] at hu
    obtain ⟨u', hu', rfl⟩ := hu
    obtain ⟨n, rfl⟩ : ∃ n, q = n + 1 := ⟨q - 1, by omega⟩
    rw [cpeRun, cpeStep_busy hst hb, hp]
    simp only [cpeNode, onNext_next]
    rw [ih false (s := s.answered (flagByte st.cancelReq)) (st := st.advance (flagByte st.cancelReq)) (u := u')
      (owns := owns)]
    · refine congrArg Host.Outcome.next ?_
      rw [State.mk.injEq]
      refine ⟨rfl, ?_, rfl, ?_, rfl, rfl, rfl, rfl⟩
      · exact modify_two _ _ _ _ _ fun x => finish_run _ x _ _ _
      · simp [Run.after, State.answered, State.modifyHere, *]
    · simp [State.answered, hst]
    · simpa using hb
    · simpa using hc
    · simpa using hl
    · simp [Prog.resume_snoc, hp, Prog.resume, hc, flagByte]
    · simpa using hu'
    · simpa [Run.after] using hv
    · simp [Run.after] at hq; omega
  | acquire k ih =>
    cases owns with
    | true => simp [Prog.run] at hu
    | false =>
      simp only [Prog.run, Bool.false_eq_true, if_false, Option.map_eq_some_iff] at hu
      obtain ⟨u', hu', rfl⟩ := hu
      obtain ⟨n, rfl⟩ : ∃ n, q = n + 1 := ⟨q - 1, by omega⟩
      have hl' : s.lockOwner = none := by simpa using hl
      rw [cpeRun, cpeStep_busy hst hb, hp]
      simp only [cpeNode, hc, hl', Bool.false_eq_true, if_false, if_true, onNext_next]
      rw [ih (s := s.takeLock.answered 0) (st := st.advance 0) (u := u') (owns := true)]
      · refine congrArg Host.Outcome.next ?_
        rw [State.mk.injEq]
        refine ⟨rfl, ?_, rfl, ?_, rfl, rfl, rfl, rfl⟩
        · exact modify_two _ _ _ _ _ fun x => finish_run _ x _ _ _
        · simp [Run.after, State.answered, State.modifyHere, State.takeLock, *]
      · simp [State.answered, hst]
      · simpa using hb
      · simpa using hc
      · simp [State.answered, State.takeLock]
      · simp [Prog.resume_snoc, hp, Prog.resume]
      · simpa using hu'
      · simpa [Run.after] using hv
      · simp [Run.after] at hq; omega
  | release k ih =>
    cases owns with
    | false => simp [Prog.run] at hu
    | true =>
      simp only [Prog.run, if_true, Option.map_eq_some_iff] at hu
      obtain ⟨u', hu', rfl⟩ := hu
      obtain ⟨n, rfl⟩ : ∃ n, q = n + 1 := ⟨q - 1, by omega⟩
      have hl' : s.lockOwner = some s.sel := by simpa using hl
      rw [cpeRun, cpeStep_busy hst hb, hp]
      simp only [cpeNode, onNext_next]
      rw [ih (s := s.releaseLock.answered 0) (st := st.advance 0) (u := u') (owns := false)]
      · refine congrArg Host.Outcome.next ?_
        rw [State.mk.injEq]
        refine ⟨by simp, ?_, ?_, ?_, by simp, by simp, by simp, by simp⟩
        · simp only [State.answered, State.modifyHere, State.releaseLock_stations, State.releaseLock_sel]
          exact modify_two _ _ _ _ _ fun x => finish_run _ x _ _ _
        · show (if u'.owns = true then some (s.releaseLock.answered 0).sel else none) = _
          simp only [State.answered_sel, State.releaseLock_sel]
          rfl
        · simp [Run.after]
      · simp [State.answered, hst]
      · simpa using hb
      · simpa using hc
      · simp [State.answered, hl']
      · simp [Prog.resume_snoc, hp, Prog.resume]
      · simpa using hu'
      · simpa [Run.after] using hv
      · simp [Run.after] at hq; omega
  | sampleHw k ih =>
    simp only [Prog.run, Option.map_eq_some_iff] at hu
    obtain ⟨u', hu', rfl⟩ := hu
    obtain ⟨n, rfl⟩ : ∃ n, q = n + 1 := ⟨q - 1, by omega⟩
    rw [cpeRun, cpeStep_busy hst hb, hp]
    simp only [cpeNode, onNext_next]
    rw [ih st.hwOk (s := s.answered (flagByte st.hwOk)) (st := st.advance (flagByte st.hwOk)) (u := u')
      (owns := owns)]
    · refine congrArg Host.Outcome.next ?_
      rw [State.mk.injEq]
      refine ⟨rfl, ?_, rfl, ?_, rfl, rfl, rfl, rfl⟩
      · exact modify_two _ _ _ _ _ fun x => finish_run _ x _ _ _
      · simp [Run.after, State.answered, State.modifyHere, *]
    · simp [State.answered, hst]
    · simpa using hb
    · simpa using hc
    · simpa using hl
    · simp [Prog.resume_snoc, hp, Prog.resume]; cases st.hwOk <;> rfl
    · simpa using hu'
    · simpa [Run.after] using hv
    · simp [Run.after] at hq; omega
  | put w k ih =>
    simp only [Prog.run, Option.map_eq_some_iff] at hu
    obtain ⟨u', hu', rfl⟩ := hu
    obtain ⟨n, rfl⟩ : ∃ n, q = n + 1 := ⟨q - 1, by omega⟩
    rw [cpeRun, cpeStep_busy hst hb, hp]
    simp only [cpeNode, onNext_next]
    rw [ih (s := (s.modifyHere w.apply).answered 0) (st := (w.apply st).advance 0) (u := u') (owns := owns)]
    · refine congrArg Host.Outcome.next ?_
      rw [State.mk.injEq]
      refine ⟨rfl, ?_, rfl, ?_, rfl, rfl, rfl, rfl⟩
      · refine modify_three _ _ _ _ _ _ fun x => ?_
        cases w with
        | rstOut => exact finish_run _ (RegWrite.rstOut.apply x) _ _ _
        | inited => exact finish_run _ (RegWrite.inited.apply x) _ _ _
        | authWarn c => exact finish_run _ ((RegWrite.authWarn c).apply x) _ _ _
      · simp [Run.after, State.answered, State.modifyHere]
    · simp [State.answered, hst]
    · simpa using hb
    · simpa using hc
    · simpa using hl
    · simp [Prog.resume_snoc, hp, Prog.resume]
    · simpa using hu'
    · simpa [Run.after] using hv
    · simp [Run.after] at hq; omega

/-- The end of an accepted command whose program wrote the block registers of `ws`. -/
theorem finish_accept_applyWrites (ws : List RegWrite) (st : Station) (c : Command) (q : List Byte) (r : Res) :
    (applyWrites ws { (st.accept c) with chipQ := q }).finish r =
      { applyWrites ws st with
        cur := some c
        phase := if r.status = some .hwFail then .dead else .idle
        res := r
        results := st.results ++ [r]
        cancelReq := false
        pos := []
        attempts := 0
        chipQ := q } := by
  induction ws generalizing st with
  | nil => rfl
  | cons w rest ih =>
    cases w with
    | rstOut => exact ih (RegWrite.rstOut.apply st)
    | inited => exact ih (RegWrite.inited.apply st)
    | authWarn b => exact ih ((RegWrite.authWarn b).apply st)

/-- The end of a running command whose program wrote the block registers of `ws`. -/
theorem finish_applyWrites (ws : List RegWrite) (st : Station) (c : Command) (q : List Byte) (r : Res)
    (hc : st.cur = some c) :
    (applyWrites ws { st with chipQ := q }).finish r =
      { applyWrites ws st with
        cur := some c
        phase := if r.status = some .hwFail then .dead else .idle
        res := r
        results := st.results ++ [r]
        cancelReq := false
        pos := []
        attempts := 0
        chipQ := q } := by
  induction ws generalizing st with
  | nil => cases st; simp only at hc; subst hc; rfl
  | cons w rest ih =>
    cases w with
    | rstOut => exact ih (RegWrite.rstOut.apply st) hc
    | inited => exact ih (RegWrite.inited.apply st) hc
    | authWarn b => exact ih ((RegWrite.authWarn b).apply st) hc

/-- A host command or frame that passes its checks and runs undisturbed completes (R312). -/
theorem runCommand_completes {i : Instr} {gate : Gate} {prog : Prog CmdEnd} {s : State} {st : Station}
    {u : Run CmdEnd} {r : Res} {owns : Bool} (hst : s.here = some st) (hi : st.phase = .idle)
    (hc : st.cancelReq = false) (hwf : i.wf = true)
    (hg : gate.check st.inited (s.lockOwner == some s.sel) = none)
    (hl : s.lockOwner = if owns = true then some s.sel else none)
    (hu : prog.run s.sel st.hwOk owns st.chipQ = some u) (hv : u.value = .done r) (hq : u.steps < s.quantum) :
    runCommand i gate prog s =
      .next (s.completed i u.txns (if u.owns = true then some s.sel else none) u.writes u.rest r) := by
  simp only [runCommand, hst, hi, hwf, hg, if_true]
  rw [cpeRun_of_run (st := st.accept (.known i)) (u := u) (r := r) (owns := owns) (node := prog)]
  · refine congrArg Host.Outcome.next ?_
    rw [State.completed, State.mk.injEq]
    refine ⟨rfl, ?_, rfl, rfl, rfl, rfl, rfl, rfl⟩
    exact modify_two _ _ _ _ _ fun x => finish_accept_applyWrites _ x _ _ _
  · simp [hst]
  · simp
  · simpa using hc
  · simpa using hl
  · simp
  · simpa using hu
  · exact hv
  · simpa using hq

end Sys2Proof.Machine
end

