-- ==== Sys2Proof/Laws/Exec.lean ====
section
/-! SUPPORT. The dispatch read through the table of commands: what exec runs, and that every program a command starts
keeps the lock discipline. -/

namespace Sys2Proof.Machine

open Sys2Proof

/-- The instruction is no host command, or exec runs it with its checks and its program. -/
def RunsAsCommand (i : Instr) (s : State) : Prop :=
  ∀ g prog, hostGate s.cfg i = some g → programOf s.cfg i = some prog → exec i s = runCommand i g prog s

theorem runsAsCommand_of {i : Instr} {s : State} {g : Gate} {prog : Prog CmdEnd} (hg : hostGate s.cfg i = some g)
    (hp : programOf s.cfg i = some prog) (h : exec i s = runCommand i g prog s) : RunsAsCommand i s := by
  intro g' prog' hg' hp'
  obtain rfl := Option.some.inj (hg.symm.trans hg')
  obtain rfl := Option.some.inj (hp.symm.trans hp')
  exact h

theorem runsAsCommand_none {i : Instr} {s : State} (hg : hostGate s.cfg i = none) : RunsAsCommand i s := by
  intro g' prog' hg'
  rw [hg] at hg'
  cases hg'

theorem regGate_eq (a : Byte) : regGate a = ⟨.required, .held, if a.toNat ≤ 0x3F then none else some .badReg⟩ := by
  simp [regGate, Gate.lowLevel, check, regAddrOk]

theorem payloadGate_eq (cfg : Config) (d : List Byte) :
    payloadGate cfg d = ⟨.required, .held, if d.length ≤ cfg.fifoDepth then none else some .badLen⟩ := by
  simp [payloadGate, Gate.lowLevel, check]

theorem trailerGate_eq (n : Byte) :
    trailerGate n = ⟨.required, .notHeld, if (n.toNat + 1) % 4 = 0 then none else some .badTrailer⟩ := by
  simp [trailerGate, Gate.session, check, trailerOk]

theorem blockGate_eq (d : List Byte) : Gate.lowLevel (check (d.length == blockSize) .badLen) =
    ⟨.required, .held, if d.length = 16 then none else some .badLen⟩ := by
  simp [Gate.lowLevel, check, blockSize]

theorem runsAsCommand (i : Instr) (s : State) : RunsAsCommand i s := by
  cases i with
  | init => exact runsAsCommand_of rfl rfl rfl
  | acquire => exact runsAsCommand_of rfl rfl rfl
  | release => exact runsAsCommand_of rfl rfl rfl
  | regRead a =>
    exact runsAsCommand_of rfl rfl (congrArg (fun g => runCommand (.regRead a) g (regReadProg a) s) (regGate_eq a))
  | regWrite a v =>
    exact runsAsCommand_of rfl rfl
      (congrArg (fun g => runCommand (.regWrite a v) g (regWriteProg a v) s) (regGate_eq a))
  | setBits a m =>
    exact runsAsCommand_of rfl rfl
      (congrArg (fun g => runCommand (.setBits a m) g (setBitsProg a m) s) (regGate_eq a))
  | clearBits a m =>
    exact runsAsCommand_of rfl rfl
      (congrArg (fun g => runCommand (.clearBits a m) g (clearBitsProg a m) s) (regGate_eq a))
  | chipReset => exact runsAsCommand_of rfl rfl rfl
  | antennaOn => exact runsAsCommand_of rfl rfl rfl
  | toCard c d =>
    exact runsAsCommand_of rfl rfl
      (congrArg (fun g => runCommand (.toCard c d) g (toCardProg s.cfg c d) s) (payloadGate_eq s.cfg d))
  | calcCrc d =>
    exact runsAsCommand_of rfl rfl
      (congrArg (fun g => runCommand (.calcCrc d) g (calcCrcProg s.cfg d) s) (payloadGate_eq s.cfg d))
  | request m => exact runsAsCommand_of rfl rfl rfl
  | anticoll => exact runsAsCommand_of rfl rfl rfl
  | select u => exact runsAsCommand_of rfl rfl rfl
  | auth m b k u => exact runsAsCommand_of rfl rfl rfl
  | stopCrypto => exact runsAsCommand_of rfl rfl rfl
  | readBlock b => exact runsAsCommand_of rfl rfl rfl
  | writeBlock b d =>
    exact runsAsCommand_of rfl rfl
      (congrArg (fun g => runCommand (.writeBlock b d) g (writeBlockProg s.cfg b d) s) (blockGate_eq d))
  | tryReadId => exact runsAsCommand_of rfl rfl rfl
  | tryReadSector n =>
    exact runsAsCommand_of rfl rfl
      (congrArg (fun g => runCommand (.tryReadSector n) g (tryReadSectorProg s.cfg n) s) (trailerGate_eq n))
  | tryWriteSector t n =>
    exact runsAsCommand_of rfl rfl
      (congrArg (fun g => runCommand (.tryWriteSector t n) g (tryWriteSectorProg s.cfg t n) s) (trailerGate_eq n))
  | readId => exact runsAsCommand_of rfl rfl rfl
  | readSector n =>
    exact runsAsCommand_of rfl rfl
      (congrArg (fun g => runCommand (.readSector n) g (readSectorProg s.cfg n) s) (trailerGate_eq n))
  | writeSector t n =>
    exact runsAsCommand_of rfl rfl
      (congrArg (fun g => runCommand (.writeSector t n) g (writeSectorProg s.cfg t n) s) (trailerGate_eq n))
  | _ => exact runsAsCommand_none rfl

/-- A host command is presented, checked and run (R312, R712). -/
theorem exec_command {i : Instr} {s : State} {g : Gate} {prog : Prog CmdEnd} (hg : hostGate s.cfg i = some g)
    (hp : programOf s.cfg i = some prog) : exec i s = runCommand i g prog s := runsAsCommand i s g prog hg hp

/-- A frame is run with no acceptance check (A17). -/
theorem exec_frame {i : Instr} {s : State} {prog : Prog CmdEnd} (hg : hostGate s.cfg i = none)
    (hp : programOf s.cfg i = some prog) : exec i s = runCommand i frameGate prog s := by
  cases i with
  | frameRequest m => obtain rfl := Option.some.inj hp; rfl
  | frameAnticoll => obtain rfl := Option.some.inj hp; rfl
  | frameSelect u lo hi => obtain rfl := Option.some.inj hp; rfl
  | frameAuth m b k u => obtain rfl := Option.some.inj hp; rfl
  | frameRead b lo hi => obtain rfl := Option.some.inj hp; rfl
  | frameWritePhase1 b lo hi => obtain rfl := Option.some.inj hp; rfl
  | frameWritePhase2 d lo hi => obtain rfl := Option.some.inj hp; rfl
  | _ => first | exact absurd hg (Option.some_ne_none _) | exact absurd hp.symm (Option.some_ne_none _)

/-- Every host command has a program. -/
theorem programOf_isSome {cfg : Config} {i : Instr} {g : Gate} (hg : hostGate cfg i = some g) :
    ∃ prog, programOf cfg i = some prog := by
  cases i <;> first | exact ⟨_, rfl⟩ | cases hg

/-- A command of R311 that passes its checks starts a program that keeps the lock discipline (R651). -/
theorem programOf_keeps {cfg : Config} {i : Instr} {g : Gate} {prog : Prog CmdEnd} {inited owns : Bool} (rst : Bool)
    (hg : hostGate cfg i = some g) (hp : programOf cfg i = some prog) (hc : g.check inited owns = none) :
    prog.Keeps (CmdEnd.Fine (isBlocking i)) owns rst := by
  have hheld : g.lock = .held → owns = true := by
    intro h
    cases owns
    · simp only [Gate.check, h] at hc
      split at hc
      · cases hc
      · split at hc
        · cases hc
        · simp at hc
    · rfl
  have hnot : g.lock = .notHeld → owns = false := by
    intro h
    cases owns
    · rfl
    · simp only [Gate.check, h] at hc
      split at hc
      · cases hc
      · split at hc
        · cases hc
        · simp at hc
  cases i with
  | init =>
    obtain rfl := Option.some.inj hg
    obtain rfl := Option.some.inj hp
    obtain rfl := hnot rfl
    intro b
    dsimp only
    split
    · refine ⟨rfl, Prog.Keeps.seq (writeRegister_keeps _ _ (Prog.Keeps.seq (issueWrites_keeps _
        (Prog.Keeps.seq (antennaOn_keeps _ ?_)))))⟩
      exact ⟨rfl, rfl, endOk_keeps _ _ _⟩
    · exact ⟨by simp [Res.Ended, Res.ofStatus, Res.absent], fun _ => rfl⟩
  | acquire =>
    obtain rfl := Option.some.inj hg
    obtain rfl := Option.some.inj hp
    obtain rfl := hnot rfl
    exact ⟨rfl, endOk_keeps _ _ _⟩
  | release =>
    obtain rfl := Option.some.inj hg
    obtain rfl := Option.some.inj hp
    obtain rfl := hheld rfl
    exact ⟨rfl, endOk_keeps _ _ _⟩
  | regRead a =>
    obtain rfl := Option.some.inj hg
    obtain rfl := Option.some.inj hp
    obtain rfl := hheld rfl
    exact ⟨rfl, fun b => done_fine (by simp [Res.ofStatus]) (by simp [Res.ofStatus]) (by simp [Res.ofStatus])
      (by simp [Res.ofStatus, Res.absent]) (by simp [Res.ofStatus, Res.absent])⟩
  | regWrite a v =>
    obtain rfl := Option.some.inj hg
    obtain rfl := Option.some.inj hp
    obtain rfl := hheld rfl
    exact Prog.Keeps.seq (writeRegister_keeps _ _ (endOk_keeps _ _ _))
  | setBits a m =>
    obtain rfl := Option.some.inj hg
    obtain rfl := Option.some.inj hp
    obtain rfl := hheld rfl
    exact Prog.Keeps.seq (setBits_keeps _ _ (endOk_keeps _ _ _))
  | clearBits a m =>
    obtain rfl := Option.some.inj hg
    obtain rfl := Option.some.inj hp
    obtain rfl := hheld rfl
    exact Prog.Keeps.seq (clearBits_keeps _ _ (endOk_keeps _ _ _))
  | chipReset =>
    obtain rfl := Option.some.inj hg
    obtain rfl := Option.some.inj hp
    obtain rfl := hheld rfl
    exact Prog.Keeps.seq (writeRegister_keeps _ _ (endOk_keeps _ _ _))
  | antennaOn =>
    obtain rfl := Option.some.inj hg
    obtain rfl := Option.some.inj hp
    obtain rfl := hheld rfl
    exact Prog.Keeps.seq (antennaOn_keeps _ (endOk_keeps _ _ _))
  | toCard c d =>
    obtain rfl := Option.some.inj hg
    obtain rfl := Option.some.inj hp
    obtain rfl := hheld rfl
    refine Prog.Keeps.bind (toCard_keeps' _ _ _ fun x hx hst => ?_)
    exact exchange_fine x _ hst hx
  | calcCrc d =>
    obtain rfl := Option.some.inj hg
    obtain rfl := Option.some.inj hp
    obtain rfl := hheld rfl
    exact Prog.Keeps.bind (calculateCrc_keeps _ _ fun lo hi => done_fine (by simp [Res.ofStatus])
      (by simp [Res.ofStatus]) (by simp [Res.ofStatus]) (by simp [Res.ofStatus, Res.absent]) (by simp))
  | request m =>
    obtain rfl := Option.some.inj hg
    obtain rfl := Option.some.inj hp
    obtain rfl := hheld rfl
    refine Prog.Keeps.bind (request_keeps _ _ fun x => ?_)
    have := requestStatus_cases x
    exact done_fine (by simp [Res.ofStatus]) (by rcases this with h | h <;> simp [Res.ofStatus, h])
      (by rcases this with h | h <;> simp [Res.ofStatus, h]) (by simp [Res.ofStatus, Res.absent])
      (by simp [Res.ofStatus, Res.absent])
  | anticoll =>
    obtain rfl := Option.some.inj hg
    obtain rfl := Option.some.inj hp
    obtain rfl := hheld rfl
    refine Prog.Keeps.bind (Prog.Keeps.bind (Prog.Keeps.seq (writeRegister_keeps _ _
      (toCard_keeps' _ _ _ fun x hx hst => ?_))))
    have := anticollStatus_cases x hst
    exact done_fine (by simp [Res.ofStatus]) (by rcases this with h | h | h <;> simp [Res.ofStatus, h])
      (by rcases this with h | h | h <;> simp [Res.ofStatus, h]) (by simp [Res.ofStatus, Res.absent])
      (by simp; omega)
  | select u =>
    obtain rfl := Option.some.inj hg
    obtain rfl := Option.some.inj hp
    obtain rfl := hheld rfl
    refine Prog.Keeps.bind (selectTag_keeps _ _ fun r => done_fine (by simp [Res.ofStatus]) ?_ ?_
      (by simp [Res.ofStatus, Res.absent]) (by simp [Res.ofStatus, Res.absent]))
    · dsimp only [Res.ofStatus]
      split <;> simp
    · dsimp only [Res.ofStatus]
      split <;> simp
  | auth m b k u =>
    obtain rfl := Option.some.inj hg
    obtain rfl := Option.some.inj hp
    obtain rfl := hheld rfl
    refine Prog.Keeps.bind (Prog.Keeps.bind (toCard_keeps' _ _ _ fun x hx hst => ⟨rfl, fun s2 => ?_⟩))
    have hfine : ∀ w : Bool, (Prog.ret (CmdEnd.done { Res.ofStatus x.status with warn := some w })).Keeps
        (CmdEnd.Fine (isBlocking (.auth m b k u))) true rst := fun w =>
      done_fine (by simp [Res.ofStatus]) (by rcases hst with h | h | h <;> simp [Res.ofStatus, h])
        (by rcases hst with h | h | h <;> simp [Res.ofStatus, h]) (by simp [Res.ofStatus, Res.absent])
        (by simp [Res.ofStatus, Res.absent])
    dsimp only
    split
    · exact hfine true
    · exact hfine false
  | stopCrypto =>
    obtain rfl := Option.some.inj hg
    obtain rfl := Option.some.inj hp
    obtain rfl := hheld rfl
    exact Prog.Keeps.seq (stopCrypto_keeps _ (endOk_keeps _ _ _))
  | readBlock b =>
    obtain rfl := Option.some.inj hg
    obtain rfl := Option.some.inj hp
    obtain rfl := hheld rfl
    refine Prog.Keeps.bind (readBlock_keeps _ _ fun r hr => ?_)
    cases r with
    | none =>
      exact done_fine (r := Res.ofBlock none) (by simp [Res.ofBlock, Res.ofStatus])
        (by simp [Res.ofBlock, Res.ofStatus]) (by simp [Res.ofBlock, Res.ofStatus])
        (by simp [Res.ofBlock, Res.ofStatus, Res.absent]) (by simp [Res.ofBlock, Res.ofStatus, Res.absent])
    | some d =>
      have := hr d rfl
      exact done_fine (r := Res.ofBlock (some d)) (by simp [Res.ofBlock, Res.ofStatus])
        (by simp [Res.ofBlock, Res.ofStatus]) (by simp [Res.ofBlock, Res.ofStatus])
        (by simp [Res.ofBlock, Res.ofStatus, Res.absent]) (by simp [Res.ofBlock, this])
  | writeBlock b d =>
    obtain rfl := Option.some.inj hg
    obtain rfl := Option.some.inj hp
    obtain rfl := hheld rfl
    refine Prog.Keeps.bind (writeBlock_keeps _ _ _ ?_ ?_) <;>
      exact done_fine (by simp [Res.ofStatus]) (by simp [Res.ofStatus]) (by simp [Res.ofStatus])
        (by simp [Res.ofStatus, Res.absent]) (by simp [Res.ofStatus, Res.absent])
  | tryReadId =>
    obtain rfl := Option.some.inj hg
    obtain rfl := Option.some.inj hp
    obtain rfl := hnot rfl
    exact once_keeps _ (fun h => tryReadIdentifier_keeps _ h) fun v w _ => idRes_ended v w
  | tryReadSector n =>
    obtain rfl := Option.some.inj hg
    obtain rfl := Option.some.inj hp
    obtain rfl := hnot rfl
    exact once_keeps _ (fun h => tryReadSector_keeps _ _ h) fun v w h => sectorRes_ended v w h
  | tryWriteSector t n =>
    obtain rfl := Option.some.inj hg
    obtain rfl := Option.some.inj hp
    obtain rfl := hnot rfl
    exact once_keeps _ (fun h => tryWriteSector_keeps _ _ _ h) fun v w h => sectorRes_ended v w h
  | readId =>
    obtain rfl := Option.some.inj hg
    obtain rfl := Option.some.inj hp
    obtain rfl := hnot rfl
    exact blocking_keeps (fun h => tryReadIdentifier_keeps _ h) fun v w _ => idRes_ended v w
  | readSector n =>
    obtain rfl := Option.some.inj hg
    obtain rfl := Option.some.inj hp
    obtain rfl := hnot rfl
    exact blocking_keeps (fun h => tryReadSector_keeps _ _ h) fun v w h => sectorRes_ended v w h
  | writeSector t n =>
    obtain rfl := Option.some.inj hg
    obtain rfl := Option.some.inj hp
    obtain rfl := hnot rfl
    exact blocking_keeps (fun h => tryWriteSector_keeps _ _ _ h) fun v w h => sectorRes_ended v w h
  | _ => exact absurd hg (Option.some_ne_none g).symm

end Sys2Proof.Machine
end

