-- ==== Sys2Proof/Laws/Runs.lean ====
section
/-! SUPPORT. The undisturbed runs of the sub-operations, each said once: what a program of the spec's pseudocode does
when the chip answers by a script. -/

namespace Sys2Proof.Machine

open Sys2Proof

/-! ## Register access -/

theorem setBits_run (p : Nat) (hw : Bool) (a : RegAddr) (m v : Byte) (rest : List Byte) :
    (setBits a m).run p hw true (v :: rest) =
      some ⟨(), [rdTxn p a v, wrTxn p a (v ||| m)], [], 2, true, rest⟩ := rfl

theorem clearBits_run (p : Nat) (hw : Bool) (a : RegAddr) (m v : Byte) (rest : List Byte) :
    (clearBits a m).run p hw true (v :: rest) =
      some ⟨(), [rdTxn p a v, wrTxn p a (v &&& ~~~m)], [], 2, true, rest⟩ := rfl

theorem writeRegister_run (p : Nat) (hw : Bool) (a : RegAddr) (v : Byte) (rest : List Byte) :
    (writeRegister a v).run p hw true rest = some ⟨(), [wrTxn p a v], [], 1, true, rest⟩ := rfl

/-! ## Loops -/

theorem pushFifo_run (cfg : Config) (p : Nat) (hw : Bool) (d rest : List Byte) :
    (pushFifo cfg d).run p hw true rest =
      some ⟨(), d.map (wrTxn p cfg.aFifoData), [], d.length, true, rest⟩ := by
  induction d with
  | nil => rfl
  | cons b d ih => simp [pushFifo, Prog.run, ih, Run.after, wrTxn]

theorem issueWrites_run (p : Nat) (hw : Bool) (l : List (RegAddr × Byte)) (rest : List Byte) :
    (issueWrites l).run p hw true rest =
      some ⟨(), l.map fun w => wrTxn p w.1 w.2, [], l.length, true, rest⟩ := by
  induction l with
  | nil => rfl
  | cons b d ih => simp [issueWrites, Prog.run, ih, Run.after, wrTxn]

/-- The poll that fires ends the wait (R452). -/
theorem pollIrq_run_fired (cfg : Config) (p : Nat) (hw : Bool) (wait fire : Byte) (polls rest : List Byte) (k : Nat)
    (hk : polls.length < k) (hp : ∀ n ∈ polls, fires wait n = false) (hf : fires wait fire = true) :
    (pollIrq cfg wait k).run p hw true (polls ++ fire :: rest) =
      some ⟨.fired fire, polls.map (rdTxn p cfg.aComIrq) ++ [rdTxn p cfg.aComIrq fire], [],
        2 * polls.length + 1, true, rest⟩ := by
  induction polls generalizing k with
  | nil =>
    obtain ⟨n, rfl⟩ : ∃ n, k = n + 1 := ⟨k - 1, by simp at hk; omega⟩
    simp [pollIrq, Prog.run, hf, Run.after, rdTxn]
  | cons b polls ih =>
    obtain ⟨n, rfl⟩ : ∃ n, k = n + 1 := ⟨k - 1, by simp at hk; omega⟩
    simp only [List.length_cons] at hk
    have hb : fires wait b = false := hp b (by simp)
    have hn : n ≠ 0 := by omega
    have ih' := ih n (by omega) (fun m hm => hp m (by simp [hm]))
    simp [pollIrq, Prog.run, hb, hn, ih', Run.after, rdTxn]
    omega

/-- No poll fires: the wait times out after all of them (R452). -/
theorem pollIrq_run_timeout (cfg : Config) (p : Nat) (hw : Bool) (wait : Byte) (polls rest : List Byte)
    (hp : ∀ n ∈ polls, fires wait n = false) :
    (pollIrq cfg wait polls.length).run p hw true (polls ++ rest) =
      some ⟨.timeout, polls.map (rdTxn p cfg.aComIrq), [], 2 * polls.length - 1, true, rest⟩ := by
  induction polls with
  | nil => rfl
  | cons b polls ih =>
    have hb : fires wait b = false := hp b (by simp)
    have ih' := ih fun m hm => hp m (by simp [hm])
    cases polls with
    | nil => simp [pollIrq, Prog.run, hb, Run.after, rdTxn]
    | cons c polls =>
      simp only [List.length_cons] at ih' ⊢
      rw [pollIrq]
      simp only [List.cons_append, Prog.run, hb] at ih' ⊢
      simp only [Bool.false_eq_true, if_false, Nat.succ_ne_zero, Prog.run, ih', Option.map_some, Run.after]
      simp [rdTxn]
      omega

theorem drainFifo_run (cfg : Config) (p : Nat) (hw : Bool) (l rest : List Byte) :
    (drainFifo cfg l.length).run p hw true (l ++ rest) =
      some ⟨l, l.map (rdTxn p cfg.aFifoData), [], l.length, true, rest⟩ := by
  induction l with
  | nil => rfl
  | cons b l ih =>
    have h := Prog.run_bind (f := fun rest => .ret (b :: rest)) ih rfl
    simp only [List.length_cons, drainFifo, List.cons_append, Prog.run, h]
    simp [Run.andThen, Run.after, rdTxn]

/-- The CRC-done flag sets at the last poll listed (R460). -/
theorem pollCrc_run_done (cfg : Config) (p : Nat) (hw : Bool) (polls rest : List Byte) (last : Byte) (k : Nat)
    (hk : polls.length < k) (hp : ∀ n ∈ polls, n &&& cfg.crcDone = 0) (hl : last &&& cfg.crcDone ≠ 0) :
    (pollCrc cfg k).run p hw true (polls ++ last :: rest) =
      some ⟨(), polls.map (rdTxn p cfg.aDivIrq) ++ [rdTxn p cfg.aDivIrq last], [], polls.length + 1, true, rest⟩ := by
  induction polls generalizing k with
  | nil =>
    obtain ⟨n, rfl⟩ : ∃ n, k = n + 1 := ⟨k - 1, by simp at hk; omega⟩
    simp only [pollCrc, List.nil_append, Prog.run, ne_eq, hl, not_false_eq_true, if_true]
    simp [Run.after, rdTxn]
  | cons b polls ih =>
    obtain ⟨n, rfl⟩ : ∃ n, k = n + 1 := ⟨k - 1, by simp at hk; omega⟩
    simp only [List.length_cons] at hk
    have hb : b &&& cfg.crcDone = 0 := hp b (by simp)
    have ih' := ih n (by omega) (fun m hm => hp m (by simp [hm]))
    simp only [pollCrc, List.length_cons, List.cons_append, Prog.run, ne_eq, hb, not_true_eq_false, if_false, ih',
      Option.map_some, Run.after]
    simp [rdTxn]

/-- The CRC-done flag never sets: all polls are used (R461). -/
theorem pollCrc_run_never (cfg : Config) (p : Nat) (hw : Bool) (polls rest : List Byte)
    (hp : ∀ n ∈ polls, n &&& cfg.crcDone = 0) :
    (pollCrc cfg polls.length).run p hw true (polls ++ rest) =
      some ⟨(), polls.map (rdTxn p cfg.aDivIrq), [], polls.length, true, rest⟩ := by
  induction polls with
  | nil => rfl
  | cons b polls ih =>
    have hb : b &&& cfg.crcDone = 0 := hp b (by simp)
    have ih' := ih (fun m hm => hp m (by simp [hm]))
    simp only [pollCrc, List.length_cons, List.cons_append, Prog.run, ne_eq, hb, not_true_eq_false, if_false, ih',
      Option.map_some, Run.after]
    simp [rdTxn]

/-! ## The exchange -/

/-- Steps 1 to 3 of `to_card` (R451). -/
theorem startExchange_run (cfg : Config) (p : Nat) (hw : Bool) (c : Byte) (d rest : List Byte) (irq flush : Byte) :
    (startExchange cfg c d).run p hw true (irq :: flush :: rest) =
      some ⟨(), [wrTxn p cfg.aComIEn ((irqMasks cfg c).1 ||| ienSet),
          rdTxn p cfg.aComIrq irq, wrTxn p cfg.aComIrq (irq &&& ~~~cfg.clrIrqMask),
          rdTxn p cfg.aFifoLevel flush, wrTxn p cfg.aFifoLevel (flush ||| cfg.flushBit),
          wrTxn p cfg.aCommand cfg.cmdIdle] ++ d.map (wrTxn p cfg.aFifoData) ++ [wrTxn p cfg.aCommand c],
        [], d.length + 7, true, rest⟩ := by
  have h := Prog.run_bind (f := fun _ => writeRegister cfg.aCommand c) (pushFifo_run cfg p hw d rest) rfl
  simp only [startExchange, Prog.seq, writeRegister, clearBits, setBits, Prog.bind_wr, Prog.bind_rd, Prog.bind_ret,
    Prog.run, if_true] at h ⊢
  rw [h]
  simp [Run.andThen, Run.after, rdTxn, wrTxn]

/-- `to_card` up to the end of the polls, and the START_SEND clear: what all endings of an exchange share. -/
theorem exchange_run {β : Type} (cfg : Config) (p : Nat) (hw : Bool) (c : Byte) (d : List Byte) (x : ExchangeScript)
    (answers rest : List Byte) (poll : PollEnd) (txns : List Txn) (n : Nat) (f : PollEnd → Prog β) (v : Run β)
    (hp : (pollIrq cfg (irqMasks cfg c).2 cfg.maxPolls).run p hw true (answers ++ x.framing2 :: rest) =
      some ⟨poll, txns, [], n, true, x.framing2 :: rest⟩)
    (hv : (f poll).run p hw true rest = some v) :
    ((startExchange cfg c d).seq <|
      (if c = cfg.cmdTransceive then Sys2Proof.Machine.setBits cfg.aBitFraming cfg.startSend else .ret ()).seq <|
      (pollIrq cfg (irqMasks cfg c).2 cfg.maxPolls).bind fun poll =>
      (Sys2Proof.Machine.clearBits cfg.aBitFraming cfg.startSend).seq (f poll)).run p hw true
        (x.headAnswers cfg c ++ answers ++ x.framing2 :: rest) =
      some ⟨v.value, x.head cfg p c d ++ txns ++ x.clear cfg p ++ v.txns, v.writes,
        (x.head cfg p c d).length + n + 2 + v.steps, v.owns, v.rest⟩ := by
  have h1 := Prog.run_bind (f := fun _ => f poll)
    (clearBits_run p hw cfg.aBitFraming cfg.startSend x.framing2 rest) hv
  have h2 := Prog.run_bind (f := fun poll => (clearBits cfg.aBitFraming cfg.startSend).seq (f poll)) hp h1
  by_cases hc : c = cfg.cmdTransceive
  · have h3 := Prog.run_bind (f := fun _ => (pollIrq cfg (irqMasks cfg c).2 cfg.maxPolls).bind fun poll =>
      (clearBits cfg.aBitFraming cfg.startSend).seq (f poll))
      (setBits_run p hw cfg.aBitFraming cfg.startSend x.framing (answers ++ x.framing2 :: rest)) h2
    have h4 := Prog.run_bind (f := fun _ => (setBits cfg.aBitFraming cfg.startSend).seq
      ((pollIrq cfg (irqMasks cfg c).2 cfg.maxPolls).bind fun poll =>
      (clearBits cfg.aBitFraming cfg.startSend).seq (f poll)))
      (startExchange_run cfg p hw c d (x.framing :: (answers ++ x.framing2 :: rest)) x.irq x.flush) h3
    simp only [hc, if_true, ExchangeScript.headAnswers] at h4 ⊢
    simp only [Prog.seq] at h4 ⊢
    simp only [List.append_assoc, List.cons_append, List.nil_append] at h4 ⊢
    rw [h4]
    simp [Run.andThen, ExchangeScript.head, ExchangeScript.clear, ienSet]
    omega
  · have h4 := Prog.run_bind (f := fun _ =>
      ((pollIrq cfg (irqMasks cfg c).2 cfg.maxPolls).bind fun poll =>
      (clearBits cfg.aBitFraming cfg.startSend).seq (f poll)))
      (startExchange_run cfg p hw c d (answers ++ x.framing2 :: rest) x.irq x.flush) h2
    simp only [hc, if_false, ExchangeScript.headAnswers, List.append_nil]
    simp only [Prog.seq, Prog.bind_ret] at h4 ⊢
    simp only [List.append_assoc, List.cons_append, List.nil_append] at h4 ⊢
    rw [h4]
    simp [Run.andThen, ExchangeScript.head, ExchangeScript.clear, ienSet, hc]
    omega

theorem outcome_status (en n : Byte) :
    exchangeStatus en n = if n &&& en &&& 0x01 ≠ 0 then .noTag else .ok := by
  by_cases h : n &&& en &&& (0x01 : Byte) = 0
  · have : (n &&& en &&& timerIrq != 0) = false := by simpa [bne, timerIrq] using h
    simp only [exchangeStatus, this, h]
    rfl
  · have : (n &&& en &&& timerIrq != 0) = true := by simpa [bne, timerIrq] using h
    simp only [exchangeStatus, this, h, ne_eq, not_false_eq_true, if_true]

theorem bitLength_eq (level last : Byte) :
    bitLength level.toNat last.toNat =
      if level = 0 then 0 else if last ≠ 0 then (level.toNat - 1) * 8 + last.toNat else level.toNat * 8 := by
  have h0 : ∀ b : Byte, b.toNat = 0 ↔ b = 0 := fun b => by
    constructor
    · intro h
      exact BitVec.eq_of_toNat_eq (by simpa using h)
    · rintro rfl
      rfl
  simp only [bitLength, h0, ne_eq]

/-- One exchange that is not cancelled (R451 to R454). -/
theorem toCard_run (cfg : Config) (p : Nat) (hw : Bool) (c : Byte) (d rest : List Byte) (x : ExchangeScript)
    (hx : x.Fits cfg c) :
    (toCard cfg c d).run p hw true (x.answers cfg c ++ rest) =
      some ⟨x.outcome cfg c, x.records cfg p c d, [], x.steps cfg c d, true, rest⟩ := by
  obtain ⟨irq, flush, framing, polls, framing2, ending⟩ := x
  obtain ⟨hp, he⟩ := hx
  cases ending with
  | timeout =>
    simp only at he hp
    have h := exchange_run cfg p hw c d ⟨irq, flush, framing, polls, framing2, .timeout⟩ polls rest .timeout _ _
      (fun poll => match poll with
        | .cancelled => .abort
        | .timeout => .ret ⟨.error, [], 0⟩
        | .fired n => finishExchange cfg c (irqMasks cfg c).1 n) ⟨⟨.error, [], 0⟩, [], [], 0, true, rest⟩
      (by simpa [he] using pollIrq_run_timeout cfg p hw (irqMasks cfg c).2 polls (framing2 :: rest) hp)
      rfl
    have hans : ExchangeScript.answers cfg c ⟨irq, flush, framing, polls, framing2, .timeout⟩ ++ rest =
        ExchangeScript.headAnswers cfg c ⟨irq, flush, framing, polls, framing2, .timeout⟩ ++ polls ++
          framing2 :: rest := by
      simp [ExchangeScript.answers, ExchangeScript.endAnswers]
    rw [toCard, hans]
    refine Eq.trans h ?_
    simp only [ExchangeScript.records, ExchangeScript.steps, ExchangeScript.outcome, ExchangeEnd.fireRecords,
      ExchangeEnd.tailRecords, Option.some.injEq, Run.mk.injEq]
    refine ⟨trivial, by simp, trivial, ?_, trivial, trivial⟩
    rw [he]
    by_cases hc : c = cfg.cmdTransceive <;> simp [ExchangeScript.head, ExchangeScript.clear, hc, he] <;> omega
  | error fire err =>
    simp only at he hp
    obtain ⟨hn, hf, he⟩ := he
    have he' : errorSet err = true := by
      simp only [errorSet, bne_iff_ne]
      exact he
    have h := exchange_run cfg p hw c d ⟨irq, flush, framing, polls, framing2, .error fire err⟩ (polls ++ [fire])
      (err :: rest) (.fired fire) _ _
      (fun poll => match poll with
        | .cancelled => .abort
        | .timeout => .ret ⟨.error, [], 0⟩
        | .fired n => finishExchange cfg c (irqMasks cfg c).1 n)
      ⟨⟨.error, [], 0⟩, [rdTxn p cfg.aError err], [], 1, true, rest⟩
      (by simpa using pollIrq_run_fired cfg p hw (irqMasks cfg c).2 fire polls (framing2 :: err :: rest)
            cfg.maxPolls hn hp hf)
      (by simp [finishExchange, Prog.run, he', Run.after, rdTxn])
    have hans : ExchangeScript.answers cfg c ⟨irq, flush, framing, polls, framing2, .error fire err⟩ ++ rest =
        ExchangeScript.headAnswers cfg c ⟨irq, flush, framing, polls, framing2, .error fire err⟩ ++
          (polls ++ [fire]) ++ framing2 :: err :: rest := by
      simp [ExchangeScript.answers, ExchangeScript.endAnswers]
    rw [toCard, hans]
    refine Eq.trans h ?_
    simp only [ExchangeScript.records, ExchangeScript.steps, ExchangeScript.outcome, ExchangeEnd.fireRecords,
      ExchangeEnd.tailRecords, Option.some.injEq, Run.mk.injEq]
    refine ⟨trivial, by simp, trivial, ?_, trivial, trivial⟩
    by_cases hc : c = cfg.cmdTransceive <;> simp [ExchangeScript.head, ExchangeScript.clear, hc] <;> omega
  | reply fire err level control bytes =>
    simp only at he hp
    obtain ⟨hn, hf, he, hr⟩ := he
    have he' : errorSet err = false := by
      have : err &&& errMask = 0 := he
      simp only [errorSet, this]
      rfl
    have hfin : (finishExchange cfg c (irqMasks cfg c).1 fire).run p hw true
        (err :: ((if c = cfg.cmdTransceive then [level, control] ++ bytes else []) ++ rest)) =
        some ⟨ExchangeScript.outcome cfg c ⟨irq, flush, framing, polls, framing2, .reply fire err level control bytes⟩,
          ExchangeEnd.tailRecords cfg p c (.reply fire err level control bytes), [],
          if c = cfg.cmdTransceive then bytes.length + 3 else 1, true, rest⟩ := by
      by_cases hc : c = cfg.cmdTransceive
      · have hl : drainCount level.toNat = bytes.length := by simp [drainCount, maxFrame, hr hc]
        have h := Prog.run_bind (f := fun bytes => .ret (⟨exchangeStatus (irqMasks cfg c).1 fire, bytes,
          bitLength level.toNat (control &&& cfg.lastBitsMask).toNat⟩ : Exchange))
          (drainFifo_run cfg p hw bytes rest) rfl
        rw [← hl] at h
        simp only [finishExchange, readReply, Prog.run, he', hc, if_true] at h ⊢
        simp only [Bool.false_eq_true, if_false, List.cons_append, List.nil_append, Prog.run] at h ⊢
        rw [h]
        simp only [outcome_status, bitLength_eq]
        simp [Run.andThen, Run.after, rdTxn, ExchangeScript.outcome, ExchangeEnd.tailRecords, hl]
      · simp [finishExchange, Prog.run, he', hc, Run.after, rdTxn, ExchangeScript.outcome, ExchangeEnd.tailRecords,
          outcome_status]
    have h := exchange_run cfg p hw c d ⟨irq, flush, framing, polls, framing2, .reply fire err level control bytes⟩
      (polls ++ [fire]) (err :: ((if c = cfg.cmdTransceive then [level, control] ++ bytes else []) ++ rest))
      (.fired fire) _ _
      (fun poll => match poll with
        | .cancelled => .abort
        | .timeout => .ret ⟨.error, [], 0⟩
        | .fired n => finishExchange cfg c (irqMasks cfg c).1 n) _
      (by simpa using pollIrq_run_fired cfg p hw (irqMasks cfg c).2 fire polls
            (framing2 :: err :: ((if c = cfg.cmdTransceive then [level, control] ++ bytes else []) ++ rest))
            cfg.maxPolls hn hp hf)
      hfin
    have hans : ExchangeScript.answers cfg c
        ⟨irq, flush, framing, polls, framing2, .reply fire err level control bytes⟩ ++ rest =
        ExchangeScript.headAnswers cfg c
          ⟨irq, flush, framing, polls, framing2, .reply fire err level control bytes⟩ ++ (polls ++ [fire]) ++
          framing2 :: err :: ((if c = cfg.cmdTransceive then [level, control] ++ bytes else []) ++ rest) := by
      simp [ExchangeScript.answers, ExchangeScript.endAnswers]
    rw [toCard, hans]
    refine Eq.trans h ?_
    simp only [ExchangeScript.records, ExchangeScript.steps, ExchangeEnd.fireRecords, Option.some.injEq,
      Run.mk.injEq]
    refine ⟨trivial, by simp, trivial, ?_, trivial, trivial⟩
    by_cases hc : c = cfg.cmdTransceive <;>
      simp [ExchangeScript.head, ExchangeScript.clear, ExchangeEnd.tailRecords, hc] <;> omega

/-! ## The CRC coprocessor -/

/-- `calculate_crc` (R460, R461). -/
theorem calculateCrc_run (cfg : Config) (p : Nat) (hw : Bool) (d rest : List Byte) (k : CrcScript) (hk : k.Fits cfg) :
    (calculateCrc cfg d).run p hw true (k.answers ++ rest) =
      some ⟨k.crc, k.records cfg p d, [], k.steps cfg d, true, rest⟩ := by
  obtain ⟨divIrq, flush, polls, last, lo, hi⟩ := k
  obtain ⟨hp, hl⟩ := hk
  have hpoll : ∃ n, n = polls.length + last.toList.length ∧
      (pollCrc cfg crcPolls).run p hw true (polls ++ last.toList ++ lo :: hi :: rest) =
      some ⟨(), (polls ++ last.toList).map (rdTxn p cfg.aDivIrq), [], n, true, lo :: hi :: rest⟩ := by
    cases last with
    | none =>
      simp only at hl hp
      have := pollCrc_run_never cfg p hw polls (lo :: hi :: rest) hp
      rw [hl] at this
      exact ⟨_, rfl, by simpa [crcPolls, hl] using this⟩
    | some n =>
      simp only at hl hp
      have := pollCrc_run_done cfg p hw polls (lo :: hi :: rest) n crcPolls hl.1 hp hl.2
      exact ⟨_, rfl, by simpa using this⟩
  obtain ⟨n, hn, hpoll⟩ := hpoll
  have h1 := Prog.run_bind (f := fun _ => .rd cfg.aCrcL fun lo => .rd cfg.aCrcM fun hi => .ret [lo, hi]) hpoll
    (v := ⟨[lo, hi], [rdTxn p cfg.aCrcL lo, rdTxn p cfg.aCrcM hi], [], 2, true, rest⟩) rfl
  have h2 := Prog.run_bind (f := fun _ => (writeRegister cfg.aCommand cfg.cmdCalcCrc).seq <|
      (pollCrc cfg crcPolls).seq <| .rd cfg.aCrcL fun lo => .rd cfg.aCrcM fun hi => .ret [lo, hi])
    (pushFifo_run cfg p hw d (polls ++ last.toList ++ lo :: hi :: rest))
    (Prog.run_bind (writeRegister_run p hw cfg.aCommand cfg.cmdCalcCrc _) h1)
  have hans : CrcScript.answers ⟨divIrq, flush, polls, last, lo, hi⟩ ++ rest =
      divIrq :: flush :: (polls ++ last.toList ++ lo :: hi :: rest) := by
    simp [CrcScript.answers]
  rw [hans]
  simp only [calculateCrc, Prog.seq, clearBits, setBits, Prog.bind_wr, Prog.bind_rd, Prog.bind_ret, Prog.run,
    if_true] at h2 ⊢
  rw [h2]
  simp [Run.andThen, Run.after, rdTxn, wrTxn, CrcScript.records, CrcScript.steps, CrcScript.crc, hn]
  omega

/-! ## Success conditions -/

theorem requestStatus_eq_ok (x : Exchange) : requestStatus x = .ok ↔ x.isAnswer := by
  unfold requestStatus Exchange.isAnswer
  split
  · rename_i h
    simp only [reduceCtorEq, false_iff, not_and]
    intro h'
    rcases h with h | h
    · exact absurd h' h
    · exact h
  · rename_i h
    simp only [ne_eq, not_or, not_not] at h
    simp [h]

theorem requestStatus_eq (x : Exchange) [Decidable x.isAnswer] :
    requestStatus x = if x.isAnswer then .ok else .error := by
  split
  · rename_i h
    exact (requestStatus_eq_ok x).2 h
  · rename_i h
    rcases requestStatus_cases x with h' | h'
    · exact absurd ((requestStatus_eq_ok x).1 h') h
    · exact h'

theorem checkByteOk_iff (l : List Byte) :
    checkByteOk l = true ↔ ∃ a b c d, l = [a, b, c, d, a ^^^ b ^^^ c ^^^ d] := by
  constructor
  · intro h
    match l, h with
    | [a, b, c, d, e], h =>
      have : a ^^^ b ^^^ c ^^^ d = e := by simpa [checkByteOk] using h
      exact ⟨a, b, c, d, by rw [this]⟩
  · rintro ⟨a, b, c, d, rfl⟩
    simp [checkByteOk]

theorem anticollStatus_eq_ok (x : Exchange) : anticollStatus x = .ok ↔ x.isUid := by
  unfold anticollStatus Exchange.isUid
  rw [← checkByteOk_iff]
  split
  · rename_i h
    by_cases hc : checkByteOk x.bytes = true <;> simp [h, hc]
  · rename_i h
    simp [h]

theorem selectOk_iff (x : Exchange) : selectOk x = true ↔ x.isSelected := by
  simp [selectOk, Exchange.isSelected]

theorem readOk_iff (x : Exchange) : readOk x = true ↔ x.isBlock := by
  simp [readOk, Exchange.isBlock, blockSize]

theorem ackOk_iff (x : Exchange) : ackOk x = true ↔ x.isAck := by
  cases h : x.bytes with
  | nil => simp [ackOk, Exchange.isAck, h]
  | cons b l => simp [ackOk, Exchange.isAck, h, and_assoc]

/-! ## Card commands -/

/-- A program in front of a final value. -/
theorem Prog.run_map {α β : Type} {p : Nat} {hw : Bool} {prog : Prog α} {owns : Bool} {chip : List Byte} {u : Run α}
    (f : α → β) (hu : prog.run p hw owns chip = some u) :
    (prog.bind fun a => .ret (f a)).run p hw owns chip =
      some ⟨f u.value, u.txns, u.writes, u.steps, u.owns, u.rest⟩ := by
  rw [Prog.run_bind (f := fun a => .ret (f a)) hu rfl]
  simp [Run.andThen]

/-- A run in two parts. -/
theorem Prog.run_seq {α β : Type} {p : Nat} {hw : Bool} {prog : Prog α} {f : α → Prog β} {owns o : Bool}
    {chip r : List Byte} {a : α} {t : List Txn} {w : List RegWrite} {n : Nat} {v : Run β}
    (hu : prog.run p hw owns chip = some ⟨a, t, w, n, o, r⟩) (hv : (f a).run p hw o r = some v) :
    (prog.bind f).run p hw owns chip =
      some ⟨v.value, t ++ v.txns, w ++ v.writes, n + v.steps, v.owns, v.rest⟩ :=
  Prog.run_bind hu hv

theorem sendRequest_run (cfg : Config) (p : Nat) (hw : Bool) (m : Byte) (rest : List Byte) (x : ExchangeScript)
    (hx : x.Fits cfg cfg.cmdTransceive) :
    (sendRequest cfg m).run p hw true (x.answers cfg cfg.cmdTransceive ++ rest) =
      some ⟨x.outcome cfg cfg.cmdTransceive, requestRecords cfg p m x, [],
        x.steps cfg cfg.cmdTransceive [m] + 1, true, rest⟩ := by
  rw [sendRequest, Prog.seq, Prog.run_seq (writeRegister_run p hw _ _ _) (toCard_run cfg p hw _ _ rest x hx)]
  simp [requestRecords, bfReq, Nat.add_comm]

theorem sendAnticoll_run (cfg : Config) (p : Nat) (hw : Bool) (rest : List Byte) (x : ExchangeScript)
    (hx : x.Fits cfg cfg.cmdTransceive) :
    (sendAnticoll cfg).run p hw true (x.answers cfg cfg.cmdTransceive ++ rest) =
      some ⟨x.outcome cfg cfg.cmdTransceive, anticollRecords cfg p x, [],
        x.steps cfg cfg.cmdTransceive [0x93, 0x20] + 1, true, rest⟩ := by
  rw [sendAnticoll, Prog.seq, Prog.run_seq (writeRegister_run p hw _ _ _) (toCard_run cfg p hw _ _ rest x hx)]
  simp [anticollRecords, bfFull, Nat.add_comm]

/-- A CRC and the exchange that sends the frame with it. -/
theorem withCrc_run {β : Type} (cfg : Config) (p : Nat) (hw : Bool) (f rest : List Byte) (x : FrameScript)
    (g : Exchange → β) (hx : x.Fits cfg) :
    ((calculateCrc cfg f).bind fun crc => (toCard cfg cfg.cmdTransceive (f ++ crc)).bind fun y => .ret (g y)).run
        p hw true (x.answers cfg ++ rest) =
      some ⟨g (x.outcome cfg), x.records cfg p f, [], x.steps cfg f, true, rest⟩ := by
  have h := Prog.run_seq (f := fun crc => (toCard cfg cfg.cmdTransceive (f ++ crc)).bind fun y => .ret (g y))
    (calculateCrc_run cfg p hw f (x.ex.answers cfg cfg.cmdTransceive ++ rest) x.crc hx.1)
    (Prog.run_map g (toCard_run cfg p hw cfg.cmdTransceive (f ++ x.crc.crc) rest x.ex hx.2))
  rw [FrameScript.answers, List.append_assoc, h]
  simp [FrameScript.records, FrameScript.steps, FrameScript.outcome]

theorem selectTag_run (cfg : Config) (p : Nat) (hw : Bool) (u rest : List Byte) (x : FrameScript) (hx : x.Fits cfg) :
    (selectTag cfg u).run p hw true (x.answers cfg ++ rest) =
      some ⟨if selectOk (x.outcome cfg) = true then some ((x.outcome cfg).bytes.headD 0) else none,
        x.records cfg p ([0x93, 0x70] ++ u), [], x.steps cfg ([0x93, 0x70] ++ u), true, rest⟩ :=
  withCrc_run cfg p hw ([0x93, 0x70] ++ u) rest x
    (fun y => if selectOk y = true then some (y.bytes.headD 0) else none) hx

theorem readBlock_run (cfg : Config) (p : Nat) (hw : Bool) (b : Byte) (rest : List Byte) (x : FrameScript)
    (hx : x.Fits cfg) :
    (readBlock cfg b).run p hw true (x.answers cfg ++ rest) =
      some ⟨if readOk (x.outcome cfg) = true then some (x.outcome cfg).bytes else none,
        x.records cfg p [0x30, b], [], x.steps cfg [0x30, b], true, rest⟩ :=
  withCrc_run cfg p hw [0x30, b] rest x (fun y => if readOk y = true then some y.bytes else none) hx

open Classical in
/-- `write_block` (R507). -/
theorem writeBlock_run (cfg : Config) (p : Nat) (hw : Bool) (b : Byte) (d rest : List Byte) (x : WriteScript)
    (hx : x.Fits cfg) :
    (writeBlock cfg b d).run p hw true (x.answers cfg ++ rest) =
      some ⟨if x.Done cfg then .ok else .error, x.records cfg p b d, [], x.steps cfg b d, true, rest⟩ := by
  obtain ⟨x, y⟩ := x
  obtain ⟨hx, hy⟩ := hx
  cases y with
  | none =>
    simp only at hy hx
    have ha : ackOk (x.outcome cfg) = false := by
      cases h : ackOk (x.outcome cfg) with
      | false => rfl
      | true => exact absurd ((ackOk_iff _).1 h) hy
    have h2 := Prog.run_seq (f := fun z => if ackOk z = true then
        (calculateCrc cfg d).bind fun crc2 => (sendWrite2 cfg d crc2).bind fun y =>
          .ret (if ackOk y = true then .ok else .error) else .ret Status.error)
      (withCrc_run cfg p hw [0xA0, b] rest x id hx)
      (by rw [if_neg (by simp [ha])]; rfl)
    simpa [writeBlock, Prog.bind_assoc, sendWrite1, id, WriteScript.answers, WriteScript.Done, WriteScript.records,
      WriteScript.steps] using h2
  | some y =>
    simp only at hy hx
    have ha := (ackOk_iff _).2 hy.1
    have h1 := withCrc_run cfg p hw d rest y (fun y => if ackOk y = true then Status.ok else .error) hy.2
    have h2 := Prog.run_seq (f := fun z => if ackOk z = true then
        (calculateCrc cfg d).bind fun crc2 => (sendWrite2 cfg d crc2).bind fun y =>
          .ret (if ackOk y = true then .ok else .error) else .ret Status.error)
      (withCrc_run cfg p hw [0xA0, b] (y.answers cfg ++ rest) x id hx)
      (by rw [if_pos (by simpa using ha)]; exact h1)
    simpa [writeBlock, Prog.bind_assoc, sendWrite1, id, WriteScript.answers, WriteScript.Done, WriteScript.records,
      WriteScript.steps, ackOk_iff] using h2

/-- `authenticate` (R504). -/
theorem authenticate_run (cfg : Config) (p : Nat) (hw : Bool) (m b : Byte) (k u rest : List Byte) (x : ExchangeScript)
    (s2 : Byte) (hx : x.Fits cfg cfg.cmdAuthent) :
    (authenticate cfg m b k u).run p hw true (x.answers cfg cfg.cmdAuthent ++ s2 :: rest) =
      some ⟨((x.outcome cfg cfg.cmdAuthent).status, s2 &&& 0x08 == 0),
        x.records cfg p cfg.cmdAuthent ([m, b] ++ k ++ u.take 4) ++ [rdTxn p cfg.aStatus2 s2],
        authWrites (s2 &&& 0x08 == 0),
        x.steps cfg cfg.cmdAuthent ([m, b] ++ k ++ u.take 4) + if s2 &&& 0x08 == 0 then 3 else 2, true, rest⟩ := by
  have h := toCard_run cfg p hw cfg.cmdAuthent ([m, b] ++ k ++ u.take 4) (s2 :: rest) x hx
  by_cases hs : s2 &&& 0x08 = 0
  · have h' := Prog.run_seq (f := fun x : Exchange => .rd cfg.aStatus2 fun s2 =>
      if s2 &&& cryptoOn = 0 then .put (.authWarn true) (.ret (x.status, true)) else .ret (x.status, false))
      (v := ⟨((x.outcome cfg cfg.cmdAuthent).status, true), [rdTxn p cfg.aStatus2 s2], [.authWarn true], 2, true, rest⟩)
      h (by simp only [Prog.run, cryptoOn, hs, if_true]; rfl)
    simp only [authenticate, sendAuth, Prog.run]
    rw [h']
    simp only [hs]
    rfl
  · have h' := Prog.run_seq (f := fun x : Exchange => .rd cfg.aStatus2 fun s2 =>
      if s2 &&& cryptoOn = 0 then .put (.authWarn true) (.ret (x.status, true)) else .ret (x.status, false))
      (v := ⟨((x.outcome cfg cfg.cmdAuthent).status, false), [rdTxn p cfg.aStatus2 s2], [], 1, true, rest⟩)
      h (by simp only [Prog.run, cryptoOn, hs, if_false]; rfl)
    simp only [authenticate, sendAuth, Prog.run]
    rw [h']
    have hb : (s2 &&& 0x08 == 0) = false := by simpa using hs
    simp only [hb]
    rfl

/-! ## Session -/

/-- The UID bytes `preamble()` ends with. -/
def CardScript.uid (cfg : Config) (x : CardScript) : Option (List Byte) :=
  x.anti.bind fun a =>
    if anticollStatus (a.outcome cfg cfg.cmdTransceive) = .ok then some (a.outcome cfg cfg.cmdTransceive).bytes
    else none

theorem CardScript.uid_eq_some {cfg : Config} {x : CardScript} {u : List Byte} :
    x.uid cfg = some u ↔ x.Finds cfg u := by
  unfold CardScript.uid CardScript.Finds
  cases x.anti with
  | none => simp
  | some a => simp [anticollStatus_eq_ok]

/-- `preamble()` (R551). -/
theorem preamble_run (cfg : Config) (p : Nat) (hw : Bool) (rest : List Byte) (x : CardScript) (hx : x.Fits cfg) :
    (preamble cfg).run p hw true (x.answers cfg ++ rest) =
      some ⟨x.uid cfg, x.records cfg p, [], x.steps cfg, true, rest⟩ := by
  obtain ⟨r, a⟩ := x
  obtain ⟨hr, ha⟩ := hx
  cases a with
  | none =>
    simp only at ha hr
    have hrs : requestStatus (r.outcome cfg cfg.cmdTransceive) ≠ .ok := fun h => ha ((requestStatus_eq_ok _).1 h)
    have h3 := Prog.run_map (fun x => (requestStatus x, x.bitlen)) (sendRequest_run cfg p hw cfg.reqMode rest r hr)
    have h4 := Prog.run_bind (f := fun r : Status × Nat => if r.1 ≠ .ok then .ret none
      else (anticollision cfg).bind fun a => .ret (if a.1 ≠ .ok then none else some a.2)) h3
      (by rw [if_pos hrs]; rfl)
    rw [preamble, request]
    simp only [CardScript.answers, Option.toList_none, List.flatMap_nil, List.append_nil]
    rw [h4]
    simp [Run.andThen, CardScript.uid, CardScript.records, CardScript.steps]
  | some a =>
    simp only at ha hr
    have hrs := (requestStatus_eq_ok _).2 ha.1
    have h1 := Prog.run_map (fun x => (anticollStatus x, x.bytes)) (sendAnticoll_run cfg p hw rest a ha.2)
    have h2 := Prog.run_map (fun a : Status × List Byte => if a.1 ≠ .ok then none else some a.2) h1
    have h3 := Prog.run_map (fun x => (requestStatus x, x.bitlen))
      (sendRequest_run cfg p hw cfg.reqMode (a.answers cfg cfg.cmdTransceive ++ rest) r hr)
    have h4 := Prog.run_bind (f := fun r : Status × Nat => if r.1 ≠ .ok then .ret none
      else (anticollision cfg).bind fun a => .ret (if a.1 ≠ .ok then none else some a.2)) h3
      (by rw [if_neg (by simpa using hrs)]; exact h2)
    rw [preamble, request]
    simp only [CardScript.answers, Option.toList_some, List.flatMap_cons, List.flatMap_nil, List.append_nil,
      List.append_assoc]
    rw [h4]
    simp [Run.andThen, CardScript.uid, CardScript.records, CardScript.steps]

/-- One attempt is one lock tenure (R550). -/
theorem attempt_run {α : Type} {p : Nat} {hw : Bool} {body : Prog α} {chip r : List Byte} {a : α} {t : List Txn}
    {w : List RegWrite} {n : Nat} (h : body.run p hw true chip = some ⟨a, t, w, n, true, r⟩) :
    (attempt body).run p hw false chip = some ⟨a, t, w, n + 2, false, r⟩ := by
  have h' := Prog.run_seq (f := fun r => .release (.ret r)) (v := ⟨a, [], [], 1, false, r⟩) h rfl
  simp only [attempt, Prog.run, Bool.false_eq_true, if_false, h']
  simp [Run.after]

open Classical in
/-- The value a sector attempt ends with, `d` being that of its block reads or writes (R555, R557). -/
noncomputable def SectorScript.attempt (cfg : Config) (u : List Byte) (d : Option (List Byte)) (x : SectorScript) :
    Attempt where
  value := if x.Opens cfg then d.map fun d => (uidToId cfg.uidToId u, d) else none
  warn := x.auth.map AuthScript.warn

/-- The block register writes of a sector attempt (R504). -/
def SectorScript.writes (x : SectorScript) : List RegWrite := x.auth.toList.flatMap fun a => authWrites a.warn

/-- A sector attempt (R555 to R557): `body` is its block reads or writes, run only when authenticate succeeded. -/
theorem sectorAttempt_run (cfg : Config) (p : Nat) (hw : Bool) (n : Byte) (u answers rest : List Byte)
    (x : SectorScript) (body : Prog (Option (List Byte))) (d : Option (List Byte)) (t : List Txn) (k : Nat)
    (hx : x.Fits cfg u)
    (hb : x.Opens cfg → ∀ rest, body.run p hw true (answers ++ rest) = some ⟨d, t, [], k, true, rest⟩)
    (hn : ¬ x.Opens cfg → answers = [] ∧ t = [] ∧ k = 0) :
    (sectorAttempt cfg n body).run p hw true (x.answers cfg answers ++ rest) =
      some ⟨x.attempt cfg u d, x.records cfg p n u t, x.writes, x.steps cfg n u k, true, rest⟩ := by
  obtain ⟨card, sel, auth⟩ := x
  obtain ⟨hc, hs⟩ := hx
  cases sel with
  | none =>
    simp only at hs hc
    obtain ⟨rfl, hu⟩ := hs
    have hu' : card.uid cfg = none := by
      cases h : card.uid cfg with
      | none => rfl
      | some v => exact absurd (CardScript.uid_eq_some.1 h) (hu v)
    have h4 := Prog.run_seq (f := fun q : Option (List Byte) => match q with
      | none => .ret Attempt.nothing
      | some u => (selectTag cfg u).bind fun sel => match sel with
        | none => .ret Attempt.nothing
        | some _ => (authenticate cfg cfg.authMode n cfg.key.toList u).bind fun a =>
          if a.1 ≠ .ok then (stopCrypto cfg).seq (.ret ⟨none, some a.2⟩)
          else body.bind fun r => (stopCrypto cfg).seq <|
            .ret (⟨r.map fun d => (uidToId cfg.uidToId u, d), some a.2⟩ : Attempt))
      (v := ⟨Attempt.nothing, [], [], 0, true, rest⟩)
      (preamble_run cfg p hw rest card hc) (by rw [hu']; rfl)
    rw [sectorAttempt]
    simp only [SectorScript.answers, Option.toList_none, List.flatMap_nil, List.append_nil]
    refine Eq.trans h4 ?_
    simp [SectorScript.attempt, SectorScript.Opens, Attempt.nothing, SectorScript.records, SectorScript.writes,
      SectorScript.steps]
  | some f =>
    simp only at hs hc
    obtain ⟨hu, hf, ha⟩ := hs
    have hu' := CardScript.uid_eq_some.2 hu
    cases auth with
    | none =>
      simp only at ha
      have hso : selectOk (f.outcome cfg) = false := by
        cases h : selectOk (f.outcome cfg) with
        | false => rfl
        | true => exact absurd ((selectOk_iff _).1 h) ha
      have h3 := Prog.run_seq (f := fun sel : Option Byte => match sel with
        | none => .ret Attempt.nothing
        | some _ => (authenticate cfg cfg.authMode n cfg.key.toList u).bind fun a =>
          if a.1 ≠ .ok then (stopCrypto cfg).seq (.ret ⟨none, some a.2⟩)
          else body.bind fun r => (stopCrypto cfg).seq <|
            .ret (⟨r.map fun d => (uidToId cfg.uidToId u, d), some a.2⟩ : Attempt))
        (v := ⟨Attempt.nothing, [], [], 0, true, rest⟩)
        (selectTag_run cfg p hw u rest f hf) (by rw [if_neg (by simp [hso])]; rfl)
      have h4 := Prog.run_seq (f := fun q : Option (List Byte) => match q with
        | none => .ret Attempt.nothing
        | some u => (selectTag cfg u).bind fun sel => match sel with
          | none => .ret Attempt.nothing
          | some _ => (authenticate cfg cfg.authMode n cfg.key.toList u).bind fun a =>
            if a.1 ≠ .ok then (stopCrypto cfg).seq (.ret ⟨none, some a.2⟩)
            else body.bind fun r => (stopCrypto cfg).seq <|
              .ret (⟨r.map fun d => (uidToId cfg.uidToId u, d), some a.2⟩ : Attempt))
        (preamble_run cfg p hw _ card hc) (by rw [hu']; exact h3)
      rw [sectorAttempt]
      simp only [SectorScript.answers, Option.toList_some, Option.toList_none, List.flatMap_cons, List.flatMap_nil,
        List.append_nil, List.append_assoc]
      refine Eq.trans h4 ?_
      simp [SectorScript.attempt, SectorScript.Opens, Attempt.nothing, SectorScript.records, SectorScript.writes,
        SectorScript.steps]
    | some a =>
      simp only at ha
      have hso := (selectOk_iff _).2 ha.1
      have hopen : SectorScript.Opens cfg ⟨card, some f, some a⟩ ↔ (a.ex.outcome cfg cfg.cmdAuthent).status = .ok := by
        simp [SectorScript.Opens]
      have h2 : ∃ v : Run Attempt, v = ⟨SectorScript.attempt cfg u d ⟨card, some f, some a⟩,
          t ++ [rdTxn p cfg.aStatus2 a.stop, wrTxn p cfg.aStatus2 (a.stop &&& ~~~0x08)], [], k + 2, true, rest⟩ ∧
          (if (a.ex.outcome cfg cfg.cmdAuthent).status ≠ .ok then
              (stopCrypto cfg).seq (.ret (⟨none, some a.warn⟩ : Attempt))
            else body.bind fun r => (stopCrypto cfg).seq <|
              .ret (⟨r.map fun d => (uidToId cfg.uidToId u, d), some a.warn⟩ : Attempt)).run p hw true
            (answers ++ a.stop :: rest) = some v := by
        refine ⟨_, rfl, ?_⟩
        by_cases ho : (a.ex.outcome cfg cfg.cmdAuthent).status = .ok
        · rw [if_neg (by simpa using ho)]
          have h1 := Prog.run_seq (f := fun r : Option (List Byte) => (stopCrypto cfg).seq <|
              .ret (⟨r.map fun d => (uidToId cfg.uidToId u, d), some a.warn⟩ : Attempt))
            (hb (hopen.2 ho) (a.stop :: rest))
            (Prog.run_seq (f := fun _ => .ret (⟨d.map fun d => (uidToId cfg.uidToId u, d), some a.warn⟩ : Attempt))
              (clearBits_run p hw cfg.aStatus2 cryptoOn a.stop rest) rfl)
          rw [h1]
          simp [SectorScript.attempt, hopen, ho, cryptoOn]
        · rw [if_pos ho]
          obtain ⟨rfl, rfl, rfl⟩ := hn (fun h => ho (hopen.1 h))
          have h1 := Prog.run_seq (f := fun _ => .ret (⟨none, some a.warn⟩ : Attempt))
              (v := ⟨⟨none, some a.warn⟩, [], [], 0, true, rest⟩)
              (clearBits_run p hw cfg.aStatus2 cryptoOn a.stop rest) rfl
          refine Eq.trans h1 ?_
          simp [SectorScript.attempt, hopen, ho, cryptoOn]
      obtain ⟨v, hv, h2⟩ := h2
      have h2' := Prog.run_seq (f := fun a : Status × Bool =>
          if a.1 ≠ .ok then (stopCrypto cfg).seq (.ret ⟨none, some a.2⟩)
          else body.bind fun r => (stopCrypto cfg).seq <|
            .ret (⟨r.map fun d => (uidToId cfg.uidToId u, d), some a.2⟩ : Attempt))
        (authenticate_run cfg p hw cfg.authMode n cfg.key.toList u (answers ++ a.stop :: rest) a.ex a.status2 ha.2) h2
      have h3 := Prog.run_seq (f := fun sel : Option Byte => match sel with
        | none => .ret Attempt.nothing
        | some _ => (authenticate cfg cfg.authMode n cfg.key.toList u).bind fun a =>
          if a.1 ≠ .ok then (stopCrypto cfg).seq (.ret ⟨none, some a.2⟩)
          else body.bind fun r => (stopCrypto cfg).seq <|
            .ret (⟨r.map fun d => (uidToId cfg.uidToId u, d), some a.2⟩ : Attempt))
        (selectTag_run cfg p hw u (a.ex.answers cfg cfg.cmdAuthent ++ a.status2 :: (answers ++ a.stop :: rest)) f hf)
        (by rw [if_pos hso]; exact h2')
      have h4 := Prog.run_seq (f := fun q : Option (List Byte) => match q with
        | none => .ret Attempt.nothing
        | some u => (selectTag cfg u).bind fun sel => match sel with
          | none => .ret Attempt.nothing
          | some _ => (authenticate cfg cfg.authMode n cfg.key.toList u).bind fun a =>
            if a.1 ≠ .ok then (stopCrypto cfg).seq (.ret ⟨none, some a.2⟩)
            else body.bind fun r => (stopCrypto cfg).seq <|
              .ret (⟨r.map fun d => (uidToId cfg.uidToId u, d), some a.2⟩ : Attempt))
        (preamble_run cfg p hw _ card hc) (by rw [hu']; exact h3)
      have hans : SectorScript.answers cfg answers ⟨card, some f, some a⟩ ++ rest = card.answers cfg ++
          (f.answers cfg ++ (a.ex.answers cfg cfg.cmdAuthent ++ a.status2 :: (answers ++ a.stop :: rest))) := by
        simp [SectorScript.answers]
      rw [sectorAttempt, hans]
      refine Eq.trans h4 ?_
      subst hv
      have hw' : a.warn = (a.status2 &&& 0x08 == 0) := rfl
      simp only [Option.some.injEq, Run.mk.injEq, SectorScript.records, SectorScript.writes, SectorScript.steps,
        Option.toList_some, List.flatMap_cons, List.flatMap_nil, List.append_nil, List.map_cons, List.map_nil,
        List.sum_cons, List.sum_nil, hw']
      refine ⟨trivial, by simp, by simp, ?_, trivial, trivial⟩
      by_cases h : (a.status2 &&& 0x08 == 0) = true
      · simp only [h, if_true]
        omega
      · simp only [h]
        simp only [Bool.false_eq_true, if_false]
        omega

open Classical in
/-- The block reads of a sector (R555). -/
theorem readBlocks_run (cfg : Config) (p : Nat) (hw : Bool) (bs rest : List Byte) (xs : List FrameScript)
    (hx : ReadsFit cfg bs.length xs) :
    (readBlocks cfg bs).run p hw true (xs.flatMap (FrameScript.answers cfg) ++ rest) =
      some ⟨if AllRead cfg xs then some (xs.flatMap fun x => (x.outcome cfg).bytes) else none,
        readRecords cfg p bs xs, [], readSteps cfg bs xs, true, rest⟩ := by
  induction bs generalizing xs with
  | nil =>
    simp only [List.length_nil, ReadsFit] at hx
    subst hx
    simp [readBlocks, Prog.run, AllRead, readRecords, readSteps]
  | cons b bs ih =>
    cases xs with
    | nil => simp [ReadsFit] at hx
    | cons x xs =>
      simp only [List.length_cons, ReadsFit] at hx
      obtain ⟨hf, hx⟩ := hx
      have h1 := readBlock_run cfg p hw b (xs.flatMap (FrameScript.answers cfg) ++ rest) x hf
      rcases hx with ⟨hb, hx⟩ | ⟨hb, rfl⟩
      · have h2 := Prog.run_map (fun ds : Option (List Byte) => ds.map ((x.outcome cfg).bytes ++ ·)) (ih xs hx)
        have h3 := Prog.run_seq (f := fun r : Option (List Byte) => match r with
          | none => .ret none
          | some d => (readBlocks cfg bs).bind fun ds => .ret (ds.map (d ++ ·))) h1
          (by rw [if_pos ((readOk_iff _).2 hb)]; exact h2)
        rw [readBlocks]
        simp only [List.flatMap_cons, List.append_assoc]
        refine Eq.trans h3 ?_
        by_cases ha : AllRead cfg xs
        · have ha' : AllRead cfg (x :: xs) := by
            intro y hy
            rcases List.mem_cons.1 hy with rfl | hy
            · exact hb
            · exact ha y hy
          simp [readRecords, readSteps, ha, ha']
        · have ha' : ¬ AllRead cfg (x :: xs) := fun h => ha fun y hy => h y (List.mem_cons_of_mem _ hy)
          simp [readRecords, readSteps, ha, ha']
      · have h3 := Prog.run_seq (f := fun r : Option (List Byte) => match r with
          | none => .ret none
          | some d => (readBlocks cfg bs).bind fun ds => .ret (ds.map (d ++ ·)))
          (v := ⟨none, [], [], 0, true, rest⟩) h1
          (by rw [if_neg (fun h => hb ((readOk_iff _).1 h))]; rfl)
        rw [readBlocks]
        simp only [List.flatMap_cons, List.append_assoc]
        refine Eq.trans h3 ?_
        have ha' : ¬ AllRead cfg [x] := fun h => hb (h x (by simp))
        have hr : readRecords cfg p bs [] = [] := by cases bs <;> rfl
        have hs : readSteps cfg bs [] = 0 := by cases bs <;> rfl
        simp [readRecords, readSteps, ha', hr, hs]

open Classical in
/-- The block writes of a sector (R557). -/
theorem writeBlocks_run (cfg : Config) (p : Nat) (hw : Bool) (parts : List (Byte × List Byte)) (rest : List Byte)
    (xs : List WriteScript) (hx : WritesFit cfg parts.length xs) :
    (writeBlocks cfg parts).run p hw true (xs.flatMap (WriteScript.answers cfg) ++ rest) =
      some ⟨if AllWritten cfg xs then true else false, writeRecords cfg p parts xs, [], writeSteps cfg parts xs,
        true, rest⟩ := by
  induction parts generalizing xs with
  | nil =>
    simp only [List.length_nil, WritesFit] at hx
    subst hx
    simp [writeBlocks, Prog.run, AllWritten, writeRecords, writeSteps]
  | cons b bs ih =>
    cases xs with
    | nil => simp [WritesFit] at hx
    | cons x xs =>
      simp only [List.length_cons, WritesFit] at hx
      obtain ⟨hf, hx⟩ := hx
      have h1 := writeBlock_run cfg p hw b.1 b.2 (xs.flatMap (WriteScript.answers cfg) ++ rest) x hf
      rcases hx with ⟨hb, hx⟩ | ⟨hb, rfl⟩
      · have h3 := Prog.run_seq (f := fun st : Status => if st ≠ .ok then .ret false else writeBlocks cfg bs) h1
          (by rw [if_pos hb, if_neg (by simp)]; exact ih xs hx)
        rw [writeBlocks]
        simp only [List.flatMap_cons, List.append_assoc]
        refine Eq.trans h3 ?_
        by_cases ha : AllWritten cfg xs
        · have ha' : AllWritten cfg (x :: xs) := by
            intro y hy
            rcases List.mem_cons.1 hy with rfl | hy
            · exact hb
            · exact ha y hy
          simp [writeRecords, writeSteps, ha, ha']
        · have ha' : ¬ AllWritten cfg (x :: xs) := fun h => ha fun y hy => h y (List.mem_cons_of_mem _ hy)
          simp [writeRecords, writeSteps, ha, ha']
      · have h3 := Prog.run_seq (f := fun st : Status => if st ≠ .ok then .ret false else writeBlocks cfg bs)
          (v := ⟨false, [], [], 0, true, rest⟩) h1
          (by rw [if_neg hb, if_pos (by simp)]; rfl)
        rw [writeBlocks]
        simp only [List.flatMap_cons, List.append_assoc]
        refine Eq.trans h3 ?_
        have ha' : ¬ AllWritten cfg [x] := fun h => hb (h x (by simp))
        have hr : writeRecords cfg p bs [] = [] := by cases bs <;> rfl
        have hs : writeSteps cfg bs [] = 0 := by cases bs <;> rfl
        simp [writeRecords, writeSteps, ha', hr, hs]

end Sys2Proof.Machine
end

