-- ==== Sys2Proof/Laws/Complete.lean ====
section
/-! SUPPORT. How a command is completed or refused, in terms of its program. -/

namespace Sys2Proof.Machine

open Sys2Proof

/-- A command whose checks pass and whose run is known is completed (R312). -/
theorem ready_complete {i : Instr} {g : Gate} {prog : Prog CmdEnd} {s : State} {answers rest : List Byte} {n : Nat}
    {u : Run CmdEnd} {r : Res} {owns : Bool} (hR : s.Ready answers rest n)
    (hg : hostGate s.cfg i = some g) (hp : programOf s.cfg i = some prog) (hwf : i.wf = true)
    (hgate : g.check true (s.lockOwner == some s.sel) = none)
    (hl : s.lockOwner = if owns = true then some s.sel else none)
    (hu : ∀ hw, prog.run s.sel hw owns (answers ++ rest) = some u) (hv : u.value = .done r) (hn : u.steps < n) :
    exec i s = .next (s.completed i u.txns (if u.owns = true then some s.sel else none) u.writes u.rest r) := by
  obtain ⟨hq, st, hst, hi, hc, hin, hch⟩ := hR
  rw [exec_command hg hp]
  refine runCommand_completes (owns := owns) hst hi hc hwf ?_ hl ?_ hv (by omega)
  · rw [hin]; exact hgate
  · rw [hch]; exact hu _

/-- The same for a command that needs the lock held. -/
theorem ready_low {i : Instr} {op : Option Sub} {prog : Prog CmdEnd} {s : State} {answers rest : List Byte} {n : Nat}
    {u : Run CmdEnd} {r : Res} (hR : s.Ready answers rest n) (ho : s.Owns)
    (hg : hostGate s.cfg i = some ⟨.required, .held, op⟩) (hp : programOf s.cfg i = some prog) (hwf : i.wf = true)
    (hop : op = none)
    (hu : ∀ hw, prog.run s.sel hw true (answers ++ rest) = some u) (hv : u.value = .done r) (hn : u.steps < n) (huo : u.owns = true) :
    exec i s = .next (s.completed i u.txns s.lockOwner u.writes u.rest r) := by
  have ho' : s.lockOwner = some s.sel := ho
  have := ready_complete (owns := true) hR hg hp hwf (by simp [Gate.check, ho', hop]) (by simpa using ho') hu hv hn
  rw [this, huo, ho']; rfl

/-- The same for a session command, which takes and frees the lock. -/
theorem ready_session {i : Instr} {op : Option Sub} {prog : Prog CmdEnd} {s : State} {answers rest : List Byte} {n : Nat}
    {u : Run CmdEnd} {r : Res} (hR : s.Ready answers rest n) (ho : s.lockOwner = none)
    (hg : hostGate s.cfg i = some ⟨.required, .notHeld, op⟩) (hp : programOf s.cfg i = some prog) (hwf : i.wf = true)
    (hop : op = none)
    (hu : ∀ hw, prog.run s.sel hw false (answers ++ rest) = some u) (hv : u.value = .done r) (hn : u.steps < n) (huo : u.owns = false) :
    exec i s = .next (s.completed i u.txns none u.writes u.rest r) := by
  have := ready_complete (owns := false) hR hg hp hwf (by simp [Gate.check, ho, hop]) (by simpa using ho) hu hv hn
  rw [this, huo]; rfl

/-- The first failing check is reported, and nothing else happens (R712, R714). -/
theorem exec_refused {i : Instr} {g : Gate} {s : State} {st : Station} {sub : Sub} (hg : hostGate s.cfg i = some g) (hwf : i.wf = true)
    (hst : s.here = some st) (hi : st.phase = .idle) (hc : g.check st.inited (s.lockOwner == some s.sel) = some sub) :
    exec i s = .next (s.refusedWith i sub) := by
  obtain ⟨prog, hp⟩ := programOf_isSome hg
  rw [exec_command hg hp]
  simp only [runCommand, hst, hi, hwf, hc, if_true]
  refine congrArg Host.Outcome.next ?_
  simp only [State.refusedWith, State.modifyHere]
  rfl

/-- The refusals of a command that needs the lock held (R712). -/
theorem unless_held {i : Instr} {op : Option Sub} {s : State} (hg : hostGate s.cfg i = some ⟨.required, .held, op⟩) :
    RefusedUnlessHeld i op s := by
  intro hwf st hst hi
  refine ⟨fun h => exec_refused hg hwf hst hi (by simp [Gate.check, h]), fun h ho => exec_refused hg hwf hst hi ?_, fun h ho sub hs => exec_refused hg hwf hst hi ?_⟩
  · have : ¬ s.lockOwner = some s.sel := ho
    simp [Gate.check, h, this]
  · have : s.lockOwner = some s.sel := ho
    simp [Gate.check, h, this, hs]

/-- The refusals of a command that takes the lock itself (R712). -/
theorem if_held {i : Instr} {op : Option Sub} {s : State} (hg : hostGate s.cfg i = some ⟨.required, .notHeld, op⟩) :
    RefusedIfHeld i op s := by
  intro hwf st hst hi
  refine ⟨fun h => exec_refused hg hwf hst hi (by simp [Gate.check, h]), fun h ho => exec_refused hg hwf hst hi ?_, fun h ho sub hs => exec_refused hg hwf hst hi ?_⟩
  · have : s.lockOwner = some s.sel := ho
    simp [Gate.check, h, this]
  · have : ¬ s.lockOwner = some s.sel := ho
    simp [Gate.check, h, this, hs]

/-- Only the change at the station that is there counts. -/
theorem modify_at {l : List Station} {i : Nat} {st : Station} {f g : Station → Station} (h : l[i]? = some st)
    (e : f st = g st) : l.modify i f = l.modify i g := by
  apply List.ext_getElem?
  intro j
  rw [List.getElem?_modify, List.getElem?_modify]
  by_cases hj : i = j
  · subst hj; simp [h, e]
  · simp [hj]

/-- The first atomic step of a turn at a BUSY station. -/
theorem cpeRun_busy {prog node : Prog CmdEnd} {s : State} {st : Station} (q : Nat) (h : s.here = some st)
    (hb : st.phase = .busy) (hp : prog.resume st.pos = node) :
    cpeRun (q + 1) prog s = onNext (cpeNode node st s) (cpeRun q prog) := by
  rw [cpeRun, cpeStep_busy h hb, hp]

/-- A command that passes its checks runs from acceptance. -/
theorem runCommand_accepts {i : Instr} {gate : Gate} {prog : Prog CmdEnd} {s : State} {st : Station}
    (hst : s.here = some st) (hi : st.phase = .idle) (hwf : i.wf = true)
    (hg : gate.check st.inited (s.lockOwner == some s.sel) = none) :
    runCommand i gate prog s = cpeRun s.quantum prog (s.modifyHere (Station.accept (.known i))) := by
  simp only [runCommand, hst, hi, hwf, hg, if_true]

/-- The running command goes on. -/
theorem runCommand_continues {i : Instr} {gate : Gate} {prog : Prog CmdEnd} {s : State} {st : Station}
    (hst : s.here = some st) (hi : st.phase = .busy) (hc : st.cur = some (.known i)) :
    runCommand i gate prog s = cpeRun s.quantum prog s := by
  simp only [runCommand, hst, hi, hc, if_true]

/-- A command that runs from the beginning of its program or round, and whose run is known, is completed (R312). -/
theorem running_complete {i : Instr} {g : Gate} {prog : Prog CmdEnd} {s : State} {answers rest : List Byte} {n : Nat}
    {u : Run CmdEnd} {r : Res} {owns : Bool} (hR : s.Running i [] false answers rest n)
    (hg : hostGate s.cfg i = some g) (hp : programOf s.cfg i = some prog)
    (hl : s.lockOwner = if owns = true then some s.sel else none)
    (hu : ∀ hw, prog.run s.sel hw owns (answers ++ rest) = some u) (hv : u.value = .done r) (hn : u.steps < n) :
    exec i s = .next (s.completed i u.txns (if u.owns = true then some s.sel else none) u.writes u.rest r) := by
  obtain ⟨hq, st, hst, hb, hcur, hpos, hc, hch⟩ := hR
  rw [exec_command hg hp, runCommand_continues hst hb hcur,
    cpeRun_of_run (u := u) (r := r) (owns := owns) (node := prog) hst hb hc hl (by rw [hpos, Prog.resume_nil])
      (by rw [hch]; exact hu _) hv (by omega)]
  refine congrArg Host.Outcome.next ?_
  rw [State.completed, State.mk.injEq]
  exact ⟨rfl, modify_at hst (finish_applyWrites _ st _ _ _ hcur), rfl, rfl, rfl, rfl, rfl, rfl⟩

/-- antenna_on with the antenna on (R405). -/
theorem antennaOn_run_on (cfg : Config) (p : Nat) (hw : Bool) (v : Byte) (rest : List Byte) (hv : v &&& 0x03 = 0x03) :
    (antennaOn cfg).run p hw true (v :: rest) = some ⟨(), [rdTxn p cfg.aTxControl v], [], 1, true, rest⟩ := by
  simp only [antennaOn, Prog.run]
  have hv' : ¬ (v &&& antBits ≠ antBits) := fun h => h hv
  rw [if_neg hv']
  rfl

/-- antenna_on with the antenna off (R405). -/
theorem antennaOn_run_off (cfg : Config) (p : Nat) (hw : Bool) (v w : Byte) (rest : List Byte)
    (hv : v &&& 0x03 ≠ 0x03) :
    (antennaOn cfg).run p hw true (v :: w :: rest) =
      some ⟨(), [rdTxn p cfg.aTxControl v, rdTxn p cfg.aTxControl w, wrTxn p cfg.aTxControl (w ||| 0x03)], [], 3,
        true, rest⟩ := by
  simp only [antennaOn, Prog.run]
  have hv' : v &&& antBits ≠ antBits := hv
  rw [if_pos hv']
  rfl

end Sys2Proof.Machine
end

