-- ==== Sys2Proof/Laws/Courses.lean ====
section
/-! SUPPORT. How a session command runs, and how a command waits for the lock, is cancelled, or goes round its loop. -/

namespace Sys2Proof.Machine

open Sys2Proof Classical

/-- The block register writes of authenticate leave auth_warn at their last value (R504). -/
theorem applyWrites_authWrites (w : Bool) (st : Station) : applyWrites (authWrites w) st = applyWrites [.authWarn w] st := by
  cases w <;> rfl

/-- Block register writes with the same effect complete a command the same way. -/
theorem completed_writes {i : Instr} {t : List Txn} {o : Option Nat} {ws ws' : List RegWrite} {rest : List Byte} {r : Res} {s : State}
    (h : ∀ st, applyWrites ws st = applyWrites ws' st) : s.completed i t o ws rest r = s.completed i t o ws' rest r := by
  simp [State.completed, h]

/-- A session command takes the lock, makes its attempt, and frees the lock (R554). -/
theorem once_run {p : Nat} {hw : Bool} {body : Prog Attempt} {found : BitVec 40 × List Byte → Option Bool → Res}
    {chip r : List Byte} {a : Attempt} {t : List Txn} {w : List RegWrite} {n : Nat}
    (h : body.run p hw true chip = some ⟨a, t, w, n, true, r⟩) :
    (once body found).run p hw false chip = some ⟨.done (match a.value with
      | some v => found v a.warn | none => { Res.ofStatus .noValue with warn := a.warn }), t, w, n + 2, false, r⟩ := by
  rw [once]
  refine Eq.trans (Prog.run_seq (v := ⟨.done (match a.value with
      | some v => found v a.warn | none => { Res.ofStatus .noValue with warn := a.warn }), [], [], 0, false, r⟩) (attempt_run h) ?_) ?_
  · cases a.value <;> rfl
  · simp

/-- A blocking command whose round finds a value (R560). -/
theorem blocking_run {p : Nat} {hw : Bool} {body : Prog Attempt} {found : BitVec 40 × List Byte → Option Bool → Res}
    {chip r : List Byte} {a : Attempt} {t : List Txn} {w : List RegWrite} {n : Nat}
    (h : body.run p hw true chip = some ⟨a, t, w, n, true, r⟩) :
    (blocking body found).run p hw false chip = some ⟨match a.value with
      | some v => .done (found v a.warn) | none => .again, t, w, n + 3, false, r⟩ := by
  rw [blocking]
  simp only [Prog.run, Bool.false_eq_true, if_false]
  refine Eq.trans (congrArg _ (Prog.run_seq (v := ⟨match a.value with
      | some v => .done (found v a.warn) | none => .again, [], [], 0, false, r⟩) (attempt_run h) ?_)) ?_
  · cases a.value <;> rfl
  · simp [Run.after]

/-- The course of one TRY_READ_ID attempt (R554). -/
theorem tryReadId_run (cfg : Config) (p : Nat) (hw : Bool) (rest : List Byte) (x : CardScript) (hx : x.Fits cfg) :
    (tryReadIdentifier cfg).run p hw true (x.answers cfg ++ rest) =
      some ⟨⟨(x.uid cfg).map fun u => (uidToId cfg.uidToId u, []), none⟩, x.records cfg p, [], x.steps cfg, true, rest⟩ :=
  Prog.run_map _ (preamble_run cfg p hw rest x hx)

/-- The course of one TRY_READ_SECTOR attempt (R555). -/
theorem tryReadSector_run (cfg : Config) (p : Nat) (hw : Bool) (n : Byte) (u rest : List Byte) (x : SectorScript) (body : List FrameScript)
    (hx : x.Fits cfg u) (h1 : x.Opens cfg → ReadsFit cfg 3 body) (h2 : ¬ x.Opens cfg → body = []) :
    (tryReadSector cfg n).run p hw true (x.answers cfg (body.flatMap (FrameScript.answers cfg)) ++ rest) =
     some ⟨x.attempt cfg u (if AllRead cfg body then some (body.flatMap fun x => (x.outcome cfg).bytes) else none), x.records cfg p n u (readRecords cfg p [n-3,n-2,n-1] body), x.writes,
       x.steps cfg n u (readSteps cfg [n-3,n-2,n-1] body), true, rest⟩ := by
  refine sectorAttempt_run cfg p hw n u _ rest x _ _ _ _ hx (fun ho rest => ?_) (fun ho => ?_)
  · exact readBlocks_run cfg p hw (dataBlocks n) rest body (h1 ho)
  · rw [h2 ho]; simp [readRecords, readSteps]

/-- The course of one TRY_WRITE_SECTOR attempt (R557). -/
theorem tryWriteSector_run (cfg : Config) (p : Nat) (hw : Bool) (t : List Byte) (n : Byte) (u rest : List Byte) (x : SectorScript) (body : List WriteScript)
    (hx : x.Fits cfg u) (h1 : x.Opens cfg → WritesFit cfg 3 body) (h2 : ¬ x.Opens cfg → body = []) :
    (tryWriteSector cfg t n).run p hw true (x.answers cfg (body.flatMap (WriteScript.answers cfg)) ++ rest) =
     some ⟨x.attempt cfg u (if AllWritten cfg body then some (t.take 48) else none), x.records cfg p n u (writeRecords cfg p (sectorParts cfg t n) body), x.writes,
       x.steps cfg n u (writeSteps cfg (sectorParts cfg t n) body), true, rest⟩ := by
  refine sectorAttempt_run cfg p hw n u _ rest x _ _ _ _ hx (fun ho rest => ?_) (fun ho => ?_)
  · have := Prog.run_map (fun ok => if ok = true then some (acceptedText t) else none) (writeBlocks_run cfg p hw (sectorParts cfg t n) rest body (h1 ho))
    rw [this]
    by_cases h : AllWritten cfg body <;> simp [h, acceptedText, sectorBytes]
  · rw [h2 ho]; simp [writeRecords, writeSteps]

/-- The block register writes of a sector attempt. -/
theorem applyWrites_sector (x : SectorScript) (st : Station) :
    applyWrites x.writes st = applyWrites (x.auth.toList.map fun a => .authWarn a.warn) st := by
  cases h : x.auth with
  | none => simp [SectorScript.writes, h]
  | some a => simp [SectorScript.writes, h, applyWrites_authWrites]

/-- ready_session with the block register writes replaced by others of the same effect. -/
theorem ready_session' {i : Instr} {op : Option Sub} {prog : Prog CmdEnd} {s : State} {answers rest : List Byte} {n : Nat}
    {u : Run CmdEnd} {r : Res} {ws : List RegWrite} (hR : s.Ready answers rest n) (ho : s.lockOwner = none)
    (hg : hostGate s.cfg i = some ⟨.required, .notHeld, op⟩) (hp : programOf s.cfg i = some prog) (hwf : i.wf = true)
    (hop : op = none)
    (hu : ∀ hw, prog.run s.sel hw false (answers ++ rest) = some u) (hv : u.value = .done r) (hn : u.steps < n) (huo : u.owns = false)
    (hw : ∀ st, applyWrites u.writes st = applyWrites ws st) :
    exec i s = .next (s.completed i u.txns none ws u.rest r) := by
  rw [ready_session hR ho hg hp hwf hop hu hv hn huo, completed_writes hw]

/-- A blocking command is completed in a round that finds a value, its first or a later one (R560). -/
theorem round_session {i : Instr} {op : Option Sub} {prog : Prog CmdEnd} {s : State} {answers rest : List Byte} {n : Nat}
    {u : Run CmdEnd} {r : Res} {ws : List RegWrite}
    (hR : s.Ready answers rest n ∨ s.Running i [] false answers rest n) (ho : s.lockOwner = none)
    (hg : hostGate s.cfg i = some ⟨.required, .notHeld, op⟩) (hp : programOf s.cfg i = some prog) (hwf : i.wf = true)
    (hop : op = none)
    (hu : ∀ hw, prog.run s.sel hw false (answers ++ rest) = some u) (hv : u.value = .done r) (hn : u.steps < n)
    (huo : u.owns = false) (hw : ∀ st, applyWrites u.writes st = applyWrites ws st) :
    exec i s = .next (s.completed i u.txns none ws u.rest r) := by
  rcases hR with hR | hR
  · exact ready_session' hR ho hg hp hwf hop hu hv hn huo hw
  · rw [running_complete (owns := false) hR hg hp (by simpa using ho) hu hv hn, huo, ← completed_writes hw]
    rfl

/-- A FRAME is run as its exchange, with no acceptance check (A17). -/
theorem frame_complete {i : Instr} {prog : Prog CmdEnd} {s : State} {st : Station}
    {u : Run CmdEnd} {r : Res} {chip : List Byte} (hch : st.chipQ = chip) (ho : s.Owns) (hst : s.here = some st) (hi : st.phase = .idle) (hc : st.cancelReq = false)
    (hg : hostGate s.cfg i = none) (hp : programOf s.cfg i = some prog) (hwf : i.wf = true)
    (hu : ∀ hw, prog.run s.sel hw true chip = some u) (hv : u.value = .done r) (hn : u.steps < s.quantum) (huo : u.owns = true) :
    exec i s = .next (s.completed i u.txns s.lockOwner u.writes u.rest r) := by
  have ho' : s.lockOwner = some s.sel := ho
  subst hch
  rw [exec_frame hg hp]
  rw [runCommand_completes (owns := true) hst hi hc hwf (by simp [Gate.check, frameGate]) (by simpa using ho') (hu _) hv hn, huo, ho']
  rfl

/-- The status of an exchange is OK, NOTAG or ERROR (R453). -/
theorem outcome_ofExchange (cfg : Config) (c : Byte) (x : ExchangeScript) : (x.outcome cfg c).status.OfExchange := by
  unfold ExchangeScript.outcome
  cases x.ending with
  | timeout => exact .inr (.inr rfl)
  | error _ _ => exact .inr (.inr rfl)
  | reply fire err level control bytes =>
    dsimp only
    split
    · exact .inr (.inl rfl)
    · exact .inl rfl

/-- The moving station after an answer. -/
theorem here_answered {s : State} {st : Station} (b : Byte) (h : s.here = some st) : (s.answered b).here = some (st.advance b) := by
  rw [State.answered, State.here_modifyHere, h]; rfl

/-- The moving station after acceptance. -/
theorem here_accept {s : State} {st : Station} (i : Instr) (h : s.here = some st) :
    (s.modifyHere (Station.accept (.known i))).here = some (st.accept (.known i)) := by
  rw [State.here_modifyHere, h]; rfl

/-- The end of a command, and nothing after it. -/
theorem cpeRun_done {prog : Prog CmdEnd} {s : State} {st : Station} {r : Res} (q : Nat) (h : s.here = some st)
    (hb : st.phase = .busy) (hp : prog.resume st.pos = .ret (.done r)) :
    cpeRun (q + 1) prog s = .next (s.modifyHere (Station.finish r)) := by
  rw [cpeRun_busy q h hb hp]
  show cpeRun q prog _ = _
  refine cpeRun_rest (st := st.finish r) q ?_ ?_
  · rw [State.here_modifyHere, h]; rfl
  · simp only [Station.finish_phase]; split <;> simp

/-- A program at abort cancels the command (R661). -/
theorem cpeRun_abort {prog : Prog CmdEnd} {s : State} {st : Station} (q : Nat) (h : s.here = some st)
    (hb : st.phase = .busy) (hp : prog.resume st.pos = .abort) :
    cpeRun (q + 1) prog s = .next s.abort := by
  rw [cpeRun_busy q h hb hp]
  show cpeRun q prog _ = _
  refine cpeRun_rest (st := st.finish (Res.ofStatus .cancelled)) q ?_ (by simp [Res.ofStatus])
  rw [State.abort, State.here_modifyHere, State.here_releaseLock, h]; rfl

/-- abort is the release of an own lock and a CANCELLED end (R661). -/
theorem abort_eq (s : State) : s.abort = s.cancelled := by
  simp only [State.abort, State.releaseLock, State.cancelled]
  split <;> rfl

/-- At its acquire a command holds while another station has the lock. -/
theorem cpeRun_hold {prog k : Prog CmdEnd} {s : State} {st : Station} {owner : Nat} (q : Nat) (h : s.here = some st)
    (hb : st.phase = .busy) (hp : prog.resume st.pos = .acquire k) (hc : st.cancelReq = false) (ho : s.lockOwner = some owner) :
    cpeRun q prog s = .next s := by
  induction q with
  | zero => rfl
  | succ n ih =>
    rw [cpeRun_busy n h hb hp]
    simp [cpeNode, hc, ho, ih]

/-- A cancel ends the wait for the lock (R652, R661). -/
theorem cpeRun_cancel {prog k : Prog CmdEnd} {s : State} {st : Station} (q : Nat) (h : s.here = some st)
    (hb : st.phase = .busy) (hp : prog.resume st.pos = .acquire k) (hc : st.cancelReq = true) (hq : 1 ≤ q) :
    cpeRun q prog s = .next s.cancelled := by
  obtain ⟨n, rfl⟩ : ∃ n, q = n + 1 := ⟨q - 1, by omega⟩
  rw [cpeRun_busy n h hb hp]
  simp only [cpeNode, hc, if_true, onNext_next]
  rw [abort_eq]
  refine cpeRun_rest (st := st.finish (Res.ofStatus .cancelled)) n ?_ (by simp [Res.ofStatus])
  rw [← abort_eq, State.abort, State.here_modifyHere, State.here_releaseLock, h]; rfl

/-- A command whose program stands at an acquire waits while the lock is held elsewhere. -/
theorem wait_of {s : State} {i : Instr} {g : Gate} {prog k : Prog CmdEnd} {rest pos : List Byte} {owner : Nat}
    (hg : hostGate s.cfg i = some g) (hp : programOf s.cfg i = some prog) (hk : prog.resume pos = .acquire k) (ho : s.lockOwner = some owner) :
      (s.Running i pos false [] rest 0 → exec i s = .next s) ∧
      (s.Running i pos true [] rest 1 → exec i s = .next s.cancelled) := by
  refine ⟨fun hR => ?_, fun hR => ?_⟩
  all_goals
    obtain ⟨hq, st, hst, hb, hcur, hpos, hc, hch⟩ := hR
    rw [exec_command hg hp, runCommand_continues hst hb hcur]
  · exact cpeRun_hold _ hst hb (by rw [hpos, hk]) hc ho
  · exact cpeRun_cancel _ hst hb (by rw [hpos, hk]) hc hq

/-- A cancel that is latched at a Suspend ends the command. -/
theorem cancel_first {s : State} {i : Instr} {g : Gate} {prog : Prog CmdEnd} {f : Bool → Prog CmdEnd} {rest : List Byte}
    (hg : hostGate s.cfg i = some g) (hp : programOf s.cfg i = some prog) (hk : prog = .suspend f) (hf : f true = .abort)
    (hR : s.Running i [] true [] rest 2) : exec i s = .next s.cancelled := by
  obtain ⟨hq, st, hst, hb, hcur, hpos, hc, hch⟩ := hR
  obtain ⟨n, hn⟩ : ∃ n, s.quantum = n + 2 := ⟨s.quantum - 2, by omega⟩
  rw [exec_command hg hp, runCommand_continues hst hb hcur, hn]
  rw [cpeRun_busy (n + 1) hst hb (node := .suspend f) (by rw [hpos, hk]; simp)]
  simp only [cpeNode, hc, onNext_next]
  rw [cpeRun_abort n (here_answered _ hst) hb (by rw [hk]; simp only [Station.advance, hpos]; show (f (flagByte true != 0)).resume [] = _; rw [Prog.resume_nil]; exact hf)]
  rw [abort_eq]
  refine congrArg Host.Outcome.next ?_
  simp only [State.cancelled, State.answered, State.modifyHere]
  rw [State.mk.injEq]
  refine ⟨rfl, ?_, rfl, rfl, rfl, rfl, rfl, rfl⟩
  refine Eq.trans (modify_two _ _ _ _ _ fun x => rfl) (modify_at hst ?_)
  cases st; rfl

/-- A card engine that runs its program undisturbed for the steps of the run stands at its end. -/
theorem cpeRun_steps {prog node : Prog CmdEnd} {s : State} {st : Station} {u : Run CmdEnd} {owns : Bool}
    (hst : s.here = some st) (hb : st.phase = .busy) (hc : st.cancelReq = false)
    (hl : s.lockOwner = if owns = true then some s.sel else none)
    (hp : prog.resume st.pos = node) (hu : node.run s.sel st.hwOk owns st.chipQ = some u) :
    ∃ l, prog.resume l = .ret u.value ∧ cpeRun u.steps prog s = .next
      { s with
        trace := s.trace ++ u.txns
        lockOwner := if u.owns = true then some s.sel else none
        stations := s.stations.modify s.sel fun st =>
          applyWrites u.writes { st with chipQ := u.rest, pos := l } } := by
  induction node generalizing s st owns u with
  | ret a =>
    simp only [Prog.run, Option.some.injEq] at hu
    subst hu
    refine ⟨st.pos, hp, ?_⟩
    simp only [cpeRun, List.append_nil, applyWrites]
    refine congrArg _ ?_
    rw [← hl]
    have : s.stations = s.stations.modify s.sel fun st' => { st' with chipQ := st.chipQ, pos := st.pos } := by
      apply List.ext_getElem?
      intro j
      rw [List.getElem?_modify]
      by_cases hj : s.sel = j
      · subst hj; have : s.stations[s.sel]? = some st := hst
        simp [this]
      · simp [hj]
    rw [← this]
  | abort => simp [Prog.run] at hu
  | rd a k ih => 
    cases owns with
    | false => simp [Prog.run] at hu
    | true =>
      cases hch : st.chipQ with
      | nil => simp [Prog.run, hch] at hu
      | cons b rest =>
        simp only [Prog.run, hch, Option.map_eq_some_iff] at hu
        obtain ⟨u', hu', rfl⟩ := hu
        have hl' : s.lockOwner = some s.sel := by simpa using hl
        have hrec : (s.record .rd a b).here = some st := hst
        obtain ⟨l, hl2, hrun⟩ := ih b (s := ((s.record .rd a b).modifyHere fun st => { st with chipQ := st.chipQ.tail }).answered b)
          (st := { st with chipQ := rest, pos := st.pos ++ [b] }) (owns := true) (by simp [State.answered, hst, hch, Station.advance]) hb hc (by simpa using hl')
          (by rw [Prog.resume_snoc, hp]; simp [Prog.resume]) hu'
        refine ⟨l, hl2, ?_⟩
        show cpeRun (u'.steps + 1) prog s = _
        rw [cpeRun_busy _ hst hb hp]
        simp only [cpeNode, State.answer_cons hst hch, busRead_owned a hl', onNext_next,
          State.takeAnswer_cons hrec hch]
        rw [hrun]
        refine congrArg _ ?_
        rw [State.mk.injEq]
        refine ⟨rfl, ?_, rfl, ?_, rfl, rfl, rfl, rfl⟩
        · exact modify_three _ _ _ _ _ _ fun x => rfl
        · simp [State.answered, State.record, Run.after]
  | wr a v k ih =>
    cases owns with
    | false => simp [Prog.run] at hu
    | true =>
      simp only [Prog.run, if_true, Option.map_eq_some_iff] at hu
      obtain ⟨u', hu', rfl⟩ := hu
      have hl' : s.lockOwner = some s.sel := by simpa using hl
      obtain ⟨l, hl2, hrun⟩ := ih (s := (s.record .wr a v).answered 0) (st := st.advance 0) (owns := true)
        (here_answered 0 hst) hb hc (by simpa using hl') (by rw [Station.advance, Prog.resume_snoc, hp]; simp [Prog.resume]) hu'
      refine ⟨l, hl2, ?_⟩
      show cpeRun (u'.steps + 1) prog s = _
      rw [cpeRun_busy _ hst hb hp]
      simp only [cpeNode, busWrite_owned a v hl', onNext_next]
      rw [hrun]
      refine congrArg _ ?_
      rw [State.mk.injEq]
      refine ⟨rfl, ?_, rfl, ?_, rfl, rfl, rfl, rfl⟩
      · exact modify_two _ _ _ _ _ fun x => rfl
      · simp [State.answered, State.record, Run.after]
  | suspend k ih =>
    simp only [Prog.run, Option.map_eq_some_iff] at hu
    obtain ⟨u', hu', rfl⟩ := hu
    obtain ⟨l, hl2, hrun⟩ := ih false (s := s.answered (flagByte st.cancelReq)) (st := st.advance (flagByte st.cancelReq)) (owns := owns)
      (here_answered _ hst) hb hc hl (by rw [Station.advance, Prog.resume_snoc, hp, hc]; show (k (flagByte false != 0)).resume [] = _; rw [flagByte_ne_zero, Prog.resume_nil]) hu'
    refine ⟨l, hl2, ?_⟩
    show cpeRun (u'.steps + 1) prog s = _
    rw [cpeRun_busy _ hst hb hp]
    simp only [cpeNode, onNext_next]
    rw [hrun]
    refine congrArg _ ?_
    rw [State.mk.injEq]
    refine ⟨rfl, ?_, rfl, ?_, rfl, rfl, rfl, rfl⟩
    · exact modify_two _ _ _ _ _ fun x => rfl
    · simp [State.answered, Run.after]
  | acquire k ih =>
    cases owns with
    | true => simp [Prog.run] at hu
    | false =>
      simp only [Prog.run, Bool.false_eq_true, if_false, Option.map_eq_some_iff] at hu
      obtain ⟨u', hu', rfl⟩ := hu
      have hl' : s.lockOwner = none := by simpa using hl
      obtain ⟨l, hl2, hrun⟩ := ih (s := s.takeLock.answered 0) (st := st.advance 0) (owns := true)
        (here_answered 0 hst) hb hc rfl (by rw [Station.advance, Prog.resume_snoc, hp]; simp [Prog.resume]) hu'
      refine ⟨l, hl2, ?_⟩
      show cpeRun (u'.steps + 1) prog s = _
      rw [cpeRun_busy _ hst hb hp]
      simp only [cpeNode, hc, hl', onNext_next, if_true, Bool.false_eq_true, if_false]
      rw [hrun]
      refine congrArg _ ?_
      rw [State.mk.injEq]
      refine ⟨rfl, ?_, rfl, ?_, rfl, rfl, rfl, rfl⟩
      · exact modify_two _ _ _ _ _ fun x => rfl
      · simp [State.answered, State.takeLock, Run.after]
  | release k ih =>
    cases owns with
    | false => simp [Prog.run] at hu
    | true =>
      simp only [Prog.run, if_true, Option.map_eq_some_iff] at hu
      obtain ⟨u', hu', rfl⟩ := hu
      have hl' : s.lockOwner = some s.sel := by simpa using hl
      obtain ⟨l, hl2, hrun⟩ := ih (s := s.releaseLock.answered 0) (st := st.advance 0) (owns := false)
        (here_answered 0 (by rw [State.here_releaseLock, hst])) hb hc (by simp [State.releaseLock, hl', State.answered])
        (by rw [Station.advance, Prog.resume_snoc, hp]; simp [Prog.resume]) (by simpa [State.releaseLock, hl', State.answered] using hu')
      refine ⟨l, hl2, ?_⟩
      show cpeRun (u'.steps + 1) prog s = _
      rw [cpeRun_busy _ hst hb hp]
      simp only [cpeNode, onNext_next]
      rw [hrun]
      refine congrArg _ ?_
      simp only [State.releaseLock, hl', if_true]
      rw [State.mk.injEq]
      refine ⟨rfl, ?_, rfl, ?_, rfl, rfl, rfl, rfl⟩
      · exact modify_two _ _ _ _ _ fun x => rfl
      · simp [State.answered, Run.after]
  | sampleHw k ih =>
    simp only [Prog.run, Option.map_eq_some_iff] at hu
    obtain ⟨u', hu', rfl⟩ := hu
    obtain ⟨l, hl2, hrun⟩ := ih st.hwOk (s := s.answered (flagByte st.hwOk)) (st := st.advance (flagByte st.hwOk)) (owns := owns)
      (here_answered _ hst) hb hc hl (by rw [Station.advance, Prog.resume_snoc, hp]; show (k (flagByte st.hwOk != 0)).resume [] = _; rw [flagByte_ne_zero, Prog.resume_nil]) hu'
    refine ⟨l, hl2, ?_⟩
    show cpeRun (u'.steps + 1) prog s = _
    rw [cpeRun_busy _ hst hb hp]
    simp only [cpeNode, onNext_next]
    rw [hrun]
    refine congrArg _ ?_
    rw [State.mk.injEq]
    refine ⟨rfl, ?_, rfl, ?_, rfl, rfl, rfl, rfl⟩
    · exact modify_two _ _ _ _ _ fun x => rfl
    · simp [State.answered, Run.after]
  | put w k ih =>
    simp only [Prog.run, Option.map_eq_some_iff] at hu
    obtain ⟨u', hu', rfl⟩ := hu
    obtain ⟨l, hl2, hrun⟩ := ih (s := (s.modifyHere w.apply).answered 0) (st := (w.apply st).advance 0) (owns := owns)
      (here_answered _ (by rw [State.here_modifyHere, hst]; rfl)) (by cases w <;> exact hb) (by cases w <;> exact hc) hl
      (by rw [Station.advance]; simp only; rw [show (w.apply st).pos = st.pos by cases w <;> rfl, Prog.resume_snoc, hp]; simp [Prog.resume])
      (by cases w <;> exact hu')
    refine ⟨l, hl2, ?_⟩
    show cpeRun (u'.steps + 1) prog s = _
    rw [cpeRun_busy _ hst hb hp]
    simp only [cpeNode, onNext_next]
    rw [hrun]
    refine congrArg _ ?_
    rw [State.mk.injEq]
    refine ⟨rfl, ?_, rfl, ?_, rfl, rfl, rfl, rfl⟩
    · exact modify_three _ _ _ _ _ _ fun x => by cases w <;> rfl
    · simp [State.answered, Run.after]

/-- cpeRun_done at a given position. -/
theorem cpeRun_done' {prog : Prog CmdEnd} {s : State} {st : Station} {l : List Byte} {r : Res} (q : Nat) (h : s.here = some st)
    (hb : st.phase = .busy) (hpos : st.pos = l) (hp : prog.resume l = .ret (.done r)) :
    cpeRun (q + 1) prog s = .next (s.modifyHere (Station.finish r)) := cpeRun_done q h hb (by rw [hpos]; exact hp)

/-- Block register writes leave the position alone. -/
theorem applyWrites_pos' (ws : List RegWrite) (st : Station) : (applyWrites ws st).pos = st.pos := by
  induction ws generalizing st with
  | nil => rfl
  | cons w rest ih => cases w <;> exact (ih _).trans rfl

/-- The number of steps a turn grants is not read by the steps. -/
theorem cpeRun_quantum (q m : Nat) (prog : Prog CmdEnd) (s : State) :
    cpeRun q prog { s with quantum := m } = onNext (cpeRun q prog s) fun t => .next { t with quantum := m } := by
  induction q generalizing s with
  | zero => rfl
  | succ n ih =>
    have h1 : cpeStep prog { s with quantum := m } = onNext (cpeStep prog s) fun t => .next { t with quantum := m } := by
      have hh : ({ s with quantum := m } : State).here = s.here := rfl
      simp only [cpeStep, hh]
      cases hst : s.here with
      | none => rfl
      | some st =>
        dsimp only
        cases st.phase with
        | idle => rfl
        | dead => rfl
        | busy =>
          dsimp only
          cases prog.resume st.pos with
          | ret a => cases a <;> rfl
          | abort => simp only [cpeNode, State.abort, State.releaseLock, State.modifyHere, onNext_next]; split <;> rfl
          | rd a k =>
            simp only [cpeNode]
            by_cases ho : s.lockOwner = some s.sel
            · rw [busRead_owned (s := s) _ ho, busRead_owned (s := { s with quantum := m }) _ ho]
              have hst' : ({ s with quantum := m } : State).here = some st := hst
              have h1 : ({ s with quantum := m } : State).answer = s.answer := rfl
              have h2 : ∀ (s : State), ({ s with quantum := m } : State).takeAnswer = { s.takeAnswer with quantum := m } := by
                intro s
                simp only [State.takeAnswer, State.here]
                cases s.stations[s.sel]? with
                | none => rfl
                | some st => dsimp only; split <;> rfl
              simp only [onNext_next, h1]
              have h3 := h2 (s.record .rd a s.answer)
              exact congrArg (fun x => Host.Outcome.next (State.answered s.answer x)) h3
            · rw [busRead_not_owned (s := s) _ ho, busRead_not_owned (s := { s with quantum := m }) _ ho]; rfl
          | wr a v k =>
            simp only [cpeNode]
            by_cases ho : s.lockOwner = some s.sel
            · rw [busWrite_owned (s := s) _ _ ho, busWrite_owned (s := { s with quantum := m }) _ _ ho]; rfl
            · rw [busWrite_not_owned (s := s) _ _ ho, busWrite_not_owned (s := { s with quantum := m }) _ _ ho]; rfl
          | suspend k => rfl
          | acquire k =>
            simp only [cpeNode, State.abort, State.releaseLock, State.modifyHere]
            split
            · split <;> rfl
            · split <;> rfl
          | release k => simp only [cpeNode, State.releaseLock]; split <;> rfl
          | sampleHw k => rfl
          | put w k => rfl
    simp only [cpeRun, h1]
    cases cpeStep prog s with
    | next t => simp only [onNext_next]; exact ih t
    | fault e => rfl
    | refused e => rfl

/-- The course of INIT from its antenna part (R802). -/
theorem initProg_run (cfg : Config) (p : Nat) (chip rest : List Byte) (t : List Txn) (n : Nat)
    (h : (antennaOn cfg).run p true true chip = some ⟨(), t, [], n, true, rest⟩) :
    (initProg cfg).run p true false chip = some ⟨.done (Res.ofStatus .ok),
      [wrTxn p cfg.aCommand cfg.cmdSoftReset] ++ (cfg.initWrites.map fun w => wrTxn p w.1 w.2) ++ t, [.rstOut, .inited],
      cfg.initWrites.length + n + 6, false, rest⟩ := by
  simp only [initProg, Prog.run, if_true, Bool.false_eq_true, if_false]
  have h1 := Prog.run_seq (f := fun _ : Unit => (issueWrites cfg.initWrites).seq <| (antennaOn cfg).seq <| .put .inited <| .release endOk)
    (writeRegister_run p true cfg.aCommand cfg.cmdSoftReset chip)
    (Prog.run_seq (f := fun _ : Unit => (antennaOn cfg).seq <| .put .inited <| .release endOk) (issueWrites_run p true cfg.initWrites chip)
      (Prog.run_seq (f := fun _ : Unit => .put .inited <| .release endOk) h (v := ⟨.done (Res.ofStatus .ok), [], [.inited], 2, false, rest⟩) rfl))
  rw [chipReset, Prog.seq]
  refine Eq.trans (congrArg (fun o => Option.map (Run.after [] []) (Option.map (Run.after [] [RegWrite.rstOut]) (Option.map (Run.after [] []) o))) h1) ?_
  simp [Run.after]
  omega

/-- The moving station after a change of it. -/
theorem here_completed_round {s : State} {st : Station} {f : Station → Station} {t : List Txn} {o : Option Nat} (hst : s.here = some st) :
   ({ s with trace := t, lockOwner := o, stations := s.stations.modify s.sel f } : State).here = some (f st) := by
  have : s.stations[s.sel]? = some st := hst
  simp [State.here, this]

/-- Block register writes leave position and chip answers alone. -/
theorem applyWrites_rest (ws : List RegWrite) (st : Station) (c l : List Byte) :
    applyWrites ws { st with chipQ := c, pos := l } = { applyWrites ws st with chipQ := c, pos := l } := by
  induction ws generalizing st with
  | nil => rfl
  | cons w rest ih =>
    cases w with
    | rstOut => exact ih (RegWrite.rstOut.apply st)
    | inited => exact ih (RegWrite.inited.apply st)
    | authWarn b => exact ih ((RegWrite.authWarn b).apply st)

/-- A round of a blocking command that finds nothing (R560). -/
theorem blocking_round {i : Instr} {g : Gate} {prog : Prog CmdEnd} {s : State} {st : Station} {u : Run CmdEnd} {m : Nat} {ws : List RegWrite} {rest : List Byte} {txns : List Txn}
   (hg : hostGate s.cfg i = some g) (hp : programOf s.cfg i = some prog) (hst : s.here = some st) (ho : s.lockOwner = none)
   (hb : st.phase = .busy) (hcur : st.cur = some (.known i)) (hpos : st.pos = []) (hc : st.cancelReq = false)
   (hq : s.quantum = u.steps + 1 + m)
   (hu : prog.run s.sel st.hwOk false st.chipQ = some u) (hv : u.value = .again) (huo : u.owns = false) (hw : ∀ st, applyWrites u.writes st = applyWrites ws st)
   (hr : u.rest = rest) (ht : u.txns = txns) :
      (s.cfg.maxAttempts ≠ some (st.attempts + 1) →
        exec i s = onNext (exec i
          { s.nextRound txns ws rest with quantum := m })
          fun t => .next { t with quantum := s.quantum }) ∧
      (s.cfg.maxAttempts = some (st.attempts + 1) →
        exec i s = .next (s.completed i txns none ws rest
          { Res.absent with status := some .noValue })) := by
  subst hr ht
  have hh := cpeRun_steps (owns := false) hst hb hc (by simpa using ho) (by rw [hpos]; exact Prog.resume_nil prog) hu
  obtain ⟨l, hl, hrun⟩ := hh
  rw [huo] at hrun
  simp only [Bool.false_eq_true, if_false] at hrun
  rw [hv] at hl
  have he : ∀ q, cpeRun (u.steps + 1 + q) prog s = onNext (.next (State.modifyHere (Station.nextAttempt s.cfg.maxAttempts) { s with
        trace := s.trace ++ u.txns
        lockOwner := none
        stations := s.stations.modify s.sel fun st =>
          applyWrites u.writes { st with chipQ := u.rest, pos := l } })) (cpeRun q prog) := by
    intro q
    rw [Nat.add_assoc, cpeRun_add, hrun, onNext_next, Nat.add_comm 1 q]
    rw [cpeRun_busy (node := .ret .again) q (here_completed_round hst) (by rw [applyWrites_phase]; exact hb) (by rw [applyWrites_pos']; exact hl)]
    rfl
  have hhere : (State.modifyHere (Station.nextAttempt s.cfg.maxAttempts) { s with
        trace := s.trace ++ u.txns
        lockOwner := none
        stations := s.stations.modify s.sel fun st =>
          applyWrites u.writes { st with chipQ := u.rest, pos := l } }).here = some ((applyWrites u.writes { st with chipQ := u.rest, pos := l }).nextAttempt s.cfg.maxAttempts) := by
    rw [State.here_modifyHere, here_completed_round hst]; rfl
  rw [exec_command hg hp, runCommand_continues hst hb hcur, hq, he, onNext_next]
  refine ⟨fun hm => ?_, fun hm => ?_⟩
  · have hnr : s.nextRound u.txns ws u.rest = (State.modifyHere (Station.nextAttempt s.cfg.maxAttempts) { s with
        trace := s.trace ++ u.txns
        lockOwner := none
        stations := s.stations.modify s.sel fun st =>
          applyWrites u.writes { st with chipQ := u.rest, pos := l } }) := by
      simp only [State.nextRound, State.modifyHere]
      rw [State.mk.injEq]
      refine ⟨rfl, ?_, rfl, rfl, rfl, rfl, rfl, rfl⟩
      rw [List.modify_modify_eq]
      refine modify_at hst ?_
      simp only [Function.comp, Station.nextAttempt, applyWrites_attempts, hm, if_false]
      rw [applyWrites_rest u.writes st u.rest l, hw]
    have hhere2 : ({ s.nextRound u.txns ws u.rest with quantum := m } : State).here = some ((applyWrites u.writes { st with chipQ := u.rest, pos := l }).nextAttempt s.cfg.maxAttempts) := by
      rw [hnr]; exact hhere
    have hb2 : ((applyWrites u.writes { st with chipQ := u.rest, pos := l }).nextAttempt s.cfg.maxAttempts).phase = .busy := by
      simp [Station.nextAttempt, applyWrites_attempts, hm, applyWrites_phase, hb]
    have hc2 : ((applyWrites u.writes { st with chipQ := u.rest, pos := l }).nextAttempt s.cfg.maxAttempts).cur = some (.known i) := by
      simp [Station.nextAttempt, applyWrites_attempts, hm, applyWrites_cur, hcur]
    rw [exec_command (s := { s.nextRound u.txns ws u.rest with quantum := m }) hg hp, runCommand_continues hhere2 hb2 hc2, hnr]
    generalize hs2 : (State.modifyHere (Station.nextAttempt s.cfg.maxAttempts) { s with
        trace := s.trace ++ u.txns
        lockOwner := none
        stations := s.stations.modify s.sel fun st =>
          applyWrites u.writes { st with chipQ := u.rest, pos := l } }) = s2
    have hq2 : s2.quantum = s.quantum := by rw [← hs2]; rfl
    rw [← hq, ← hq2]
    exact cpeRun_quantum m s2.quantum prog { s2 with quantum := m }
  · rw [cpeRun_rest m hhere (by simp [Station.nextAttempt, applyWrites_attempts, hm, Res.ofStatus])]
    refine congrArg Host.Outcome.next ?_
    simp only [State.completed, State.modifyHere]
    rw [State.mk.injEq]
    refine ⟨rfl, ?_, rfl, rfl, rfl, rfl, rfl, rfl⟩
    rw [List.modify_modify_eq]
    refine modify_at hst ?_
    simp only [Function.comp, Station.nextAttempt, applyWrites_attempts, hm, if_true]
    rw [applyWrites_rest u.writes st u.rest l, hw, Station.finish]
    have hc' := applyWrites_cur ws st
    rw [hcur] at hc'
    have hr' := applyWrites_results ws st
    generalize applyWrites ws st = st2 at hc' hr'
    cases st2
    simp only at hc' hr'
    subst hc' hr'
    rfl

/-- The place after the payload is pushed. -/
theorem pushFifo_resume {β : Type} (cfg : Config) (d m : List Byte) (f : Unit → Prog β) :
    ((pushFifo cfg d).bind f).resume (List.replicate d.length 0 ++ m) = (f ()).resume m := by
  induction d with
  | nil => rfl
  | cons b d ih => simpa [pushFifo, Prog.resume, List.replicate_succ] using ih

/-- The place inside the push of a payload. -/
theorem pushFifo_resume' {β : Type} (cfg : Config) (d m : List Byte) (f : Unit → Prog β) :
    ((pushFifo cfg d).bind f).resume (List.replicate d.length 0#8 ++ m) = (f ()).resume m := pushFifo_resume cfg d m f

/-- The place after polls that fire nothing (R452). -/
theorem pollIrq_resume {β : Type} (cfg : Config) (wait : Byte) (k : Nat) (polls : List Byte) (f : PollEnd → Prog β)
    (hne : polls ≠ []) (hk : polls.length < k) (hp : ∀ n ∈ polls, fires wait n = false) :
    ∃ g : Bool → Prog β, g true = f .cancelled ∧
      ((pollIrq cfg wait k).bind f).resume (polls.dropLast.flatMap (fun n => [n, 0]) ++ polls.getLast?.toList) = .suspend g := by
  induction polls generalizing k with
  | nil => exact absurd rfl hne
  | cons b rest ih =>
    obtain ⟨n, rfl⟩ : ∃ n, k = n + 1 := ⟨k - 1, by simp at hk; omega⟩
    simp only [List.length_cons] at hk
    have hb : fires wait b = false := hp b (by simp)
    have hn : n ≠ 0 := by omega
    cases rest with
    | nil => 
      refine ⟨_, ?_, by simp [pollIrq, Prog.resume, hb, hn]; rfl⟩
      simp
    | cons b' rest =>
      obtain ⟨g, hg, hr⟩ := ih n (by simp) (by omega) (fun m hm => hp m (by simp [hm]))
      refine ⟨g, hg, ?_⟩
      rw [← hr]
      simp [pollIrq, Prog.resume, hb, hn]

end Sys2Proof.Machine
end

