-- ==== Sys2Proof/Laws/Edges.lean ====
section
/-! SUPPORT. What an edge and a transition code do, in the terms of the filter and the table of R321. -/

namespace Sys2Proof.Machine

open Sys2Proof

/-- The transition of the decoder is that of the table of R321. -/
theorem transition_eq (cfg : Config) (p : Nat) (sum : BitVec 4) (st : Station) :
    st.transition cfg p sum = afterTransition cfg p sum st := by
  have h3 : ∀ x : BitVec 2, (x.toNat = stepsPerEvent - 1) ↔ x = 3 := by decide
  have hcases : (sum ∈ cwCodes ∧ transitionClass sum = some .cw) ∨ (sum ∉ cwCodes ∧ sum ∈ ccwCodes ∧ transitionClass sum = some .ccw) ∨
      (sum ∉ cwCodes ∧ sum ∉ ccwCodes ∧ transitionClass sum = none) := by revert sum; decide
  rcases hcases with ⟨h, hc⟩ | ⟨h, h', hc⟩ | ⟨h, h', hc⟩
  · simp only [Station.transition, h, if_true, afterTransition, hc, Station.stepCount, h3, Station.fire, Station.emit, newEnc]
    split <;> rfl
  · simp only [Station.transition, h, h', if_true, if_false, afterTransition, hc, Station.stepCount, h3, Station.fire, Station.emit, newEnc]
    split <;> rfl
  · simp only [Station.transition, h, h', if_false, afterTransition, hc, newEnc]

/-- An encoder edge is the transition to the sampled levels (R603). -/
theorem onEncoderEdge_eq (cfg : Config) (p : Nat) (clk dt : Bool) (st : Station) :
    st.onEncoderEdge cfg p clk dt = afterTransition cfg p (st.lastEnc ++ encOf clk dt) st := transition_eq _ _ _ _

/-- The filter accepts exactly when the window is over (R600). -/
theorem accepts_iff (cfg : Config) (l : Line) (now : Nat) (st : Station) :
    st.accepts cfg l now = true ↔ WindowOver (l.window cfg) now (st.lastAcc l) := by
  simp only [Station.accepts, WindowOver]
  cases st.lastAcc l with
  | none => simp
  | some t => simp; omega

/-- An edge is too early exactly when the environment breaks its duty (R600). -/
theorem tooEarly_iff (now : Nat) (st : Station) : st.tooEarly now = true ↔ ¬ st.InTime now := by
  simp only [Station.tooEarly, Station.InTime]
  cases st.envNow <;> simp

/-- A handler is held exactly when it would emit and there is no room (R609). -/
theorem blocked_iff (cfg : Config) (f : Station → Station) (st : Station) :
    st.blocked cfg f = true ↔ st.events.length < (f st).events.length ∧ ¬ st.Room cfg := by
  simp only [Station.blocked, Station.Room]
  cases cfg.evqDepth <;> simp

/-- An accepted edge runs its handler. -/
theorem handleEdge_accepted {l : Line} {now : Nat} {f : Station → Station} {s : State} {st : Station} (hst : s.here = some st)
    (hd : st.phase ≠ .dead) (ht : st.InTime now) (ha : st.accepts s.cfg l now = true)
    (hr : st.Room s.cfg ∨ (st.acceptEdge l now f).events = st.events) :
    handleEdge l now f s = .next (s.modifyHere fun _ => { st.acceptEdge l now f with envNow := some now }) := by
  simp only [handleEdge, hst, if_neg hd]
  rw [if_neg (by rw [tooEarly_iff]; exact fun h => h ht), if_neg]
  · refine congrArg Host.Outcome.next ?_
    simp only [State.modifyHere]
    rw [State.mk.injEq]
    refine ⟨rfl, modify_at hst ?_, rfl, rfl, rfl, rfl, rfl, rfl⟩
    simp only [ha, if_true]
  · simp only [Station.holdsEdge, Bool.and_eq_true, blocked_iff, not_and, not_not]
    intro _ h
    rcases hr with h' | h'
    · exact h'
    · rw [h'] at h; exact absurd h (lt_irrefl _)

/-- A transition leaves the filter times alone. -/
theorem afterTransition_lastAcc (cfg : Config) (p : Nat) (sum : BitVec 4) (st : Station) (a b c : Option Nat) :
    afterTransition cfg p sum { st with lastAccClk := a, lastAccDt := b, lastAccBtn := c } =
      { afterTransition cfg p sum st with lastAccClk := a, lastAccDt := b, lastAccBtn := c } := by
  simp only [afterTransition]
  cases transitionClass sum with
  | none => rfl
  | some d => cases d <;> (dsimp only; split <;> rfl)

/-- An edge inside its window changes the environment clock only (R600). -/
theorem handleEdge_rejected {l : Line} {now : Nat} {f : Station → Station} {s : State} {st : Station} (hst : s.here = some st)
    (hd : st.phase ≠ .dead) (ht : st.InTime now) (ha : ¬ st.accepts s.cfg l now = true) :
    handleEdge l now f s = .next (s.modifyHere fun x => { x with envNow := some now }) := by
  simp only [handleEdge, hst, if_neg hd]
  rw [if_neg (by rw [tooEarly_iff]; exact fun h => h ht), if_neg]
  · refine congrArg Host.Outcome.next ?_
    simp only [State.modifyHere]
    rw [State.mk.injEq]
    refine ⟨rfl, modify_at hst ?_, rfl, rfl, rfl, rfl, rfl, rfl⟩
    simp only [if_neg ha]
  · simp [Station.holdsEdge, ha]

/-- A transition code is handled at the decoder. -/
theorem handleSum_of {sum : BitVec 4} {i : Instr} (h : encode i = .qsum sum) (s : State) : exec i s = handleSum sum s := by
  cases i <;> first | (cases h; rfl) | (exact absurd h (by simp [encode, wholeFrame]))

/-- A transition emits at most one event. -/
theorem after_events (cfg : Config) (p : Nat) (sum : BitVec 4) (st : Station) :
    (afterTransition cfg p sum st).events = st.events ∨ ∃ e, (afterTransition cfg p sum st).events = st.events ++ [e] := by
  simp only [afterTransition]
  cases transitionClass sum with
  | none => exact .inl rfl
  | some d =>
    cases d <;> dsimp only <;> split
    · exact .inr ⟨_, rfl⟩
    · exact .inl rfl
    · exact .inr ⟨_, rfl⟩
    · exact .inl rfl

/-- A change of the moving station by its result. -/
theorem modifyHere_const {f : Station → Station} {s : State} {st : Station} (hst : s.here = some st) :
    s.modifyHere f = s.modifyHere fun _ => f st := by
  simp only [State.modifyHere]
  rw [State.mk.injEq]
  exact ⟨rfl, modify_at hst rfl, rfl, rfl, rfl, rfl, rfl, rfl⟩

/-- Writing back the moving station changes nothing. -/
theorem self_modify {s : State} {st : Station} (hst : s.here = some st) : s = s.modifyHere fun _ => st := by
  have h : s.stations = s.stations.modify s.sel fun _ => st := by
    apply List.ext_getElem?
    intro j
    rw [List.getElem?_modify]
    by_cases hj : s.sel = j
    · subst hj
      have : s.stations[s.sel]? = some st := hst
      simp [this]
    · simp [hj]
  simp only [State.modifyHere]
  rw [← h]

/-- An edge before the previous one is refused, at a DEAD station too (R600, R716). -/
theorem handleEdge_early {l : Line} {now : Nat} {f : Station → Station} {s : State} {st : Station}
    (hst : s.here = some st) (ht : ¬ st.InTime now) : handleEdge l now f s = .refused .nowDecreased := by
  simp only [handleEdge, hst]
  exact if_pos (by rw [tooEarly_iff]; exact ht)

/-- A DEAD station ignores an edge: the environment's clock alone moves on (R602). -/
theorem handleEdge_dead {l : Line} {now : Nat} {f : Station → Station} {s : State} {st : Station}
    (hst : s.here = some st) (hd : st.phase = .dead) (ht : st.InTime now) :
    handleEdge l now f s = .next (s.modifyHere fun st => { st with envNow := some now }) := by
  simp only [handleEdge, hst, if_pos hd]
  exact if_neg (by rw [tooEarly_iff]; exact fun h => h ht)

/-- Everything an edge can do. -/
theorem handleEdge_cases {l : Line} {now : Nat} {f : Station → Station} {s t : State} {st : Station} (hst : s.here = some st)
    (h : handleEdge l now f s = .next t) :
    t = s.modifyHere (fun _ => st) ∨ t = s.modifyHere (fun _ => { st with envNow := some now }) ∨
      t = s.modifyHere (fun _ => { st.acceptEdge l now f with envNow := some now }) := by
  simp only [handleEdge, hst] at h
  split at h
  · cases h
  · split at h
    · obtain rfl := Host.Outcome.next.inj h
      rw [modifyHere_const hst]
      exact .inr (.inl rfl)
    · split at h
      · obtain rfl := Host.Outcome.next.inj h
        exact .inl (self_modify hst)
      · obtain rfl := Host.Outcome.next.inj h
        rw [modifyHere_const hst]
        by_cases ha : st.accepts s.cfg l now = true
        · simp only [ha, if_true]
          exact .inr (.inr trivial)
        · simp only [if_neg ha]
          exact .inr (.inl trivial)

/-- What a transition code leaves alone. -/
theorem transition_shape (cfg : Config) (p : Nat) (sum : BitVec 4) (st : Station) :
    st.transition cfg p sum = { st with
        lastEnc := (st.transition cfg p sum).lastEnc, cwCnt := (st.transition cfg p sum).cwCnt, ccwCnt := (st.transition cfg p sum).ccwCnt, turnCounter := (st.transition cfg p sum).turnCounter
        events := (st.transition cfg p sum).events } := by
  rw [transition_eq]
  simp only [afterTransition]
  cases transitionClass sum with
  | none => rfl
  | some d => cases d <;> (dsimp only; split <;> rfl)

/-- A CW step (R604, R605). -/
theorem after_cw (cfg : Config) (p : Nat) (sum : BitVec 4) (st : Station) (h : transitionClass sum = some .cw) :
    (afterTransition cfg p sum st).cwCnt = st.cwCnt + 1 ∧
    (afterTransition cfg p sum st).events = if st.cwCnt = 3 then st.events ++ [.turn p .cw] else st.events := by
  simp only [afterTransition, h]
  split
  · rename_i h3; rw [h3]; exact ⟨rfl, rfl⟩
  · exact ⟨rfl, rfl⟩

/-- A CCW step (R604, R605). -/
theorem after_ccw (cfg : Config) (p : Nat) (sum : BitVec 4) (st : Station) (h : transitionClass sum = some .ccw) :
    (afterTransition cfg p sum st).ccwCnt = st.ccwCnt + 1 ∧
    (afterTransition cfg p sum st).events = if st.ccwCnt = 3 then st.events ++ [.turn p .ccw] else st.events := by
  simp only [afterTransition, h]
  split
  · rename_i h3; rw [h3]; exact ⟨rfl, rfl⟩
  · exact ⟨rfl, rfl⟩

end Sys2Proof.Machine
end

