-- ==== Sys2Proof/Laws/Turned.lean ====
section
/-! SUPPORT. What exec and a turn leave alone, and that they see one station only (R100). -/

namespace Sys2Proof.Machine

open Sys2Proof

/-- What exec does with an instruction, by its format. -/
inductive ExecShape (i : Instr) (s : State) : Prop where
  | command (g : Gate) (prog : Prog CmdEnd) (hp : programOf s.cfg i = some prog)
      (hg : hostGate s.cfg i = some g ∨ (hostGate s.cfg i = none ∧ g = frameGate)) (h : exec i s = runCommand i g prog s)
  | read (a : RegAddr) (hi : i = .txaddrRead a) (h : exec i s = busRead a s)
  | write (a : RegAddr) (v : Byte) (hi : i = .txaddrWrite a v) (h : exec i s = busWrite a v s)
  | encoder (l : Line) (now : Nat) (clk dt : Bool) (hl : l = .clk ∨ l = .dt) (h : exec i s = handleEdge l now (Station.onEncoderEdge s.cfg s.sel clk dt) s)
  | button (now : Nat) (btn : Bool)  (h : exec i s = handleEdge .btn now (Station.onButtonEdge s.sel btn) s)
  | sum (sum : BitVec 4) (hi : encode i = .qsum sum) (h : exec i s = handleSum sum s)

/-- Every instruction has one of the shapes. -/
theorem exec_shape (i : Instr) (s : State) : ExecShape i s := by
  cases i with
  | txaddrRead a => exact .read a rfl rfl
  | txaddrWrite a v => exact .write a v rfl rfl
  | encoderEdgeClk now clk dt btn => exact .encoder .clk now clk dt (.inl rfl) rfl
  | encoderEdgeDt now clk dt btn => exact .encoder .dt now clk dt (.inr rfl) rfl
  | buttonEdge now clk dt btn => exact .button now btn rfl
  | qsumNop0000 => exact .sum _ rfl rfl
  | qsumCcw0001 => exact .sum _ rfl rfl
  | qsumCw0010 => exact .sum _ rfl rfl
  | qsumNop0011 => exact .sum _ rfl rfl
  | qsumCw0100 => exact .sum _ rfl rfl
  | qsumNop0101 => exact .sum _ rfl rfl
  | qsumNop0110 => exact .sum _ rfl rfl
  | qsumCcw0111 => exact .sum _ rfl rfl
  | qsumCcw1000 => exact .sum _ rfl rfl
  | qsumNop1001 => exact .sum _ rfl rfl
  | qsumNop1010 => exact .sum _ rfl rfl
  | qsumCw1011 => exact .sum _ rfl rfl
  | qsumNop1100 => exact .sum _ rfl rfl
  | qsumCw1101 => exact .sum _ rfl rfl
  | qsumCcw1110 => exact .sum _ rfl rfl
  | qsumNop1111 => exact .sum _ rfl rfl
  | frameRequest m => exact .command frameGate _ rfl (.inr ⟨rfl, rfl⟩) rfl
  | frameAnticoll => exact .command frameGate _ rfl (.inr ⟨rfl, rfl⟩) rfl
  | frameSelect u lo hi => exact .command frameGate _ rfl (.inr ⟨rfl, rfl⟩) rfl
  | frameAuth m b k u => exact .command frameGate _ rfl (.inr ⟨rfl, rfl⟩) rfl
  | frameRead b lo hi => exact .command frameGate _ rfl (.inr ⟨rfl, rfl⟩) rfl
  | frameWritePhase1 b lo hi => exact .command frameGate _ rfl (.inr ⟨rfl, rfl⟩) rfl
  | frameWritePhase2 d lo hi => exact .command frameGate _ rfl (.inr ⟨rfl, rfl⟩) rfl
  | _ => exact .command _ _ rfl (.inl rfl) (exec_command rfl rfl)

/-- What the moving station's turn can change of the machine outside its own record. -/
structure Turned (s t : State) : Prop where
  cfg : t.cfg = s.cfg
  turns : t.turns = s.turns
  sel : t.sel = s.sel
  quantum : t.quantum = s.quantum
  length : t.stations.length = s.stations.length
  others : ∀ p, p ≠ s.sel → t.stations[p]? = s.stations[p]?
  trace : ∃ new, t.trace = s.trace ++ new ∧ ∀ x ∈ new, x.station = s.sel
  foreign : ∀ o, s.lockOwner = some o → o ≠ s.sel → t.trace = s.trace ∧ t.lockOwner = some o
  lock : t.lockOwner = s.lockOwner ∨ (t.lockOwner = some s.sel ∧ s.lockOwner = none) ∨ (t.lockOwner = none ∧ s.lockOwner = some s.sel)

/-- No move. -/
theorem Turned.refl (s : State) : Turned s s := ⟨rfl, rfl, rfl, rfl, rfl, fun _ _ => rfl, ⟨[], by simp, by simp⟩, fun o h _ => ⟨rfl, h⟩, .inl rfl⟩

/-- One move after another. -/
theorem Turned.trans {s t u : State} (h : Turned s t) (h' : Turned t u) : Turned s u := by
  obtain ⟨n1, e1, m1⟩ := h.trace
  obtain ⟨n2, e2, m2⟩ := h'.trace
  refine ⟨h'.cfg.trans h.cfg, h'.turns.trans h.turns, h'.sel.trans h.sel, h'.quantum.trans h.quantum, h'.length.trans h.length,
    fun p hp => (h'.others p (by rw [h.sel]; exact hp)).trans (h.others p hp), ⟨n1 ++ n2, by rw [e2, e1, List.append_assoc], ?_⟩, fun o ho hne => ?_, ?_⟩
  · intro x hx
    rcases List.mem_append.1 hx with hx | hx
    · exact m1 x hx
    · rw [m2 x hx, h.sel]
  · obtain ⟨a, b⟩ := h.foreign o ho hne
    obtain ⟨c, d⟩ := h'.foreign o b (by rw [h.sel]; exact hne)
    exact ⟨c.trans a, d⟩
  · have h1 := h.lock
    have h2 := h'.lock
    rw [h.sel] at h2
    rcases h1 with h1 | ⟨h1, h1'⟩ | ⟨h1, h1'⟩ <;> rcases h2 with h2 | ⟨h2, h2'⟩ | ⟨h2, h2'⟩ <;> simp_all

/-- A change of the moving station. -/
theorem Turned.modifyHere (f : Station → Station) (s : State) : Turned s (s.modifyHere f) :=
  ⟨rfl, rfl, rfl, rfl, State.length_modifyHere f s, fun p hp => State.modifyHere_other f s p hp, ⟨[], (List.append_nil _).symm, by simp⟩, fun o h _ => ⟨rfl, h⟩, .inl rfl⟩

/-- A release. -/
theorem Turned.releaseLock (s : State) : Turned s s.releaseLock := by
  unfold State.releaseLock
  split
  · rename_i h
    exact ⟨rfl, rfl, rfl, rfl, rfl, fun _ _ => rfl, ⟨[], (List.append_nil _).symm, by simp⟩, fun o ho hne => absurd (Option.some.inj (ho.symm.trans h)) hne, .inr (.inr ⟨rfl, h⟩)⟩
  · exact .refl s

/-- An acquire. -/
theorem Turned.takeLock {s : State} (h : s.lockOwner = none) : Turned s s.takeLock :=
  ⟨rfl, rfl, rfl, rfl, rfl, fun _ _ => rfl, ⟨[], (List.append_nil _).symm, by simp⟩, fun o ho _ => absurd (h.symm.trans ho) (by simp), .inr (.inl ⟨rfl, h⟩)⟩

/-- A bus record. -/
theorem Turned.record {s : State} (k : TxnKind) (a : RegAddr) (v : Byte) (h : s.lockOwner = some s.sel) : Turned s (s.record k a v) :=
  ⟨rfl, rfl, rfl, rfl, rfl, fun _ _ => rfl, ⟨_, rfl, by simp⟩, fun o ho hne => absurd (Option.some.inj (ho.symm.trans h)) hne, .inl rfl⟩

/-- A used-up answer. -/
theorem Turned.takeAnswer (s : State) : Turned s s.takeAnswer := by
  rcases s.takeAnswer_cases with h | h
  · rw [h]
    exact ⟨rfl, rfl, rfl, rfl, rfl, fun _ _ => rfl, ⟨[], (List.append_nil _).symm, by simp⟩, fun o h _ => ⟨rfl, h⟩, .inl rfl⟩
  · rw [h]; exact .modifyHere _ _

/-- busRead keeps to the moving station. -/
theorem busRead_turned {a : RegAddr} {s t : State} (h : busRead a s = .next t) : Turned s t := by
  unfold busRead at h
  split at h
  · rename_i ho
    obtain rfl := Host.Outcome.next.inj h
    exact (Turned.record _ _ _ ho).trans (.takeAnswer _)
  · cases h

/-- busWrite keeps to the moving station. -/
theorem busWrite_turned {a : RegAddr} {v : Byte} {s t : State} (h : busWrite a v s = .next t) : Turned s t := by
  unfold busWrite at h
  split at h
  · rename_i ho
    obtain rfl := Host.Outcome.next.inj h
    exact Turned.record _ _ _ ho
  · cases h

/-- cpeNode keeps to the moving station. -/
theorem cpeNode_turned {node : Prog CmdEnd} {st : Station} {s t : State} (h : cpeNode node st s = .next t) : Turned s t := by
  cases node with
  | ret a =>
    cases a with
    | done r => obtain rfl := Host.Outcome.next.inj h; exact .modifyHere _ _
    | again => obtain rfl := Host.Outcome.next.inj h; exact .modifyHere _ _
  | abort => obtain rfl := Host.Outcome.next.inj h; exact (Turned.releaseLock s).trans (.modifyHere _ _)
  | rd a k =>
    obtain ⟨s', h1, h2⟩ := onNext_eq_next h
    obtain rfl := Host.Outcome.next.inj h2
    exact (busRead_turned h1).trans (.modifyHere _ _)
  | wr a v k =>
    obtain ⟨s', h1, h2⟩ := onNext_eq_next h
    obtain rfl := Host.Outcome.next.inj h2
    exact (busWrite_turned h1).trans (.modifyHere _ _)
  | suspend k => obtain rfl := Host.Outcome.next.inj h; exact .modifyHere _ _
  | acquire k =>
    simp only [cpeNode] at h
    split at h
    · obtain rfl := Host.Outcome.next.inj h; exact (Turned.releaseLock s).trans (.modifyHere _ _)
    · split at h
      · rename_i ho
        obtain rfl := Host.Outcome.next.inj h; exact (Turned.takeLock ho).trans (.modifyHere _ _)
      · obtain rfl := Host.Outcome.next.inj h; exact .refl _
  | release k => obtain rfl := Host.Outcome.next.inj h; exact (Turned.releaseLock s).trans (.modifyHere _ _)
  | sampleHw k => obtain rfl := Host.Outcome.next.inj h; exact .modifyHere _ _
  | put w k => obtain rfl := Host.Outcome.next.inj h; exact (Turned.modifyHere _ _).trans (.modifyHere _ _)

/-- cpeStep keeps to the moving station. -/
theorem cpeStep_turned {prog : Prog CmdEnd} {s t : State} (h : cpeStep prog s = .next t) : Turned s t := by
  unfold cpeStep at h
  split at h
  · cases h
  · split at h
    · exact cpeNode_turned h
    · obtain rfl := Host.Outcome.next.inj h; exact .refl _
    · obtain rfl := Host.Outcome.next.inj h; exact .refl _

/-- cpeRun keeps to the moving station. -/
theorem cpeRun_turned {q : Nat} {prog : Prog CmdEnd} {s t : State} (h : cpeRun q prog s = .next t) : Turned s t := by
  induction q generalizing s with
  | zero => obtain rfl := Host.Outcome.next.inj h; exact .refl _
  | succ n ih =>
    obtain ⟨s', h1, h2⟩ := onNext_eq_next h
    exact (cpeStep_turned h1).trans (ih h2)

/-- runCommand keeps to the moving station. -/
theorem runCommand_turned {i : Instr} {g : Gate} {prog : Prog CmdEnd} {s t : State} (h : runCommand i g prog s = .next t) : Turned s t := by
  unfold runCommand at h
  split at h
  · cases h
  · split at h
    · obtain rfl := Host.Outcome.next.inj h; exact .refl _
    · split at h
      · exact cpeRun_turned h
      · obtain rfl := Host.Outcome.next.inj h; exact .refl _
    · split at h
      · split at h
        · obtain rfl := Host.Outcome.next.inj h; exact .modifyHere _ _
        · exact (Turned.modifyHere _ _).trans (cpeRun_turned h)
      · cases h

/-- handleEdge keeps to the moving station. -/
theorem handleEdge_turned {l : Line} {now : Nat} {f : Station → Station} {s t : State} (h : handleEdge l now f s = .next t) : Turned s t := by
  cases hst : s.here with
  | none => simp [handleEdge, hst] at h
  | some st => rcases handleEdge_cases hst h with rfl | rfl | rfl <;> exact .modifyHere _ _

/-- handleSum keeps to the moving station. -/
theorem handleSum_turned {sum : BitVec 4} {s t : State} (h : handleSum sum s = .next t) : Turned s t := by
  unfold handleSum at h
  split at h
  · cases h
  · split at h
    · obtain rfl := Host.Outcome.next.inj h; exact .refl _
    · split at h
      · obtain rfl := Host.Outcome.next.inj h; exact .refl _
      · obtain rfl := Host.Outcome.next.inj h; exact .modifyHere _ _

/-- exec keeps to the moving station. -/
theorem exec_turned {i : Instr} {s t : State} (h : exec i s = .next t) : Turned s t := by
  rcases exec_shape i s with ⟨_, _, _, _, e⟩ | ⟨_, _, e⟩ | ⟨_, _, _, e⟩ | ⟨_, _, _, _, _, e⟩ | ⟨_, _, e⟩ | ⟨_, _, e⟩ <;> rw [e] at h
  · exact runCommand_turned h
  · exact busRead_turned h
  · exact busWrite_turned h
  · exact handleEdge_turned h
  · exact handleEdge_turned h
  · exact handleSum_turned h

/-- A turn keeps to its station. -/
theorem takeTurn_turned {tn : Turn} {s t : State} {st : Station} (hst : s.stations[tn.station]? = some st) (h : takeTurn tn s = .next t) :
    Turned (s.select tn) t := by
  simp only [takeTurn, hst] at h
  cases tn with
  | host p q =>
    simp only [hostTurn] at h
    split at h
    · split at h
      · exact (Turned.modifyHere _ _).trans (exec_turned h)
      · obtain rfl := Host.Outcome.next.inj h; exact (Turned.modifyHere _ _).trans (.modifyHere _ _)
      · cases h
    · obtain rfl := Host.Outcome.next.inj h; exact .refl _
  | cpe p q =>
    simp only [cpeTurn] at h
    split at h
    · split at h
      · exact exec_turned h
      · obtain rfl := Host.Outcome.next.inj h; exact .modifyHere _ _
      · cases h
    all_goals obtain rfl := Host.Outcome.next.inj h; exact .refl _
  | edge p =>
    simp only [edgeTurn] at h
    split at h
    · obtain rfl := Host.Outcome.next.inj h; exact .refl _
    · split at h
      · split at h
        · obtain rfl := Host.Outcome.next.inj h; exact .refl _
        · exact (Turned.modifyHere _ _).trans (exec_turned h)
      · cases h
  | probe p q =>
    simp only [probeTurn] at h
    split at h
    · obtain rfl := Host.Outcome.next.inj h; exact .refl _
    · split at h
      · split at h
        · exact (Turned.modifyHere _ _).trans (exec_turned h)
        · obtain rfl := Host.Outcome.next.inj h; exact .refl _
      · cases h
  | cancel p =>
    simp only [cancelTurn] at h
    split at h
    · obtain rfl := Host.Outcome.next.inj h; exact .modifyHere _ _
    · obtain rfl := Host.Outcome.next.inj h; exact .refl _
  | consume p => obtain rfl := Host.Outcome.next.inj h; exact .modifyHere _ _
  | readResult p f =>
    simp only [readResultTurn] at h
    split at h
    · obtain rfl := Host.Outcome.next.inj h; exact .refl _
    · split at h
      · obtain rfl := Host.Outcome.next.inj h; exact .refl _
      · cases h
  | supplyHwOk p b =>
    simp only [hwOkTurn] at h
    split at h
    · cases h
    · obtain rfl := Host.Outcome.next.inj h; exact .modifyHere _ _

/-- The choice of who moves changes no state of the block. -/
theorem nextTurn_state (s : State) : (nextTurn s).2.cfg = s.cfg ∧ (nextTurn s).2.stations = s.stations ∧ (nextTurn s).2.lockOwner = s.lockOwner ∧ (nextTurn s).2.trace = s.trace := by
  unfold nextTurn
  split <;> exact ⟨rfl, rfl, rfl, rfl⟩

/-- A step keeps to the moving station. -/
theorem step_turned {s t : State} (h : step s = .next t) :
    t = (nextTurn s).2 ∧ s.stations[(nextTurn s).1.station]? = none ∨ Turned ((nextTurn s).2.select (nextTurn s).1) t := by
  unfold step at h
  obtain ⟨h1, h2, h3, h4⟩ := nextTurn_state s
  cases hst : (nextTurn s).2.stations[(nextTurn s).1.station]? with
  | none =>
    simp only [takeTurn, hst] at h
    exact .inl ⟨(Host.Outcome.next.inj h).symm, by rw [← h2]; exact hst⟩
  | some st => exact .inr (takeTurn_turned hst h)

/-- Another record at station p. -/
def State.other (p : Nat) (x : Station) (s : State) : State := { s with stations := s.stations.set p x }

/-- A change of the next state. -/
def mapNext (f : State → State) (r : Result) : Result := onNext r fun s => .next (f s)

@[simp] theorem mapNext_next (f : State → State) (s : State) : mapNext f (.next s) = .next (f s) := rfl

@[simp] theorem mapNext_fault (f : State → State) (e : Fault) : mapNext f (.fault e) = .fault e := rfl

@[simp] theorem mapNext_refused (f : State → State) (e : Refusal) : mapNext f (.refused e) = .refused e := rfl

/-- The moving station is not the other one. -/
theorem other_here {p : Nat} {x : Station} {s : State} (h : p ≠ s.sel) : (s.other p x).here = s.here := by
  simp [State.other, State.here, h]

/-- A change of the moving station and one of another commute. -/
theorem other_modify {p : Nat} {x : Station} {s : State} (f : Station → Station) (h : p ≠ s.sel) :
    (s.other p x).modifyHere f = (s.modifyHere f).other p x := by
  simp only [State.other, State.modifyHere]
  rw [State.mk.injEq]
  refine ⟨rfl, ?_, rfl, rfl, rfl, rfl, rfl, rfl⟩
  apply List.ext_getElem?
  intro j
  simp only [List.getElem?_modify, List.getElem?_set, List.length_modify]
  by_cases hj : p = j
  · subst hj
    have : ¬ s.sel = p := fun e => h e.symm
    simp [this]
  · simp [hj]

/-- An operation of the moving station that neither sees nor changes another station. -/
def Local (f : State → Result) : Prop := ∀ (p : Nat) (x : Station) (s : State), p ≠ s.sel → f (s.other p x) = mapNext (State.other p x) (f s)

/-- busRead neither sees nor changes another station (R100). -/
theorem busRead_local (a : RegAddr) : Local (busRead a) := by
  intro p x s h
  have h1 : (s.other p x).lockOwner = s.lockOwner := rfl
  have h2 : (s.other p x).sel = s.sel := rfl
  have ha : (s.other p x).answer = s.answer := by simp only [State.answer, other_here h]; rfl
  unfold busRead
  rw [h1, h2]
  split
  · simp only [mapNext_next, ha]
    refine congrArg _ ?_
    have h3 : (s.other p x).record .rd a s.answer = (s.record .rd a s.answer).other p x := rfl
    rw [h3]
    generalize hs : s.record .rd a s.answer = s' at *
    have h' : p ≠ s'.sel := by rw [← hs]; exact h
    simp only [State.takeAnswer, other_here h']
    cases s'.here with
    | none => rfl
    | some st =>
      dsimp only
      split
      · rfl
      · exact other_modify _ h'
  · rfl

/-- busWrite neither sees nor changes another station (R100). -/
theorem busWrite_local (a : RegAddr) (v : Byte) : Local (busWrite a v) := by
  intro p x s h
  unfold busWrite
  have h1 : (s.other p x).lockOwner = s.lockOwner := rfl
  have h2 : (s.other p x).sel = s.sel := rfl
  rw [h1, h2]
  split <;> rfl

/-- A release does not see another station. -/
theorem release_other {p : Nat} {x : Station} {s : State} : (s.other p x).releaseLock = s.releaseLock.other p x := by
  unfold State.releaseLock
  have h1 : (s.other p x).lockOwner = s.lockOwner := rfl
  have h2 : (s.other p x).sel = s.sel := rfl
  rw [h1, h2]
  split <;> rfl

/-- cpeNode neither sees nor changes another station (R100). -/
theorem cpeNode_local (node : Prog CmdEnd) (st : Station) : Local (cpeNode node st) := by
  intro p x s h
  have hrel : p ≠ s.releaseLock.sel := by rw [(Turned.releaseLock s).sel]; exact h
  have habort : (s.other p x).abort = s.abort.other p x := by
    unfold State.abort
    rw [release_other, other_modify _ hrel]
  cases node with
  | ret a => cases a <;> exact congrArg _ (other_modify _ h)
  | abort => exact congrArg _ habort
  | rd a k =>
    simp only [cpeNode]
    rw [busRead_local a p x s h]
    cases hr : busRead a s with
    | next t =>
      have hs : p ≠ t.sel := by rw [(busRead_turned hr).sel]; exact h
      have ha : (s.other p x).answer = s.answer := by simp only [State.answer, other_here h]; rfl
      simp only [mapNext_next, onNext_next, ha]
      exact congrArg _ (other_modify _ hs)
    | fault e => rfl
    | refused e => rfl
  | wr a v k =>
    simp only [cpeNode]
    rw [busWrite_local a v p x s h]
    cases hr : busWrite a v s with
    | next t =>
      have hs : p ≠ t.sel := by rw [(busWrite_turned hr).sel]; exact h
      simp only [mapNext_next, onNext_next]
      exact congrArg _ (other_modify _ hs)
    | fault e => rfl
    | refused e => rfl
  | suspend k => exact congrArg _ (other_modify _ h)
  | acquire k =>
    simp only [cpeNode]
    have h1 : (s.other p x).lockOwner = s.lockOwner := rfl
    rw [h1, habort]
    split
    · rfl
    · split
      · exact congrArg _ (other_modify (s := s.takeLock) _ h)
      · rfl
  | release k => 
    simp only [cpeNode, release_other]
    exact congrArg _ (other_modify _ hrel)
  | sampleHw k => exact congrArg _ (other_modify _ h)
  | put w k =>
    simp only [cpeNode]
    rw [other_modify _ h]
    exact congrArg _ (other_modify (s := s.modifyHere w.apply) _ h)

/-- cpeStep neither sees nor changes another station (R100). -/
theorem cpeStep_local (prog : Prog CmdEnd) : Local (cpeStep prog) := by
  intro p x s h
  unfold cpeStep
  rw [other_here h]
  cases s.here with
  | none => rfl
  | some st =>
    dsimp only
    cases st.phase with
    | busy => exact cpeNode_local _ _ p x s h
    | idle => rfl
    | dead => rfl

/-- cpeRun neither sees nor changes another station (R100). -/
theorem cpeRun_local (q : Nat) (prog : Prog CmdEnd) : Local (cpeRun q prog) := by
  induction q with
  | zero => intro p x s h; rfl
  | succ n ih =>
    intro p x s h
    simp only [cpeRun]
    rw [cpeStep_local prog p x s h]
    cases hr : cpeStep prog s with
    | next t => exact ih p x t (by rw [(cpeStep_turned hr).sel]; exact h)
    | fault e => rfl
    | refused e => rfl

/-- runCommand neither sees nor changes another station (R100). -/
theorem runCommand_local (i : Instr) (g : Gate) (prog : Prog CmdEnd) : Local (runCommand i g prog) := by
  intro p x s h
  unfold runCommand
  rw [other_here h]
  cases s.here with
  | none => rfl
  | some st =>
    dsimp only
    cases st.phase with
    | dead => rfl
    | busy =>
      dsimp only
      split
      · exact cpeRun_local _ _ p x s h
      · rfl
    | idle =>
      have h1 : (s.other p x).lockOwner = s.lockOwner := rfl
      have h2 : (s.other p x).sel = s.sel := rfl
      have h3 : (s.other p x).quantum = s.quantum := rfl
      dsimp only
      rw [h1, h2, h3]
      split
      · split
        · exact congrArg _ (other_modify _ h)
        · rw [other_modify _ h]
          exact cpeRun_local _ _ p x _ h
      · rfl

/-- handleEdge neither sees nor changes another station (R100). -/
theorem handleEdge_local (l : Line) (now : Nat) (f : Station → Station) : Local (handleEdge l now f) := by
  intro p x s h
  unfold handleEdge
  rw [other_here h]
  cases s.here with
  | none => rfl
  | some st =>
    have h1 : (s.other p x).cfg = s.cfg := rfl
    dsimp only
    rw [h1]
    split
    · rfl
    · split
      · exact congrArg _ (other_modify _ h)
      · split
        · rfl
        · exact congrArg _ (other_modify _ h)

/-- handleSum neither sees nor changes another station (R100). -/
theorem handleSum_local (sum : BitVec 4) : Local (handleSum sum) := by
  intro p x s h
  unfold handleSum
  rw [other_here h]
  cases s.here with
  | none => rfl
  | some st =>
    have h1 : (s.other p x).cfg = s.cfg := rfl
    have h2 : (s.other p x).sel = s.sel := rfl
    dsimp only
    rw [h1, h2]
    split
    · rfl
    · split
      · rfl
      · exact congrArg _ (other_modify _ h)

/-- exec neither sees nor changes another station (R100). -/
theorem exec_local (i : Instr) : Local (exec i) := by
  intro p x s h
  cases i <;> first
    | exact runCommand_local _ _ _ p x s h
    | (refine Eq.trans (b := runCommand _ frameGate _ (s.other p x)) rfl (Eq.trans (runCommand_local _ frameGate _ p x s h) rfl))
    | exact busRead_local _ p x s h
    | exact busWrite_local _ _ p x s h
    | exact handleEdge_local _ _ _ p x s h
    | exact handleSum_local _ p x s h

/-- A turn neither sees nor changes another station (R100). -/
theorem takeTurn_local (tn : Turn) {p : Nat} {x : Station} {s : State} (h : p ≠ tn.station) :
    takeTurn tn (s.other p x) = mapNext (State.other p x) (takeTurn tn s) := by
  have hg : (s.other p x).stations[tn.station]? = s.stations[tn.station]? := by
    simp [State.other, h]
  unfold takeTurn
  rw [hg]
  cases s.stations[tn.station]? with
  | none => rfl
  | some st =>
    have hsel : (s.other p x).select tn = (s.select tn).other p x := rfl
    have hs : p ≠ (s.select tn).sel := h
    generalize s.select tn = s' at *
    dsimp only
    rw [hsel]
    have hcfg : (s'.other p x).cfg = s'.cfg := rfl
    have hse : (s'.other p x).sel = s'.sel := rfl
    cases tn with
    | host q r =>
      simp only [hostTurn, other_modify _ hs]
      split
      · split
        · exact exec_local _ p x _ hs
        · exact congrArg _ (other_modify (s := s'.modifyHere _) _ hs)
        · rfl
      · rfl
    | cpe q r =>
      simp only [cpeTurn]
      split
      · split
        · exact exec_local _ p x _ hs
        · exact congrArg _ (other_modify _ hs)
        · rfl
      all_goals rfl
    | edge q =>
      simp only [edgeTurn, other_modify _ hs, hcfg, hse]
      split
      · rfl
      · split
        · split
          · rfl
          · exact exec_local _ p x _ hs
        · rfl
    | probe q r =>
      simp only [probeTurn, other_modify _ hs, hcfg, hse]
      split
      · rfl
      · split
        · split
          · exact exec_local _ p x _ hs
          · rfl
        · rfl
    | cancel q =>
      simp only [cancelTurn]
      split
      · exact congrArg _ (other_modify _ hs)
      · rfl
    | consume q => exact congrArg _ (other_modify _ hs)
    | readResult q f =>
      simp only [readResultTurn]
      split
      · rfl
      · split <;> rfl
    | supplyHwOk q b =>
      simp only [hwOkTurn]
      split
      · rfl
      · exact congrArg _ (other_modify _ hs)

/-- Who moves next does not depend on another station. -/
theorem nextTurn_other (s : State) (p : Nat) (x : Station) : nextTurn (s.other p x) = ((nextTurn s).1, (nextTurn s).2.other p x) := by
  simp only [nextTurn, State.other, List.length_set]
  split <;> rfl

end Sys2Proof.Machine
end

