-- ==== Sys2Proof/Laws/Inv.lean ====
section
/-! SUPPORT. The parts of the machine keep its invariant. -/

namespace Sys2Proof.Machine

open Sys2Proof

/-- The discipline at a place of a program holds at the place after one more answer. -/
theorem Prog.Keeps_resume_rd {α : Type} {k : Byte → Prog α} {Q : α → Bool → Bool → Prop} {a : RegAddr} {owns rst : Bool} (b : Byte)
    (h : (Prog.rd a k).Keeps Q owns rst) : ((Prog.rd a k).resume [b]).Keeps Q owns rst := by
  rw [Prog.resume, Prog.resume_nil]; exact h.2 b

/-- The station invariant says nothing of inputs and of what no rule bounds. -/
theorem Station.Inv.congr {cfg : Config} {o : Option Nat} {p : Nat} {st st' : Station} (h : Station.Inv cfg o p st)
    (h1 : st'.cancelReq = st.cancelReq) (h2 : st'.phase = st.phase) (h3 : st'.pos = st.pos) (h4 : st'.attempts = st.attempts)
    (h5 : st'.cur = st.cur) (h6 : st'.rstOut = st.rstOut) (h7 : st'.inited = st.inited) (h8 : st'.events = st.events) (h9 : st'.res = st.res)
    (h10 : st'.probeQ = st.probeQ) (h11 : st'.results = st.results := by rfl) : Station.Inv cfg o p st' := by
  refine ⟨by rw [h1, h2]; exact h.cancel_busy, by rw [h2, h3, h4]; exact h.at_rest, ?_, by rw [h2]; exact h.dead_free, by rw [h7, h6]; exact h.inited_rst, by rw [h8]; exact h.tagged, by rw [h8]; exact h.bounded, by rw [h9]; exact h.res_fine, by rw [h10]; exact h.no_probe, by rw [h9, h11]; exact h.last_result⟩
  rw [h2, h3, h5, h6]; exact h.running

/-- The invariant after the lock changed hands among others. -/
theorem Station.Inv.lock {cfg : Config} {o o' : Option Nat} {p : Nat} {st : Station} (h : Station.Inv cfg o p st)
    (ho : o = some p ↔ o' = some p) : Station.Inv cfg o' p st := by
  have hb : (o == some p) = (o' == some p) := by
    rw [Bool.eq_iff_iff, beq_iff_eq, beq_iff_eq]; exact ho
  refine ⟨h.cancel_busy, h.at_rest, ?_, fun hd hl => h.dead_free hd (ho.2 hl), h.inited_rst, h.tagged, h.bounded, h.res_fine, h.no_probe, h.last_result⟩
  rw [← hb]; exact h.running

/-- A station whose command ends with a fine result keeps the invariant. -/
theorem Station.Inv.finish {cfg : Config} {o : Option Nat} {p : Nat} {st : Station} {r : Res} (h : Station.Inv cfg o p st)
    (hr : r.Fine) (hd : r.status = some .hwFail → o ≠ some p) : Station.Inv cfg o p (st.finish r) := by
  refine ⟨by simp [Station.finish], fun _ => ⟨rfl, rfl⟩, fun hb => ?_, fun hdead => ?_, h.inited_rst, h.tagged, h.bounded, hr, h.no_probe, by simp⟩
  · simp only [Station.finish] at hb; split at hb <;> cases hb
  · simp only [Station.finish] at hdead
    split at hdead
    · rename_i h'; exact hd h'
    · cases hdead

/-- A station that accepts a command whose program keeps the discipline keeps the invariant. -/
theorem Station.Inv.accept {cfg : Config} {o : Option Nat} {p : Nat} {st : Station} {i : Instr} {prog : Prog CmdEnd} (h : Station.Inv cfg o p st)
    (hp : programOf cfg i = some prog) (ha : Accepted cfg i)
    (hk : prog.Keeps (CmdEnd.Fine (isBlocking i)) (o == some p) st.rstOut) :
    Station.Inv cfg o p (st.accept (.known i)) := by
  refine ⟨fun _ => rfl, fun hb => absurd rfl hb, fun _ => ⟨i, prog, rfl, hp, ha, ?_⟩, (fun hd => by cases hd), h.inited_rst, h.tagged, h.bounded, h.res_fine, h.no_probe, h.last_result⟩
  simpa [Station.accept] using hk

/-- A running station that gets an answer. -/
theorem Station.Inv.answered {cfg : Config} {o : Option Nat} {p : Nat} {st st' : Station} {i : Instr} {prog : Prog CmdEnd} {b : Byte} {o' : Option Nat} (h : Station.Inv cfg o p st)
    (hb : st.phase = .busy) (hc : st.cur = some (.known i)) (hp : programOf cfg i = some prog) (ha : Accepted cfg i)
    (h2 : st'.phase = st.phase) (h3 : st'.pos = st.pos ++ [b]) 
    (h5 : st'.cur = st.cur) (h7 : st'.inited = true → st'.rstOut = true) (h8 : st'.events = st.events) (h9 : st'.res = st.res)
    (h10 : st'.probeQ = st.probeQ) (h11 : st'.results = st.results)
    (hk : ((prog.resume st.pos).resume [b]).Keeps (CmdEnd.Fine (isBlocking i)) (o' == some p) st'.rstOut) :
    Station.Inv cfg o' p st' := by
  refine ⟨fun _ => h2.trans hb, fun hn => absurd (h2.trans hb) hn, fun _ => ⟨i, prog, h5.trans hc, hp, ha, ?_⟩, fun hd => ?_, h7, by rw [h8]; exact h.tagged, by rw [h8]; exact h.bounded, by rw [h9]; exact h.res_fine, by rw [h10]; exact h.no_probe, by rw [h9, h11]; exact h.last_result⟩
  · rw [h3, Prog.resume_append]; exact hk
  · rw [h2, hb] at hd; cases hd

/-- The machine keeps its invariant when the moving station keeps its own and the lock changes hands as it may. -/
theorem State.Inv.turned {s t : State} (h : s.Inv) (ht : Turned s t) {st' : Station} (hst : t.stations[s.sel]? = some st')
    (hi : Station.Inv s.cfg t.lockOwner s.sel st') : t.Inv := by
  have hlt : s.sel < t.stations.length := (List.getElem?_eq_some_iff.1 hst).1
  refine ⟨Nat.zero_lt_of_lt hlt, fun p hp => ?_, fun p st hp => ?_⟩
  · rcases ht.lock with h1 | ⟨h1, _⟩ | ⟨h1, _⟩
    · rw [ht.length]; exact h.owner p (by rw [← h1]; exact hp)
    · rw [h1] at hp; obtain rfl := Option.some.inj hp; exact hlt
    · rw [h1] at hp; cases hp
  · rw [ht.cfg]
    by_cases hps : p = s.sel
    · subst hps
      obtain rfl := Option.some.inj (hst.symm.trans hp)
      exact hi
    · rw [ht.others p hps] at hp
      refine (h.station p st hp).lock ?_
      rcases ht.lock with h1 | ⟨h1, h2⟩ | ⟨h1, h2⟩
      · rw [h1]
      · rw [h1, h2]; simp; exact fun e => hps e.symm
      · rw [h1, h2]; simp; exact fun e => hps e.symm

/-- A result that ends a command is fine at rest. -/
theorem Res.Ended.fine {r : Res} (h : r.Ended) : r.Fine := by
  obtain ⟨h1, h2, h3, h4⟩ := h
  exact ⟨by simp [h3, h2], h4⟩

/-- A blocking command starts each round without the lock (R560). -/
theorem blocking_restart {cfg : Config} {i : Instr} {prog : Prog CmdEnd} (rst : Bool) (hb : isBlocking i = true) (hp : programOf cfg i = some prog) :
    prog.Keeps (CmdEnd.Fine (isBlocking i)) false rst := by
  cases i with
  | readId => obtain rfl := Option.some.inj hp; exact blocking_keeps (fun h => tryReadIdentifier_keeps _ h) fun v w _ => idRes_ended v w
  | readSector n => obtain rfl := Option.some.inj hp; exact blocking_keeps (fun h => tryReadSector_keeps _ _ h) fun v w h => sectorRes_ended v w h
  | writeSector t n => obtain rfl := Option.some.inj hp; exact blocking_keeps (fun h => tryWriteSector_keeps _ _ _ h) fun v w h => sectorRes_ended v w h
  | _ => cases hb

/-- The record at the moving station after a change. -/
theorem modifyHere_get {f : Station → Station} {s : State} {st : Station} (h : s.here = some st) : (s.modifyHere f).stations[s.sel]? = some (f st) := by
  have : s.stations[s.sel]? = some st := h
  simp [State.modifyHere, this]

/-- The moving station after an answer is used up. -/
theorem State.here_takeAnswer {s : State} {st : Station} (h : s.here = some st) :
    s.takeAnswer.here = some { st with chipQ := st.chipQ.tail } := by
  unfold State.takeAnswer
  simp only [h]
  split
  · rename_i hc
    show s.here = _
    rw [h, hc]
    cases st; simp_all
  · rw [State.here_modifyHere, h]; rfl

/-- One atomic step of a station whose place keeps the discipline: a next state that meets the invariant. -/
theorem cpeStep_inv {prog : Prog CmdEnd} {s : State} {st : Station} {i : Instr} (h : s.Inv) (hst : s.here = some st) (hb : st.phase = .busy)
    (hc : st.cur = some (.known i)) (hp : programOf s.cfg i = some prog) : ∃ t, cpeStep prog s = .next t ∧ t.Inv := by
  have hsi := h.station s.sel st hst
  obtain ⟨i', prog', hc', hp', ha, hk⟩ := hsi.running hb
  obtain rfl := Command.known.inj (Option.some.inj (hc.symm.trans hc'))
  obtain rfl := Option.some.inj (hp.symm.trans hp')
  rw [cpeStep_busy hst hb]
  have hturn : ∀ t, cpeNode (prog.resume st.pos) st s = .next t → Turned s t := fun t ht => cpeNode_turned ht
  have hans : ∀ (s' : State) (x : Station) (b : Byte), s'.here = some x → (s'.answered b).stations[s'.sel]? = some (x.advance b) := by
    intro s' x b hx
    exact modifyHere_get hx
  have habort : s.abort.Inv := by
    refine h.turned ((Turned.releaseLock s).trans (.modifyHere _ _)) (st' := st.finish (Res.ofStatus .cancelled)) ?_ ?_
    · have : s.releaseLock.here = some st := by rw [State.here_releaseLock, hst]
      have h2 := modifyHere_get (f := Station.finish (Res.ofStatus .cancelled)) this
      rw [(Turned.releaseLock s).sel] at h2
      exact h2
    · have hne : s.abort.lockOwner ≠ some s.sel := by
        show s.releaseLock.lockOwner ≠ _
        unfold State.releaseLock
        split
        · simp
        · assumption
      have h3 : Station.Inv s.cfg s.lockOwner s.sel (st.finish (Res.ofStatus .cancelled)) :=
        hsi.finish (by simp [Res.Fine, Res.ofStatus, Res.absent]) (by simp [Res.ofStatus])
      refine ⟨h3.cancel_busy, h3.at_rest, fun hb => ?_, fun _ => hne, h3.inited_rst, h3.tagged, h3.bounded, h3.res_fine, h3.no_probe, h3.last_result⟩
      simp [Station.finish, Res.ofStatus] at hb
  cases hn : prog.resume st.pos with
  | ret a =>
    rw [hn] at hk
    cases a with
    | done r =>
      obtain ⟨hr, hw⟩ : r.Ended ∧ (r.status = some .hwFail → (s.lockOwner == some s.sel) = false) := hk
      exact ⟨_, rfl, h.turned (.modifyHere _ _) (modifyHere_get hst) (hsi.finish hr.fine fun hh => by simpa using hw hh)⟩
    | again =>
      obtain ⟨hbl, ho⟩ : isBlocking i = true ∧ (s.lockOwner == some s.sel) = false := hk
      refine ⟨_, rfl, h.turned (.modifyHere _ _) (modifyHere_get hst) ?_⟩
      unfold Station.nextAttempt
      split
      · exact hsi.finish (by simp [Res.Fine, Res.ofStatus, Res.absent]) (by simp [Res.ofStatus])
      · refine ⟨fun _ => hb, fun hn => absurd hb hn, fun _ => ⟨i, prog, hc, hp, ha, ?_⟩, hsi.dead_free, hsi.inited_rst, hsi.tagged, hsi.bounded, hsi.res_fine, hsi.no_probe, hsi.last_result⟩
        show (prog.resume []).Keeps _ (s.lockOwner == some s.sel) _
        rw [Prog.resume_nil, ho]
        exact blocking_restart _ hbl hp
  | abort => exact ⟨_, rfl, habort⟩
  | rd a k =>
    rw [hn] at hk
    have ho : s.lockOwner = some s.sel := by simpa using hk.1
    have ht := hturn
    rw [hn] at ht
    simp only [cpeNode, busRead_owned _ ho, onNext_next] at ht ⊢
    refine ⟨_, rfl, h.turned (ht _ rfl) (st' := { st with pos := st.pos ++ [s.answer], chipQ := st.chipQ.tail }) ?_ ?_⟩
    · have := hans (s.record .rd a s.answer).takeAnswer _ s.answer (State.here_takeAnswer hst)
      rw [State.takeAnswer_sel] at this
      exact this
    · exact hsi.answered hb hc hp ha rfl rfl rfl hsi.inited_rst rfl rfl rfl rfl (by
        rw [hn]
        have e : (State.answered s.answer (State.record TxnKind.rd a s.answer s).takeAnswer).lockOwner = s.lockOwner := by
          simp [State.answered, State.record, State.modifyHere]
        rw [e]
        exact Prog.Keeps_resume_rd _ hk)
  | wr a v k =>
    rw [hn] at hk
    have ho : s.lockOwner = some s.sel := by simpa using hk.1
    have ht := hturn
    rw [hn] at ht
    simp only [cpeNode, busWrite_owned _ _ ho, onNext_next] at ht ⊢
    refine ⟨_, rfl, h.turned (ht _ rfl) (st' := st.advance 0) (hans (s.record .wr a v) st 0 hst) ?_⟩
    exact hsi.answered hb hc hp ha rfl rfl rfl hsi.inited_rst rfl rfl rfl rfl (by rw [hn, Prog.resume, Prog.resume_nil]; exact hk.2)
  | suspend k =>
    rw [hn] at hk
    refine ⟨_, rfl, h.turned (.modifyHere _ _) (hans s st _ hst) ?_⟩
    exact hsi.answered hb hc hp ha rfl rfl rfl hsi.inited_rst rfl rfl rfl rfl (by rw [hn, Prog.resume, Prog.resume_nil]; exact hk _)
  | acquire k =>
    rw [hn] at hk
    simp only [cpeNode]
    split
    · exact ⟨_, rfl, habort⟩
    · split
      · rename_i ho
        refine ⟨_, rfl, h.turned ((Turned.takeLock ho).trans (.modifyHere _ _)) (hans s.takeLock st 0 hst) ?_⟩
        refine hsi.answered hb hc hp ha rfl rfl rfl hsi.inited_rst rfl rfl rfl rfl ?_
        rw [hn, Prog.resume, Prog.resume_nil]
        have : ((s.takeLock.answered 0).lockOwner == some s.sel) = true := by simp [State.answered, State.takeLock]
        rw [this]; exact hk.2
      · exact ⟨s, rfl, h⟩
  | release k =>
    rw [hn] at hk
    have ho : s.lockOwner = some s.sel := by simpa using hk.1
    have hh : s.releaseLock.here = some st := by rw [State.here_releaseLock, hst]
    refine ⟨_, rfl, h.turned ((Turned.releaseLock s).trans (.modifyHere _ _)) (st' := st.advance 0) (by have := hans s.releaseLock st 0 hh; rw [(Turned.releaseLock s).sel] at this; exact this) ?_⟩
    refine hsi.answered hb hc hp ha rfl rfl rfl hsi.inited_rst rfl rfl rfl rfl ?_
    rw [hn, Prog.resume, Prog.resume_nil]
    have : ((s.releaseLock.answered 0).lockOwner == some s.sel) = false := by simp [State.answered, State.releaseLock, ho]
    rw [this]; exact hk.2
  | sampleHw k =>
    rw [hn] at hk
    refine ⟨_, rfl, h.turned (.modifyHere _ _) (hans s st _ hst) ?_⟩
    exact hsi.answered hb hc hp ha rfl rfl rfl hsi.inited_rst rfl rfl rfl rfl (by rw [hn, Prog.resume, Prog.resume_nil]; exact hk _)
  | put w k =>
    rw [hn] at hk
    have hh : (s.modifyHere w.apply).here = some (w.apply st) := by rw [State.here_modifyHere, hst]; rfl
    refine ⟨_, rfl, h.turned ((Turned.modifyHere _ _).trans (.modifyHere _ _)) (hans (s.modifyHere w.apply) _ 0 hh) ?_⟩
    cases w with
    | rstOut => exact hsi.answered hb hc hp ha rfl rfl rfl (fun _ => rfl) rfl rfl rfl rfl (by rw [hn, Prog.resume, Prog.resume_nil]; exact hk)
    | inited => exact hsi.answered hb hc hp ha rfl rfl rfl (fun _ => hk.1) rfl rfl rfl rfl (by rw [hn, Prog.resume, Prog.resume_nil]; exact hk.2)
    | authWarn b => exact hsi.answered hb hc hp ha rfl rfl rfl hsi.inited_rst rfl rfl rfl rfl (by rw [hn, Prog.resume, Prog.resume_nil]; exact hk)

/-- An outcome the invariant allows. -/
def Good : Result → Prop
  | .next t => t.Inv
  | .fault (.absentField n) => n ≠ "cur"
  | .fault (.busNotOwned _) => False
  | .refused _ => True

/-- One atomic step keeps the record of the command. -/
theorem cpeNode_cur {node : Prog CmdEnd} {st : Station} {s t : State} (hst : s.here = some st) (h : cpeNode node st s = .next t) :
    ∃ st', t.here = some st' ∧ st'.cur = st.cur := by
  have hm : ∀ (s' : State) (x : Station) (f : Station → Station), s'.here = some x → (∀ y : Station, (f y).cur = y.cur) → x.cur = st.cur →
      ∃ st', (s'.modifyHere f).here = some st' ∧ st'.cur = st.cur := by
    intro s' x f hx hf hc
    exact ⟨f x, by rw [State.here_modifyHere, hx]; rfl, (hf x).trans hc⟩
  have hmax : ∀ (m : Option Nat) (y : Station), (y.nextAttempt m).cur = y.cur := by
    intro m y; unfold Station.nextAttempt; split <;> rfl
  have habort : ∃ st', s.abort.here = some st' ∧ st'.cur = st.cur := hm s.releaseLock st _ (by rw [State.here_releaseLock, hst]) (fun _ => rfl) rfl
  cases node with
  | ret a =>
    cases a with
    | done r => obtain rfl := Host.Outcome.next.inj h; exact hm s st _ hst (fun _ => rfl) rfl
    | again => obtain rfl := Host.Outcome.next.inj h; exact hm s st _ hst (hmax _) rfl
  | abort => obtain rfl := Host.Outcome.next.inj h; exact habort
  | rd a k =>
    obtain ⟨s', h1, h2⟩ := onNext_eq_next h
    obtain rfl := Host.Outcome.next.inj h2
    unfold busRead at h1
    split at h1
    · obtain rfl := Host.Outcome.next.inj h1
      exact hm _ _ _ (State.here_takeAnswer (s := s.record .rd a s.answer) hst) (fun _ => rfl) rfl
    · cases h1
  | wr a v k =>
    obtain ⟨s', h1, h2⟩ := onNext_eq_next h
    obtain rfl := Host.Outcome.next.inj h2
    unfold busWrite at h1
    split at h1
    · obtain rfl := Host.Outcome.next.inj h1
      exact hm (s.record .wr a v) st _ hst (fun _ => rfl) rfl
    · cases h1
  | suspend k => obtain rfl := Host.Outcome.next.inj h; exact hm s st _ hst (fun _ => rfl) rfl
  | acquire k =>
    simp only [cpeNode] at h
    split at h
    · obtain rfl := Host.Outcome.next.inj h; exact habort
    · split at h
      · obtain rfl := Host.Outcome.next.inj h; exact hm s.takeLock st _ hst (fun _ => rfl) rfl
      · obtain rfl := Host.Outcome.next.inj h; exact ⟨st, hst, rfl⟩
  | release k => obtain rfl := Host.Outcome.next.inj h; exact hm s.releaseLock st _ (by rw [State.here_releaseLock, hst]) (fun _ => rfl) rfl
  | sampleHw k => obtain rfl := Host.Outcome.next.inj h; exact hm s st _ hst (fun _ => rfl) rfl
  | put w k =>
    obtain rfl := Host.Outcome.next.inj h
    exact hm (s.modifyHere w.apply) (w.apply st) _ (by rw [State.here_modifyHere, hst]; rfl) (fun _ => rfl) (by cases w <;> rfl)

/-- Any number of atomic steps keeps the invariant. -/
theorem cpeRun_inv {prog : Prog CmdEnd} {i : Instr} (q : Nat) {s : State} {st : Station} (h : s.Inv) (hst : s.here = some st)
    (hc : st.cur = some (.known i)) (hp : programOf s.cfg i = some prog) : ∃ t, cpeRun q prog s = .next t ∧ t.Inv := by
  induction q generalizing s st with
  | zero => exact ⟨s, rfl, h⟩
  | succ n ih =>
    by_cases hb : st.phase = .busy
    · obtain ⟨t, ht, hi⟩ := cpeStep_inv h hst hb hc hp
      have hn := ht
      rw [cpeStep_busy hst hb] at hn
      obtain ⟨st', h1, h2⟩ := cpeNode_cur hst hn
      have hcfg := (cpeNode_turned hn).cfg
      obtain ⟨u, hu, hui⟩ := ih hi h1 (h2.trans hc) (by rw [hcfg]; exact hp)
      exact ⟨u, by rw [cpeRun, ht, onNext_next]; exact hu, hui⟩
    · rw [cpeRun_rest _ hst hb]; exact ⟨s, rfl, h⟩

/-- The invariant of the moving station. -/
theorem State.Inv.here {s : State} {st : Station} (h : s.Inv) (hst : s.here = some st) : Station.Inv s.cfg s.lockOwner s.sel st := h.station s.sel st hst

/-- A change of the moving station that keeps its invariant. -/
theorem State.Inv.modify {s : State} {st : Station} {f : Station → Station} (h : s.Inv) (hst : s.here = some st)
    (hf : Station.Inv s.cfg s.lockOwner s.sel (f st)) : (s.modifyHere f).Inv :=
  h.turned (.modifyHere _ _) (modifyHere_get hst) hf

/-- The checks pass only when the operand check does. -/
theorem Gate.check_none_operand {g : Gate} {inited owns : Bool} (h : g.check inited owns = none) : g.operand = none := by
  unfold Gate.check at h
  split at h
  · cases h
  · split at h
    · cases h
    · split at h
      · cases h
      · split at h
        · cases h
        · exact h

/-- A command turn keeps the invariant. -/
theorem runCommand_inv {i : Instr} {g : Gate} {prog : Prog CmdEnd} {s : State} {st : Station} (h : s.Inv) (hst : s.here = some st)
    (hp : programOf s.cfg i = some prog) (hg : hostGate s.cfg i = some g ∨ st.phase ≠ .idle) : Good (runCommand i g prog s) := by
  unfold runCommand
  simp only [hst]
  split
  · exact h
  · split
    · rename_i hc
      obtain ⟨t, ht, hi⟩ := cpeRun_inv s.quantum h hst hc hp
      rw [ht]; exact hi
    · exact h
  · rename_i hidle
    obtain hg : hostGate s.cfg i = some g := hg.resolve_right (fun hn => hn hidle)
    split
    · rename_i hwf
      split
      · refine h.modify hst ?_
        have hsi := h.here hst
        refine ⟨by simp [Station.finish], fun _ => ⟨rfl, rfl⟩, fun hb => ?_, fun hd => ?_, hsi.inited_rst, hsi.tagged, hsi.bounded, ?_, hsi.no_probe, by simp⟩
        · simp [Station.finish, Res.ofSub] at hb
        · simp [Station.finish, Res.ofSub] at hd
        · simp [Station.finish, Res.Fine, Res.ofSub, Res.absent]
      · rename_i hck
        have hk := programOf_keeps st.rstOut hg hp hck
        have ha : Accepted s.cfg i :=
          ⟨hwf, fun g' hg' => Option.some.inj (hg.symm.trans hg') ▸ Gate.check_none_operand hck⟩
        have := h.modify (f := Station.accept (.known i)) hst ((h.here hst).accept hp ha hk)
        obtain ⟨t, ht, hi⟩ := cpeRun_inv s.quantum this (st := st.accept (.known i)) (by rw [State.here_modifyHere, hst]; rfl) rfl hp
        rw [ht]; exact hi
    · trivial

/-- What an edge may change of a station that keeps the invariant. -/
theorem Station.Inv.edge {cfg : Config} {o : Option Nat} {p : Nat} {st st' : Station} (h : Station.Inv cfg o p st)
    (h1 : st'.cancelReq = st.cancelReq) (h2 : st'.phase = st.phase) (h3 : st'.pos = st.pos) (h4 : st'.attempts = st.attempts)
    (h5 : st'.cur = st.cur) (h6 : st'.rstOut = st.rstOut) (h7 : st'.inited = st.inited) (h9 : st'.res = st.res)
    (h10 : st'.probeQ = st.probeQ) (h11 : st'.results = st.results) (ht : ∀ e ∈ st'.events, e.station = p) (hb : ∀ d, cfg.evqDepth = some d → st'.events.length ≤ d) : Station.Inv cfg o p st' := by
  refine ⟨by rw [h1, h2]; exact h.cancel_busy, by rw [h2, h3, h4]; exact h.at_rest, ?_, by rw [h2]; exact h.dead_free, by rw [h7, h6]; exact h.inited_rst, ht, hb, by rw [h9]; exact h.res_fine, by rw [h10]; exact h.no_probe, by rw [h9, h11]; exact h.last_result⟩
  rw [h2, h3, h5, h6]; exact h.running

/-- A handler changes the decoder's registers, and emits at most one event, of its own station. -/
structure Handler (p : Nat) (f : Station → Station) : Prop where
  shape : ∀ st, f st = { st with lastEnc := (f st).lastEnc, cwCnt := (f st).cwCnt, ccwCnt := (f st).ccwCnt, turnCounter := (f st).turnCounter, events := (f st).events }
  events : ∀ st, (f st).events = st.events ∨ ∃ e : Event, e.station = p ∧ (f st).events = st.events ++ [e]

/-- Transitions are handlers. -/
theorem transition_handler (cfg : Config) (p : Nat) (sum : BitVec 4) : Handler p (Station.transition cfg p sum) := by
  refine ⟨transition_shape cfg p sum, fun st => ?_⟩
  rw [transition_eq]
  simp only [afterTransition]
  cases transitionClass sum with
  | none => exact .inl rfl
  | some d => 
    cases d <;> (dsimp only; split)
    · exact .inr ⟨_, rfl, rfl⟩
    · exact .inl rfl
    · exact .inr ⟨_, rfl, rfl⟩
    · exact .inl rfl

/-- Encoder edges are handlers. -/
theorem encoder_handler (cfg : Config) (p : Nat) (clk dt : Bool) : Handler p (Station.onEncoderEdge cfg p clk dt) :=
  ⟨fun st => (transition_handler cfg p _).shape st, fun st => (transition_handler cfg p _).events st⟩

/-- Button edges are handlers. -/
theorem button_handler (p : Nat) (btn : Bool) : Handler p (Station.onButtonEdge p btn) := by
  refine ⟨fun st => ?_, fun st => ?_⟩
  · unfold Station.onButtonEdge; split <;> rfl
  · unfold Station.onButtonEdge; split
    · exact .inr ⟨_, rfl, rfl⟩
    · exact .inl rfl

/-- A handler that is not held keeps the invariant (R609). -/
theorem Handler.inv {cfg : Config} {o : Option Nat} {p : Nat} {f : Station → Station} {st : Station} (hf : Handler p f) (h : Station.Inv cfg o p st)
    (hb : st.blocked cfg f ≠ true) : Station.Inv cfg o p (f st) := by
  have hs := hf.shape st
  refine h.edge (by rw [hs]) (by rw [hs]) (by rw [hs]) (by rw [hs]) (by rw [hs]) (by rw [hs]) (by rw [hs]) (by rw [hs]) (by rw [hs]) (by rw [hs]) ?_ ?_
  · rcases hf.events st with e | ⟨e, he, e'⟩
    · rw [e]; exact h.tagged
    · rw [e']; intro x hx
      rcases List.mem_append.1 hx with hx | hx
      · exact h.tagged x hx
      · rw [List.mem_singleton.1 hx]; exact he
  · intro d hd
    rcases hf.events st with e | ⟨e, he, e'⟩
    · rw [e]; exact h.bounded d hd
    · rw [Station.blocked, hd, e'] at hb
      simp at hb
      rw [e']; simp; omega

/-- The environment clock is outside the invariant. -/
theorem Station.Inv.now {cfg : Config} {o : Option Nat} {p : Nat} {st : Station} (h : Station.Inv cfg o p st) (n : Option Nat) : Station.Inv cfg o p { st with envNow := n } :=
  h.congr rfl rfl rfl rfl rfl rfl rfl rfl rfl rfl

/-- The filter times are outside the invariant. -/
theorem setLastAcc_inv {cfg : Config} {o : Option Nat} {p : Nat} {st : Station} (h : Station.Inv cfg o p st) (l : Line) (now : Nat) : Station.Inv cfg o p (st.setLastAcc l now) := by
  cases l <;> exact h.congr rfl rfl rfl rfl rfl rfl rfl rfl rfl rfl

/-- The filter emits nothing. -/
theorem setLastAcc_events (l : Line) (now : Nat) (st : Station) : (st.setLastAcc l now).events = st.events := by cases l <;> rfl

/-- An edge keeps the invariant. -/
theorem handleEdge_inv {l : Line} {now : Nat} {f : Station → Station} {s : State} {st : Station} (h : s.Inv) (hst : s.here = some st) (hf : Handler s.sel f) :
    Good (handleEdge l now f s) := by
  simp only [handleEdge, hst]
  split
  · trivial
  · split
    · exact h.modify hst ((h.here hst).now _)
    · split
      · exact h
      · rename_i hh
        refine h.modify hst ?_
        refine Station.Inv.now ?_ _
        split
        · rename_i ha
          refine hf.inv (setLastAcc_inv (h.here hst) l now) ?_
          simp only [Station.holdsEdge, ha, Bool.true_and, Station.blocked] at hh
          simp only [Station.blocked]
          rw [setLastAcc_events]
          exact hh
        · exact h.here hst

/-- A transition code keeps the invariant. -/
theorem handleSum_inv {sum : BitVec 4} {s : State} {st : Station} (h : s.Inv) (hst : s.here = some st) :
    Good (handleSum sum s) := by
  simp only [handleSum, hst]
  split
  · exact h
  · split
    · exact h
    · rename_i hb
      exact h.modify hst ((transition_handler _ _ _).inv (h.here hst) hb)

/-- An input edge keeps the invariant. -/
theorem edge_inv {e : EdgeRec} {i : Instr} {s : State} {st : Station} (h : s.Inv) (hst : s.here = some st) (hd : decodeInev e = .ok i) : Good (exec i s) := by
  unfold decodeInev at hd
  split at hd
  · obtain rfl := Except.ok.inj hd; exact handleEdge_inv h hst (encoder_handler _ _ _ _)
  · obtain rfl := Except.ok.inj hd; exact handleEdge_inv h hst (encoder_handler _ _ _ _)
  · obtain rfl := Except.ok.inj hd; exact handleEdge_inv h hst (button_handler _ _)
  · cases hd

/-- Whose turn it is is outside the invariant. -/
theorem State.Inv.select {s : State} (h : s.Inv) (tn : Turn) : (s.select tn).Inv := ⟨h.inhabited, h.owner, h.station⟩

/-- A command record decodes to a host command only. -/
theorem decodeHcmd_host {bytes : List Byte} {i : Instr} (h : decodeHcmd bytes = .ok i) (cfg : Config) : (hostGate cfg i).isSome = true := by
  cases bytes with
  | nil => cases h
  | cons op rest =>
    simp only [decodeHcmd, decodeOperands] at h
    have h0 : ∀ (j : Instr) (l : List Byte), (hostGate cfg j).isSome = true → noOperands op j l = .ok i → (hostGate cfg i).isSome = true := by
      intro j l hj hh; unfold noOperands at hh; split at hh
      · obtain rfl := Except.ok.inj hh; exact hj
      · cases hh
    have h1 : ∀ (f : Byte → Instr) (l : List Byte), (∀ a, (hostGate cfg (f a)).isSome = true) → oneByte op f l = .ok i → (hostGate cfg i).isSome = true := by
      intro j l hj hh; unfold oneByte at hh; split at hh
      · obtain rfl := Except.ok.inj hh; exact hj _
      · cases hh
    have h2 : ∀ (f : Byte → Byte → Instr) (l : List Byte), (∀ a b, (hostGate cfg (f a b)).isSome = true) → twoBytes op f l = .ok i → (hostGate cfg i).isSome = true := by
      intro j l hj hh; unfold twoBytes at hh; split at hh
      · obtain rfl := Except.ok.inj hh; exact hj _ _
      · cases hh
    have h3 : ∀ (f : Byte → List Byte → Instr) (l : List Byte), (∀ a b, (hostGate cfg (f a b)).isSome = true) → byteThenList op f l = .ok i → (hostGate cfg i).isSome = true := by
      intro j l hj hh; unfold byteThenList at hh; split at hh
      · obtain rfl := Except.ok.inj hh; exact hj _ _
      · cases hh
    have h4 : ∀ (f : List Byte → Byte → Instr) (l : List Byte), (∀ a b, (hostGate cfg (f a b)).isSome = true) → listThenByte op f l = .ok i → (hostGate cfg i).isSome = true := by
      intro j l hj hh; unfold listThenByte at hh; split at hh
      · obtain rfl := Except.ok.inj hh; exact hj _ _
      · cases hh
    split at h
    all_goals first
      | exact h0 _ _ rfl h
      | exact h1 _ _ (fun _ => rfl) h
      | exact h2 _ _ (fun _ _ => rfl) h
      | exact h3 _ _ (fun _ _ => rfl) h
      | exact h4 _ _ (fun _ _ => rfl) h
      | skip
    · obtain rfl := Except.ok.inj h; rfl
    · unfold uidOperand at h; split at h
      · obtain rfl := Except.ok.inj h; rfl
      · cases h
    · unfold authOperands at h; split at h
      · split at h
        · obtain rfl := Except.ok.inj h; rfl
        · cases h
      · cases h
    · cases h

/-- A turn keeps the invariant. -/
theorem takeTurn_inv {tn : Turn} {s : State} (h : s.Inv) : Good (takeTurn tn s) := by
  unfold takeTurn
  split
  · exact h
  · rename_i st hst0
    have h := h.select tn
    have hst : (s.select tn).here = some st := hst0
    have hsi := h.here hst
    generalize s.select tn = s at h hst hsi
    cases tn with
    | host p q =>
      simp only [hostTurn]
      split
      · rename_i bytes rest hph hq
        have h' := h.modify (f := fun st => { st with hostQ := rest }) hst (hsi.congr rfl rfl rfl rfl rfl rfl rfl rfl rfl rfl)
        have hst' : (s.modifyHere fun st => { st with hostQ := rest }).here = some { st with hostQ := rest } := by rw [State.here_modifyHere, hst]; rfl
        generalize (s.modifyHere fun st => { st with hostQ := rest }) = s' at h' hst'
        split
        · rename_i i hi
          rcases exec_shape i s' with ⟨g, prog, hp, hg, e⟩ | ⟨a, e, _⟩ | ⟨a, v, e, _⟩ | ⟨_, _, _, _, _, e⟩ | ⟨_, _, e⟩ | ⟨_, _, e⟩
          · rw [e]
            refine runCommand_inv h' hst' hp ?_
            rcases hg with hg | ⟨hg, _⟩
            · exact .inl hg
            · have := decodeHcmd_host hi s'.cfg
              rw [hg] at this; cases this
          · subst e; have := decodeHcmd_host hi s'.cfg; cases this
          · subst e; have := decodeHcmd_host hi s'.cfg; cases this
          · rw [e]; exact handleEdge_inv h' hst' (encoder_handler _ _ _ _)
          · rw [e]; exact handleEdge_inv h' hst' (button_handler _ _)
          · rw [e]; exact handleSum_inv h' hst'
        · refine h'.modify hst' ?_
          have hsi' := h'.here hst'
          refine ⟨by simp [Station.finish], fun _ => ⟨rfl, rfl⟩, fun hb => ?_, fun hd => ?_, hsi'.inited_rst, hsi'.tagged, hsi'.bounded, ?_, hsi'.no_probe, by simp⟩
          · simp [Station.finish, Res.ofStatus] at hb
          · simp [Station.finish, Res.ofStatus] at hd
          · simp [Station.finish, Res.Fine, Res.ofStatus, Res.absent]
        · trivial
      · exact h
    | cpe p q =>
      simp only [cpeTurn]
      split
      · rename_i hb
        obtain ⟨i, prog, hc, hp, _, hk⟩ := hsi.running hb
        simp only [hc]
        rcases exec_shape i s with ⟨g, prog', hp', hg, e⟩ | ⟨a, rfl, _⟩ | ⟨a, v, rfl, _⟩ | ⟨_, _, _, _, _, e⟩ | ⟨_, _, e⟩ | ⟨_, _, e⟩
        · rw [e]; exact runCommand_inv h hst hp' (.inr (by rw [hb]; simp))
        · cases hp
        · cases hp
        · rw [e]; exact handleEdge_inv h hst (encoder_handler _ _ _ _)
        · rw [e]; exact handleEdge_inv h hst (button_handler _ _)
        · rw [e]; exact handleSum_inv h hst
      · exact h
      · exact h
    | edge p =>
      simp only [edgeTurn]
      split
      · exact h
      · split
        · rename_i hi
          split
          · exact h
          · exact edge_inv (st := { st with edgeQ := _ }) (h.modify hst (hsi.congr rfl rfl rfl rfl rfl rfl rfl rfl rfl rfl)) (by rw [State.here_modifyHere, hst]; rfl) hi
        · trivial
    | probe p q =>
      simp only [probeTurn, hsi.no_probe]
      exact h
    | cancel p =>
      simp only [cancelTurn]
      split
      · rename_i hb
        refine h.modify hst ?_
        exact ⟨fun _ => hb, hsi.at_rest, hsi.running, hsi.dead_free, hsi.inited_rst, hsi.tagged, hsi.bounded, hsi.res_fine, hsi.no_probe, hsi.last_result⟩
      · exact h
    | consume p =>
      refine h.modify hst ?_
      refine hsi.edge rfl rfl rfl rfl rfl rfl rfl rfl rfl rfl (fun e he => hsi.tagged e (List.mem_of_mem_tail he)) (fun d hd => ?_)
      have := hsi.bounded d hd
      simp; omega
    | readResult p f =>
      simp only [readResultTurn]
      split
      · exact h
      · split
        · exact h
        · cases f <;> simp [Good, ResField.name]
    | supplyHwOk p b =>
      simp only [hwOkTurn]
      split
      · trivial
      · exact h.modify hst (hsi.congr rfl rfl rfl rfl rfl rfl rfl rfl rfl rfl)

end Sys2Proof.Machine
end

