-- ==== Sys2Proof/Laws/PerInstr.lean ====
section
/-! SUPPORT. Per-instruction laws: what is said of every instruction as a term, one lemma for each constructor. -/

namespace Sys2Proof.Laws.Codec

open Sys2Proof

/-- A well-formed instruction is what its encoding decodes to. -/
def Statement (i : Instr) : Prop := i.wf = true → decode (encode i) = .ok i

/-- Bit 0 of a register transaction's first byte is 0 (R322). -/
theorem txAddrByte_bit0 (r : Bool) (a : RegAddr) : (txAddrByte r a).getLsbD 0 = false := by
  revert r a
  decide

/-- Bit 7 is the direction (R322). -/
theorem txAddrByte_bit7 (r : Bool) (a : RegAddr) : (txAddrByte r a).getLsbD 7 = r := by
  revert r a
  decide

/-- Bits 6 to 1 are the address (R322). -/
theorem txAddrByte_addr (r : Bool) (a : RegAddr) : (txAddrByte r a).extractLsb' 1 6 = a := by
  revert r a
  decide

theorem init : Statement .init := fun _ => rfl

theorem acquire : Statement .acquire := fun _ => rfl

theorem release : Statement .release := fun _ => rfl

theorem regRead (addr : Byte) : Statement (.regRead addr) := fun _ => rfl

theorem regWrite (addr : Byte) (value : Byte) : Statement (.regWrite addr value) := fun _ => rfl

theorem setBits (addr : Byte) (mask : Byte) : Statement (.setBits addr mask) := fun _ => rfl

theorem clearBits (addr : Byte) (mask : Byte) : Statement (.clearBits addr mask) := fun _ => rfl

theorem chipReset : Statement .chipReset := fun _ => rfl

theorem antennaOn : Statement .antennaOn := fun _ => rfl

theorem toCard (cmd : Byte) (data : List Byte) : Statement (.toCard cmd data) := fun _ => rfl

theorem calcCrc (data : List Byte) : Statement (.calcCrc data) := fun _ => rfl

theorem request (mode : Byte) : Statement (.request mode) := fun _ => rfl

theorem anticoll : Statement .anticoll := fun _ => rfl

theorem select (uid : List Byte) : Statement (.select uid) := by
  intro h
  have h5 : uid.length = 5 := by simpa [Instr.wf] using h
  simp [encode, decode, decodeHcmd, decodeOperands, uidOperand, h5]

theorem auth (mode : Byte) (block : Byte) (key : List Byte) (uid : List Byte) : Statement (.auth mode block key uid) := by
  intro h
  have hk : key.length = 6 ∧ uid.length = 5 := by simpa [Instr.wf] using h
  simp [encode, decode, decodeHcmd, decodeOperands, authOperands, hk.1, hk.2, List.take_left', List.drop_left']

theorem stopCrypto : Statement .stopCrypto := fun _ => rfl

theorem readBlock (block : Byte) : Statement (.readBlock block) := fun _ => rfl

theorem writeBlock (block : Byte) (data : List Byte) : Statement (.writeBlock block data) := fun _ => rfl

theorem tryReadId : Statement .tryReadId := fun _ => rfl

theorem tryReadSector (trailer : Byte) : Statement (.tryReadSector trailer) := fun _ => rfl

theorem tryWriteSector (text : List Byte) (trailer : Byte) : Statement (.tryWriteSector text trailer) := by
  intro _
  simp [encode, decode, decodeHcmd, decodeOperands, listThenByte]

theorem readId : Statement .readId := fun _ => rfl

theorem readSector (trailer : Byte) : Statement (.readSector trailer) := fun _ => rfl

theorem writeSector (text : List Byte) (trailer : Byte) : Statement (.writeSector text trailer) := by
  intro _
  simp [encode, decode, decodeHcmd, decodeOperands, listThenByte]

theorem encoderEdgeClk (now : Nat) (clk : Bool) (dt : Bool) (btn : Bool) : Statement (.encoderEdgeClk now clk dt btn) := fun _ => rfl

theorem encoderEdgeDt (now : Nat) (clk : Bool) (dt : Bool) (btn : Bool) : Statement (.encoderEdgeDt now clk dt btn) := fun _ => rfl

theorem buttonEdge (now : Nat) (clk : Bool) (dt : Bool) (btn : Bool) : Statement (.buttonEdge now clk dt btn) := fun _ => rfl

theorem qsumNop0000 : Statement .qsumNop0000 := fun _ => rfl

theorem qsumCcw0001 : Statement .qsumCcw0001 := fun _ => rfl

theorem qsumCw0010 : Statement .qsumCw0010 := fun _ => rfl

theorem qsumNop0011 : Statement .qsumNop0011 := fun _ => rfl

theorem qsumCw0100 : Statement .qsumCw0100 := fun _ => rfl

theorem qsumNop0101 : Statement .qsumNop0101 := fun _ => rfl

theorem qsumNop0110 : Statement .qsumNop0110 := fun _ => rfl

theorem qsumCcw0111 : Statement .qsumCcw0111 := fun _ => rfl

theorem qsumCcw1000 : Statement .qsumCcw1000 := fun _ => rfl

theorem qsumNop1001 : Statement .qsumNop1001 := fun _ => rfl

theorem qsumNop1010 : Statement .qsumNop1010 := fun _ => rfl

theorem qsumCw1011 : Statement .qsumCw1011 := fun _ => rfl

theorem qsumNop1100 : Statement .qsumNop1100 := fun _ => rfl

theorem qsumCw1101 : Statement .qsumCw1101 := fun _ => rfl

theorem qsumCcw1110 : Statement .qsumCcw1110 := fun _ => rfl

theorem qsumNop1111 : Statement .qsumNop1111 := fun _ => rfl

theorem txaddrRead (addr : RegAddr) : Statement (.txaddrRead addr) := by
  intro _
  simp only [encode, decode, decodeTxaddr]
  rw [txAddrByte_bit0, txAddrByte_bit7, txAddrByte_addr]
  rfl

theorem txaddrWrite (addr : RegAddr) (value : Byte) : Statement (.txaddrWrite addr value) := by
  intro _
  simp only [encode, decode, decodeTxaddr]
  rw [txAddrByte_bit0, txAddrByte_bit7, txAddrByte_addr]
  rfl

theorem frameRequest (mode : Byte) : Statement (.frameRequest mode) := fun _ => rfl

theorem frameAnticoll : Statement .frameAnticoll := fun _ => rfl

theorem frameSelect (uid : List Byte) (crcLo : Byte) (crcHi : Byte) : Statement (.frameSelect uid crcLo crcHi) := by
  intro h
  have h5 : uid.length = 5 := by simpa [Instr.wf] using h
  match uid, h5 with
  | [_, _, _, _, _], _ => rfl

theorem frameAuth (mode : Byte) (block : Byte) (key : List Byte) (uid : List Byte) : Statement (.frameAuth mode block key uid) := by
  intro h
  have hk : key.length = 6 ∧ uid.length = 4 := by simpa [Instr.wf] using h
  match key, uid, hk.1, hk.2 with
  | [_, _, _, _, _, _], [_, _, _, _], _, _ => rfl

theorem frameRead (block : Byte) (crcLo : Byte) (crcHi : Byte) : Statement (.frameRead block crcLo crcHi) := fun _ => rfl

theorem frameWritePhase1 (block : Byte) (crcLo : Byte) (crcHi : Byte) : Statement (.frameWritePhase1 block crcLo crcHi) := fun _ => rfl

theorem frameWritePhase2 (data : List Byte) (crcLo : Byte) (crcHi : Byte) : Statement (.frameWritePhase2 data crcLo crcHi) := by
  intro h
  have h16 : data.length = 16 := by simpa [Instr.wf] using h
  match data, h16 with
  | [_, _, _, _, _, _, _, _, _, _, _, _, _, _, _, _], _ => rfl

end Sys2Proof.Laws.Codec
end

