-- ==== Sys2Proof/Tests/Slice0.lean ====
section
/-! SUPPORT. Tests: the well-formedness checks, one decoding for every instruction from a word written out from
30_encoding.md, small steps with the expected results of 95_test_vectors.md, and, for every statement with hypotheses,
a witness that meets them. -/

namespace Sys2Proof.Tests

open Sys2Proof Sys2Proof.Machine

set_option Elab.async false

/-! ## Well-formedness: an ill-formed term for each check, and a well-formed neighbour -/

theorem test_wf_select : (Instr.select [1, 2, 3, 4]).wf = false ∧ (Instr.select [1, 2, 3, 4, 5]).wf = true := by decide

theorem test_wf_auth_key : (Instr.auth 0 0 [1, 2, 3, 4, 5] [1, 2, 3, 4, 5]).wf = false := by decide

theorem test_wf_auth_uid : (Instr.auth 0 0 [1, 2, 3, 4, 5, 6] [1, 2, 3, 4]).wf = false ∧
    (Instr.auth 0 0 [1, 2, 3, 4, 5, 6] [1, 2, 3, 4, 5]).wf = true := by decide

theorem test_wf_frameSelect : (Instr.frameSelect [1, 2, 3, 4, 5, 6] 0 0).wf = false := by decide

theorem test_wf_frameAuth_key : (Instr.frameAuth 0 0 [1] [1, 2, 3, 4]).wf = false := by decide

theorem test_wf_frameAuth_uid : (Instr.frameAuth 0 0 [1, 2, 3, 4, 5, 6] [1, 2, 3, 4, 5]).wf = false := by decide

theorem test_wf_frameWritePhase2 : (Instr.frameWritePhase2 [1, 2] 0 0).wf = false := by decide

/-! ## Decoding, one word for each instruction -/

theorem test_decode_init : decode (.hcmd [0x01]) = .ok .init := by decide

theorem test_decode_acquire : decode (.hcmd [0x02]) = .ok .acquire := by decide

theorem test_decode_release : decode (.hcmd [0x03]) = .ok .release := by decide

theorem test_decode_regRead : decode (.hcmd [0x10, 0x04]) = .ok (.regRead 0x04) := by decide

theorem test_decode_regWrite : decode (.hcmd [0x11, 0x0D, 0x07]) = .ok (.regWrite 0x0D 0x07) := by decide

theorem test_decode_setBits : decode (.hcmd [0x12, 0x0A, 0x80]) = .ok (.setBits 0x0A 0x80) := by decide

theorem test_decode_clearBits : decode (.hcmd [0x13, 0x04, 0x80]) = .ok (.clearBits 0x04 0x80) := by decide

theorem test_decode_chipReset : decode (.hcmd [0x14]) = .ok .chipReset := by decide

theorem test_decode_antennaOn : decode (.hcmd [0x15]) = .ok .antennaOn := by decide

theorem test_decode_toCard : decode (.hcmd [0x20, 0x0C, 0x93, 0x20]) = .ok (.toCard 0x0C [0x93, 0x20]) := by decide

theorem test_decode_calcCrc : decode (.hcmd [0x21, 0x12, 0x34]) = .ok (.calcCrc [0x12, 0x34]) := by decide

theorem test_decode_request : decode (.hcmd [0x30, 0x26]) = .ok (.request 0x26) := by decide

theorem test_decode_anticoll : decode (.hcmd [0x31]) = .ok .anticoll := by decide

theorem test_decode_select : decode (.hcmd [0x32, 0x03, 0xC1, 0x52, 0x1F, 0x8F]) =
    .ok (.select [0x03, 0xC1, 0x52, 0x1F, 0x8F]) := by decide

theorem test_decode_auth : decode (.hcmd [0x33, 0x60, 0x07, 1, 2, 3, 4, 5, 6, 0x03, 0xC1, 0x52, 0x1F, 0x8F]) =
    .ok (.auth 0x60 0x07 [1, 2, 3, 4, 5, 6] [0x03, 0xC1, 0x52, 0x1F, 0x8F]) := by decide

theorem test_decode_stopCrypto : decode (.hcmd [0x34]) = .ok .stopCrypto := by decide

theorem test_decode_readBlock : decode (.hcmd [0x35, 0x04]) = .ok (.readBlock 0x04) := by decide

theorem test_decode_writeBlock : decode (.hcmd [0x36, 0x04, 1, 2]) = .ok (.writeBlock 0x04 [1, 2]) := by decide

theorem test_decode_tryReadId : decode (.hcmd [0x40]) = .ok .tryReadId := by decide

theorem test_decode_tryReadSector : decode (.hcmd [0x41, 0x07]) = .ok (.tryReadSector 0x07) := by decide

theorem test_decode_tryWriteSector : decode (.hcmd [0x42, 0x48, 0x45, 0x4C, 0x4C, 0x4F, 0x07]) =
    .ok (.tryWriteSector [0x48, 0x45, 0x4C, 0x4C, 0x4F] 0x07) := by decide

theorem test_decode_readId : decode (.hcmd [0x48]) = .ok .readId := by decide

theorem test_decode_readSector : decode (.hcmd [0x49, 0x0B]) = .ok (.readSector 0x0B) := by decide

theorem test_decode_writeSector : decode (.hcmd [0x4A, 0x58, 0x0B]) = .ok (.writeSector [0x58] 0x0B) := by decide

theorem test_decode_encoderEdgeClk : decode (.inev ⟨0b00, 100, false, true, true⟩) =
    .ok (.encoderEdgeClk 100 false true true) := by decide

theorem test_decode_encoderEdgeDt : decode (.inev ⟨0b01, 130, false, false, true⟩) =
    .ok (.encoderEdgeDt 130 false false true) := by decide

theorem test_decode_buttonEdge : decode (.inev ⟨0b10, 500, true, true, false⟩) =
    .ok (.buttonEdge 500 true true false) := by decide

theorem test_decode_qsum0000 : decode (.qsum 0b0000) = .ok .qsumNop0000 := by decide

theorem test_decode_qsum0001 : decode (.qsum 0b0001) = .ok .qsumCcw0001 := by decide

theorem test_decode_qsum0010 : decode (.qsum 0b0010) = .ok .qsumCw0010 := by decide

theorem test_decode_qsum0011 : decode (.qsum 0b0011) = .ok .qsumNop0011 := by decide

theorem test_decode_qsum0100 : decode (.qsum 0b0100) = .ok .qsumCw0100 := by decide

theorem test_decode_qsum0101 : decode (.qsum 0b0101) = .ok .qsumNop0101 := by decide

theorem test_decode_qsum0110 : decode (.qsum 0b0110) = .ok .qsumNop0110 := by decide

theorem test_decode_qsum0111 : decode (.qsum 0b0111) = .ok .qsumCcw0111 := by decide

theorem test_decode_qsum1000 : decode (.qsum 0b1000) = .ok .qsumCcw1000 := by decide

theorem test_decode_qsum1001 : decode (.qsum 0b1001) = .ok .qsumNop1001 := by decide

theorem test_decode_qsum1010 : decode (.qsum 0b1010) = .ok .qsumNop1010 := by decide

theorem test_decode_qsum1011 : decode (.qsum 0b1011) = .ok .qsumCw1011 := by decide

theorem test_decode_qsum1100 : decode (.qsum 0b1100) = .ok .qsumNop1100 := by decide

theorem test_decode_qsum1101 : decode (.qsum 0b1101) = .ok .qsumCw1101 := by decide

theorem test_decode_qsum1110 : decode (.qsum 0b1110) = .ok .qsumCcw1110 := by decide

theorem test_decode_qsum1111 : decode (.qsum 0b1111) = .ok .qsumNop1111 := by decide

theorem test_decode_txaddrRead : decode (.txaddr 0x88 0x00) = .ok (.txaddrRead 0x04) := by decide

theorem test_decode_txaddrWrite : decode (.txaddr 0x02 0x0F) = .ok (.txaddrWrite 0x01 0x0F) := by decide

theorem test_decode_frameRequest : decode (.frame ⟨false, .req, [0x26]⟩) = .ok (.frameRequest 0x26) := by decide

theorem test_decode_frameAnticoll : decode (.frame ⟨false, .full, [0x93, 0x20]⟩) = .ok .frameAnticoll := by decide

theorem test_decode_frameSelect : decode (.frame ⟨false, .unchanged, [0x93, 0x70, 0x03, 0xC1, 0x52, 0x1F, 0x8F, 0xCF, 0xBF]⟩) =
    .ok (.frameSelect [0x03, 0xC1, 0x52, 0x1F, 0x8F] 0xCF 0xBF) := by decide

theorem test_decode_frameAuth : decode (.frame ⟨true, .unchanged, [0x60, 0x07, 1, 2, 3, 4, 5, 6, 0x03, 0xC1, 0x52, 0x1F]⟩) =
    .ok (.frameAuth 0x60 0x07 [1, 2, 3, 4, 5, 6] [0x03, 0xC1, 0x52, 0x1F]) := by decide

theorem test_decode_frameRead : decode (.frame ⟨false, .unchanged, [0x30, 0x04, 0x26, 0xEE]⟩) =
    .ok (.frameRead 0x04 0x26 0xEE) := by decide

theorem test_decode_frameWritePhase1 : decode (.frame ⟨false, .unchanged, [0xA0, 0x04, 0x7B, 0xF7]⟩) =
    .ok (.frameWritePhase1 0x04 0x7B 0xF7) := by decide

theorem test_decode_frameWritePhase2 : decode (.frame ⟨false, .unchanged, [1, 2, 3, 4, 5, 6, 7, 8, 9, 10, 11, 12, 13, 14, 15, 16, 0x21, 0xAB]⟩) =
    .ok (.frameWritePhase2 [1, 2, 3, 4, 5, 6, 7, 8, 9, 10, 11, 12, 13, 14, 15, 16] 0x21 0xAB) := by decide

/-! ## What is no instruction -/

/-- The boundaries of the reserved opcodes (R350), vector V-L2. -/
theorem test_reserved_opcodes :
    ([0x00, 0x04, 0x0F, 0x16, 0x1F, 0x22, 0x2F, 0x37, 0x3F, 0x43, 0x47, 0x4B, 0xFF] : List Byte).all
      (fun op => decide (decode (.hcmd [op]) = .error (.reservedOpcode op))) = true := by decide

theorem test_reserved_line : decode (.inev ⟨0b11, 0, true, true, true⟩) = .error .reservedLine := by decide

theorem test_malformed_operands : decode (.hcmd [0x10]) = .error (.malformedCommand 0x10) ∧
    decode (.hcmd [0x02, 0x00]) = .error (.malformedCommand 0x02) := by decide

theorem test_malformed_uid : decode (.hcmd [0x32, 1, 2, 3, 4]) = .error (.malformedCommand 0x32) := by decide

theorem test_bad_address_byte : decode (.txaddr 0x89 0x00) = .error .badAddressByte ∧
    decode (.txaddr 0x88 0x01) = .error .badAddressByte := by decide

/-- R323, R324: ANTICOLL's bytes without its framing are no frame, and neither is a SELECT with a framing of its own. -/
theorem test_unknown_frame : decode (.frame ⟨false, .unchanged, [0x50, 0x00]⟩) = .error .unknownFrame ∧
    decode (.frame ⟨false, .unchanged, [0x93, 0x20]⟩) = .error .unknownFrame ∧
    decode (.frame ⟨false, .full, [0x93, 0x70, 0x03, 0xC1, 0x52, 0x1F, 0x8F, 0xCF, 0xBF]⟩) = .error .unknownFrame := by decide

/-- Words of spec/opcode_table.json. -/
theorem test_table_words : decodeTableWord 8 0x10 = some (.regRead 0) ∧ decodeTableWord 16 0x9320 = some .frameAnticoll ∧
    decodeTableWord 4 0xD = some .qsumCw1101 ∧ decodeTableWord 8 0x80 = some (.txaddrRead 0) := by decide

/-- A word set as the next instruction is run by the next step: ACQUIRE takes the lock (R653). -/
theorem test_fetch_acquire : (match step (State.reset.withFetchWord 8 0x02) with
    | .next t => t.lockOwner
    | _ => none) = some 0 := by decide

/-! ## Small states -/

/-- A station after INIT, with the chip's coming answers. -/
def card (chip : List Byte) : Station :=
  { Station.reset Config.default (true, true) with inited := true, rstOut := true, chipQ := chip }

/-- Station 0 as given, station 1 as after reset, the lock and the atomic steps of the turn. -/
def one (st : Station) (owner : Option Nat) (q : Nat) : State :=
  { State.reset with stations := [st, Station.reset Config.default (true, true)], lockOwner := owner, quantum := q }

/-- The result record of station 0 in a next state. -/
def resOf (r : Result) : Option Res :=
  match r with
  | .next t => t.stations[0]?.map Station.res
  | _ => none

/-- The fault a step stops with. -/
def faultOf (r : Result) : Option Fault :=
  match r with
  | .fault e => some e
  | _ => none

/-- The bytes on the bus. -/
def bus (r : Result) : List (List Byte) :=
  match r with
  | .next t => t.trace.map Txn.busBytes
  | _ => []

/-- How many transactions. -/
def count (r : Result) : Nat := (bus r).length

/-- The lock owner in a next state. -/
def lock (r : Result) : Option (Option Nat) :=
  match r with
  | .next t => some t.lockOwner
  | _ => none

/-- `last_enc`, `cw_cnt`, `ccw_cnt` of station 0. -/
def counts (r : Result) : Option (BitVec 2 × BitVec 2 × BitVec 2) :=
  match r with
  | .next t => t.stations[0]?.map fun st => (st.lastEnc, st.cwCnt, st.ccwCnt)
  | _ => none

/-- The events of station 0. -/
def events (r : Result) : List Event :=
  match r with
  | .next t => (t.stations[0]?.map Station.events).getD []
  | _ => []

/-- The chip's answers in one exchange as in V-X1: clears and flushes read 0, poll 1 fires with `n`, no error, then the
reply. -/
def ans (n : Byte) (reply : List Byte) : List Byte := [0, 0, 0, n, 0x80, 0] ++ reply

/-- The answers of a CRC whose first poll has the flag. -/
def crcAns (lo hi : Byte) : List Byte := [0, 0, 4, lo, hi]

/-- OK and nothing else. -/
def okRes : Res := { Res.absent with status := some .ok }

/-! ## Register access (vectors of section 4) -/

/-- V-A1. -/
theorem test_regRead : let r := exec (.regRead 0x04) (one (card [0x31]) (some 0) 2)
    bus r = [[0x88, 0x00]] ∧ resOf r = some { okRes with byte := some 0x31 } := by decide

/-- V-A3. -/
theorem test_regRead_bad : let r := exec (.regRead 0x40) (one (card []) (some 0) 2)
    bus r = [] ∧ resOf r = some { Res.absent with status := some .precond, sub := some .badReg } := by decide

/-- V-A4. -/
theorem test_regWrite : let r := exec (.regWrite 0x0D 0x07) (one (card []) (some 0) 2)
    bus r = [[0x1A, 0x07]] ∧ resOf r = some okRes := by decide

/-- V-A6. -/
theorem test_setBits : bus (exec (.setBits 0x0A 0x80) (one (card [0x05]) (some 0) 3)) = [[0x94, 0x00], [0x14, 0x85]] := by
  decide

/-- V-A7: the write is always issued. -/
theorem test_setBits_none : count (exec (.setBits 0x0A 0x00) (one (card [0x05]) (some 0) 3)) = 2 := by decide

/-- V-A8. -/
theorem test_clearBits : bus (exec (.clearBits 0x04 0x80) (one (card [0xA5]) (some 0) 3)) =
    [[0x88, 0x00], [0x08, 0x25]] := by decide

/-- V-A10. -/
theorem test_chipReset : bus (exec .chipReset (one (card []) (some 0) 2)) = [[0x02, 0x0F]] := by decide

/-- V-A14: the value read again is used. -/
theorem test_antennaOn : bus (exec .antennaOn (one (card [0x80, 0x82]) (some 0) 4)) =
    [[0xA8, 0x00], [0xA8, 0x00], [0x28, 0x83]] := by decide

/-- V-A12: no write. -/
theorem test_antennaOn_on : bus (exec .antennaOn (one (card [0x83]) (some 0) 2)) = [[0xA8, 0x00]] := by decide

/-- R322, E6. -/
theorem test_txaddrRead : bus (exec (.txaddrRead 0x3F) (one (card [0x12]) (some 0) 0)) = [[0xFE, 0x00]] := by decide

/-- R651: no transaction without the lock. -/
theorem test_txaddrWrite : faultOf (exec (.txaddrWrite 0x01 0) (one (card []) (some 1) 0)) = some (.busNotOwned 0) ∧
    bus (exec (.txaddrWrite 0x01 0x0F) (one (card []) (some 0) 0)) = [[0x02, 0x0F]] := by decide

/-! ## Exchange and CRC (vectors of sections 5 and 6) -/

/-- V-X1. -/
theorem test_toCard :
    let r := exec (.toCard 0x0C [0x93, 0x20]) (one (card (ans 0x30 [5, 0, 0x03, 0xC1, 0x52, 0x1F, 0x8F])) (some 0) 23)
    (bus r).take 14 = [[0x04, 0xF7], [0x88, 0], [0x08, 0], [0x94, 0], [0x14, 0x80], [0x02, 0], [0x12, 0x93], [0x12, 0x20],
      [0x02, 0x0C], [0x9A, 0], [0x1A, 0x80], [0x88, 0], [0x9A, 0], [0x1A, 0]] ∧ count r = 22 ∧
    resOf r = some { okRes with data := some [0x03, 0xC1, 0x52, 0x1F, 0x8F], bitlen := some 40 } := by decide +kernel

/-- V-X7: AUTHENT and the timer bit. -/
theorem test_toCard_authent :
    let r := exec (.toCard 0x0E (List.replicate 12 1)) (one (card [0, 0, 1, 0x80, 0]) (some 0) 24)
    count r = 23 ∧ resOf r = some { okRes with data := some [], bitlen := some 0 } := by decide +kernel

/-- V-CRC1. -/
theorem test_calcCrc : let r := exec (.calcCrc [0x12, 0x34]) (one (card (crcAns 0x26 0xCF)) (some 0) 11)
    bus r = [[0x8A, 0], [0x0A, 0], [0x94, 0], [0x14, 0x80], [0x12, 0x12], [0x12, 0x34], [0x02, 0x03], [0x8A, 0], [0xC4, 0],
      [0xC2, 0]] ∧ resOf r = some { okRes with data := some [0x26, 0xCF] } := by decide +kernel

/-! ## Card commands (vectors of section 7) -/

/-- V-K1. -/
theorem test_request : let r := exec (.request 0x26) (one (card (ans 0x30 [2, 0, 4, 0])) (some 0) 20)
    count r = 19 ∧ resOf r = some { okRes with bitlen := some 16 } := by decide +kernel

/-- V-K3: NOTAG becomes ERROR. -/
theorem test_request_noTag : resOf (exec (.request 0x26) (one (card (ans 0x01 [0, 0])) (some 0) 18)) =
    some { Res.absent with status := some .error, bitlen := some 0 } := by decide +kernel

/-- V-K6: a wrong check byte. -/
theorem test_anticoll_check :
    resOf (exec .anticoll (one (card (ans 0x30 [5, 0, 0x03, 0xC1, 0x52, 0x1F, 0x00])) (some 0) 24)) =
    some { Res.absent with status := some .error, data := some [0x03, 0xC1, 0x52, 0x1F, 0x00] } := by decide +kernel

/-- V-K8: NOTAG passes through. -/
theorem test_anticoll_noTag : resOf (exec .anticoll (one (card (ans 0x01 [0, 0])) (some 0) 19)) =
    some { Res.absent with status := some .noTag, data := some [] } := by decide +kernel

/-- V-K10. -/
theorem test_select :
    let r := exec (.select [0x03, 0xC1, 0x52, 0x1F, 0x8F])
      (one (card (crcAns 0xCF 0xBF ++ ans 0x30 [3, 0, 0x08, 0xB6, 0xDD])) (some 0) 43)
    count r = 42 ∧ resOf r = some { okRes with byte := some 0x08 } := by decide +kernel

/-- V-K12: 16 bits are not 24. -/
theorem test_select_short :
    resOf (exec (.select [0x03, 0xC1, 0x52, 0x1F, 0x8F])
      (one (card (crcAns 0xCF 0xBF ++ ans 0x30 [2, 0, 0x08, 0xB6])) (some 0) 42)) =
    some { Res.absent with status := some .error, byte := some 0 } := by decide +kernel

/-- V-K14: the crypto bit is clear. -/
theorem test_auth :
    let r := exec (.auth 0x60 7 (List.replicate 6 0xFF) [0x03, 0xC1, 0x52, 0x1F, 0x8F])
      (one (card [0, 0, 0x10, 0x80, 0, 0x00]) (some 0) 28)
    count r = 24 ∧ resOf r = some { okRes with warn := some true } := by decide +kernel

/-- V-K18. -/
theorem test_stopCrypto : bus (exec .stopCrypto (one (card [0x09]) (some 0) 3)) = [[0x90, 0x00], [0x10, 0x01]] := by decide +kernel

/-- V-K21: four bytes are no block. -/
theorem test_readBlock_short :
    let r := exec (.readBlock 4) (one (card (crcAns 0x26 0xEE ++ ans 0x30 [4, 0, 1, 1, 1, 1])) (some 0) 34)
    count r = 33 ∧ resOf r = some { Res.absent with status := some .noValue } := by decide +kernel

/-- V-K20: level 18, 16 bytes drained. -/
theorem test_readBlock :
    let r := exec (.readBlock 4) (one (card (crcAns 0x26 0xEE ++ ans 0x30 ([18, 0] ++ List.replicate 16 4))) (some 0) 46)
    count r = 45 ∧ resOf r = some { okRes with data := some (List.replicate 16 4) } := by decide +kernel

/-- V-K25: a NAK, and phase 2 is not sent. -/
theorem test_writeBlock_nak :
    let r := exec (.writeBlock 4 (List.replicate 16 0x20)) (one (card (crcAns 0x7B 0xF7 ++ ans 0x30 [1, 4, 5])) (some 0) 31)
    count r = 30 ∧ resOf r = some { Res.absent with status := some .error } := by decide +kernel

/-- V-K29. -/
theorem test_writeBlock_len : resOf (exec (.writeBlock 4 (List.replicate 15 0)) (one (card []) (some 0) 9)) =
    some { Res.absent with status := some .precond, sub := some .badLen } := by decide +kernel

/-! ## Session commands (vectors of section 8) -/

/-- The answers of a preamble that finds the card `03 C1 52 1F`. -/
def cardAns : List Byte := ans 0x30 [2, 0, 4, 0] ++ ans 0x30 [5, 0, 0x03, 0xC1, 0x52, 0x1F, 0x8F]

/-- V-S1. -/
theorem test_tryReadId : let r := exec .tryReadId (one (card cardAns) none 45)
    count r = 42 ∧ lock r = some none ∧ resOf r = some { okRes with id := some 63001119 } := by decide +kernel

/-- V-S2: no card. -/
theorem test_tryReadId_none : let r := exec .tryReadId (one (card (ans 0x01 [0, 0])) none 20)
    count r = 17 ∧ resOf r = some { Res.absent with status := some .noValue } := by decide +kernel

/-- V-S8: SELECT fails, and there is no warn. -/
theorem test_tryReadSector_select :
    let r := exec (.tryReadSector 7)
      (one (card (cardAns ++ (crcAns 0xCF 0xBF ++ ans 0x30 [2, 0, 0x08, 0xB6]))) none 86)
    count r = 83 ∧ lock r = some none ∧ resOf r = some { Res.absent with status := some .noValue } := by decide +kernel

/-- V-S10: 8 is no trailer. -/
theorem test_tryReadSector_trailer : resOf (exec (.tryReadSector 8) (one (card []) none 1)) =
    some { Res.absent with status := some .precond, sub := some .badTrailer } := by decide +kernel

/-- V-S11's preamble with an authenticate that times out, as in V-S7: stop-crypto runs, warn is present. -/
theorem test_tryWriteSector_auth :
    let r := exec (.tryWriteSector [0x48] 7)
      (one (card (cardAns ++ (crcAns 0xCF 0xBF ++ ans 0x30 [3, 0, 0x08, 0xB6, 0xDD]) ++
        ([0, 0] ++ List.replicate 10 0 ++ [0x80, 0x00]) ++ [0])) none 140)
    count r = 118 ∧ resOf r = some { Res.absent with status := some .noValue, warn := some true } := by decide +kernel

/-- V-S14, its last round. -/
theorem test_readId : let r := exec .readId (one (card cardAns) none 46)
    count r = 42 ∧ resOf r = some { okRes with id := some 63001119 } := by decide +kernel

/-- V-L11, V-L13: the checks of the sector commands. -/
theorem test_readSector : resOf (exec (.readSector 7) (one (card []) (some 0) 1)) =
    some { Res.absent with status := some .precond, sub := some .lockHeld } := by decide +kernel

theorem test_writeSector : resOf (exec (.writeSector [] 8) (one (Station.reset Config.default (true, true)) none 1)) =
    some { Res.absent with status := some .precond, sub := some .notInit } := by decide +kernel

/-! ## INIT and the lock (vectors of section 9) -/

/-- V-L23. -/
theorem test_init :
    let r := exec .init (one { Station.reset Config.default (true, true) with chipQ := [0x80, 0x80] } none 16)
    bus r = [[0x02, 0x0F], [0x54, 0x8D], [0x56, 0x3E], [0x5A, 0x1E], [0x58, 0x00], [0x2A, 0x40], [0x22, 0x3D], [0xA8, 0x00],
      [0xA8, 0x00], [0x28, 0x83]] ∧ lock r = some none ∧ resOf r = some okRes := by decide +kernel

/-- V-L17: HWFAIL at once, no wait for the lock. -/
theorem test_init_hwFail :
    resOf (exec .init (one { Station.reset Config.default (true, true) with hwOk := false } (some 1) 2)) =
    some { Res.absent with status := some .hwFail } := by decide +kernel

/-- V-L4: ACQUIRE needs no INIT. -/
theorem test_acquire : let r := exec .acquire (one (Station.reset Config.default (true, true)) none 2)
    lock r = some (some 0) ∧ resOf r = some okRes := by decide +kernel

/-- V-L21: ACQUIRE waits while station 1 holds the lock, and takes nothing. -/
theorem test_acquire_waits : let r := exec .acquire (one (card []) (some 1) 5)
    lock r = some (some 1) ∧ resOf r = some Res.absent := by decide +kernel

/-- V-L10. -/
theorem test_release_other : let r := exec .release (one (card []) (some 1) 2)
    lock r = some (some 1) ∧ resOf r = some { Res.absent with status := some .precond, sub := some .noLock } := by decide +kernel

theorem test_release : lock (exec .release (one (card []) (some 0) 2)) = some none := by decide +kernel

/-! ## Edges (vectors of sections 1 to 3) -/

/-- E3, edge 1. -/
theorem test_encoderEdgeClk : counts (exec (.encoderEdgeClk 100 false true true) (one (card []) none 0)) =
    some (0b01, 1, 0) := by decide +kernel

/-- E3, edge 4: the fourth confirmed step emits and clears. -/
theorem test_encoderEdgeDt :
    let r := exec (.encoderEdgeDt 190 true true true) (one { card [] with lastEnc := 0b10, cwCnt := 3 } none 0)
    counts r = some (0b11, 0, 0) ∧ events r = [.turn 0 .cw] := by decide +kernel

/-- V-Q8: 19 ms is inside the window, 20 ms is not. -/
theorem test_encoderEdge_window :
    counts (exec (.encoderEdgeClk 144 false true true) (one { card [] with lastAccClk := some 125 } none 0)) =
      some (0b11, 0, 0) ∧
    counts (exec (.encoderEdgeClk 145 false true true) (one { card [] with lastAccClk := some 125 } none 0)) =
      some (0b01, 1, 0) := by decide +kernel

/-- V-B1, V-B3. -/
theorem test_buttonEdge :
    events (exec (.buttonEdge 1000 true true false) (one (card []) none 0)) = [.button 0] ∧
    events (exec (.buttonEdge 2000 true true false) (one { card [] with lastAccBtn := some 0 } none 0)) = [.button 0] ∧
    events (exec (.buttonEdge 1999 true true false) (one { card [] with lastAccBtn := some 0 } none 0)) = [] := by decide +kernel

/-- V-Q7: the counter wraps. -/
theorem test_turn_wraps : (match exec .qsumCw1011 (one { card [] with turnCounter := 0x7FFFFFFF, cwCnt := 3 } none 0) with
    | .next t => t.stations[0]?.map Station.turnCounter
    | _ => none) = some 0x80000000 := by decide +kernel

/-! ## Transition codes, V-Q1: the class of R321, and the new levels -/

theorem test_qsum0000 : counts (exec .qsumNop0000 (one (card []) none 0)) = some (0b00, 0, 0) := by decide +kernel

theorem test_qsum0001 : counts (exec .qsumCcw0001 (one (card []) none 0)) = some (0b01, 0, 1) := by decide +kernel

theorem test_qsum0010 : counts (exec .qsumCw0010 (one (card []) none 0)) = some (0b10, 1, 0) := by decide +kernel

theorem test_qsum0011 : counts (exec .qsumNop0011 (one (card []) none 0)) = some (0b11, 0, 0) := by decide +kernel

theorem test_qsum0100 : counts (exec .qsumCw0100 (one (card []) none 0)) = some (0b00, 1, 0) := by decide +kernel

theorem test_qsum0101 : counts (exec .qsumNop0101 (one (card []) none 0)) = some (0b01, 0, 0) := by decide +kernel

theorem test_qsum0110 : counts (exec .qsumNop0110 (one (card []) none 0)) = some (0b10, 0, 0) := by decide +kernel

theorem test_qsum0111 : counts (exec .qsumCcw0111 (one (card []) none 0)) = some (0b11, 0, 1) := by decide +kernel

theorem test_qsum1000 : counts (exec .qsumCcw1000 (one (card []) none 0)) = some (0b00, 0, 1) := by decide +kernel

theorem test_qsum1001 : counts (exec .qsumNop1001 (one (card []) none 0)) = some (0b01, 0, 0) := by decide +kernel

theorem test_qsum1010 : counts (exec .qsumNop1010 (one (card []) none 0)) = some (0b10, 0, 0) := by decide +kernel

theorem test_qsum1011 : counts (exec .qsumCw1011 (one (card []) none 0)) = some (0b11, 1, 0) := by decide +kernel

theorem test_qsum1100 : counts (exec .qsumNop1100 (one (card []) none 0)) = some (0b00, 0, 0) := by decide +kernel

theorem test_qsum1101 : counts (exec .qsumCw1101 (one (card []) none 0)) = some (0b01, 1, 0) := by decide +kernel

theorem test_qsum1110 : counts (exec .qsumCcw1110 (one (card []) none 0)) = some (0b10, 0, 1) := by decide +kernel

theorem test_qsum1111 : counts (exec .qsumNop1111 (one (card []) none 0)) = some (0b11, 0, 0) := by decide +kernel

/-! ## Frames (R323), each with the reply of its row -/

theorem test_frameRequest : let r := exec (.frameRequest 0x26) (one (card (ans 0x30 [2, 0, 4, 0])) (some 0) 20)
    (bus r).head? = some [0x1A, 0x07] ∧ resOf r = some { okRes with data := some [4, 0], bitlen := some 16 } := by decide +kernel

theorem test_frameAnticoll :
    let r := exec .frameAnticoll (one (card (ans 0x30 [5, 0, 0x03, 0xC1, 0x52, 0x1F, 0x8F])) (some 0) 24)
    (bus r).head? = some [0x1A, 0x00] ∧ count r = 23 := by decide +kernel

theorem test_frameSelect :
    count (exec (.frameSelect [0x03, 0xC1, 0x52, 0x1F, 0x8F] 0xCF 0xBF) (one (card (ans 0x30 [3, 0, 8, 0xB6, 0xDD])) (some 0) 28)) =
      27 := by decide +kernel

theorem test_frameAuth :
    let r := exec (.frameAuth 0x60 7 (List.replicate 6 0xFF) [0x03, 0xC1, 0x52, 0x1F]) (one (card [0, 0, 0x10, 0x80, 0]) (some 0) 24)
    (bus r).head? = some [0x04, 0x92] ∧ count r = 23 := by decide +kernel

theorem test_frameRead :
    count (exec (.frameRead 4 0x26 0xEE) (one (card (ans 0x30 ([18, 0] ++ List.replicate 16 4))) (some 0) 36)) = 35 := by
  decide +kernel

theorem test_frameWritePhase1 :
    resOf (exec (.frameWritePhase1 4 0x7B 0xF7) (one (card (ans 0x30 [1, 4, 0x0A])) (some 0) 21)) =
      some { okRes with data := some [0x0A], bitlen := some 4 } := by decide +kernel

theorem test_frameWritePhase2 :
    count (exec (.frameWritePhase2 (List.replicate 16 0x20) 0x9D 0x73) (one (card (ans 0x30 [1, 4, 0x0A])) (some 0) 36)) = 34 := by
  decide +kernel

/-! ## Witnesses: concrete states and operands that meet the hypotheses of the statements

`one (card (answers ++ rest)) owner n` is a station after INIT whose chip will give those answers, in a turn of n steps. -/

theorem ready_one (answers rest : List Byte) (owner : Option Nat) (n : Nat) :
    (one (card (answers ++ rest)) owner n).Ready answers rest n := ⟨Nat.le_refl n, _, rfl, rfl, rfl, rfl, rfl⟩

/-- A station that runs a command. -/
def busy (i : Instr) (pos : List Byte) (cancel : Bool) (chip : List Byte) : Station :=
  { card chip with phase := .busy, cur := some (.known i), pos := pos, cancelReq := cancel }

theorem running_one (i : Instr) (pos : List Byte) (cancel : Bool) (answers rest : List Byte) (owner : Option Nat) (n : Nat) :
    (one (busy i pos cancel (answers ++ rest)) owner n).Running i pos cancel answers rest n :=
  ⟨Nat.le_refl n, _, rfl, rfl, rfl, rfl, rfl, rfl⟩

/-- A machine about to take one turn of station 0. -/
def turn (t : Turn) (st : Station) (owner : Option Nat) : State :=
  { one st owner 0 with turns := [t] }

/-! ### Encodings and the step -/

theorem witness_DecodeIffEncode : (decode (.hcmd [0x31]) = .ok .anticoll ∧ Instr.anticoll.wf = true ∧ encode .anticoll = .hcmd [0x31]) ∧
    (decode (.frame ⟨false, .unchanged, [0x93]⟩) = .error .unknownFrame) := by decide

theorem witness_ReservedOpcodes : decode (.hcmd [0x0F, 1]) = .error (.reservedOpcode 0x0F) ∧
    decode (.hcmd [0x10, 1]) = .ok (.regRead 1) := by decide

theorem witness_TransactionBytes : (Txn.busBytes ⟨0, .rd, 0x3F, 7⟩).head? = some 0xFE ∧
    (Txn.busBytes ⟨0, .wr, 0x3F, 7⟩).head? = some 0x7E := by decide

theorem witness_StepRunsDecoded_host : (turn (.host 0 3) { card [] with hostQ := [[0x02]] } none).turns = [.host 0 3] ∧
    (card []).phase = .idle ∧ decode (.hcmd [0x02]) = .ok .acquire := by decide +kernel

theorem witness_StepRunsDecoded_cpe : (turn (.cpe 0 1) (busy .acquire [] false []) none).turns = [.cpe 0 1] ∧
    (busy .acquire [] false []).phase = .busy ∧ (busy .acquire [] false []).cur = some (.known .acquire) := by decide +kernel

theorem witness_StepRunsDecoded_edge : decode (.inev ⟨0b00, 100, false, true, true⟩) = .ok (.encoderEdgeClk 100 false true true) ∧
    holdsInput Config.default 0 (.encoderEdgeClk 100 false true true) (card []) = false := by decide +kernel

theorem witness_StepRunsDecoded_probe : decode (.txaddr 0x88 0) = .ok (.txaddrRead 4) ∧
    probeReady Config.default 0 (.txaddr 0x88 0) (card []) = true ∧ probeReady Config.default 0 (.qsum 0b1101) (card []) = true ∧
    probeReady Config.default 0 (.frame ⟨false, .req, [0x26]⟩) (card []) = true := by decide +kernel

theorem witness_ResetValues : ((true, false) :: ([] : List (Bool × Bool)))[0]? = some (true, false) ∧
    ((true, false) :: [(false, true)])[1]? = some (false, true) ∧
    Config.default.initEncPolicy = .sample ∧ { Config.default with initEncPolicy := .zero }.initEncPolicy = .zero := by decide

/-! ### The invariant and the whole machine -/

theorem card_inv (p : Nat) : Station.Inv Config.default none p (card []) :=
  ⟨nofun, fun _ => ⟨rfl, rfl⟩, nofun, nofun, fun _ => rfl, nofun, nofun, ⟨⟨nofun, nofun⟩, nofun⟩, rfl, rfl⟩

/-- Two stations after INIT meet the invariant; `turns` is free. -/
theorem witness_Inv (turns : List Turn) : ({ State.reset with stations := [card [], card []], turns := turns } : State).Inv := by
  refine ⟨Nat.zero_lt_succ 1, nofun, fun p st h => ?_⟩
  have : st = card [] := by
    match p, h with
    | 0, h => exact (Option.some.inj h).symm
    | 1, h => exact (Option.some.inj h).symm
  subst this
  exact card_inv p

/-- A BUSY station in the invariant: RELEASE accepted by the lock's owner. -/
theorem witness_Inv_busy : Station.Inv Config.default (some 0) 0 (busy .release [] false []) :=
  ⟨nofun, nofun, fun _ => ⟨.release, releaseProg, rfl, rfl, ⟨rfl, fun _ h => Option.some.inj h ▸ rfl⟩,
      ⟨rfl, ⟨⟨nofun, by simp [Res.ofStatus], rfl, nofun⟩, by simp [Res.ofStatus]⟩⟩⟩,
    nofun, fun _ => rfl, nofun, nofun, ⟨⟨nofun, nofun⟩, nofun⟩, rfl, rfl⟩

theorem witness_StepKeepsInv :
    ∃ s t : State, s.Inv ∧ step s = .next t ∧ t ≠ s :=
  ⟨{ State.reset with stations := [card [], card []], turns := [.consume 0] }, _, witness_Inv _, rfl, by decide +kernel⟩

theorem witness_NoOwnershipFault : (one (card []) (some 1) 0).lockOwner ≠ some (one (card []) (some 1) 0).sel ∧
    (one (card []) none 0).lockOwner ≠ some (one (card []) none 0).sel := by decide +kernel

theorem witness_StationIsolation_next : (1 : Nat) ≠ (nextTurn (turn (.consume 0) (card []) none)).1.station ∧
    ∃ t, step (turn (.consume 0) (card []) none) = .next t := ⟨by decide, _, rfl⟩

theorem witness_StationIsolation_fault : (1 : Nat) ≠ (nextTurn (turn (.readResult 0 .id) (card []) none)).1.station ∧
    step (turn (.readResult 0 .id) (card []) none) = .fault (.absentField "res.id") := ⟨by decide, rfl⟩

theorem witness_StationIsolation_refused : (1 : Nat) ≠ (nextTurn (turn (.host 0 1) { card [] with hostQ := [[]] } none)).1.station ∧
    step (turn (.host 0 1) { card [] with hostQ := [[]] } none) = .refused .malformedCommand := ⟨by decide, rfl⟩

/-- A turn of the card engine that appends a record, for TraceGrows. -/
theorem witness_TraceGrows : ∃ t, step (turn (.cpe 0 1) (busy .chipReset [] false []) (some 0)) = .next t ∧ t.trace.length = 1 :=
  ⟨_, rfl, rfl⟩

/-- Another station holds the lock; and a step that takes it, and one that frees it. -/
theorem witness_TenureExclusive : (∃ t, step (turn (.host 0 2) { card [] with hostQ := [[0x02]] } (some 1)) = .next t) ∧
    (∃ t, step (turn (.host 0 2) { card [] with hostQ := [[0x02]] } none) = .next t ∧ t.lockOwner = some 0) ∧
    (∃ t, step (turn (.host 0 2) { card [] with hostQ := [[0x03]] } (some 0)) = .next t ∧ t.lockOwner = none) :=
  ⟨⟨_, rfl⟩, ⟨_, rfl, rfl⟩, ⟨_, rfl, rfl⟩⟩

/-- A DEAD station. -/
def dead : Station := { Station.reset Config.default (true, true) with phase := .dead }

theorem witness_DeadStaysDead : dead.phase = .dead ∧ ∃ t, step (turn (.host 0 2) { dead with hostQ := [[0x02]] } none) = .next t :=
  ⟨rfl, _, rfl⟩

theorem witness_EventStream : ∃ t, step (turn (.edge 0) { card [] with edgeQ := [⟨0b10, 0, true, true, false⟩] } none) = .next t ∧
    t.stations[0]?.map Station.events = some [.button 0] := ⟨_, rfl, rfl⟩

/-! ### The life of a command -/

theorem witness_CommandLife : hostGate Config.default .acquire = some ⟨.any, .notHeld, none⟩ ∧
    (one (card []) none 0).here = some (card []) ∧ (card []).phase = .idle ∧
    (⟨.any, .notHeld, none⟩ : Gate).check true ((none : Option Nat) == some 0) = none := by decide +kernel

theorem witness_CommandLife_noMove : (busy .readId [] false []).phase ≠ .idle ∧ dead.phase ≠ .idle := by decide

/-- One state for each check of R712. -/
theorem witness_AcceptanceChecks :
    (⟨.forbidden, .notHeld, none⟩ : Gate).check true false = some .alreadyInit ∧
    (⟨.required, .held, none⟩ : Gate).check false false = some .notInit ∧
    (⟨.required, .held, none⟩ : Gate).check true false = some .noLock ∧
    (⟨.required, .notHeld, none⟩ : Gate).check true true = some .lockHeld ∧
    hostGate Config.default (.regRead 0x40) = some ⟨.required, .held, some .badReg⟩ ∧
    hostGate Config.default (.regRead 0x3F) = some ⟨.required, .held, none⟩ ∧
    hostGate Config.default (.toCard 0 (List.replicate 65 0)) = some ⟨.required, .held, some .badLen⟩ ∧
    hostGate Config.default (.toCard 0 (List.replicate 64 0)) = some ⟨.required, .held, none⟩ ∧
    hostGate Config.default (.writeBlock 0 []) = some ⟨.required, .held, some .badLen⟩ ∧
    hostGate Config.default (.readSector 8) = some ⟨.required, .notHeld, some .badTrailer⟩ ∧
    hostGate Config.default (.readSector 255) = some ⟨.required, .notHeld, none⟩ := by decide +kernel

/-- The three refusals of RefusedUnlessHeld and RefusedIfHeld: not after INIT, the wrong lock, a failing operand. -/
theorem witness_refusals :
    (Station.reset Config.default (true, true)).phase = .idle ∧ (Station.reset Config.default (true, true)).inited = false ∧
    (card []).inited = true ∧ (one (card []) (some 0) 0).Owns ∧ ¬ (one (card []) none 0).Owns ∧
    ¬ (one (card []) (some 1) 0).Owns := ⟨rfl, rfl, rfl, rfl, nofun, nofun⟩

theorem witness_ReservedOpcodeIllegal : decode (.hcmd [0xFF, 1, 2]) = .error (.reservedOpcode 0xFF) ∧ (card []).phase = .idle := by
  decide

/-- R703: `cur` keeps the record, and the result is the first one observed (R840). -/
theorem test_reserved_cur : (match step (turn (.host 0 0) { card [] with hostQ := [[0xFF, 1, 2]] } none) with
    | .next t => t.stations[0]?.map fun st => (st.cur, st.results)
    | _ => none) = some (some (.reserved 0xFF [1, 2]), [{ Res.absent with status := some .illegal }]) := by decide +kernel

theorem witness_MalformedRefused : (∀ i, decode (.hcmd [0x10]) ≠ .ok i) ∧
    (∀ op, decode (.hcmd [0x10]) ≠ .error (.reservedOpcode op)) ∧ ([1, 2, 3, 4] : List Byte).length ≠ 5 ∧
    (List.replicate 12 (0 : Byte)).length ≠ 13 := ⟨nofun, nofun, by decide, by decide⟩

theorem witness_CommandsEnd : hostGate Config.default .tryReadId = some ⟨.required, .notHeld, none⟩ ∧
    isBlocking .tryReadId = false ∧ (one (card []) none 0).lockOwner = none ∧ (one (card []) (some 0) 0).Owns :=
  ⟨rfl, rfl, rfl, rfl⟩

/-- The observation lists the results in order (R840). -/
theorem test_observation : (match exec .release (one { card [] with results := [okRes] } (some 1) 2) with
    | .next t => t.observation.results
    | _ => []) = [[okRes, { Res.absent with status := some .precond, sub := some .noLock }], []] := by decide +kernel

/-! ### INIT and the lock -/

/-- A station before INIT. -/
def fresh (hw cancel : Bool) (chip : List Byte) : Station :=
  { Station.reset Config.default (true, true) with hwOk := hw, cancelReq := cancel, chipQ := chip }

theorem witness_InitRuns : (one (fresh false false []) none 2).here = some (fresh false false []) ∧
    (fresh false false []).inited = false ∧ (0x83 : Byte) &&& 0x03 = 0x03 ∧ (0x81 : Byte) &&& 0x03 ≠ 0x03 ∧
    Config.default.initWrites.length + 8 ≤ 14 ∧ Config.default.initWrites.length + 10 ≤ 16 ∧
    (fresh true false [0x81, 0x81]).chipQ = 0x81 :: 0x81 :: [] ∧ (one (fresh true false []) (some 1) 2).lockOwner = some 1 := by
  decide +kernel

theorem witness_InitRuns_cancel : (one (busy .init [1, 0] true []) (some 1) 1).Running .init [1, 0] true [] [] 1 :=
  running_one _ _ _ [] [] _ _

theorem witness_AcquireRuns : (one (card []) none 2).lockOwner = none ∧ (one (card []) (some 0) 2).Owns ∧
    (one (card []) (some 1) 2).lockOwner = some 1 ∧
    (one (busy .acquire [] false []) (some 1) 0).Running .acquire [] false [] [] 0 ∧
    (one (busy .acquire [] true []) (some 1) 1).Running .acquire [] true [] [] 1 :=
  ⟨rfl, rfl, rfl, running_one _ _ _ [] [] _ _, running_one _ _ _ [] [] _ _⟩

theorem witness_ReleaseRuns : (one (card []) (some 0) 2).Owns ∧ ¬ (one (card []) (some 1) 2).Owns := ⟨rfl, nofun⟩

theorem witness_WaitForLock : (one (busy .tryReadId [] false []) (some 1) 0).Running .tryReadId [] false [] [] 0 ∧
    (one (busy (.tryReadSector 7) [] true []) (some 1) 1).Running (.tryReadSector 7) [] true [] [] 1 ∧
    (one (busy (.writeSector [] 7) [0] false []) (some 1) 0).Running (.writeSector [] 7) [0] false [] [] 0 ∧
    isBlocking .readId = true ∧ (one (busy .readId [] true []) none 2).Running .readId [] true [] [] 2 :=
  ⟨running_one _ _ _ [] [] _ _, running_one _ _ _ [] [] _ _, running_one _ _ _ [] [] _ _, rfl, running_one _ _ _ [] [] _ _⟩

/-! ### Register access -/

theorem witness_registers : (0x3F : Byte).toNat ≤ 0x3F ∧ ¬ (0x40 : Byte).toNat ≤ 0x3F ∧ (one (card [5]) (some 0) 3).Owns ∧
    (one (card [5]) (some 0) 2).Ready [5] [] 2 ∧ (one (card [5]) (some 0) 3).Ready [5] [] 3 ∧
    (one (card []) (some 0) 2).Ready [] [] 2 :=
  ⟨by decide, by decide, rfl, ready_one [5] [] _ _, ready_one [5] [] _ _, ready_one [] [] _ _⟩

theorem witness_AntennaOnRuns : (0x83 : Byte) &&& 0x03 = 0x03 ∧ (0x81 : Byte) &&& 0x03 ≠ 0x03 ∧
    (one (card [0x83]) (some 0) 2).Ready [0x83] [] 2 ∧ (one (card [0x81, 0x81]) (some 0) 4).Ready [0x81, 0x81] [] 4 :=
  ⟨by decide, by decide, ready_one [0x83] [] _ _, ready_one [0x81, 0x81] [] _ _⟩

theorem witness_TransactionsRun : (one (card [5]) (some 0) 0).Owns ∧ (card [5]).chipQ = 5 :: [] ∧ (card []).chipQ = [] :=
  ⟨rfl, rfl, rfl⟩

/-! ### Exchange and CRC -/

/-- A reply of `level` bytes with `control`'s last bits, poll 1 firing with `n`. -/
def reply (n level control : Byte) (bytes : List Byte) : ExchangeScript := ⟨0, 0, 0, [], 0x80, .reply n 0 level control bytes⟩

/-- Ten polls that fire nothing. -/
def timeout : ExchangeScript := ⟨0, 0, 0, List.replicate 10 0, 0x80, .timeout⟩

/-- The error register has bit 0x02 set. -/
def failed : ExchangeScript := ⟨0, 0, 0, [], 0x80, .error 0x30 0x02⟩

/-- A CRC whose first poll has the flag. -/
def crcScript : CrcScript := ⟨0, 0, [], some 4, 0xCF, 0xBF⟩

theorem timeout_fits (c : Byte) : timeout.Fits Config.default c := by
  refine ⟨fun n hn => ?_, rfl⟩
  obtain rfl := List.eq_of_mem_replicate hn
  simp [fires]

theorem reply_fits (level control : Byte) (bytes : List Byte) (h : bytes.length = min level.toNat 16) :
    (reply 0x30 level control bytes).Fits Config.default Config.default.cmdTransceive :=
  ⟨nofun, Nat.zero_lt_succ 9, by decide, rfl, fun _ => h⟩

theorem crcScript_fits : crcScript.Fits Config.default := ⟨nofun, by decide, by decide⟩

/-- A course of each kind: timeout, error, NOTAG with the timer bit, a reply at both ends of the level, AUTHENT. -/
theorem witness_ToCardRuns : timeout.Fits Config.default 0x00 ∧ failed.Fits Config.default 0x0C ∧
    (reply 0x01 0 0 []).Fits Config.default 0x0C ∧ (reply 0x30 255 3 (List.replicate 16 1)).Fits Config.default 0x0C ∧
    (reply 0x10 0 0 []).Fits Config.default 0x0E ∧ (List.replicate 64 (0 : Byte)).length ≤ Config.default.fifoDepth ∧
    (one (card (timeout.answers Config.default 0 ++ [])) (some 0) 30).Ready (timeout.answers Config.default 0) [] 30 :=
  ⟨timeout_fits _, ⟨nofun, by decide, by decide, by decide⟩, ⟨nofun, by decide, by decide, by decide, fun _ => rfl⟩,
    reply_fits _ _ _ rfl, ⟨nofun, by decide, by decide, by decide, nofun⟩, by decide, ready_one _ [] _ _⟩

/-- A code of each row of the masks, and replies of 24 and 4 bits. -/
theorem witness_ExchangeNumbers : (0x0E : Byte) = Config.default.cmdAuthent ∧ (0x08 : Byte) = Config.default.cmdReceive ∧
    (0x00 : Byte) ≠ Config.default.cmdAuthent ∧ (0x00 : Byte) ≠ Config.default.cmdReceive ∧
    (0x00 : Byte) ≠ Config.default.cmdTransceive ∧ Config.default.lastBitsMask = 0x07 ∧
    ((reply 0x30 3 0 [8, 0xB6, 0xDD]).outcome Config.default 0x0C).bitlen = 24 ∧
    ((reply 0x30 1 4 [0x0A]).outcome Config.default 0x0C).bitlen = 4 ∧
    ((reply 0x01 0 0 []).outcome Config.default 0x0C).status = .noTag := by decide

theorem witness_CoursesComplete : Config.default.maxPolls + 23 ≤ (List.replicate 33 (0 : Byte)).length ∧
    260 ≤ (List.replicate 260 (0 : Byte)).length := by decide +kernel

/-- Cancelled at the first sleep (V-X10): TO_CARD and REQUEST stand at a cancellation point; the last sleep; a CRC in
front of the exchange. -/
theorem witness_ToCardCancelled :
    (∃ k, (toCardProg Config.default 0x0C [1]).resume ({ timeout with polls := [0] }.pollPosition Config.default 0x0C [1]) =
      .suspend k) ∧
    (∃ k, (requestProg Config.default 0x26).resume (0 :: { timeout with polls := [0] }.pollPosition Config.default 0x0C [0x26]) =
      .suspend k) ∧
    (one (busy (.toCard 0x0C [1]) ({ timeout with polls := [0] }.pollPosition Config.default 0x0C [1]) true ([0x80] ++ [])) (some 0)
      4).Owns ∧
    (one (busy (.toCard 0x0C [1]) ({ timeout with polls := [0] }.pollPosition Config.default 0x0C [1]) true ([0x80] ++ [])) (some 0)
      4).Running (.toCard 0x0C [1]) ({ timeout with polls := [0] }.pollPosition Config.default 0x0C [1]) true [0x80] [] 4 ∧
    (List.replicate 9 (0 : Byte)).length < Config.default.maxPolls ∧ fires (irqMasks Config.default 0x0C).2 0 = false ∧
    Exchanges Config.default (.toCard 0x0C [1]) [] 0x0C [1] ∧ crcScript.Fits Config.default :=
  ⟨⟨_, rfl⟩, ⟨_, rfl⟩, rfl, running_one _ _ _ [0x80] [] _ _, by decide, by decide, ⟨_, _, rfl, rfl⟩,
    nofun, by decide, by decide⟩

/-- With the flag at the first poll, and never. -/
theorem witness_CalcCrcRuns : crcScript.Fits Config.default ∧
    (⟨0, 0, List.replicate 256 0, none, 1, 2⟩ : CrcScript).Fits Config.default ∧
    (one (card (crcScript.answers ++ [])) (some 0) 11).Ready crcScript.answers [] 11 := by
  refine ⟨crcScript_fits, ⟨fun n hn => ?_, List.length_replicate⟩, ready_one _ [] _ _⟩
  obtain rfl := List.eq_of_mem_replicate hn
  simp

/-! ### Card commands -/

/-- The card's replies in one exchange each. -/
def atqa : ExchangeScript := reply 0x30 2 0 [4, 0]
def uidReply : ExchangeScript := reply 0x30 5 0 [0x03, 0xC1, 0x52, 0x1F, 0x8F]
def sak : ExchangeScript := reply 0x30 3 0 [0x08, 0xB6, 0xDD]
def block16 : ExchangeScript := reply 0x30 18 0 (List.replicate 16 4)
def ack : ExchangeScript := reply 0x30 1 4 [0x0A]
def authed : ExchangeScript := reply 0x10 0 0 []

/-- An exchange with a CRC in front. -/
def frame (x : ExchangeScript) : FrameScript := ⟨crcScript, x⟩

theorem frame_fits {x : ExchangeScript} (h : x.Fits Config.default Config.default.cmdTransceive) : (frame x).Fits Config.default :=
  ⟨crcScript_fits, h⟩

theorem atqa_fits : atqa.Fits Config.default Config.default.cmdTransceive := reply_fits _ _ _ rfl
theorem uidReply_fits : uidReply.Fits Config.default Config.default.cmdTransceive := reply_fits _ _ _ rfl
theorem sak_fits : sak.Fits Config.default Config.default.cmdTransceive := reply_fits _ _ _ rfl
theorem block16_fits : block16.Fits Config.default Config.default.cmdTransceive := reply_fits _ _ _ rfl
theorem ack_fits : ack.Fits Config.default Config.default.cmdTransceive := reply_fits _ _ _ rfl
theorem authed_fits : authed.Fits Config.default Config.default.cmdAuthent := ⟨nofun, by decide, by decide, by decide, nofun⟩

theorem atqa_answer : (atqa.outcome Config.default Config.default.cmdTransceive).isAnswer := ⟨by decide, by decide⟩
theorem uidReply_uid : (uidReply.outcome Config.default Config.default.cmdTransceive).isUid :=
  ⟨by decide, 0x03, 0xC1, 0x52, 0x1F, by decide⟩
theorem sak_selected : (sak.outcome Config.default Config.default.cmdTransceive).isSelected := ⟨by decide, by decide⟩
theorem block16_block : (block16.outcome Config.default Config.default.cmdTransceive).isBlock := ⟨by decide, by decide⟩
theorem ack_ack : (ack.outcome Config.default Config.default.cmdTransceive).isAck := ⟨by decide, by decide, 0x0A, by decide, by decide⟩

theorem timeout_not (c : Byte) : ¬ (timeout.outcome Config.default c).isAnswer ∧ ¬ (timeout.outcome Config.default c).isUid ∧
    ¬ (timeout.outcome Config.default c).isSelected ∧ ¬ (timeout.outcome Config.default c).isBlock ∧
    ¬ (timeout.outcome Config.default c).isAck := ⟨nofun, nofun, nofun, nofun, nofun⟩

theorem witness_RequestRuns : atqa.Fits Config.default Config.default.cmdTransceive ∧
    (atqa.outcome Config.default Config.default.cmdTransceive).isAnswer ∧
    timeout.Fits Config.default Config.default.cmdTransceive ∧
    ¬ (timeout.outcome Config.default Config.default.cmdTransceive).isAnswer ∧
    (one (card (atqa.answers Config.default 0x0C ++ [])) (some 0) 20).Ready (atqa.answers Config.default 0x0C) [] 20 :=
  ⟨atqa_fits, atqa_answer, timeout_fits _, (timeout_not _).1, ready_one _ [] _ _⟩

theorem witness_AnticollRuns : uidReply.Fits Config.default Config.default.cmdTransceive ∧
    (uidReply.outcome Config.default Config.default.cmdTransceive).isUid ∧
    (atqa.outcome Config.default Config.default.cmdTransceive).status = .ok ∧
    ¬ (atqa.outcome Config.default Config.default.cmdTransceive).isUid ∧
    (timeout.outcome Config.default Config.default.cmdTransceive).status ≠ .ok :=
  ⟨uidReply_fits, uidReply_uid, by decide, nofun, by decide⟩

theorem witness_SelectRuns : (frame sak).Fits Config.default ∧ ((frame sak).outcome Config.default).isSelected ∧
    ((frame sak).outcome Config.default).bytes.head? = some 0x08 ∧ (frame timeout).Fits Config.default ∧
    ¬ ((frame timeout).outcome Config.default).isSelected ∧
    (one (card ((frame sak).answers Config.default ++ [])) (some 0) 43).Ready ((frame sak).answers Config.default) [] 43 :=
  ⟨frame_fits sak_fits, sak_selected, by decide, frame_fits (timeout_fits _), (timeout_not _).2.2.1, ready_one _ [] _ _⟩

/-- With the crypto bit set and clear after authenticate. -/
theorem witness_AuthRuns : authed.Fits Config.default Config.default.cmdAuthent ∧
    timeout.Fits Config.default Config.default.cmdAuthent ∧ (0x08 : Byte) &&& 0x08 ≠ 0 ∧ (0x00 : Byte) &&& 0x08 = 0 ∧
    (one (card (authed.answers Config.default 0x0E ++ [0x08] ++ [])) (some 0) 28).Ready
      (authed.answers Config.default 0x0E ++ [0x08]) [] 28 :=
  ⟨authed_fits, timeout_fits _, by decide, by decide, ready_one _ [] _ _⟩

theorem witness_ReadBlockRuns : (frame block16).Fits Config.default ∧ ((frame block16).outcome Config.default).isBlock ∧
    (frame sak).Fits Config.default ∧ ¬ ((frame sak).outcome Config.default).isBlock :=
  ⟨frame_fits block16_fits, block16_block, frame_fits sak_fits, nofun⟩

theorem witness_WriteBlockRuns : (⟨frame ack, some (frame ack)⟩ : WriteScript).Fits Config.default ∧
    (⟨frame ack, some (frame ack)⟩ : WriteScript).Done Config.default ∧
    (⟨frame timeout, none⟩ : WriteScript).Fits Config.default ∧ ¬ (⟨frame timeout, none⟩ : WriteScript).Done Config.default :=
  ⟨⟨frame_fits ack_fits, ack_ack, frame_fits ack_fits⟩, ⟨frame ack, rfl, ack_ack⟩,
    ⟨frame_fits (timeout_fits _), (timeout_not _).2.2.2.2⟩, nofun⟩

theorem witness_FramesRun : (one (card (atqa.answers Config.default 0x0C ++ [])) (some 0) 60).Owns ∧
    (card (atqa.answers Config.default 0x0C ++ [])).chipQ = atqa.answers Config.default 0x0C ++ [] ∧
    atqa.Fits Config.default Config.default.cmdTransceive ∧
    atqa.steps Config.default 0x0C ([0x93, 0x70] ++ [1, 2, 3, 4, 5] ++ [0, 0]) + 1 ≤ 60 ∧
    atqa.steps Config.default 0x0C (List.replicate 16 0 ++ [0, 0]) + 1 ≤ 60 ∧
    authed.Fits Config.default Config.default.cmdAuthent ∧ authed.steps Config.default 0x0E (List.replicate 12 0) + 1 ≤ 60 :=
  ⟨rfl, rfl, atqa_fits, by decide, by decide, authed_fits, by decide⟩

/-! ### Session commands -/

/-- The card is found; no card. -/
def found : CardScript := ⟨atqa, some uidReply⟩
def noCard : CardScript := ⟨timeout, none⟩

theorem found_fits : found.Fits Config.default := ⟨atqa_fits, atqa_answer, uidReply_fits⟩
theorem found_finds : found.Finds Config.default [0x03, 0xC1, 0x52, 0x1F, 0x8F] := ⟨uidReply, rfl, uidReply_uid, rfl⟩
theorem noCard_fits : noCard.Fits Config.default := ⟨timeout_fits _, (timeout_not _).1⟩
theorem noCard_finds (u : List Byte) : ¬ noCard.Finds Config.default u := nofun

theorem witness_TryReadIdRuns : found.Fits Config.default ∧ found.Finds Config.default [0x03, 0xC1, 0x52, 0x1F, 0x8F] ∧
    noCard.Fits Config.default ∧ (∀ u, ¬ noCard.Finds Config.default u) ∧ (one (card []) none 0).lockOwner = none ∧
    (one (card (found.answers Config.default ++ [])) none 60).Ready (found.answers Config.default) [] 60 :=
  ⟨found_fits, found_finds, noCard_fits, noCard_finds, rfl, ready_one _ [] _ _⟩

theorem witness_SessionOperands : (((3 : Byte).toNat + 1) % 4 = 0 ∧ ((255 : Byte).toNat + 1) % 4 = 0) ∧
    ¬ ((0 : Byte).toNat + 1) % 4 = 0 := by decide

/-- A sector attempt that reaches the blocks; one whose SELECT fails; one with no card. -/
def opened : SectorScript := ⟨found, some (frame sak), some ⟨authed, 0x08, 0x08⟩⟩
def unselected : SectorScript := ⟨found, some (frame timeout), none⟩
def absent : SectorScript := ⟨noCard, none, none⟩

theorem opened_fits : opened.Fits Config.default [0x03, 0xC1, 0x52, 0x1F, 0x8F] :=
  ⟨found_fits, found_finds, frame_fits sak_fits, sak_selected, authed_fits⟩
theorem opened_opens : opened.Opens Config.default := ⟨_, rfl, by decide⟩
theorem unselected_fits : unselected.Fits Config.default [0x03, 0xC1, 0x52, 0x1F, 0x8F] :=
  ⟨found_fits, found_finds, frame_fits (timeout_fits _), (timeout_not _).2.2.1⟩
theorem absent_fits (u : List Byte) : absent.Fits Config.default u := ⟨noCard_fits, rfl, noCard_finds⟩

/-- All three blocks read; and the first read failing. -/
theorem reads_fit : ReadsFit Config.default 3 [frame block16, frame block16, frame block16] ∧
    AllRead Config.default [frame block16, frame block16, frame block16] ∧ ReadsFit Config.default 3 [frame sak] ∧
    ¬ AllRead Config.default [frame sak] := by
  have h : (frame block16).Fits Config.default := frame_fits block16_fits
  refine ⟨⟨h, .inl ⟨block16_block, h, .inl ⟨block16_block, h, .inl ⟨block16_block, rfl⟩⟩⟩⟩, ?_,
    ⟨frame_fits sak_fits, .inr ⟨nofun, rfl⟩⟩, fun h => nomatch (h _ (List.mem_singleton.2 rfl)).2⟩
  intro x hx
  simp only [List.mem_cons, List.not_mem_nil, or_false, or_self] at hx
  rw [hx]; exact block16_block

theorem writes_fit : WritesFit Config.default 3 (List.replicate 3 ⟨frame ack, some (frame ack)⟩) ∧
    AllWritten Config.default (List.replicate 3 ⟨frame ack, some (frame ack)⟩) ∧
    WritesFit Config.default 3 [⟨frame timeout, none⟩] ∧ ¬ AllWritten Config.default [⟨frame timeout, none⟩] := by
  have h := witness_WriteBlockRuns
  refine ⟨⟨h.1, .inl ⟨h.2.1, h.1, .inl ⟨h.2.1, h.1, .inl ⟨h.2.1, rfl⟩⟩⟩⟩, ?_, ⟨h.2.2.1, .inr ⟨h.2.2.2, rfl⟩⟩,
    fun h' => h.2.2.2 (h' _ (List.mem_singleton.2 rfl))⟩
  intro x hx
  rw [List.eq_of_mem_replicate hx]; exact h.2.1

theorem witness_TryReadSectorRuns : ((7 : Byte).toNat + 1) % 4 = 0 ∧
    opened.Fits Config.default [0x03, 0xC1, 0x52, 0x1F, 0x8F] ∧ opened.Opens Config.default ∧
    ¬ unselected.Opens Config.default ∧ ¬ absent.Opens Config.default ∧
    ∀ body n, (one (card (opened.answers Config.default body ++ [])) none n).Ready (opened.answers Config.default body) [] n :=
  ⟨by decide, opened_fits, opened_opens, nofun, nofun, fun _ _ => ready_one _ [] _ _⟩

theorem witness_TryWriteSectorRuns : opened.Fits Config.default [0x03, 0xC1, 0x52, 0x1F, 0x8F] ∧ opened.Opens Config.default ∧
    WritesFit Config.default 3 (List.replicate 3 ⟨frame ack, some (frame ack)⟩) ∧
    WritesFit Config.default 3 [⟨frame timeout, none⟩] := ⟨opened_fits, opened_opens, writes_fit.1, writes_fit.2.2.1⟩

/-- In the first round, and in a later one. -/
theorem witness_BlockingFinds : found.Finds Config.default [0x03, 0xC1, 0x52, 0x1F, 0x8F] ∧
    ReadsFit Config.default 3 [frame block16, frame block16, frame block16] ∧
    AllRead Config.default [frame block16, frame block16, frame block16] ∧
    AllWritten Config.default (List.replicate 3 ⟨frame ack, some (frame ack)⟩) ∧
    (one (card (found.answers Config.default ++ [])) none 46).Ready (found.answers Config.default) [] 46 ∧
    (one { busy .readId [] false (found.answers Config.default ++ []) with attempts := 3 } none 46).Running .readId [] false
      (found.answers Config.default) [] 46 :=
  ⟨found_finds, reads_fit.1, reads_fit.2.1, writes_fit.2.1, ready_one _ [] _ _,
    ⟨Nat.le_refl 46, _, rfl, rfl, rfl, rfl, rfl, rfl⟩⟩

/-- An unbounded loop, and MAX_ATTEMPTS 1. -/
theorem witness_BlockingRetries : (∀ u, ¬ noCard.Finds Config.default u) ∧ absent.Fits Config.default [] ∧
    ¬ (absent.Opens Config.default ∧ AllRead Config.default []) ∧ Config.default.maxAttempts ≠ some (0 + 1) ∧
    ({ Config.default with maxAttempts := some 1 } : Config).maxAttempts = some (0 + 1) ∧
    ∀ n, (one (busy .readId [] false (noCard.answers Config.default ++ [])) none n).Running .readId [] false
      (noCard.answers Config.default) [] n :=
  ⟨noCard_finds, absent_fits _, fun h => (nomatch h.1), by decide, by decide, fun _ => running_one _ _ _ _ [] _ _⟩

/-! ### Cancel, the host, edges and frames -/

theorem witness_CancelPulse : (busy .readId [] false []).phase = .busy ∧ (card []).phase ≠ .busy ∧ dead.phase ≠ .busy := by decide

theorem witness_HostInteractions : (card []).res.has .status = false ∧ { card [] with res := okRes }.res.has .status = true ∧
    (busy .init [] false []).cur = some (.known .init) ∧ (busy .readId [] false []).cur ≠ some (.known .init) ∧
    false ≠ (busy .init [] false []).hwOk := by decide

theorem witness_EncoderEdgeAccepted : (card []).InTime 100 ∧ (card []).Room Config.default ∧ (card []).phase ≠ .dead ∧
    WindowOver 20 145 (some 125) ∧ WindowOver 20 0 none :=
  ⟨nofun, nofun, by decide, fun t h => by cases h; decide, nofun⟩

theorem witness_ButtonEdgeAccepted : WindowOver 2000 2000 (some 0) ∧ (card []).InTime 2000 ∧ (card []).Room Config.default :=
  ⟨fun t h => by cases h; decide, nofun, nofun⟩

theorem witness_EdgeRejected : ¬ WindowOver 20 144 (some 125) ∧ ¬ WindowOver 2000 1999 (some 0) ∧
    ¬ ({ card [] with envNow := some 10 } : Station).InTime 9 ∧ ({ card [] with envNow := some 10 } : Station).InTime 10 ∧
    dead.phase = .dead ∧ dead.InTime 0 ∧ ¬ ({ dead with envNow := some 10 } : Station).InTime 9 ∧
    encode .qsumCw1101 = .qsum 0b1101 :=
  ⟨fun h => absurd (h 125 rfl).1 (by decide), fun h => absurd (h 0 rfl).1 (by decide),
    fun h => absurd (h 10 rfl) (by decide), fun t h => by cases h; decide, rfl, nofun, fun h => absurd (h 10 rfl) (by decide), rfl⟩

/-- R716: a `now` that goes back is refused at a DEAD station too. -/
theorem test_dead_edge : exec (.buttonEdge 9 true true false) (one { dead with envNow := some 10 } none 0) =
    .refused .nowDecreased := rfl

theorem witness_TransitionCodes : encode .qsumCcw1110 = .qsum 0b1110 ∧ (card []).Room Config.default ∧
    (afterTransition Config.default 0 0b1111 (card [])).events = (card []).events := ⟨rfl, nofun, rfl⟩

/-- A stream of depth 1 that holds one event. -/
theorem witness_FullStreamHolds :
    ¬ ({ card [] with events := [.button 0] } : Station).Room { Config.default with evqDepth := some 1 } ∧
    decode (.inev ⟨0b10, 0, true, true, false⟩) = .ok (.buttonEdge 0 true true false) ∧ WindowOver 2000 0 none ∧
    (afterTransition { Config.default with evqDepth := some 1 } 0 ((0b11 : BitVec 2) ++ encOf false true)
      { card [] with events := [.button 0], cwCnt := 3 }).events ≠ [.button 0] :=
  ⟨fun h => absurd (h 1 rfl) (by decide), by decide, nofun, by decide +kernel⟩

theorem witness_FourStepsOneEvent : encode .qsumCw1101 = .qsum 0b1101 ∧ encode .qsumCcw1000 = .qsum 0b1000 ∧
    transitionClass 0b1101 = some .cw ∧ transitionClass 0b1000 = some .ccw ∧ (one (card []) none 0).here = some (card []) ∧
    (card []).phase ≠ .dead ∧ (card []).Room Config.default ∧ (card []).cwCnt = 0 ∧ (card []).ccwCnt = 0 :=
  ⟨rfl, rfl, rfl, rfl, rfl, by decide, nofun, rfl, rfl⟩

theorem witness_CommandFrame : programOf Config.default .release = some releaseProg ∧ runsAuthenticate .release = false ∧
    usesLock (.regRead 0) = false ∧ (∃ t, exec .release (one (card []) (some 0) 2) = .next t) := ⟨rfl, rfl, rfl, _, rfl⟩

theorem witness_EdgeFrame : (one (card []) none 0).here = some (card []) ∧
    ∃ t, exec (.encoderEdgeClk 100 false true true) (one (card []) none 0) = .next t := ⟨rfl, _, rfl⟩

/-- Presented to an IDLE station, and running, with one record issued before the turn. -/
theorem witness_TransactionBounds : transactionBound Config.default (.toCard 0x0C [1]) = some 41 ∧
    transactionBound Config.default (.toCard 0x00 [1]) = some 21 ∧ Config.default.maxPolls = 10 ∧
    Config.default.cmdAuthent ≠ Config.default.cmdTransceive ∧
    (∃ t, exec .chipReset (one (card []) (some 0) 2) = .next t) ∧
    programOf Config.default (.setBits 0x0A 0x80) = some (setBitsProg 0x0A 0x80) ∧
    (busy (.setBits 0x0A 0x80) [5] false []).issued (setBitsProg 0x0A 0x80) = 1 ∧
    Accepted Config.default (.setBits 0x0A 0x80) ∧
    (∃ t, exec (.setBits 0x0A 0x80) (one (busy (.setBits 0x0A 0x80) [5] false []) (some 0) 1) = .next t) :=
  ⟨by decide, by decide, rfl, by decide, ⟨_, rfl⟩, rfl, rfl, ⟨rfl, fun _ h => Option.some.inj h ▸ rfl⟩, _, rfl⟩

end Sys2Proof.Tests
end

/-! SUPPORT. The scope family: a step runs the instruction that its turn decodes, and the courses that `Sys2Proof.Safety`
scripts for an exchange and for a CRC are all there are. -/

namespace Sys2Proof.Machine

open Sys2Proof

/-! ## The turn of each agent that runs an instruction -/

/-- A listed turn is the one the step takes. -/
theorem step_of_turns {s : State} {tn : Turn} {turns : List Turn} (h : s.turns = tn :: turns) :
    step s = takeTurn tn { s with turns := turns } := by
  simp only [step, nextTurn, h]

theorem hostTurn_decoded {st : Station} {bytes : List Byte} {more : List (List Byte)} {i : Instr} (s : State)
    (hidle : st.phase = .idle) (hq : st.hostQ = bytes :: more) (hd : decode (.hcmd bytes) = .ok i) :
    hostTurn st s = exec i (s.modifyHere fun st => { st with hostQ := more }) := by
  have hd' : decodeHcmd bytes = .ok i := hd
  simp only [hostTurn, hidle, hq, hd']

theorem cpeTurn_known {st : Station} {i : Instr} (s : State) (hbusy : st.phase = .busy) (hcur : st.cur = some (.known i)) :
    cpeTurn st s = exec i s := by
  simp only [cpeTurn, hbusy, hcur]

/-- An edge is handled when the stream has room for its event, and at a DEAD station whatever the stream holds. -/
theorem edgeTurn_decoded {st : Station} {e : EdgeRec} {more : List EdgeRec} {i : Instr} (s : State)
    (hq : st.edgeQ = e :: more) (hd : decode (.inev e) = .ok i)
    (hfree : holdsInput s.cfg s.sel i st = false ∨ st.phase = .dead) :
    edgeTurn st s = exec i (s.modifyHere fun st => { st with edgeQ := more }) := by
  have hd' : decodeInev e = .ok i := hd
  have hmoves : ¬ (holdsInput s.cfg s.sel i st = true ∧ st.phase ≠ .dead ∧ st.tooEarly e.now = false) := by
    rintro ⟨hholds, halive, -⟩
    rcases hfree with hroom | hdead
    · simp [hroom] at hholds
    · exact halive hdead
  simp only [edgeTurn, hq, hd', if_neg hmoves]

theorem probeTurn_decoded {st : Station} {c : InnerCode} {more : List InnerCode} {i : Instr} (s : State)
    (hq : st.probeQ = c :: more) (hd : decode c.code = .ok i) (hready : probeReady s.cfg s.sel c st = true) :
    probeTurn st s = exec i (s.modifyHere fun st => { st with probeQ := more }) := by
  simp only [probeTurn, hq, hd, if_pos hready]

/-! ## Every list of answers is a course -/

/-- Of the next `n` answers none satisfies `fire`, or one is the first that does. -/
theorem exists_polls (fire : Byte → Bool) {n : Nat} {l : List Byte} (hn : n ≤ l.length) :
    (∃ polls rest, l = polls ++ rest ∧ (∀ b ∈ polls, fire b = false) ∧ polls.length = n) ∨
    ∃ polls b rest, l = polls ++ b :: rest ∧ (∀ b ∈ polls, fire b = false) ∧ polls.length < n ∧ fire b = true := by
  have hl : l = l.take n ++ l.drop n := (List.take_append_drop n l).symm
  cases hf : (l.take n).find? fire with
  | none =>
    have hquiet : ∀ b ∈ l.take n, fire b = false := by simpa using List.find?_eq_none.mp hf
    exact .inl ⟨_, _, hl, hquiet, List.length_take_of_le hn⟩
  | some b =>
    obtain ⟨hb, polls, more, hsplit, hquiet⟩ := List.find?_eq_some_iff_append.mp hf
    have hlen : polls.length + (more.length + 1) = n := by
      simpa [hn] using (congrArg List.length hsplit).symm
    exact .inr ⟨polls, b, more ++ l.drop n, by simpa [hsplit] using hl, by simpa using hquiet, by omega, hb⟩

/-- The answers before the polls of an exchange (R451 steps 1 to 3). -/
theorem exists_headAnswers (cfg : Config) (c : Byte) {l : List Byte} (hl : 3 ≤ l.length) :
    ∃ irq flush framing rest,
      l = [irq, flush] ++ (if c = cfg.cmdTransceive then [framing] else []) ++ rest ∧ l.length ≤ rest.length + 3 := by
  match l, hl with
  | irq :: flush :: framing :: rest, _ =>
    by_cases hc : c = cfg.cmdTransceive
    · exact ⟨irq, flush, framing, rest, by simp [hc], by simp⟩
    · exact ⟨irq, flush, framing, framing :: rest, by simp [hc], by simp⟩

/-- The answers that an exchange without an error reads to its end: those of TRANSCEIVE's drain, at most 16 bytes
(R454). -/
theorem exists_replyAnswers (cfg : Config) (c : Byte) {l : List Byte} (hl : 18 ≤ l.length) :
    ∃ (level control : Byte) (bytes rest : List Byte),
      l = (if c = cfg.cmdTransceive then [level, control] ++ bytes else []) ++ rest ∧
      (c = cfg.cmdTransceive → bytes.length = min level.toNat 16) := by
  match l, hl with
  | level :: control :: l, hl =>
    by_cases hc : c = cfg.cmdTransceive
    · have hdrain : min level.toNat 16 ≤ l.length := by simp at hl; omega
      exact ⟨level, control, l.take (min level.toNat 16), l.drop (min level.toNat 16), by simp [hc],
        fun _ => List.length_take_of_le hdrain⟩
    · exact ⟨level, control, [], level :: control :: l, by simp [hc], fun h => absurd h hc⟩

/-- The answers after the polls of an exchange: no poll fires, or one does and the error register decides (R452 to
R454). -/
theorem exists_exchange (cfg : Config) (c : Byte) {answers : List Byte} (hlen : cfg.maxPolls + 23 ≤ answers.length) :
    ∃ (x : ExchangeScript) (rest : List Byte), x.Fits cfg c ∧ answers = x.answers cfg c ++ rest := by
  obtain ⟨irq, flush, framing, l, rfl, hl⟩ := exists_headAnswers cfg c (l := answers) (by omega)
  have hpolls : cfg.maxPolls + 20 ≤ l.length := by omega
  rcases exists_polls (fires (irqMasks cfg c).2) (n := cfg.maxPolls) (l := l) (by omega) with
    ⟨polls, rest, rfl, hquiet, hn⟩ | ⟨polls, fire, rest, rfl, hquiet, hn, hfire⟩
  · match rest with
    | [] => simp at hpolls; omega
    | framing2 :: rest =>
      exact ⟨⟨irq, flush, framing, polls, framing2, .timeout⟩, rest, ⟨hquiet, hn⟩,
        by simp [ExchangeScript.answers, ExchangeScript.headAnswers, ExchangeScript.endAnswers]⟩
  · match rest with
    | [] | [_] => simp at hpolls; omega
    | framing2 :: err :: rest =>
      by_cases herr : err &&& 0x1B = 0
      · obtain ⟨level, control, bytes, rest, rfl, hbytes⟩ :=
          exists_replyAnswers cfg c (l := rest) (by simp at hpolls; omega)
        exact ⟨⟨irq, flush, framing, polls, framing2, .reply fire err level control bytes⟩, rest,
          ⟨hquiet, hn, hfire, herr, hbytes⟩,
          by simp [ExchangeScript.answers, ExchangeScript.headAnswers, ExchangeScript.endAnswers]⟩
      · exact ⟨⟨irq, flush, framing, polls, framing2, .error fire err⟩, rest, ⟨hquiet, hn, hfire, herr⟩,
          by simp [ExchangeScript.answers, ExchangeScript.headAnswers, ExchangeScript.endAnswers]⟩

/-- Up to 256 polls wait for the CRC's flag (R460, R461). -/
theorem exists_crc (cfg : Config) {answers : List Byte} (hlen : 260 ≤ answers.length) :
    ∃ (k : CrcScript) (rest : List Byte), k.Fits cfg ∧ answers = k.answers ++ rest := by
  match answers, hlen with
  | divIrq :: flush :: l, hlen =>
    have hpolls : 258 ≤ l.length := by simpa using hlen
    rcases exists_polls (fun n => n &&& cfg.crcDone != 0) (n := 256) (l := l) (by omega) with
      ⟨polls, rest, rfl, hquiet, hn⟩ | ⟨polls, last, rest, rfl, hquiet, hn, hdone⟩
    · match rest with
      | [] | [_] => simp at hpolls; omega
      | lo :: hi :: rest =>
        exact ⟨⟨divIrq, flush, polls, none, lo, hi⟩, rest, ⟨by simpa using hquiet, hn⟩, by simp [CrcScript.answers]⟩
    · match rest with
      | [] | [_] => simp at hpolls; omega
      | lo :: hi :: rest =>
        exact ⟨⟨divIrq, flush, polls, some last, lo, hi⟩, rest,
          ⟨by simpa using hquiet, hn, by simpa using hdone⟩, by simp [CrcScript.answers]⟩

/-! ## The statements -/

/-- Settles O34: the polls split at the first that fires, and the answers after them are read by one of the endings. -/
theorem coursesComplete : Obligations.CoursesComplete :=
  fun cfg c _ => ⟨exists_exchange cfg c, exists_crc cfg⟩

/-- Settles O5: the listed turn is taken, and each agent's turn runs what its input decodes to. -/
theorem stepRunsDecoded : Obligations.StepRunsDecoded := by
  intro s st p q turns i hst
  refine ⟨fun bytes more ht hidle hq hd => ?_, fun ht hbusy hcur => ?_, fun e more ht hq hd hfree => ?_,
    fun c more ht hq hd hready => ?_⟩
  all_goals rw [step_of_turns ht]; simp only [takeTurn, Turn.station, hst]
  · exact hostTurn_decoded _ hidle hq hd
  · exact cpeTurn_known _ hbusy hcur
  · exact edgeTurn_decoded _ hq hd hfree
  · exact probeTurn_decoded _ hq hd hready

end Sys2Proof.Machine

/-! SUPPORT. The state family: the invariant of the machine and what every step leaves unchanged, each read off one
account of what a step, a turn and a command's turn can do. -/

namespace Sys2Proof.Machine

open Sys2Proof

/-! ## A step -/

/-- The moving station after a change of it. -/
theorem here_modify {f : Station → Station} {s : State} {st : Station} (h : s.here = some st) :
    (s.modifyHere f).here = some (f st) := by
  rw [State.here_modifyHere, h, Option.map_some]

/-- The choice of who moves is outside the invariant. -/
theorem State.Inv.nextTurn {s : State} (h : s.Inv) : (nextTurn s).2.Inv := by
  obtain ⟨hcfg, hstations, hlock, -⟩ := nextTurn_state s
  refine ⟨?_, ?_, ?_⟩
  · rw [hstations]; exact h.inhabited
  · rw [hlock, hstations]; exact h.owner
  · rw [hcfg, hlock, hstations]; exact h.station

/-- From a state that meets the invariant a step ends as the invariant allows. -/
theorem State.Inv.step_good {s : State} (h : s.Inv) : Good (step s) := takeTurn_inv h.nextTurn

/-- What a step leaves alone, with the choice of who moves left out. -/
theorem step_frame {s t : State} (h : step s = .next t) :
    t.cfg = s.cfg ∧ t.stations.length = s.stations.length ∧
    (∀ p, p ≠ (nextTurn s).1.station → t.stations[p]? = s.stations[p]?) ∧
    (∃ new, t.trace = s.trace ++ new ∧ ∀ x ∈ new, x.station = (nextTurn s).1.station) ∧
    (∀ owner, s.lockOwner = some owner → owner ≠ (nextTurn s).1.station →
      t.trace = s.trace ∧ t.lockOwner = some owner) ∧
    (t.lockOwner = s.lockOwner ∨
      (t.lockOwner = some (nextTurn s).1.station ∧ s.lockOwner = none) ∨
      (t.lockOwner = none ∧ s.lockOwner = some (nextTurn s).1.station)) := by
  obtain ⟨hcfg, hstations, hlock, htrace⟩ := nextTurn_state s
  rw [← hcfg, ← hstations, ← hlock, ← htrace]
  rcases step_turned h with ⟨rfl, -⟩ | hturn
  · exact ⟨rfl, rfl, fun _ _ => rfl, ⟨[], by simp⟩, fun _ howner _ => ⟨rfl, howner⟩, .inl rfl⟩
  · exact ⟨hturn.cfg, hturn.length, hturn.others, hturn.trace, hturn.foreign, hturn.lock⟩

/-- A step neither sees nor changes another station (R100). -/
theorem step_other {s : State} {p : Nat} (x : Station) (hp : p ≠ (nextTurn s).1.station) :
    step (s.other p x) = mapNext (State.other p x) (step s) := by
  simp only [step, nextTurn_other]
  exact takeTurn_local _ hp

/-- Settles O8: the turn taken keeps the invariant, and the choice of who moves is outside it. -/
theorem stepKeepsInv : Obligations.StepKeepsInv := by
  intro s t hinv hstep
  have hgood := hinv.step_good
  rwa [hstep] at hgood

/-- Settles O10: the moving station's turn commutes with a change of another station. -/
theorem stationIsolation : Obligations.StationIsolation := by
  intro s p other hp
  have hother : step { s with stations := s.stations.set p other } = mapNext (State.other p other) (step s) :=
    step_other other hp
  refine ⟨fun t hstep => ?_, fun e hstep => ?_, fun e hstep => ?_⟩ <;> rw [hstep] at hother
  · obtain ⟨-, -, hothers, -⟩ := step_frame hstep
    exact ⟨hothers p hp, hother⟩
  · exact hother
  · exact hother

/-- Settles O12: what a turn may do to the trace and the lock, for its own station and for a foreign owner. -/
theorem tenureExclusive : Obligations.TenureExclusive := by
  intro s t hstep
  obtain ⟨-, -, -, -, hforeign, hlock⟩ := step_frame hstep
  exact ⟨fun owner howner hne => hforeign owner howner hne.symm, hlock⟩

/-- Settles O9: without the lock a transaction faults, and the invariant has the lock wherever a transaction is due and
a command wherever one runs. -/
theorem noOwnershipFault : Obligations.NoOwnershipFault := by
  refine ⟨fun s a v hlock => ⟨busRead_not_owned a hlock, busWrite_not_owned a v hlock⟩, fun s p hinv hfault => ?_,
    fun s hinv hfault => ?_⟩ <;> have hgood := hinv.step_good <;> rw [hfault] at hgood
  · exact hgood
  · exact hgood rfl

/-- Settles O11. -/
theorem traceGrows : Obligations.TraceGrows := by
  intro s t hstep
  obtain ⟨hcfg, hlength, -, htrace, -⟩ := step_frame hstep
  exact ⟨hcfg, hlength, htrace⟩

/-! ## Block reset -/

theorem Station.reset_inv (cfg : Config) (p : Nat) (levels : Bool × Bool) :
    Station.Inv cfg none p (Station.reset cfg levels) where
  cancel_busy := nofun
  at_rest _ := ⟨rfl, rfl⟩
  running := nofun
  dead_free := nofun
  inited_rst := nofun
  tagged := nofun
  bounded _ _ := Nat.zero_le _
  res_fine := ⟨by simp [Station.reset, Res.absent], nofun⟩
  no_probe := rfl
  last_result := rfl

/-- Settles O7: every station after reset is IDLE with nothing latched, and the lock is free. -/
theorem resetInv : Obligations.ResetInv := by
  intro cfg first others
  refine ⟨by simp [State.resetWith], nofun, fun p st hst => ?_⟩
  obtain ⟨levels, -, rfl⟩ : ∃ levels, (first :: others)[p]? = some levels ∧ Station.reset cfg levels = st := by
    simpa only [State.resetWith, List.getElem?_map, Option.map_eq_some_iff] using hst
  exact Station.reset_inv cfg p levels

/-! ## Turns of the host, the canceller and the consumer -/

/-- Settles O15: acceptance is a command's turn without an atomic step, and a host turn asks for an IDLE station. -/
theorem commandLife : Obligations.CommandLife := by
  refine ⟨fun i g s st hgate hwf hst hidle hcheck hquantum => ?_, fun s st p q turns hturns hst hphase => ?_,
    fun s st r => rfl⟩
  · obtain ⟨prog, hprog⟩ := programOf_isSome hgate
    rw [exec_command hgate hprog, runCommand_accepts hst hidle hwf hcheck, hquantum]
    rfl
  · rw [step_of_turns hturns]
    simp only [takeTurn, Turn.station, hst, hostTurn]
    split
    · rename_i hidle _
      exact absurd hidle hphase
    · rfl

/-- Settles O50. -/
theorem cancelPulse : Obligations.CancelPulse := by
  intro s st p turns hturns hst
  rw [step_of_turns hturns]
  simp only [takeTurn, Turn.station, hst, cancelTurn]
  exact ⟨fun hbusy => if_pos hbusy, fun hrest => if_neg hrest⟩

/-- Settles O51: the read's two tests, the consumer's removal and the test of the hw_ok input. -/
theorem hostInteractions : Obligations.HostInteractions := by
  intro s st p turns hst
  refine ⟨fun f hturns hrest => ?_, fun hturns => ?_, fun b hturns => ?_⟩ <;> rw [step_of_turns hturns] <;>
    simp only [takeTurn, Turn.station, hst]
  · simp only [readResultTurn, if_neg hrest]
    exact ⟨fun hhas => if_pos hhas, fun hhas => if_neg (by simp [hhas])⟩
  · rfl
  · refine ⟨fun hfree => if_neg ?_, fun hbusy hcur hne => if_pos ⟨hbusy, hcur, hne⟩⟩
    rintro ⟨hbusy, hcur, -⟩
    exact hfree.elim (· hbusy) (· hcur)

/-! ## The decoder and the filter -/

/-- An edge leaves the moving station as it was, moves the environment's clock alone, or is accepted: what holds of all
three records holds of the record it leaves. -/
theorem handleEdge_induction {l : Line} {now : Nat} {f : Station → Station} {s t : State} {st : Station}
    {P : Station → Prop} (hst : s.here = some st) (h : handleEdge l now f s = .next t) (hheld : P st)
    (hignored : P { st with envNow := some now }) (haccepted : P { st.acceptEdge l now f with envNow := some now }) :
    ∃ st', t = s.modifyHere (fun _ => st') ∧ P st' := by
  rcases handleEdge_cases hst h with rfl | rfl | rfl
  · exact ⟨_, rfl, hheld⟩
  · exact ⟨_, rfl, hignored⟩
  · exact ⟨_, rfl, haccepted⟩

/-- A transition code is handled, or leaves the moving station as it was (R602, R603, R609). -/
theorem handleSum_induction {sum : BitVec 4} {s t : State} {st : Station} {P : Station → Prop} (hst : s.here = some st)
    (h : handleSum sum s = .next t) (hheld : P st) (hhandled : P (st.transition s.cfg s.sel sum)) :
    ∃ st', t = s.modifyHere (fun _ => st') ∧ P st' := by
  simp only [handleSum, hst] at h
  split at h
  · exact ⟨st, by rw [← self_modify hst]; exact (Host.Outcome.next.inj h).symm, hheld⟩
  · split at h
    · exact ⟨st, by rw [← self_modify hst]; exact (Host.Outcome.next.inj h).symm, hheld⟩
    · exact ⟨_, by rw [← modifyHere_const hst]; exact (Host.Outcome.next.inj h).symm, hhandled⟩

/-- A button edge changes the event stream alone (R607). -/
theorem onButtonEdge_shape (p : Nat) (btn : Bool) (st : Station) :
    st.onButtonEdge p btn = { st with events := (st.onButtonEdge p btn).events } := by
  cases btn <;> rfl

/-- Settles O59: the handlers write the decoder's registers and the event stream, the filter its own line's time. -/
theorem edgeFrame : Obligations.EdgeFrame := by
  intro now clk dt btn i s t st hst hexec
  refine ⟨?_, ?_, ?_, fun sum hcode => ?_⟩
  · rintro rfl
    refine handleEdge_induction hst hexec rfl rfl ?_
    rw [Station.acceptEdge, (encoder_handler _ _ _ _).shape]
    rfl
  · rintro rfl
    refine handleEdge_induction hst hexec rfl rfl ?_
    rw [Station.acceptEdge, (encoder_handler _ _ _ _).shape]
    rfl
  · rintro rfl
    refine handleEdge_induction hst hexec rfl rfl ?_
    rw [Station.acceptEdge, onButtonEdge_shape]
    rfl
  · rw [handleSum_of hcode] at hexec
    exact handleSum_induction hst hexec rfl (transition_shape _ _ _ _)

/-! ## Four steps -/

/-- The count of confirmed steps in a direction (R111, R112). -/
def Station.count (st : Station) : Direction → BitVec 2
  | .cw => st.cwCnt
  | .ccw => st.ccwCnt

/-- `turn_counter` after one more event of the direction (R113). -/
def Direction.turned : Direction → BitVec 32 → BitVec 32
  | .cw, n => n + 1
  | .ccw, n => n - 1

/-- A step in a direction counts modulo 4; only the step from count 3 emits and moves `turn_counter` (R604, R605). -/
theorem afterTransition_count (cfg : Config) (p : Nat) {sum : BitVec 4} {dir : Direction} (st : Station)
    (h : transitionClass sum = some dir) :
    (afterTransition cfg p sum st).count dir = st.count dir + 1 ∧
    (afterTransition cfg p sum st).events =
      (if st.count dir = 3 then st.events ++ [.turn p dir] else st.events) ∧
    (afterTransition cfg p sum st).turnCounter =
      (if st.count dir = 3 then dir.turned st.turnCounter else st.turnCounter) := by
  cases dir with
  | cw =>
    obtain ⟨hcount, hevents⟩ := after_cw cfg p sum st h
    refine ⟨hcount, hevents, ?_⟩
    simp only [afterTransition, h, Station.count, Direction.turned]
    exact apply_ite Station.turnCounter _ _ _
  | ccw =>
    obtain ⟨hcount, hevents⟩ := after_ccw cfg p sum st h
    refine ⟨hcount, hevents, ?_⟩
    simp only [afterTransition, h, Station.count, Direction.turned]
    exact apply_ite Station.turnCounter _ _ _

/-- A step in a direction completes at a live station whose stream has room or whose count is not 3 (R602, R609). -/
theorem exec_step {i : Instr} {sum : BitVec 4} {dir : Direction} {s : State} {st : Station} (hi : encode i = .qsum sum)
    (hclass : transitionClass sum = some dir) (hst : s.here = some st) (halive : st.phase ≠ .dead)
    (hroom : st.count dir = 3 → st.Room s.cfg) :
    exec i s = .next (s.modifyHere fun _ => afterTransition s.cfg s.sel sum st) := by
  have hfree : ¬ st.blocked s.cfg (Station.transition s.cfg s.sel sum) = true := by
    rw [blocked_iff, transition_eq, (afterTransition_count s.cfg s.sel st hclass).2.1]
    rintro ⟨hemits, hfull⟩
    split at hemits
    · exact hfull (hroom ‹_›)
    · exact lt_irrefl _ hemits
  rw [handleSum_of hi, handleSum, hst]
  simp only [if_neg halive, if_neg hfree]
  rw [modifyHere_const hst, transition_eq]

/-- Station `p` after `n` of the four steps in a direction, from the record `st`: the step that took the count past 3,
if it is among them, made the event. -/
structure Turning (dir : Direction) (p : Nat) (st : Station) (n : Nat) (st' : Station) : Prop where
  alive : st'.phase ≠ .dead
  count : (st'.count dir).toNat = ((st.count dir).toNat + n) % 4
  events : st'.events = if 4 ≤ (st.count dir).toNat + n then st.events ++ [.turn p dir] else st.events
  turned : st'.turnCounter = if 4 ≤ (st.count dir).toNat + n then dir.turned st.turnCounter else st.turnCounter

theorem Turning.zero {dir : Direction} {p : Nat} {st : Station} (halive : st.phase ≠ .dead) :
    Turning dir p st 0 st := by
  have hlt := (st.count dir).isLt
  exact ⟨halive, (Nat.mod_eq_of_lt hlt).symm, (if_neg (by omega)).symm, (if_neg (by omega)).symm⟩

/-- The count reads 3 exactly before the step that makes the event. -/
theorem Turning.count_eq_three {dir : Direction} {p n : Nat} {st st' : Station} (h : Turning dir p st n st')
    (hn : n < 4) : st'.count dir = 3 ↔ (st.count dir).toNat + n = 3 := by
  have hlt := (st.count dir).isLt
  rw [← BitVec.toNat_inj, h.count]
  simp only [BitVec.reduceToNat]
  omega

/-- What is done at count 3 has been done once past it. -/
theorem once_past_three {α : Type} (f : α → α) (a : α) (m : Nat) :
    (if m = 3 then f (if 4 ≤ m then f a else a) else if 4 ≤ m then f a else a) = if 4 ≤ m + 1 then f a else a := by
  by_cases hm : m = 3
  · subst hm
    rfl
  · have hpast : 4 ≤ m + 1 ↔ 4 ≤ m := by omega
    simp only [hm, hpast, if_false]

/-- The next of the four steps. -/
theorem Turning.succ {dir : Direction} {p n : Nat} {st st' : Station} (h : Turning dir p st n st') (hn : n < 4)
    (cfg : Config) {sum : BitVec 4} (hclass : transitionClass sum = some dir) :
    Turning dir p st (n + 1) (afterTransition cfg p sum st') := by
  obtain ⟨hcount, hevents, hturned⟩ := afterTransition_count cfg p st' hclass
  have hthree := h.count_eq_three hn
  refine ⟨?_, ?_, ?_, ?_⟩
  · rw [← transition_eq, Station.transition_phase]
    exact h.alive
  · rw [hcount, BitVec.toNat_add, h.count]
    exact Nat.mod_add_mod _ 4 1
  · simp only [hevents, h.events, hthree]
    exact once_past_three (· ++ [.turn p dir]) st.events _
  · simp only [hturned, h.turned, hthree]
    exact once_past_three dir.turned st.turnCounter _

/-- Before the step that makes the event the stream has the room it had at the start. -/
theorem Turning.room {cfg : Config} {dir : Direction} {p n : Nat} {st st' : Station} (h : Turning dir p st n st')
    (hn : n < 4) (hroom : st.Room cfg) (hthree : st'.count dir = 3) : st'.Room cfg := by
  have hbefore := (h.count_eq_three hn).1 hthree
  rw [Station.Room, h.events, if_neg (by omega)]
  exact hroom

/-- A transition code of the direction completes, and is the next of the four steps. -/
theorem exec_turning {i : Instr} {sum : BitVec 4} {dir : Direction} {n : Nat} {s t : State} {st st' : Station}
    (hi : encode i = .qsum sum) (hclass : transitionClass sum = some dir) (hn : n < 4) (hroom : st.Room s.cfg)
    (hcfg : t.cfg = s.cfg) (hsel : t.sel = s.sel) (hst : t.here = some st') (h : Turning dir s.sel st n st') :
    ∃ u st'', exec i t = .next u ∧ u.cfg = s.cfg ∧ u.sel = s.sel ∧ u.here = some st'' ∧
      Turning dir s.sel st (n + 1) st'' := by
  refine ⟨_, _, exec_step hi hclass hst h.alive fun hthree => ?_, hcfg, hsel, ?_, h.succ hn t.cfg hclass⟩
  · rw [hcfg]
    exact h.room hn hroom hthree
  · rw [State.here_modifyHere, hst, hsel]
    rfl

/-- Settles O57: four steps take the count through every value once, and the one that leaves 3 makes the event. -/
theorem fourStepsOneEvent : Obligations.FourStepsOneEvent := by
  intro i₁ i₂ i₃ i₄ a b c d dir s st hi₁ hi₂ hi₃ hi₄ ha hb hc hd hst halive hroom
  obtain ⟨t₁, st₁, hx₁, hcfg₁, hsel₁, hst₁, h₁⟩ :=
    exec_turning hi₁ ha (by omega) hroom rfl rfl hst (Turning.zero halive)
  obtain ⟨t₂, st₂, hx₂, hcfg₂, hsel₂, hst₂, h₂⟩ := exec_turning hi₂ hb (by omega) hroom hcfg₁ hsel₁ hst₁ h₁
  obtain ⟨t₃, st₃, hx₃, hcfg₃, hsel₃, hst₃, h₃⟩ := exec_turning hi₃ hc (by omega) hroom hcfg₂ hsel₂ hst₂ h₂
  obtain ⟨t₄, st₄, hx₄, -, -, hst₄, h₄⟩ := exec_turning hi₄ hd (by omega) hroom hcfg₃ hsel₃ hst₃ h₃
  have hlt := (st.count dir).isLt
  have hcount : st₄.count dir = st.count dir := BitVec.eq_of_toNat_eq (by rw [h₄.count]; omega)
  have hevents : st₄.events = st.events ++ [.turn s.sel dir] := by rw [h₄.events, if_pos (by omega)]
  have hturned : st₄.turnCounter = dir.turned st.turnCounter := by rw [h₄.turned, if_pos (by omega)]
  have hquiet : st.count dir = 0 → st₃.events = st.events := by
    intro hzero
    rw [h₃.events, hzero]
    rfl
  refine ⟨t₁, t₂, t₃, t₄, st₃, st₄, hx₁, hx₂, hx₃, hx₄, hst₃, hst₄, hevents, ?_, ?_⟩
  · rintro rfl
    exact ⟨hcount, hturned, hquiet⟩
  · rintro rfl
    exact ⟨hcount, hturned, hquiet⟩

/-! ## INIT -/

theorem cpeRun_sampleHw {prog : Prog CmdEnd} {k : Bool → Prog CmdEnd} {s : State} {st : Station} (q : Nat)
    (hst : s.here = some st) (hbusy : st.phase = .busy) (hp : prog.resume st.pos = .sampleHw k) :
    cpeRun (q + 1) prog s = cpeRun q prog (s.answered (flagByte st.hwOk)) :=
  cpeRun_busy q hst hbusy hp

theorem cpeRun_put {prog k : Prog CmdEnd} {w : RegWrite} {s : State} {st : Station} (q : Nat)
    (hst : s.here = some st) (hbusy : st.phase = .busy) (hp : prog.resume st.pos = .put w k) :
    cpeRun (q + 1) prog s = cpeRun q prog ((s.modifyHere w.apply).answered 0) :=
  cpeRun_busy q hst hbusy hp

/-- INIT that passes its checks samples hw_ok first (R802). -/
theorem exec_init_samples {s : State} {st : Station} (n : Nat) (hst : s.here = some st) (hidle : st.phase = .idle)
    (hinited : st.inited = false) (hfree : ¬ s.Owns) (hq : s.quantum = n + 1) :
    exec .init s = cpeRun n (initProg s.cfg)
      ((s.modifyHere (Station.accept (.known .init))).answered (flagByte st.hwOk)) := by
  have hlock : ¬ s.lockOwner = some s.sel := hfree
  rw [exec_command rfl rfl, runCommand_accepts hst hidle rfl (by simp [Gate.check, hinited, hlock]), hq]
  exact cpeRun_sampleHw (st := st.accept (.known .init)) n (here_accept .init hst) rfl (Prog.resume_nil _)

/-- With hw_ok 0 INIT ends after the sample, whoever holds the lock (R802). -/
theorem exec_init_hwFail {s : State} {st : Station} (hst : s.here = some st) (hidle : st.phase = .idle)
    (hinited : st.inited = false) (hfree : ¬ s.Owns) (hhw : st.hwOk = false) (hq : 2 ≤ s.quantum) :
    exec .init s = .next (s.completed .init [] s.lockOwner [] st.chipQ (Res.ofStatus .hwFail)) := by
  obtain ⟨n, hn⟩ : ∃ n, s.quantum = n + 1 + 1 := ⟨s.quantum - 2, by omega⟩
  rw [exec_init_samples _ hst hidle hinited hfree hn, hhw,
    cpeRun_done n (here_answered _ (here_accept .init hst)) rfl rfl]
  refine congrArg Host.Outcome.next ?_
  rw [State.completed, State.mk.injEq]
  exact ⟨rfl, (modify_three _ _ _ _ _ _ fun _ => rfl).trans (modify_at hst rfl), rfl, (List.append_nil _).symm, rfl,
    rfl, rfl, rfl⟩

/-- With hw_ok 1 INIT drives the reset line and stands at its acquire, where it waits while another station holds the
lock (R652, R802). -/
theorem exec_init_waits {s : State} {st : Station} {owner : Nat} (hst : s.here = some st) (hidle : st.phase = .idle)
    (hinited : st.inited = false) (hfree : ¬ s.Owns) (hcancel : st.cancelReq = false)
    (howner : s.lockOwner = some owner) (hhw : st.hwOk = true) (hq : 2 ≤ s.quantum) :
    exec .init s = .next (s.modifyHere fun st =>
      { st with cur := some (.known .init), phase := .busy, pos := [1, 0], attempts := 0, rstOut := true }) := by
  obtain ⟨n, hn⟩ : ∃ n, s.quantum = n + 1 + 1 := ⟨s.quantum - 2, by omega⟩
  have hsampled := here_answered (flagByte true) (here_accept .init hst)
  have hdriven := here_modify (f := RegWrite.rstOut.apply) hsampled
  rw [exec_init_samples _ hst hidle hinited hfree hn, hhw, cpeRun_put n hsampled rfl rfl,
    cpeRun_hold n (here_answered 0 hdriven) rfl rfl hcancel howner]
  refine congrArg Host.Outcome.next ?_
  simp only [State.answered, State.modifyHere_modifyHere]
  rfl

/-- With the lock free and hw_ok 1 INIT completes in one tenure, given the run of its antenna part (R405, R802). -/
theorem exec_init_completes {s : State} {st : Station} {rest : List Byte} {txns : List Txn} {n : Nat}
    (hst : s.here = some st) (hidle : st.phase = .idle) (hinited : st.inited = false) (hcancel : st.cancelReq = false)
    (hlock : s.lockOwner = none) (hhw : st.hwOk = true) (hq : s.cfg.initWrites.length + n + 7 ≤ s.quantum)
    (hantenna : (antennaOn s.cfg).run s.sel true true st.chipQ = some ⟨(), txns, [], n, true, rest⟩) :
    exec .init s = .next (s.completed .init
      ([wrTxn s.sel s.cfg.aCommand s.cfg.cmdSoftReset] ++ (s.cfg.initWrites.map fun w => wrTxn s.sel w.1 w.2) ++ txns)
      none [.rstOut, .inited] rest (Res.ofStatus .ok)) := by
  have hrun := initProg_run s.cfg s.sel st.chipQ rest txns n hantenna
  rw [← hhw] at hrun
  rw [exec_command rfl rfl]
  exact runCommand_completes (owns := false) hst hidle hcancel rfl (by simp [Gate.check, hinited, hlock]) hlock hrun rfl
    (by dsimp only; omega)

/-- Settles O20: hw_ok decides, the lock decides next, and with both the antenna's state gives the two runs. -/
theorem initRuns : Obligations.InitRuns := by
  refine ⟨fun s st hst hidle hinited hfree hhw hq => exec_init_hwFail hst hidle hinited hfree hhw hq,
    fun s st v rest hst hidle hinited hcancel hlock hhw hchip hv hq => ?_,
    fun s st v w rest hst hidle hinited hcancel hlock hhw hchip hv hq => ?_,
    fun s st owner hst hidle hinited hcancel howner hne hhw hq => ?_, fun s rest hR => ?_⟩
  · exact exec_init_completes hst hidle hinited hcancel hlock hhw (by omega)
      (by rw [hchip]; exact antennaOn_run_on s.cfg s.sel true v rest hv)
  · exact exec_init_completes hst hidle hinited hcancel hlock hhw (by omega)
      (by rw [hchip]; exact antennaOn_run_off s.cfg s.sel true v w rest hv)
  · have hother : ¬ s.Owns := by simpa [State.Owns, howner] using hne
    exact exec_init_waits hst hidle hinited hother hcancel howner hhw hq
  · obtain ⟨hq, st, hst, hbusy, hcur, hpos, hcancel, -⟩ := hR
    rw [exec_command rfl rfl, runCommand_continues hst hbusy hcur]
    exact cpeRun_cancel _ hst hbusy (by rw [hpos]; rfl) hcancel hq

/-! ## AUTH -/

/-- The run of AUTH (R504). -/
theorem authProg_run (cfg : Config) (p : Nat) (hw : Bool) (m b : Byte) (k u rest : List Byte) (x : ExchangeScript)
    (s2 : Byte) (hx : x.Fits cfg cfg.cmdAuthent) :
    (authProg cfg m b k u).run p hw true (x.answers cfg cfg.cmdAuthent ++ [s2] ++ rest) =
      some ⟨.done { Res.ofStatus (x.outcome cfg cfg.cmdAuthent).status with warn := some (s2 &&& 0x08 == 0) },
        x.records cfg p cfg.cmdAuthent ([m, b] ++ k ++ u.take 4) ++ [rdTxn p cfg.aStatus2 s2],
        authWrites (s2 &&& 0x08 == 0),
        x.steps cfg cfg.cmdAuthent ([m, b] ++ k ++ u.take 4) + if s2 &&& 0x08 == 0 then 3 else 2, true, rest⟩ := by
  rw [List.append_assoc]
  exact Prog.run_map _ (authenticate_run cfg p hw m b k u rest x s2 hx)

/-- Settles O40: the run of authenticate, whose last write of auth_warn is the one that stays. -/
theorem authRuns : Obligations.AuthRuns := by
  intro m b k u s hk hu
  have hwf : (Instr.auth m b k u).wf = true := by simp [Instr.wf, hk, hu]
  refine ⟨fun howns x s2 rest hx hready => ?_, unless_held rfl⟩
  rw [ready_low hready howns rfl rfl hwf rfl (fun hw => authProg_run s.cfg s.sel hw m b k u rest x s2 hx) rfl ?_ rfl]
  · exact congrArg _ (completed_writes (applyWrites_authWrites _))
  · dsimp only
    split <;> omega

/-! ## The numbers of an exchange -/

theorem irqMasks_authent {cfg : Config} {c : Byte} (h : c = cfg.cmdAuthent) : irqMasks cfg c = (0x12, 0x10) := if_pos h

theorem irqMasks_receives {cfg : Config} {c : Byte} (hauth : c ≠ cfg.cmdAuthent)
    (h : c = cfg.cmdReceive ∨ c = cfg.cmdTransceive) : irqMasks cfg c = (0x77, 0x30) :=
  (if_neg hauth).trans (if_pos h)

theorem irqMasks_other {cfg : Config} {c : Byte} (hauth : c ≠ cfg.cmdAuthent)
    (h : ¬ (c = cfg.cmdReceive ∨ c = cfg.cmdTransceive)) : irqMasks cfg c = (0x00, 0x00) :=
  (if_neg hauth).trans (if_neg h)

/-- The timer bit is enabled for RECEIVE and TRANSCEIVE only (R450). -/
theorem receives_of_timer_enabled {cfg : Config} {c fire : Byte} (h : fire &&& (irqMasks cfg c).1 &&& 0x01 ≠ 0) :
    c ≠ cfg.cmdAuthent ∧ (c = cfg.cmdReceive ∨ c = cfg.cmdTransceive) := by
  by_cases hauth : c = cfg.cmdAuthent
  · refine absurd ?_ h
    rw [irqMasks_authent hauth, BitVec.and_assoc]
    exact BitVec.and_zero
  · by_cases hreceives : c = cfg.cmdReceive ∨ c = cfg.cmdTransceive
    · exact ⟨hauth, hreceives⟩
    · refine absurd ?_ h
      rw [irqMasks_other hauth hreceives, BitVec.and_assoc]
      exact BitVec.and_zero

/-- A byte's worth of level and last bits gives a bit length below 2^12. -/
theorem bitLength_lt {level last : Nat} (hlevel : level < 256) (hlast : last < 256) : bitLength level last < 4096 := by
  unfold bitLength
  split
  · omega
  · split <;> omega

/-- With at most 7 last bits the bit length tells the FIFO level for whole bytes and for one short byte (R454). -/
theorem bitLength_of_last_le {level last : Nat} (hlevel : level < 256) (hlast : last ≤ 7) :
    bitLength level last ≤ 2040 ∧ (bitLength level last = 24 → level = 3) ∧ (bitLength level last = 4 → level = 1) := by
  unfold bitLength
  split
  · omega
  · split <;> omega

/-- An exchange drains nothing, or its bit length is that of the level read and it drains the level's bytes up to 16
(R453, R454). -/
theorem ExchangeScript.Fits.outcome_length {cfg : Config} {c : Byte} {x : ExchangeScript} (h : x.Fits cfg c) :
    ((x.outcome cfg c).bitlen = 0 ∧ (x.outcome cfg c).bytes = []) ∨
    ∃ level control : Byte, (x.outcome cfg c).bitlen = bitLength level.toNat (control &&& cfg.lastBitsMask).toNat ∧
      (x.outcome cfg c).bytes.length = min level.toNat 16 := by
  obtain ⟨-, hend⟩ := h
  unfold ExchangeScript.outcome
  cases hx : x.ending with
  | timeout => exact .inl ⟨rfl, rfl⟩
  | error fire err => exact .inl ⟨rfl, rfl⟩
  | reply fire err level control bytes =>
    rw [hx] at hend
    by_cases hc : c = cfg.cmdTransceive
    · refine .inr ⟨level, control, ?_, ?_⟩
      · rw [bitLength_eq]
        exact if_pos hc
      · simpa only [if_pos hc] using hend.2.2.2 hc
    · exact .inl ⟨if_neg hc, if_neg hc⟩

/-- NOTAG comes from the enabled timer bit (R453). -/
theorem ExchangeScript.receives_of_noTag {cfg : Config} {c : Byte} {x : ExchangeScript}
    (h : (x.outcome cfg c).status = .noTag) :
    c ≠ cfg.cmdAuthent ∧ (c = cfg.cmdReceive ∨ c = cfg.cmdTransceive) := by
  unfold ExchangeScript.outcome at h
  split at h
  · cases h
  · cases h
  · dsimp only at h
    split at h
    · exact receives_of_timer_enabled ‹_›
    · cases h

/-- Settles O33: the masks case by case, and the bit length as a function of a level below 256. -/
theorem exchangeNumbers : Obligations.ExchangeNumbers := by
  intro cfg c n
  refine ⟨irqMasks_authent, irqMasks_receives, fun hauth hreceive htransceive => ?_, fun x hx => ?_⟩
  · rw [irqMasks_other hauth (not_or.2 ⟨hreceive, htransceive⟩)]
    exact ⟨rfl, by simp [fires, timerIrq]⟩
  · refine ⟨ExchangeScript.receives_of_noTag, ?_⟩
    rcases hx.outcome_length with ⟨hbits, hbytes⟩ | ⟨level, control, hbits, hbytes⟩
    · simp [hbits, hbytes]
    · rw [hbits, hbytes]
      refine ⟨bitLength_lt level.isLt (BitVec.isLt _), min_le_right _ _, fun hmask => ?_⟩
      have hlast : (control &&& cfg.lastBitsMask).toNat ≤ 7 := by
        rw [hmask, BitVec.toNat_and]
        exact Nat.and_le_right
      obtain ⟨hmax, hthree, hone⟩ := bitLength_of_last_le level.isLt hlast
      refine ⟨hmax, fun h => ?_, fun h => ?_⟩
      · rw [hthree h]
        rfl
      · rw [hone h]
        rfl

/-! ## Which block registers and lock actions a program has -/

/-- The program writes only block registers that satisfy `W`, and acts on the lock only if `L`. -/
def Prog.Within {α : Type} (W : RegWrite → Prop) (L : Prop) : Prog α → Prop
  | .ret _ | .abort => True
  | .rd _ k => ∀ b, (k b).Within W L
  | .wr _ _ k => k.Within W L
  | .suspend k | .sampleHw k => ∀ b, (k b).Within W L
  | .acquire k | .release k => L ∧ k.Within W L
  | .put w k => W w ∧ k.Within W L

section
variable {α β : Type} {W : RegWrite → Prop} {L : Prop}

theorem Prog.Within.bind {prog : Prog α} {f : α → Prog β} (h : prog.Within W L) (hf : ∀ a, (f a).Within W L) :
    (prog.bind f).Within W L := by
  induction prog with
  | ret a => exact hf a
  | abort => trivial
  | rd a k ih => exact fun b => ih b (h b)
  | wr a v k ih => exact ih h
  | suspend k ih => exact fun b => ih b (h b)
  | acquire k ih => exact ⟨h.1, ih h.2⟩
  | release k ih => exact ⟨h.1, ih h.2⟩
  | sampleHw k ih => exact fun b => ih b (h b)
  | put w k ih => exact ⟨h.1, ih h.2⟩

theorem Prog.Within.seq {prog : Prog α} {next : Prog β} (h : prog.Within W L) (hnext : next.Within W L) :
    (prog.seq next).Within W L := h.bind fun _ => hnext

theorem Prog.Within.resume {prog : Prog α} (h : prog.Within W L) (answers : List Byte) :
    (prog.resume answers).Within W L := by
  induction answers generalizing prog with
  | nil => rwa [Prog.resume_nil]
  | cons b rest ih =>
    cases prog with
    | ret a => trivial
    | abort => trivial
    | rd a k => exact ih (h b)
    | wr a v k => exact ih h
    | suspend k => exact ih (h _)
    | acquire k => exact ih h.2
    | release k => exact ih h.2
    | sampleHw k => exact ih (h _)
    | put w k => exact ih h.2

theorem writeRegister_within (a : RegAddr) (v : Byte) : (writeRegister a v).Within W L := trivial

theorem setBits_within (a : RegAddr) (m : Byte) : (setBits a m).Within W L := fun _ => trivial

theorem clearBits_within (a : RegAddr) (m : Byte) : (clearBits a m).Within W L := fun _ => trivial

theorem endOk_within : endOk.Within W L := trivial

theorem antennaOn_within (cfg : Config) : (antennaOn cfg).Within W L := by
  intro v
  dsimp only
  split
  · exact setBits_within _ _
  · trivial

theorem pushFifo_within (cfg : Config) (p : List Byte) : (pushFifo cfg p).Within W L := by
  induction p with
  | nil => trivial
  | cons b rest ih => exact ih

theorem issueWrites_within (l : List (RegAddr × Byte)) : (issueWrites l).Within W L := by
  induction l with
  | nil => trivial
  | cons w rest ih => exact ih

theorem pollIrq_within (cfg : Config) (wait : Byte) (k : Nat) : (pollIrq cfg wait k).Within W L := by
  induction k with
  | zero => trivial
  | succ n ih =>
    intro b
    dsimp only
    split
    · trivial
    · split
      · trivial
      · intro c
        dsimp only
        split
        · trivial
        · exact ih

theorem pollCrc_within (cfg : Config) (k : Nat) : (pollCrc cfg k).Within W L := by
  induction k with
  | zero => trivial
  | succ n ih =>
    intro b
    dsimp only
    split
    · trivial
    · exact ih

theorem drainFifo_within (cfg : Config) (k : Nat) : (drainFifo cfg k).Within W L := by
  induction k with
  | zero => trivial
  | succ n ih => exact fun b => ih.bind fun _ => trivial

theorem finishExchange_within (cfg : Config) (c en n : Byte) : (finishExchange cfg c en n).Within W L := by
  intro e
  dsimp only
  split
  · trivial
  · split
    · exact fun lvl ctl => (drainFifo_within _ _).bind fun _ => trivial
    · trivial

theorem startExchange_within (cfg : Config) (c : Byte) (p : List Byte) : (startExchange cfg c p).Within W L :=
  (writeRegister_within _ _).seq <| (clearBits_within _ _).seq <| (setBits_within _ _).seq <|
    (writeRegister_within _ _).seq <| (pushFifo_within _ _).seq <| writeRegister_within _ _

theorem toCard_within (cfg : Config) (c : Byte) (p : List Byte) : (toCard cfg c p).Within W L := by
  refine (startExchange_within _ _ _).seq (Prog.Within.seq ?_ ((pollIrq_within _ _ _).bind fun poll =>
    (clearBits_within _ _).seq ?_))
  · split
    · exact setBits_within _ _
    · trivial
  · cases poll with
    | fired n => exact finishExchange_within _ _ _ _
    | timeout => trivial
    | cancelled => trivial

theorem calculateCrc_within (cfg : Config) (p : List Byte) : (calculateCrc cfg p).Within W L :=
  (clearBits_within _ _).seq <| (setBits_within _ _).seq <| (pushFifo_within _ _).seq <|
    (writeRegister_within _ _).seq <| (pollCrc_within _ _).seq fun _ _ => trivial

theorem sendRequest_within (cfg : Config) (m : Byte) : (sendRequest cfg m).Within W L :=
  (writeRegister_within _ _).seq (toCard_within _ _ _)

theorem sendAnticoll_within (cfg : Config) : (sendAnticoll cfg).Within W L :=
  (writeRegister_within _ _).seq (toCard_within _ _ _)

theorem request_within (cfg : Config) (m : Byte) : (request cfg m).Within W L :=
  (sendRequest_within _ _).bind fun _ => trivial

theorem anticollision_within (cfg : Config) : (anticollision cfg).Within W L :=
  (sendAnticoll_within _).bind fun _ => trivial

theorem selectTag_within (cfg : Config) (u : List Byte) : (selectTag cfg u).Within W L :=
  (calculateCrc_within _ _).bind fun _ => (toCard_within _ _ _).bind fun _ => trivial

theorem authenticate_within (hW : ∀ b, W (.authWarn b)) (cfg : Config) (m b : Byte) (k u : List Byte) :
    (authenticate cfg m b k u).Within W L := by
  refine ⟨hW _, (toCard_within _ _ _).bind fun x s2 => ?_⟩
  dsimp only
  split
  · exact ⟨hW _, trivial⟩
  · trivial

theorem stopCrypto_within (cfg : Config) : (stopCrypto cfg).Within W L := clearBits_within _ _

theorem readBlock_within (cfg : Config) (b : Byte) : (readBlock cfg b).Within W L :=
  (calculateCrc_within _ _).bind fun _ => (toCard_within _ _ _).bind fun _ => trivial

theorem writeBlock_within (cfg : Config) (b : Byte) (d : List Byte) : (writeBlock cfg b d).Within W L := by
  refine (calculateCrc_within _ _).bind fun _ => (toCard_within _ _ _).bind fun x => ?_
  split
  · exact (calculateCrc_within _ _).bind fun _ => (toCard_within _ _ _).bind fun _ => trivial
  · trivial

theorem preamble_within (cfg : Config) : (preamble cfg).Within W L := by
  refine (request_within _ _).bind fun r => ?_
  split
  · trivial
  · exact (anticollision_within _).bind fun _ => trivial

theorem readBlocks_within (cfg : Config) (bs : List Byte) : (readBlocks cfg bs).Within W L := by
  induction bs with
  | nil => trivial
  | cons b rest ih =>
    refine (readBlock_within _ _).bind fun r => ?_
    cases r with
    | none => trivial
    | some d => exact ih.bind fun _ => trivial

theorem writeBlocks_within (cfg : Config) (parts : List (Byte × List Byte)) : (writeBlocks cfg parts).Within W L := by
  induction parts with
  | nil => trivial
  | cons part rest ih =>
    refine (writeBlock_within _ _ _).bind fun st => ?_
    split
    · trivial
    · exact ih

theorem sectorAttempt_within (hW : ∀ b, W (.authWarn b)) (cfg : Config) (n : Byte) {body : Prog (Option (List Byte))}
    (hbody : body.Within W L) : (sectorAttempt cfg n body).Within W L := by
  refine (preamble_within _).bind fun p => ?_
  cases p with
  | none => trivial
  | some u =>
    refine (selectTag_within _ _).bind fun sel => ?_
    cases sel with
    | none => trivial
    | some _ =>
      refine (authenticate_within hW _ _ _ _ _).bind fun a => ?_
      split
      · exact (stopCrypto_within _).seq trivial
      · exact hbody.bind fun _ => (stopCrypto_within _).seq trivial

theorem tryReadIdentifier_within (cfg : Config) : (tryReadIdentifier cfg).Within W L :=
  (preamble_within _).bind fun _ => trivial

theorem tryReadSector_within (hW : ∀ b, W (.authWarn b)) (cfg : Config) (n : Byte) :
    (tryReadSector cfg n).Within W L := sectorAttempt_within hW _ _ (readBlocks_within _ _)

theorem tryWriteSector_within (hW : ∀ b, W (.authWarn b)) (cfg : Config) (t : List Byte) (n : Byte) :
    (tryWriteSector cfg t n).Within W L :=
  sectorAttempt_within hW _ _ ((writeBlocks_within _ _).bind fun _ => trivial)

theorem attempt_within (hL : L) {body : Prog α} (hbody : body.Within W L) : (attempt body).Within W L :=
  ⟨hL, hbody.bind fun _ => ⟨hL, trivial⟩⟩

theorem once_within (hL : L) {body : Prog Attempt} (hbody : body.Within W L)
    (found : BitVec 40 × List Byte → Option Bool → Res) : (once body found).Within W L := by
  refine (attempt_within hL hbody).bind fun r => ?_
  split <;> trivial

theorem blocking_within (hL : L) {body : Prog Attempt} (hbody : body.Within W L)
    (found : BitVec 40 × List Byte → Option Bool → Res) : (blocking body found).Within W L := by
  intro c
  dsimp only
  split
  · trivial
  · refine (attempt_within hL hbody).bind fun r => ?_
    split <;> trivial

theorem initProg_within (hL : L) (hrst : W .rstOut) (hinited : W .inited) (cfg : Config) :
    (initProg cfg).Within W L := by
  intro b
  dsimp only
  split
  · exact ⟨hrst, hL, (writeRegister_within _ _).seq <| (issueWrites_within _).seq <| (antennaOn_within _).seq
      ⟨hinited, hL, endOk_within⟩⟩
  · trivial

end

/-- The block registers a command may write besides `res`: INIT its two, authenticate its `auth_warn` (R504, R802). -/
def MayWrite (i : Instr) : RegWrite → Prop
  | .rstOut | .inited => i = .init
  | .authWarn _ => runsAuthenticate i = true

/-- A command writes its own registers only, and only those of the lock column act on the lock (R652). -/
theorem programOf_within {cfg : Config} {i : Instr} {prog : Prog CmdEnd} (hp : programOf cfg i = some prog) :
    prog.Within (MayWrite i) (usesLock i = true) := by
  cases i with
  | init => cases hp; exact initProg_within (W := MayWrite .init) rfl rfl rfl cfg
  | acquire => cases hp; exact ⟨rfl, trivial⟩
  | release => cases hp; exact ⟨rfl, trivial⟩
  | regRead a => cases hp; exact fun _ => trivial
  | regWrite a v => cases hp; exact (writeRegister_within _ _).seq endOk_within
  | setBits a m => cases hp; exact (setBits_within _ _).seq endOk_within
  | clearBits a m => cases hp; exact (clearBits_within _ _).seq endOk_within
  | chipReset => cases hp; exact (writeRegister_within _ _).seq endOk_within
  | antennaOn => cases hp; exact (antennaOn_within _).seq endOk_within
  | toCard c d => cases hp; exact (toCard_within _ _ _).bind fun _ => trivial
  | calcCrc d => cases hp; exact (calculateCrc_within _ _).bind fun _ => trivial
  | request m => cases hp; exact (request_within _ _).bind fun _ => trivial
  | anticoll => cases hp; exact (anticollision_within _).bind fun _ => trivial
  | select u => cases hp; exact (selectTag_within _ _).bind fun _ => trivial
  | auth m b k u =>
    cases hp
    exact (authenticate_within (fun _ => rfl) _ _ _ _ _).bind fun _ => trivial
  | stopCrypto => cases hp; exact (stopCrypto_within _).seq endOk_within
  | readBlock b => cases hp; exact (readBlock_within _ _).bind fun _ => trivial
  | writeBlock b d => cases hp; exact (writeBlock_within _ _ _).bind fun _ => trivial
  | tryReadId => cases hp; exact once_within rfl (tryReadIdentifier_within _) _
  | tryReadSector n => cases hp; exact once_within rfl (tryReadSector_within (fun _ => rfl) _ _) _
  | tryWriteSector t n =>
    cases hp
    exact once_within rfl (tryWriteSector_within (fun _ => rfl) _ _ _) _
  | readId => cases hp; exact blocking_within rfl (tryReadIdentifier_within _) _
  | readSector n => cases hp; exact blocking_within rfl (tryReadSector_within (fun _ => rfl) _ _) _
  | writeSector t n =>
    cases hp
    exact blocking_within rfl (tryWriteSector_within (fun _ => rfl) _ _ _) _
  | frameRequest m => cases hp; exact (sendRequest_within _ _).bind fun _ => trivial
  | frameAnticoll => cases hp; exact (sendAnticoll_within _).bind fun _ => trivial
  | frameSelect u lo hi => cases hp; exact (toCard_within _ _ _).bind fun _ => trivial
  | frameAuth m b k u => cases hp; exact (toCard_within _ _ _).bind fun _ => trivial
  | frameRead b lo hi => cases hp; exact (toCard_within _ _ _).bind fun _ => trivial
  | frameWritePhase1 b lo hi => cases hp; exact (toCard_within _ _ _).bind fun _ => trivial
  | frameWritePhase2 d lo hi => cases hp; exact (toCard_within _ _ _).bind fun _ => trivial
  | _ => cases hp

/-! ## The card engine's turn at its own station -/

/-- The station's record with the fields of its card engine cleared: what is left is the decoder's, the filter's and the
inputs' but for the chip's answers. -/
def Station.withoutEngine (st : Station) : Station :=
  { st with
    phase := .idle, inited := false, cur := none, cancelReq := false, res := Res.absent, results := [],
    authWarn := false, rstOut := false, pos := [], attempts := 0, chipQ := [] }

/-- What the card engine may change of its station while it runs command `i`. -/
structure EngineMove (i : Instr) (st st' : Station) : Prop where
  outside : st'.withoutEngine = st.withoutEngine
  chip : ∃ used, st.chipQ = used ++ st'.chipQ
  init : i ≠ .init → st'.inited = st.inited ∧ st'.rstOut = st.rstOut
  auth : runsAuthenticate i = false → st'.authWarn = st.authWarn

/-- Every field outside the card engine is as before. -/
theorem EngineMove.field {α : Type} {i : Instr} {st st' : Station} (h : EngineMove i st st') (field : Station → α) :
    field st'.withoutEngine = field st.withoutEngine := congrArg field h.outside

theorem EngineMove.refl (i : Instr) (st : Station) : EngineMove i st st :=
  ⟨rfl, ⟨[], rfl⟩, fun _ => ⟨rfl, rfl⟩, fun _ => rfl⟩

theorem EngineMove.trans {i : Instr} {st st' st'' : Station} (h : EngineMove i st st') (h' : EngineMove i st' st'') :
    EngineMove i st st'' := by
  obtain ⟨used, hused⟩ := h.chip
  obtain ⟨used', hused'⟩ := h'.chip
  exact ⟨h'.outside.trans h.outside, ⟨used ++ used', by rw [hused, hused', List.append_assoc]⟩,
    fun hi => ⟨(h'.init hi).1.trans (h.init hi).1, (h'.init hi).2.trans (h.init hi).2⟩,
    fun hi => (h'.auth hi).trans (h.auth hi)⟩

theorem EngineMove.accept (i : Instr) (st : Station) (c : Command) : EngineMove i st (st.accept c) :=
  ⟨rfl, ⟨[], rfl⟩, fun _ => ⟨rfl, rfl⟩, fun _ => rfl⟩

theorem EngineMove.finish (i : Instr) (st : Station) (r : Res) : EngineMove i st (st.finish r) :=
  ⟨rfl, ⟨[], rfl⟩, fun _ => ⟨rfl, rfl⟩, fun _ => rfl⟩

theorem EngineMove.advance (i : Instr) (st : Station) (b : Byte) : EngineMove i st (st.advance b) :=
  ⟨rfl, ⟨[], rfl⟩, fun _ => ⟨rfl, rfl⟩, fun _ => rfl⟩

theorem EngineMove.takeAnswer (i : Instr) (st : Station) : EngineMove i st { st with chipQ := st.chipQ.tail } :=
  ⟨rfl, ⟨st.chipQ.take 1, by rw [← List.drop_one, List.take_append_drop]⟩, fun _ => ⟨rfl, rfl⟩, fun _ => rfl⟩

theorem EngineMove.nextAttempt (i : Instr) (st : Station) (m : Option Nat) : EngineMove i st (st.nextAttempt m) := by
  unfold Station.nextAttempt
  split
  · exact .finish i st _
  · exact ⟨rfl, ⟨[], rfl⟩, fun _ => ⟨rfl, rfl⟩, fun _ => rfl⟩

theorem EngineMove.apply {i : Instr} {w : RegWrite} (st : Station) (hw : MayWrite i w) :
    EngineMove i st (w.apply st) := by
  cases w with
  | rstOut => exact ⟨rfl, ⟨[], rfl⟩, fun hi => absurd hw hi, fun _ => rfl⟩
  | inited => exact ⟨rfl, ⟨[], rfl⟩, fun hi => absurd hw hi, fun _ => rfl⟩
  | authWarn b => exact ⟨rfl, ⟨[], rfl⟩, fun _ => ⟨rfl, rfl⟩, fun hi => absurd (hi.symm.trans hw) Bool.false_ne_true⟩

/-- A transaction happens with the lock, and is one record (R210, R651). -/
theorem busRead_eq_next {a : RegAddr} {s t : State} (h : busRead a s = .next t) :
    t = (s.record .rd a s.answer).takeAnswer := by
  unfold busRead at h
  split at h
  · exact (Host.Outcome.next.inj h).symm
  · cases h

theorem busWrite_eq_next {a : RegAddr} {v : Byte} {s t : State} (h : busWrite a v s = .next t) :
    t = s.record .wr a v := by
  unfold busWrite at h
  split at h
  · exact (Host.Outcome.next.inj h).symm
  · cases h

/-- The lock after a command that does not use it: as before, or given back by its own abort (R661). -/
def LockKept (s t : State) (st' : Station) : Prop :=
  t.lockOwner = s.lockOwner ∨ (s.Owns ∧ t.lockOwner = none ∧ st'.res = Res.ofStatus .cancelled ∧ st'.phase ≠ .busy)

/-- From `s`, where the moving station's record is `st`, the card engine came to `t` by moves for command `i`. -/
def Engaged (i : Instr) (s t : State) (st : Station) : Prop :=
  ∃ st', t.here = some st' ∧ EngineMove i st st' ∧ (usesLock i = false → LockKept s t st')

theorem Engaged.abort (i : Instr) {s : State} {st : Station} (hst : s.here = some st) : Engaged i s s.abort st := by
  refine ⟨_, here_modify (s.here_releaseLock.trans hst), .finish i st _, fun _ => ?_⟩
  by_cases howns : s.lockOwner = some s.sel
  · exact .inr ⟨howns, by simp [howns], rfl, by simp [Res.ofStatus]⟩
  · exact .inl (by simp [howns])

/-- One atomic step, at a node of the program of command `i`. -/
theorem cpeNode_engaged {i : Instr} {node : Prog CmdEnd} {s t : State} {st : Station} (hst : s.here = some st)
    (hnode : node.Within (MayWrite i) (usesLock i = true)) (h : cpeNode node st s = .next t) : Engaged i s t st := by
  cases node with
  | ret e =>
    cases e with
    | done r =>
      cases h
      exact ⟨_, here_modify hst, .finish i st r, fun _ => .inl rfl⟩
    | again =>
      cases h
      exact ⟨_, here_modify hst, .nextAttempt i st _, fun _ => .inl rfl⟩
  | abort =>
    cases h
    exact .abort i hst
  | rd a k =>
    obtain ⟨s', hbus, hnext⟩ := onNext_eq_next h
    cases hnext
    cases busRead_eq_next hbus
    exact ⟨_, here_answered _ (State.here_takeAnswer (s := s.record .rd a s.answer) hst),
      (EngineMove.takeAnswer i st).trans (.advance i _ _), fun _ => .inl (by simp)⟩
  | wr a v k =>
    obtain ⟨s', hbus, hnext⟩ := onNext_eq_next h
    cases hnext
    cases busWrite_eq_next hbus
    exact ⟨_, here_answered 0 hst, .advance i st 0, fun _ => .inl rfl⟩
  | suspend k =>
    cases h
    exact ⟨_, here_answered _ hst, .advance i st _, fun _ => .inl rfl⟩
  | acquire k =>
    simp only [cpeNode] at h
    split at h
    · cases h
      exact .abort i hst
    · split at h
      · cases h
        exact ⟨_, here_answered 0 hst, .advance i st 0, fun hfree => absurd hnode.1 (by simp [hfree])⟩
      · cases h
        exact ⟨st, hst, .refl i st, fun _ => .inl rfl⟩
  | release k =>
    cases h
    exact ⟨_, here_answered 0 (s.here_releaseLock.trans hst), .advance i st 0,
      fun hfree => absurd hnode.1 (by simp [hfree])⟩
  | sampleHw k =>
    cases h
    exact ⟨_, here_answered _ hst, .advance i st _, fun _ => .inl rfl⟩
  | put w k =>
    cases h
    exact ⟨_, here_answered 0 (here_modify hst), (EngineMove.apply st hnode.1).trans (.advance i _ 0),
      fun _ => .inl rfl⟩

/-- Any number of atomic steps: until the first that ends the command the lock is kept, and after it there are none. -/
theorem cpeRun_engaged {i : Instr} {prog : Prog CmdEnd} (q : Nat) {s t : State} {st : Station} (hst : s.here = some st)
    (hprog : prog.Within (MayWrite i) (usesLock i = true)) (h : cpeRun q prog s = .next t) : Engaged i s t st := by
  induction q generalizing s st with
  | zero =>
    cases h
    exact ⟨st, hst, .refl i st, fun _ => .inl rfl⟩
  | succ n ih =>
    by_cases hbusy : st.phase = .busy
    · rw [cpeRun_busy n hst hbusy rfl] at h
      obtain ⟨s', hnode, hrun⟩ := onNext_eq_next h
      have hturn := cpeNode_turned hnode
      obtain ⟨st', hst', hmove, hlock⟩ := cpeNode_engaged hst (hprog.resume st.pos) hnode
      obtain ⟨st'', hst'', hmove', hlock'⟩ := ih hst' hrun
      refine ⟨st'', hst'', hmove.trans hmove', fun hfree => ?_⟩
      rcases hlock hfree with hkept | ⟨howns, hnone, hres, hended⟩
      · simpa only [LockKept, State.Owns, hkept, hturn.sel] using hlock' hfree
      · rw [cpeRun_rest n hst' hended] at hrun
        cases hrun
        cases hst'.symm.trans hst''
        exact .inr ⟨howns, hnone, hres, hended⟩
    · rw [cpeRun_rest _ hst hbusy] at h
      cases h
      exact ⟨st, hst, .refl i st, fun _ => .inl rfl⟩

/-- A turn with command `i`: its acceptance, if it is accepted here, and then its atomic steps. -/
theorem runCommand_engaged {i : Instr} {gate : Gate} {prog : Prog CmdEnd} {s t : State} {st : Station}
    (hst : s.here = some st) (hprog : prog.Within (MayWrite i) (usesLock i = true))
    (h : runCommand i gate prog s = .next t) : Engaged i s t st := by
  simp only [runCommand, hst] at h
  have hnoMove : Engaged i s s st := ⟨st, hst, .refl i st, fun _ => .inl rfl⟩
  split at h
  · cases h
    exact hnoMove
  · split at h
    · exact cpeRun_engaged _ hst hprog h
    · cases h
      exact hnoMove
  · split at h
    · split at h
      · cases h
        exact ⟨_, here_modify hst, (EngineMove.accept i st _).trans (.finish i _ _), fun _ => .inl rfl⟩
      · obtain ⟨st', hst', hmove, hlock⟩ := cpeRun_engaged _ (here_accept i hst) hprog h
        exact ⟨st', hst', (EngineMove.accept i st _).trans hmove, hlock⟩
    · cases h

/-- Whatever exec does with an instruction that has a program is a turn of its card engine. -/
theorem exec_engaged {i : Instr} {prog : Prog CmdEnd} {s t : State} {st : Station}
    (hp : programOf s.cfg i = some prog) (hst : s.here = some st) (h : exec i s = .next t) : Engaged i s t st := by
  cases hg : hostGate s.cfg i with
  | some gate => exact runCommand_engaged hst (programOf_within hp) (exec_command hg hp ▸ h)
  | none => exact runCommand_engaged hst (programOf_within hp) (exec_frame hg hp ▸ h)

/-- Settles O58: outside the station by what a turn leaves alone, at the station by what its engine may change. -/
theorem commandFrame : Obligations.CommandFrame := by
  intro i prog s t st hp hst hexec
  have hturn := exec_turned hexec
  obtain ⟨st', hst', hmove, hlock⟩ := exec_engaged hp hst hexec
  refine ⟨hturn.cfg, hturn.turns, hturn.sel, hturn.quantum, hturn.length, hturn.others, hturn.trace, st', hst',
    hmove.field Station.lastEnc, hmove.field Station.cwCnt, hmove.field Station.ccwCnt, hmove.field Station.turnCounter,
    hmove.field Station.lastAccClk, hmove.field Station.lastAccDt, hmove.field Station.lastAccBtn,
    hmove.field Station.events,
    hmove.field Station.hwOk, hmove.field Station.hostQ, hmove.field Station.edgeQ, hmove.field Station.probeQ,
    hmove.field Station.envNow, hmove.chip, hmove.init, hmove.auth, fun hfree => ?_⟩
  rcases hlock hfree with hkept | ⟨howns, hnone, hres, -⟩
  · exact .inl hkept
  · exact .inr ⟨howns, hnone, hres⟩

/-! ## What a step does to the record of one station -/

/-- A turn's own change of its station's record, with no instruction run. -/
inductive OwnMove (st : Station) : Station → Prop
  | illegal (hostQ : List (List Byte)) (op : Byte) (operands : List Byte) (halive : st.phase ≠ .dead) :
    OwnMove st ((Station.accept (.reserved op operands) { st with hostQ := hostQ }).finish (Res.ofStatus .illegal))
  | cancel (hbusy : st.phase = .busy) : OwnMove st { st with cancelReq := true }
  | consume : OwnMove st { st with events := st.events.tail }
  | supplyHwOk (b : Bool) : OwnMove st { st with hwOk := b }

/-- What a turn that answers `t` does from `s`, where its station's record is `st`: nothing, a change of its own, or an
instruction, whose input is taken first. -/
inductive TurnEffect (st : Station) (s t : State) : Prop
  | noMove (h : t = s)
  | own (st' : Station) (hown : OwnMove st st') (h : t = s.modifyHere fun _ => st')
  | runs (i : Instr) (hostQ : List (List Byte)) (edgeQ : List EdgeRec) (probeQ : List InnerCode)
    (h : exec i (s.modifyHere fun _ => { st with hostQ := hostQ, edgeQ := edgeQ, probeQ := probeQ }) = .next t)

/-- An instruction run with its input taken. -/
theorem TurnEffect.of_exec {f : Station → Station} {st : Station} {s t : State} {i : Instr} (hst : s.here = some st)
    (hf : f st = { st with hostQ := (f st).hostQ, edgeQ := (f st).edgeQ, probeQ := (f st).probeQ })
    (h : exec i (s.modifyHere f) = .next t) : TurnEffect st s t := by
  rw [modifyHere_const hst, hf] at h
  exact .runs i _ _ _ h

theorem hostTurn_effect {st : Station} {s t : State} (hst : s.here = some st) (h : hostTurn st s = .next t) :
    TurnEffect st s t := by
  simp only [hostTurn] at h
  split at h
  · rename_i bytes rest hidle hq
    split at h
    · exact .of_exec hst rfl h
    · rename_i op _
      cases h
      refine .own _ (.illegal rest op bytes.tail (by simp [hidle])) ?_
      rw [State.illegal, State.modifyHere_modifyHere, modifyHere_const hst]
      rfl
    · cases h
  · cases h
    exact .noMove rfl

theorem cpeTurn_effect {st : Station} {s t : State} (hst : s.here = some st) (h : cpeTurn st s = .next t) :
    TurnEffect st s t := by
  simp only [cpeTurn] at h
  split at h
  · rename_i hbusy
    split at h
    · rw [self_modify hst] at h
      exact .runs _ st.hostQ st.edgeQ st.probeQ h
    · rename_i op operands _
      cases h
      refine .own _ (.illegal st.hostQ op operands (by simp [hbusy])) ?_
      rw [State.illegal, modifyHere_const hst]
    · cases h
  · cases h
    exact .noMove rfl
  · cases h
    exact .noMove rfl

theorem edgeTurn_effect {st : Station} {s t : State} (hst : s.here = some st) (h : edgeTurn st s = .next t) :
    TurnEffect st s t := by
  simp only [edgeTurn] at h
  split at h
  · cases h
    exact .noMove rfl
  · split at h
    · split at h
      · cases h
        exact .noMove rfl
      · exact .of_exec hst rfl h
    · cases h

theorem probeTurn_effect {st : Station} {s t : State} (hst : s.here = some st) (h : probeTurn st s = .next t) :
    TurnEffect st s t := by
  simp only [probeTurn] at h
  split at h
  · cases h
    exact .noMove rfl
  · split at h
    · split at h
      · exact .of_exec hst rfl h
      · cases h
        exact .noMove rfl
    · cases h

theorem takeTurn_effect {tn : Turn} {st : Station} {s t : State} (hst : s.stations[tn.station]? = some st)
    (h : takeTurn tn s = .next t) : TurnEffect st (s.select tn) t := by
  have hhere : (s.select tn).here = some st := hst
  simp only [takeTurn, hst] at h
  cases tn with
  | host p q => exact hostTurn_effect hhere h
  | cpe p q => exact cpeTurn_effect hhere h
  | edge p => exact edgeTurn_effect hhere h
  | probe p q => exact probeTurn_effect hhere h
  | cancel p =>
    simp only [cancelTurn] at h
    split at h
    · cases h
      exact .own _ (.cancel ‹_›) (modifyHere_const hhere)
    · cases h
      exact .noMove rfl
  | consume p =>
    cases h
    exact .own _ .consume (modifyHere_const hhere)
  | readResult p f =>
    simp only [readResultTurn] at h
    split at h
    · cases h
      exact .noMove rfl
    · split at h
      · cases h
        exact .noMove rfl
      · cases h
  | supplyHwOk p b =>
    simp only [hwOkTurn] at h
    split at h
    · cases h
    · cases h
      exact .own _ (.supplyHwOk b) (modifyHere_const hhere)

/-- A step leaves the record of a station as it was, or is a turn of that station. -/
theorem step_effect {s t : State} {p : Nat} {st : Station} (h : step s = .next t) (hst : s.stations[p]? = some st) :
    t.stations[p]? = some st ∨ ∃ s' : State, s'.sel = p ∧ s'.here = some st ∧ TurnEffect st s' t := by
  by_cases hp : p = (nextTurn s).1.station
  · subst hp
    obtain ⟨-, hstations, -⟩ := nextTurn_state s
    rw [← hstations] at hst
    exact .inr ⟨(nextTurn s).2.select (nextTurn s).1, rfl, hst, takeTurn_effect hst h⟩
  · obtain ⟨-, -, hothers, -⟩ := step_frame h
    exact .inl ((hothers p hp).trans hst)

/-- What holds of a record that stays and of every record a turn of the station leaves holds after a step. -/
theorem step_induction {s t : State} {p : Nat} {st : Station} {P : Station → Prop} (h : step s = .next t)
    (hst : s.stations[p]? = some st) (hstays : P st) (hown : ∀ st', OwnMove st st' → P st')
    (hruns : ∀ (i : Instr) (s' : State) (hostQ : List (List Byte)) (edgeQ : List EdgeRec) (probeQ : List InnerCode),
      s'.sel = p → s'.here = some { st with hostQ := hostQ, edgeQ := edgeQ, probeQ := probeQ } → exec i s' = .next t →
      ∃ st', t.here = some st' ∧ P st') :
    ∃ st', t.stations[p]? = some st' ∧ P st' := by
  rcases step_effect h hst with hsame | ⟨s', rfl, hhere, heffect⟩
  · exact ⟨st, hsame, hstays⟩
  · cases heffect with
    | noMove h =>
      subst h
      exact ⟨st, hhere, hstays⟩
    | own st' hmove h =>
      subst h
      exact ⟨st', modifyHere_get hhere, hown st' hmove⟩
    | runs i hostQ edgeQ probeQ h =>
      have hsel : t.sel = s'.sel := (exec_turned h).sel
      obtain ⟨st', hst', hP⟩ := hruns i (s'.modifyHere fun _ => _) hostQ edgeQ probeQ rfl (here_modify hhere) h
      rw [State.here, hsel] at hst'
      exact ⟨st', hst', hP⟩

/-! ## A DEAD station -/

theorem handleEdge_of_dead {l : Line} {now : Nat} {f : Station → Station} {s t : State} {st : Station}
    (hst : s.here = some st) (hdead : st.phase = .dead) (h : handleEdge l now f s = .next t) :
    t.here = some { st with envNow := some now } := by
  by_cases htime : st.InTime now
  · rw [handleEdge_dead hst hdead htime] at h
    cases h
    exact here_modify hst
  · rw [handleEdge_early hst htime] at h
    cases h

/-- At a DEAD station an instruction moves at most the chip's answers and the environment's clock (R602, R716). -/
theorem exec_dead {i : Instr} {s t : State} {st : Station} (hst : s.here = some st) (hdead : st.phase = .dead)
    (h : exec i s = .next t) : ∃ chipQ envNow, t.here = some { st with chipQ := chipQ, envNow := envNow } := by
  cases exec_shape i s with
  | command gate prog hp hg hexec =>
    rw [hexec, runCommand, hst] at h
    simp only [hdead] at h
    cases h
    exact ⟨_, _, hst⟩
  | read a hi hexec =>
    rw [hexec] at h
    cases busRead_eq_next h
    exact ⟨_, _, State.here_takeAnswer (s := s.record .rd a s.answer) hst⟩
  | write a v hi hexec =>
    rw [hexec] at h
    cases busWrite_eq_next h
    exact ⟨_, _, hst⟩
  | encoder l now clk dt hl hexec =>
    exact ⟨_, _, handleEdge_of_dead hst hdead (hexec ▸ h)⟩
  | button now btn hexec => exact ⟨_, _, handleEdge_of_dead hst hdead (hexec ▸ h)⟩
  | sum sum hi hexec =>
    rw [hexec, handleSum, hst] at h
    simp only [hdead] at h
    cases h
    exact ⟨_, _, hst⟩

/-- Settles O13: a DEAD station has no move of its own but the consumer's and the host's input. -/
theorem deadStaysDead : Obligations.DeadStaysDead := by
  intro s t p st hstep hst hdead
  refine step_induction hstep hst ⟨hdead, rfl, rfl, rfl, rfl, .inl rfl⟩ (fun st' hown => ?_)
    fun i s' hostQ edgeQ probeQ hsel hhere hexec => ?_
  · cases hown with
    | illegal hostQ op operands halive => exact absurd hdead halive
    | cancel hbusy => exact absurd (hdead.symm.trans hbusy) (by simp)
    | consume => exact ⟨hdead, rfl, rfl, rfl, rfl, .inr rfl⟩
    | supplyHwOk b => exact ⟨hdead, rfl, rfl, rfl, rfl, .inl rfl⟩
  · obtain ⟨chipQ, envNow, hst'⟩ := exec_dead hhere hdead hexec
    exact ⟨_, hst', hdead, rfl, rfl, rfl, rfl, .inl rfl⟩

/-! ## The event stream -/

/-- What one step may do to the event stream and `turn_counter` of station `p` (R113, R117, R605, R608). -/
def StreamStep (p : Nat) (st st' : Station) : Prop :=
  (st'.events = st.events ∧ st'.turnCounter = st.turnCounter) ∨
  (st'.events = st.events.tail ∧ st'.turnCounter = st.turnCounter) ∨
  (st'.events = st.events ++ [.button p] ∧ st'.turnCounter = st.turnCounter) ∨
  (st'.events = st.events ++ [.turn p .cw] ∧ st'.turnCounter = st.turnCounter + 1) ∨
  (st'.events = st.events ++ [.turn p .ccw] ∧ st'.turnCounter = st.turnCounter - 1)

theorem StreamStep.refl (p : Nat) (st : Station) : StreamStep p st st := .inl ⟨rfl, rfl⟩

theorem transition_streamStep (cfg : Config) (p : Nat) (sum : BitVec 4) (st : Station) :
    StreamStep p st (st.transition cfg p sum) := by
  rw [transition_eq]
  cases hclass : transitionClass sum with
  | none => exact .inl (by simp [afterTransition, hclass])
  | some dir =>
    obtain ⟨-, hevents, hturned⟩ := afterTransition_count cfg p st hclass
    by_cases hthree : st.count dir = 3
    · rw [if_pos hthree] at hevents hturned
      cases dir with
      | cw => exact .inr (.inr (.inr (.inl ⟨hevents, hturned⟩)))
      | ccw => exact .inr (.inr (.inr (.inr ⟨hevents, hturned⟩)))
    · rw [if_neg hthree] at hevents hturned
      exact .inl ⟨hevents, hturned⟩

theorem onButtonEdge_streamStep (p : Nat) (btn : Bool) (st : Station) : StreamStep p st (st.onButtonEdge p btn) := by
  cases btn with
  | true => exact .refl p st
  | false => exact .inr (.inr (.inl ⟨rfl, rfl⟩))

/-- The filter's time is no part of the stream. -/
theorem StreamStep.of_setLastAcc {p : Nat} {l : Line} {now : Nat} {st st' : Station}
    (h : StreamStep p (st.setLastAcc l now) st') : StreamStep p st st' := by
  simpa only [StreamStep, Station.setLastAcc_events, Station.setLastAcc_turnCounter] using h

theorem handleEdge_streamStep {l : Line} {now : Nat} {f : Station → Station} {s t : State} {st : Station}
    (hf : ∀ st, StreamStep s.sel st (f st)) (hst : s.here = some st) (h : handleEdge l now f s = .next t) :
    ∃ st', t.here = some st' ∧ StreamStep s.sel st st' := by
  obtain ⟨st', rfl, hstep⟩ := handleEdge_induction (P := StreamStep s.sel st) hst h (.refl _ st) (.inl ⟨rfl, rfl⟩)
    (StreamStep.of_setLastAcc (hf (st.setLastAcc l now)))
  exact ⟨st', here_modify hst, hstep⟩

/-- Commands and transactions leave the stream alone, handlers add at most one event. -/
theorem exec_streamStep {i : Instr} {s t : State} {st : Station} (hst : s.here = some st) (h : exec i s = .next t) :
    ∃ st', t.here = some st' ∧ StreamStep s.sel st st' := by
  cases exec_shape i s with
  | command gate prog hp hg hexec =>
    obtain ⟨st', hst', hmove, -⟩ := exec_engaged hp hst h
    exact ⟨st', hst', .inl ⟨hmove.field Station.events, hmove.field Station.turnCounter⟩⟩
  | read a hi hexec =>
    rw [hexec] at h
    cases busRead_eq_next h
    exact ⟨_, State.here_takeAnswer (s := s.record .rd a s.answer) hst, .inl ⟨rfl, rfl⟩⟩
  | write a v hi hexec =>
    rw [hexec] at h
    cases busWrite_eq_next h
    exact ⟨st, hst, .refl _ st⟩
  | encoder l now clk dt hl hexec =>
    exact handleEdge_streamStep (fun _ => transition_streamStep _ _ _ _) hst (hexec ▸ h)
  | button now btn hexec => exact handleEdge_streamStep (onButtonEdge_streamStep _ _) hst (hexec ▸ h)
  | sum sum hi hexec =>
    obtain ⟨st', rfl, hstep⟩ := handleSum_induction (P := StreamStep s.sel st) hst (hexec ▸ h) (.refl _ st)
      (transition_streamStep _ _ _ _)
    exact ⟨st', here_modify hst, hstep⟩

/-- Settles O14: of a turn's own moves only the consumer's touches the stream, of the instructions the handlers' do. -/
theorem eventStream : Obligations.EventStream := by
  intro s t p st st' hstep hst hst'
  have hexists : ∃ x, t.stations[p]? = some x ∧ StreamStep p st x := by
    refine step_induction hstep hst (.refl p st) (fun x hown => ?_) fun i s' hostQ edgeQ probeQ hsel hhere hexec => ?_
    · cases hown with
      | consume => exact .inr (.inl ⟨rfl, rfl⟩)
      | illegal hostQ op operands halive => exact .inl ⟨rfl, rfl⟩
      | cancel hbusy => exact .inl ⟨rfl, rfl⟩
      | supplyHwOk b => exact .inl ⟨rfl, rfl⟩
    · subst hsel
      obtain ⟨x, hx, hstream⟩ := exec_streamStep hhere hexec
      exact ⟨x, hx, hstream⟩
  obtain ⟨x, hx, hstream⟩ := hexists
  cases hst'.symm.trans hx
  exact hstream

end Sys2Proof.Machine

/-! SUPPORT. The memory family: a register transaction set at the bus, by the rules of `busRead` and `busWrite`. -/

namespace Sys2Proof.Machine

open Sys2Proof

/-! ## The chip's answer to a read -/

/-- With no listed answer the chip answers the free value. -/
theorem State.answer_nil {s : State} {st : Station} (h : s.here = some st) (hc : st.chipQ = []) :
    s.answer = Config.freeByte s.draws := by
  simp [State.answer, h, hc]

/-- A free value is used up by the count of draws. -/
theorem State.takeAnswer_nil {s : State} {st : Station} (h : s.here = some st) (hc : st.chipQ = []) :
    s.takeAnswer = { s with draws := s.draws + 1 } := by
  simp [State.takeAnswer, h, hc]

/-- What is left of the chip's answers is the list after the one that was used up. -/
theorem State.takeAnswer_rest {s : State} {st : Station} {b : Byte} {rest : List Byte} (h : s.here = some st)
    (hc : st.chipQ = b :: rest) : s.takeAnswer = s.modifyHere fun st => { st with chipQ := rest } := by
  have htail : ({ st with chipQ := st.chipQ.tail } : Station) = { st with chipQ := rest } := by rw [hc, List.tail_cons]
  rw [State.takeAnswer_cons h hc, modifyHere_const h, modifyHere_const (f := fun st => { st with chipQ := rest }) h, htail]

/-! ## Transactions at the bus -/

theorem exec_txaddrRead (a : RegAddr) (s : State) : exec (.txaddrRead a) s = busRead a s := rfl

theorem exec_txaddrWrite (a : RegAddr) (v : Byte) (s : State) : exec (.txaddrWrite a v) s = busWrite a v s := rfl

/-- A read of the owner with a listed answer (R210): that answer is recorded and used up. -/
theorem busRead_cons {s : State} {st : Station} {v : Byte} {rest : List Byte} (a : RegAddr) (howns : s.Owns)
    (hst : s.here = some st) (hc : st.chipQ = v :: rest) :
    busRead a s = .next ((s.record .rd a v).modifyHere fun st => { st with chipQ := rest }) := by
  have hrec : (s.record .rd a v).here = some st := hst
  rw [busRead_owned a howns, State.answer_cons hst hc, State.takeAnswer_rest hrec hc]

/-- A read of the owner with no listed answer (R210, R40): a draw of the free value is recorded. -/
theorem busRead_nil {s : State} {st : Station} (a : RegAddr) (howns : s.Owns) (hst : s.here = some st)
    (hc : st.chipQ = []) :
    busRead a s = .next { s.record .rd a (Config.freeByte s.draws) with draws := s.draws + 1 } := by
  have hrec : (s.record .rd a (Config.freeByte s.draws)).here = some st := hst
  rw [busRead_owned a howns, State.answer_nil hst hc, State.takeAnswer_nil hrec hc, State.record_draws]

/-- Settles O31: the owner's read with and without a listed answer, and its write. -/
theorem transactionsRun : Obligations.TransactionsRun := by
  intro s st a howns hst
  refine ⟨fun v rest hc => ?_, fun hc => ?_, fun v => ?_⟩
  · rw [exec_txaddrRead, busRead_cons a howns hst hc]; rfl
  · rw [exec_txaddrRead, busRead_nil a howns hst hc]; rfl
  · rw [exec_txaddrWrite, busWrite_owned a v howns]; rfl

end Sys2Proof.Machine

/-! SUPPORT. The encoding family: the decoder is inverse to the encoder format by format, and what a command record, a
transition code, a card command or a frame does at an IDLE station. -/

namespace Sys2Proof.Machine

open Sys2Proof

/-! ## Operand bytes of a host command -/

/-- The instruction is well formed and its code word is `c`. -/
def Encodes (c : Code) (i : Instr) : Prop := i.wf = true ∧ encode i = c

/-- What the operand bytes after an opcode can be answered with: for an opcode of R311 the instruction they encode, or
the refusal of their length (R712); for any other that it is reserved (R350). -/
inductive OperandsAnswer (op : Byte) (bytes : List Byte) : Except Reject Instr → Prop
  | ok (i : Instr) (hlisted : (operandBytes op).isSome) (hcode : Encodes (.hcmd (op :: bytes)) i) :
    OperandsAnswer op bytes (.ok i)
  | malformed (hlisted : (operandBytes op).isSome) : OperandsAnswer op bytes (.error (.malformedCommand op))
  | reserved (hreserved : operandBytes op = none) : OperandsAnswer op bytes (.error (.reservedOpcode op))

section
variable {op : Byte} (bytes : List Byte) (hlisted : (operandBytes op).isSome)
include hlisted

theorem noOperands_answer {i : Instr} (h : Encodes (.hcmd [op]) i) :
    OperandsAnswer op bytes (noOperands op i bytes) := by
  match bytes with
  | [] => exact .ok i hlisted h
  | _ :: _ => exact .malformed hlisted

theorem oneByte_answer {f : Byte → Instr} (h : ∀ a, Encodes (.hcmd [op, a]) (f a)) :
    OperandsAnswer op bytes (oneByte op f bytes) := by
  match bytes with
  | [a] => exact .ok _ hlisted (h a)
  | [] | _ :: _ :: _ => exact .malformed hlisted

theorem twoBytes_answer {f : Byte → Byte → Instr} (h : ∀ a b, Encodes (.hcmd [op, a, b]) (f a b)) :
    OperandsAnswer op bytes (twoBytes op f bytes) := by
  match bytes with
  | [a, b] => exact .ok _ hlisted (h a b)
  | [] | [_] | _ :: _ :: _ :: _ => exact .malformed hlisted

theorem byteThenList_answer {f : Byte → List Byte → Instr}
    (h : ∀ a rest, Encodes (.hcmd (op :: a :: rest)) (f a rest)) :
    OperandsAnswer op bytes (byteThenList op f bytes) := by
  match bytes with
  | a :: rest => exact .ok _ hlisted (h a rest)
  | [] => exact .malformed hlisted

theorem listThenByte_answer {f : List Byte → Byte → Instr}
    (h : ∀ text n, Encodes (.hcmd (op :: (text ++ [n]))) (f text n)) :
    OperandsAnswer op bytes (listThenByte op f bytes) := by
  unfold listThenByte
  split
  · rename_i n hlast
    have hcode := h bytes.dropLast n
    rw [List.dropLast_append_getLast? n hlast] at hcode
    exact .ok _ hlisted hcode
  · exact .malformed hlisted

theorem uidOperand_answer {f : List Byte → Instr} (h : bytes.length = 5 → Encodes (.hcmd (op :: bytes)) (f bytes)) :
    OperandsAnswer op bytes (uidOperand op f bytes) := by
  unfold uidOperand
  split
  · exact .ok _ hlisted (h ‹_›)
  · exact .malformed hlisted

theorem authOperands_answer {f : Byte → Byte → List Byte → List Byte → Instr}
    (h : ∀ m b key uid, key.length = 6 → uid.length = 5 →
      Encodes (.hcmd (op :: m :: b :: (key ++ uid))) (f m b key uid)) :
    OperandsAnswer op bytes (authOperands op f bytes) := by
  match bytes with
  | [] | [_] => exact .malformed hlisted
  | m :: b :: rest =>
    simp only [authOperands]
    split
    · rename_i hlen
      have hcode := h m b (rest.take 6) (rest.drop 6) (by simp [hlen]) (by simp [hlen])
      rw [List.take_append_drop] at hcode
      exact .ok _ hlisted hcode
    · exact .malformed hlisted

end

theorem select_encodes {uid : List Byte} (h : uid.length = 5) : Encodes (.hcmd (0x32 :: uid)) (.select uid) :=
  ⟨by simp [Instr.wf, h], rfl⟩

theorem auth_encodes (m b : Byte) {key uid : List Byte} (hkey : key.length = 6) (huid : uid.length = 5) :
    Encodes (.hcmd (0x33 :: m :: b :: (key ++ uid))) (.auth m b key uid) :=
  ⟨by simp [Instr.wf, hkey, huid], rfl⟩

/-- The opcode map row by row (R311). -/
theorem decodeOperands_answer (op : Byte) (bytes : List Byte) :
    OperandsAnswer op bytes (decodeOperands op bytes) := by
  unfold decodeOperands
  split
  · exact noOperands_answer bytes rfl ⟨rfl, rfl⟩
  · exact noOperands_answer bytes rfl ⟨rfl, rfl⟩
  · exact noOperands_answer bytes rfl ⟨rfl, rfl⟩
  · exact oneByte_answer bytes rfl fun _ => ⟨rfl, rfl⟩
  · exact twoBytes_answer bytes rfl fun _ _ => ⟨rfl, rfl⟩
  · exact twoBytes_answer bytes rfl fun _ _ => ⟨rfl, rfl⟩
  · exact twoBytes_answer bytes rfl fun _ _ => ⟨rfl, rfl⟩
  · exact noOperands_answer bytes rfl ⟨rfl, rfl⟩
  · exact noOperands_answer bytes rfl ⟨rfl, rfl⟩
  · exact byteThenList_answer bytes rfl fun _ _ => ⟨rfl, rfl⟩
  · exact .ok _ rfl ⟨rfl, rfl⟩
  · exact oneByte_answer bytes rfl fun _ => ⟨rfl, rfl⟩
  · exact noOperands_answer bytes rfl ⟨rfl, rfl⟩
  · exact uidOperand_answer bytes rfl select_encodes
  · exact authOperands_answer bytes rfl fun m b _ _ hkey huid => auth_encodes m b hkey huid
  · exact noOperands_answer bytes rfl ⟨rfl, rfl⟩
  · exact oneByte_answer bytes rfl fun _ => ⟨rfl, rfl⟩
  · exact byteThenList_answer bytes rfl fun _ _ => ⟨rfl, rfl⟩
  · exact noOperands_answer bytes rfl ⟨rfl, rfl⟩
  · exact oneByte_answer bytes rfl fun _ => ⟨rfl, rfl⟩
  · exact listThenByte_answer bytes rfl fun _ _ => ⟨rfl, rfl⟩
  · exact noOperands_answer bytes rfl ⟨rfl, rfl⟩
  · exact oneByte_answer bytes rfl fun _ => ⟨rfl, rfl⟩
  · exact listThenByte_answer bytes rfl fun _ _ => ⟨rfl, rfl⟩
  · exact .reserved (by simp_all only [operandBytes])

/-! ## The decoder is inverse to the encoder -/

theorem decodeHcmd_encodes {bytes : List Byte} {i : Instr} (h : decodeHcmd bytes = .ok i) :
    Encodes (.hcmd bytes) i := by
  cases bytes with
  | nil => cases h
  | cons op bytes =>
    have hanswer := decodeOperands_answer op bytes
    rw [show decodeOperands op bytes = .ok i from h] at hanswer
    cases hanswer with
    | ok _ _ hcode => exact hcode

theorem decodeInev_encodes {e : EdgeRec} {i : Instr} (h : decodeInev e = .ok i) : Encodes (.inev e) i := by
  obtain ⟨line, now, clk, dt, btn⟩ := e
  simp only [decodeInev] at h
  split at h <;> cases h <;> exact ⟨rfl, rfl⟩

theorem decodeQsum_encodes (sum : BitVec 4) : Encodes (.qsum sum) (decodeQsum sum) := by
  unfold Encodes
  revert sum
  decide

/-- A byte with bit 0 clear is the first byte of a transaction (R322). -/
theorem txAddrByte_fields {b : Byte} (h : b.getLsbD 0 = false) :
    txAddrByte (b.getLsbD 7) (b.extractLsb' 1 6) = b := by
  revert b
  decide

theorem decodeTxaddr_encodes {b0 b1 : Byte} {i : Instr} (h : decodeTxaddr b0 b1 = .ok i) :
    Encodes (.txaddr b0 b1) i := by
  unfold decodeTxaddr at h
  split at h
  · cases h
  · rename_i hbit
    have hbyte := txAddrByte_fields (Bool.eq_false_iff.2 hbit)
    split at h
    · rename_i hread
      rw [hread] at hbyte
      split at h
      · rename_i hzero
        cases h
        exact ⟨rfl, by rw [encode, hbyte, hzero]⟩
      · cases h
    · rename_i hwrite
      rw [Bool.eq_false_iff.2 hwrite] at hbyte
      cases h
      exact ⟨rfl, by rw [encode, hbyte]⟩

theorem decodeWholeFrame_encodes {bytes : List Byte} {i : Instr} (h : decodeWholeFrame bytes = .ok i) :
    Encodes (wholeFrame bytes) i := by
  unfold decodeWholeFrame at h
  split at h
  · split at h
    · rename_i ha
      cases h
      exact ⟨rfl, by rw [ha]; rfl⟩
    · split at h
      · rename_i ha
        cases h
        exact ⟨rfl, by rw [ha]; rfl⟩
      · cases h
  · split at h
    · rename_i hab
      cases h
      exact ⟨rfl, by rw [hab.1, hab.2]; rfl⟩
    · cases h
  · cases h
    exact ⟨rfl, rfl⟩
  · cases h

theorem decodeFrame_encodes {m : FrameMsg} {i : Instr} (h : decodeFrame m = .ok i) : Encodes (.frame m) i := by
  obtain ⟨authent, framing, bytes⟩ := m
  simp only [decodeFrame] at h
  split at h
  · cases h
    exact ⟨rfl, rfl⟩
  · split at h
    · rename_i hab
      cases h
      exact ⟨rfl, by rw [hab.1, hab.2]; rfl⟩
    · cases h
  · cases h
    exact ⟨rfl, rfl⟩
  · exact decodeWholeFrame_encodes h
  · cases h

theorem decode_encodes {c : Code} {i : Instr} (h : decode c = .ok i) : Encodes c i := by
  cases c with
  | hcmd bytes => exact decodeHcmd_encodes h
  | inev e => exact decodeInev_encodes h
  | qsum sum => cases h; exact decodeQsum_encodes sum
  | txaddr b0 b1 => exact decodeTxaddr_encodes h
  | frame m => exact decodeFrame_encodes h

/-- A well-formed instruction is what its encoding decodes to. -/
theorem decode_encode {i : Instr} (hwf : i.wf = true) : decode (encode i) = .ok i := by
  revert hwf
  cases i with
  | select uid => exact Laws.Codec.select uid
  | auth m b k u => exact Laws.Codec.auth m b k u
  | tryWriteSector text n => exact Laws.Codec.tryWriteSector text n
  | writeSector text n => exact Laws.Codec.writeSector text n
  | txaddrRead a => exact Laws.Codec.txaddrRead a
  | txaddrWrite a v => exact Laws.Codec.txaddrWrite a v
  | frameSelect u lo hi => exact Laws.Codec.frameSelect u lo hi
  | frameAuth m b k u => exact Laws.Codec.frameAuth m b k u
  | frameWritePhase2 d lo hi => exact Laws.Codec.frameWritePhase2 d lo hi
  | _ => exact fun _ => rfl

/-- Settles O2: each format's decoder accepts only what the encoder writes, and reads back what it wrote. -/
theorem decodeIffEncode : Obligations.DecodeIffEncode :=
  fun _ _ => ⟨decode_encodes, fun ⟨hwf, hcode⟩ => hcode ▸ decode_encode hwf⟩

/-! ## Code words written out -/

/-- Settles O1. -/
theorem sampleWordsDecode : Obligations.SampleWordsDecode :=
  ⟨rfl, rfl, rfl, rfl, rfl, rfl, rfl, rfl, rfl, rfl, rfl, rfl, rfl, rfl, rfl⟩

/-- Byte 0 of a read, written with shifts (R322). -/
theorem txAddrByte_read (a : RegAddr) : txAddrByte true a = 0x80#8 ||| (a.setWidth 8 <<< 1) := by
  revert a
  decide

/-- Byte 0 of a write, written with shifts (R322). -/
theorem txAddrByte_write (a : RegAddr) : txAddrByte false a = a.setWidth 8 <<< 1 := by
  revert a
  decide

/-- Settles O4: the bytes are those of the encoder, whose first has bit 0 clear. -/
theorem transactionBytes : Obligations.TransactionBytes := by
  refine ⟨fun p a v => ?_, fun t b hb => ?_⟩
  · rw [← txAddrByte_read, ← txAddrByte_write]
    exact ⟨rfl, rfl, decode_encode (i := .txaddrRead a) rfl, decode_encode (i := .txaddrWrite a v) rfl⟩
  · obtain ⟨p, kind, a, v⟩ := t
    cases kind <;> cases hb <;> exact Laws.Codec.txAddrByte_bit0 _ a

/-! ## Reserved opcodes -/

/-- An opcode is answered as reserved exactly when it has no entry in the opcode map. -/
theorem decodeOperands_reserved_iff (op : Byte) (bytes : List Byte) :
    decodeOperands op bytes = .error (.reservedOpcode op) ↔ operandBytes op = none := by
  have hanswer := decodeOperands_answer op bytes
  generalize decodeOperands op bytes = answer at hanswer ⊢
  cases hanswer with
  | ok i hlisted _ => exact iff_of_false nofun (Option.isSome_iff_ne_none.1 hlisted)
  | malformed hlisted => exact iff_of_false nofun (Option.isSome_iff_ne_none.1 hlisted)
  | reserved hreserved => exact iff_of_true rfl hreserved

/-- The opcodes without an entry in the opcode map are those of R350. -/
theorem operandBytes_eq_none_iff (op : Byte) : operandBytes op = none ↔
    op = 0x00 ∨ (0x04 ≤ op ∧ op ≤ 0x0F) ∨ (0x16 ≤ op ∧ op ≤ 0x1F) ∨ (0x22 ≤ op ∧ op ≤ 0x2F) ∨
      (0x37 ≤ op ∧ op ≤ 0x3F) ∨ (0x43 ≤ op ∧ op ≤ 0x47) ∨ 0x4B ≤ op := by
  revert op
  decide

/-- Settles O3: the decoder's reserved opcodes are those the opcode map leaves out. -/
theorem reservedOpcodes : Obligations.ReservedOpcodes :=
  fun op bytes => (decodeOperands_reserved_iff op bytes).trans (operandBytes_eq_none_iff op)

/-! ## The host's turn with a record that is no command -/

theorem hostTurn_reserved {st : Station} {op : Byte} {bytes : List Byte} {more : List (List Byte)} (s : State)
    (hidle : st.phase = .idle) (hq : st.hostQ = bytes :: more)
    (hd : decode (.hcmd bytes) = .error (.reservedOpcode op)) :
    hostTurn st s = .next ((s.modifyHere fun st => { st with hostQ := more }).illegal op bytes.tail) := by
  have hd' : decodeHcmd bytes = .error (.reservedOpcode op) := hd
  simp only [hostTurn, hidle, hq, hd']

theorem hostTurn_malformed {st : Station} {bytes : List Byte} {more : List (List Byte)} (s : State)
    (hidle : st.phase = .idle) (hq : st.hostQ = bytes :: more) (hnone : ∀ i, decode (.hcmd bytes) ≠ .ok i)
    (hlisted : ∀ op, decode (.hcmd bytes) ≠ .error (.reservedOpcode op)) :
    hostTurn st s = .refused .malformedCommand := by
  simp only [hostTurn, hidle, hq]
  split
  · exact absurd ‹_› (hnone _)
  · exact absurd ‹_› (hlisted _)
  · rfl

/-- Settles O17: the record is taken, and accepted and ended at once. -/
theorem reservedOpcodeIllegal : Obligations.ReservedOpcodeIllegal := by
  intro s st p q turns op bytes more hturns hst hidle hq hd
  rw [step_of_turns hturns]
  simp only [takeTurn, Turn.station, hst]
  rw [hostTurn_reserved _ hidle hq hd, State.illegal, State.modifyHere_modifyHere]
  rfl

/-- A uid that is not of 5 bytes (R310). -/
theorem decode_select_malformed {uid : List Byte} (h : uid.length ≠ 5) :
    decode (.hcmd (0x32 :: uid)) = .error (.malformedCommand 0x32) := if_neg h

/-- Operands of AUTH that are not `mode`, `block`, 6 bytes of key and 5 of uid (R310). -/
theorem decode_auth_malformed {rest : List Byte} (h : rest.length ≠ 13) :
    decode (.hcmd (0x33 :: rest)) = .error (.malformedCommand 0x33) := by
  match rest with
  | [] | [_] => rfl
  | _ :: _ :: rest => exact if_neg (by simpa using h)

/-- Settles O18: the decoder's other answers are refused, and the records of SELECT and AUTH have one length each. -/
theorem malformedRefused : Obligations.MalformedRefused := by
  refine ⟨fun s st p q turns bytes more hturns hst hidle hq hnone hlisted => ?_, fun uid hlen i => ?_,
    fun rest hlen i => ?_⟩
  · rw [step_of_turns hturns]
    simp only [takeTurn, Turn.station, hst]
    exact hostTurn_malformed _ hidle hq hnone hlisted
  · rw [decode_select_malformed hlen]
    nofun
  · rw [decode_auth_malformed hlen]
    nofun

/-! ## Acceptance -/

/-- Settles O16: the checks of the gate are those of the rule, and the first that fails ends the command. -/
theorem acceptanceChecks : Obligations.AcceptanceChecks := by
  intro i g s st sub hg hwf hst hidle hfails
  exact exec_refused hg hwf hst hidle (by simpa [Gate.check] using hfails)

/-! ## Transition codes -/

/-- Settles O55: with room for its event, if it makes one, a transition code is handled by the table of R321. -/
theorem transitionCodes : Obligations.TransitionCodes := by
  intro i sum s st hcode hst halive hroom
  have hfree : ¬ st.blocked s.cfg (Station.transition s.cfg s.sel sum) = true := by
    rw [blocked_iff, transition_eq]
    rintro ⟨hemits, hfull⟩
    rcases hroom with hroom | hquiet
    · exact hfull hroom
    · rw [hquiet] at hemits
      exact lt_irrefl _ hemits
  have htransition : Station.transition s.cfg s.sel sum = afterTransition s.cfg s.sel sum :=
    funext (transition_eq s.cfg s.sel sum)
  rw [handleSum_of hcode, handleSum, hst, ← htransition]
  simp only [if_neg halive, if_neg hfree]

/-! ## Commands end -/

/-- With `n` atomic steps of the card engine the moving station is out of BUSY. -/
def EndsWithin (n : Nat) (prog : Prog CmdEnd) (s : State) : Prop :=
  ∃ (t : State) (st' : Station), cpeRun n prog s = .next t ∧ t.here = some st' ∧ st'.phase ≠ .busy

theorem EndsWithin.rest {prog : Prog CmdEnd} {s : State} {st : Station} (n : Nat) (hst : s.here = some st)
    (hrest : st.phase ≠ .busy) : EndsWithin n prog s := ⟨s, st, cpeRun_rest n hst hrest, hst, hrest⟩

theorem EndsWithin.abort {prog : Prog CmdEnd} {s : State} {st : Station} (n : Nat) (hst : s.here = some st) :
    EndsWithin n prog s.abort :=
  .rest n (here_modify (s.here_releaseLock.trans hst)) (by simp [Res.ofStatus])

/-- More steps than it takes change nothing. -/
theorem EndsWithin.mono {n m : Nat} {prog : Prog CmdEnd} {s : State} (h : EndsWithin n prog s) (hle : n ≤ m) :
    EndsWithin m prog s := by
  obtain ⟨k, rfl⟩ := Nat.exists_eq_add_of_le hle
  obtain ⟨t, st', hrun, hst', hrest⟩ := h
  exact ⟨t, st', by rw [cpeRun_add, hrun, onNext_next, cpeRun_rest k hst' hrest], hst', hrest⟩

/-- Where the card engine stands when it has the program `node` left: the station holds the lock (`owns`) or the lock is
free, and `node` keeps the lock discipline and asks for no other round. -/
structure AtNode (prog node : Prog CmdEnd) (owns : Bool) (s : State) (st : Station) : Prop where
  here : s.here = some st
  busy : st.phase = .busy
  place : prog.resume st.pos = node
  lock : s.lockOwner = if owns = true then some s.sel else none
  keeps : ∃ rst, node.Keeps (CmdEnd.Fine false) owns rst

/-- One atomic step before the others. -/
theorem AtNode.step {prog node : Prog CmdEnd} {owns : Bool} {s s' : State} {st : Station} {n : Nat}
    (h : AtNode prog node owns s st) (hnode : cpeNode node st s = .next s') (hrest : EndsWithin n prog s') :
    EndsWithin (n + 1) prog s := by
  obtain ⟨t, st', hrun, hend⟩ := hrest
  exact ⟨t, st', by rw [cpeRun_busy n h.here h.busy h.place, hnode, onNext_next, hrun], hend⟩

/-- Where the card engine stands after the answer `b` in the state `s'`: at the program that the answer leaves. -/
theorem AtNode.answered {prog node next : Prog CmdEnd} {owns owns' rst : Bool} {s s' : State} {st st' : Station}
    (h : AtNode prog node owns s st) (b : Byte) (hst : s'.here = some st') (hbusy : st'.phase = st.phase)
    (hpos : st'.pos = st.pos) (hlock : s'.lockOwner = if owns' = true then some s'.sel else none)
    (hnext : node.resume [b] = next) (hkeeps : next.Keeps (CmdEnd.Fine false) owns' rst) :
    AtNode prog next owns' (s'.answered b) (st'.advance b) where
  here := here_answered b hst
  busy := hbusy.trans h.busy
  place := by rw [Station.advance_pos, hpos, Prog.resume_snoc, h.place, hnext]
  lock := hlock
  keeps := ⟨rst, hkeeps⟩

/-- A program has a bound on the steps it takes whatever the chip answers: each of its requests is answered in one step,
an acquire too while the lock is free, and the answers to a request are finitely many (R312, R452). -/
theorem exists_steps (node : Prog CmdEnd) :
    ∃ n, ∀ prog owns s st, AtNode prog node owns s st → EndsWithin n prog s := by
  induction node with
  | ret e =>
    refine ⟨1, fun prog owns s st h => ?_⟩
    obtain ⟨rst, hkeeps⟩ := h.keeps
    cases e with
    | done r =>
      refine h.step rfl (.rest 0 (here_modify h.here) ?_)
      simp only [Station.finish_phase]
      split <;> simp
    | again => exact absurd hkeeps.1 Bool.false_ne_true
  | abort => exact ⟨1, fun prog owns s st h => h.step rfl (.abort 0 h.here)⟩
  | rd a k ih =>
    choose n hn using ih
    obtain ⟨N, hN⟩ := Finite.exists_le n
    refine ⟨N + 1, fun prog owns s st h => ?_⟩
    obtain ⟨rst, rfl, hk⟩ := h.keeps
    have hnode : cpeNode (.rd a k) st s = .next ((s.record .rd a s.answer).takeAnswer.answered s.answer) := by
      rw [cpeNode, busRead_owned a h.lock, onNext_next]
    refine h.step hnode ((hn s.answer prog true _ _ (h.answered s.answer
      (State.here_takeAnswer (s := s.record .rd a s.answer) h.here) rfl rfl ?_ (Prog.resume_nil _) (hk _))).mono (hN _))
    simpa using h.lock
  | wr a v k ih =>
    obtain ⟨n, hn⟩ := ih
    refine ⟨n + 1, fun prog owns s st h => ?_⟩
    obtain ⟨rst, rfl, hk⟩ := h.keeps
    have hnode : cpeNode (.wr a v k) st s = .next ((s.record .wr a v).answered 0) := by
      rw [cpeNode, busWrite_owned a v h.lock, onNext_next]
    exact h.step hnode (hn prog true _ _
      (h.answered 0 (s' := s.record .wr a v) h.here rfl rfl h.lock (Prog.resume_nil k) hk))
  | suspend k ih =>
    choose n hn using ih
    obtain ⟨N, hN⟩ := Finite.exists_le n
    refine ⟨N + 1, fun prog owns s st h => ?_⟩
    obtain ⟨rst, hk⟩ := h.keeps
    exact h.step rfl ((hn _ prog owns _ _
      (h.answered (flagByte st.cancelReq) h.here rfl rfl h.lock (Prog.resume_nil _) (hk _))).mono (hN _))
  | acquire k ih =>
    obtain ⟨n, hn⟩ := ih
    refine ⟨n + 1, fun prog owns s st h => ?_⟩
    obtain ⟨rst, rfl, hk⟩ := h.keeps
    by_cases hcancel : st.cancelReq = true
    · exact h.step (if_pos hcancel) (.abort n h.here)
    · have hnode : cpeNode (.acquire k) st s = .next (s.takeLock.answered 0) :=
        (if_neg hcancel).trans (if_pos h.lock)
      exact h.step hnode (hn prog true _ _
        (h.answered 0 (s' := s.takeLock) h.here rfl rfl rfl (Prog.resume_nil k) hk))
  | release k ih =>
    obtain ⟨n, hn⟩ := ih
    refine ⟨n + 1, fun prog owns s st h => ?_⟩
    obtain ⟨rst, rfl, hk⟩ := h.keeps
    have howns : s.lockOwner = some s.sel := h.lock
    exact h.step rfl (hn prog false _ _
      (h.answered 0 (s.here_releaseLock.trans h.here) rfl rfl (by simp [howns]) (Prog.resume_nil k) hk))
  | sampleHw k ih =>
    choose n hn using ih
    obtain ⟨N, hN⟩ := Finite.exists_le n
    refine ⟨N + 1, fun prog owns s st h => ?_⟩
    obtain ⟨rst, hk⟩ := h.keeps
    exact h.step rfl ((hn _ prog owns _ _
      (h.answered (flagByte st.hwOk) h.here rfl rfl h.lock (Prog.resume_nil _) (hk _))).mono (hN _))
  | put w k ih =>
    obtain ⟨n, hn⟩ := ih
    refine ⟨n + 1, fun prog owns s st h => ?_⟩
    obtain ⟨rst, hkeeps⟩ := h.keeps
    obtain ⟨rst', hk⟩ : ∃ rst', k.Keeps (CmdEnd.Fine false) owns rst' := by
      cases w with
      | rstOut => exact ⟨true, hkeeps⟩
      | inited => exact ⟨rst, hkeeps.2⟩
      | authWarn b => exact ⟨rst, hkeeps⟩
    exact h.step rfl (hn prog owns _ _ (h.answered 0 (here_modify h.here) (by cases w <;> rfl) (by cases w <;> rfl)
      h.lock (Prog.resume_nil k) hk))

/-- Settles O19: a failed check ends the command at once, and one that passes its checks starts a program that keeps the
lock discipline. -/
theorem commandsEnd : Obligations.CommandsEnd := by
  intro i g s st hg hwf hblocking hst hidle hlock
  obtain ⟨prog, hp⟩ := programOf_isSome hg
  cases hcheck : g.check st.inited (s.lockOwner == some s.sel) with
  | some sub =>
    exact ⟨0, _, _, exec_refused (s := { s with quantum := 0 }) hg hwf hst hidle hcheck, here_modify hst, by simp⟩
  | none =>
    have hkeeps := programOf_keeps st.rstOut hg hp hcheck
    rw [hblocking] at hkeeps
    have howner : s.lockOwner = if (s.lockOwner == some s.sel) = true then some s.sel else none := by
      rcases hlock with hfree | howns
      · simp [hfree]
      · simp [show s.lockOwner = some s.sel from howns]
    obtain ⟨n, hn⟩ := exists_steps prog
    refine ⟨n, ?_⟩
    rw [exec_command (s := { s with quantum := n }) hg hp,
      runCommand_accepts (s := { s with quantum := n }) hst hidle hwf hcheck]
    have haccepted := here_accept (s := { s with quantum := n }) i hst
    exact hn prog _ _ _ ⟨haccepted, rfl, Prog.resume_nil prog, howner, _, hkeeps⟩

/-! ## Card commands -/

theorem selectProg_run (cfg : Config) (p : Nat) (hw : Bool) (u rest : List Byte) (x : FrameScript) (hx : x.Fits cfg) :
    (selectProg cfg u).run p hw true (x.answers cfg ++ rest) =
      some ⟨.done (if selectOk (x.outcome cfg) = true
          then { Res.ofStatus .ok with byte := some ((x.outcome cfg).bytes.headD 0) }
          else { Res.ofStatus .error with byte := some 0 }),
        x.records cfg p ([0x93, 0x70] ++ u), [], x.steps cfg ([0x93, 0x70] ++ u), true, rest⟩ := by
  rw [selectProg, Prog.run_map _ (selectTag_run cfg p hw u rest x hx)]
  split <;> rfl

/-- Settles O39: the run of SELECT, whose result the success condition of the exchange decides. -/
theorem selectRuns : Obligations.SelectRuns := by
  intro u s hu
  have hwf : (Instr.select u).wf = true := by simp [Instr.wf, hu]
  refine ⟨fun howns x rest hx hready => ⟨fun b hselected hhead => ?_, fun hselected => ?_⟩, unless_held rfl⟩
  all_goals
    refine ready_low hready howns rfl rfl hwf rfl (fun hw => selectProg_run s.cfg s.sel hw u rest x hx) ?_
      (Nat.lt_succ_self _) rfl
    rw [← selectOk_iff] at hselected
  · rw [if_pos hselected, List.headD_eq_head?_getD, hhead]
    rfl
  · rw [if_neg hselected]
    rfl

theorem readBlockProg_run (cfg : Config) (p : Nat) (hw : Bool) (b : Byte) (rest : List Byte) (x : FrameScript)
    (hx : x.Fits cfg) :
    (readBlockProg cfg b).run p hw true (x.answers cfg ++ rest) =
      some ⟨.done (if readOk (x.outcome cfg) = true
          then { Res.ofStatus .ok with data := some (x.outcome cfg).bytes } else Res.ofStatus .noValue),
        x.records cfg p [0x30, b], [], x.steps cfg [0x30, b], true, rest⟩ := by
  rw [readBlockProg, Prog.run_map _ (readBlock_run cfg p hw b rest x hx)]
  split <;> rfl

/-- Settles O41: the run of READ_BLOCK, whose result the success condition of the exchange decides. -/
theorem readBlockRuns : Obligations.ReadBlockRuns := by
  intro b s
  refine ⟨fun howns x rest hx hready => ⟨fun hblock => ?_, fun hblock => ?_⟩, unless_held rfl⟩
  all_goals
    refine ready_low hready howns rfl rfl rfl rfl (fun hw => readBlockProg_run s.cfg s.sel hw b rest x hx) ?_
      (Nat.lt_succ_self _) rfl
    rw [← readOk_iff] at hblock
  · rw [if_pos hblock]
    rfl
  · rw [if_neg hblock]
    rfl

/-- Settles O42: the run of WRITE_BLOCK, whose status says whether both phases were acknowledged. -/
theorem writeBlockRuns : Obligations.WriteBlockRuns := by
  intro b d s
  refine ⟨fun hd howns x rest hx hready => ⟨fun hdone => ?_, fun hdone => ?_⟩, unless_held rfl⟩
  all_goals
    refine ready_low hready howns rfl rfl rfl (if_pos hd)
      (fun hw => Prog.run_map _ (writeBlock_run s.cfg s.sel hw b d rest x hx)) ?_ (Nat.lt_succ_self _) rfl
  · rw [if_pos hdone]
    rfl
  · rw [if_neg hdone]
    rfl

/-! ## Frames -/

/-- An exchange's fields with a status that is OK exactly when the expected reply came. -/
theorem frameResult_of {ok : Prop} (x : Exchange) {status : Status} (hstatus : status.OfExchange)
    (hok : status = .ok ↔ ok) : FrameResult ok x (x.res status) := by
  refine ⟨⟨status, rfl⟩, by rw [← hok]; exact Option.some_inj, ?_, ?_⟩ <;>
    rcases hstatus with rfl | rfl | rfl <;> nofun

/-- The same for a row whose status says OK or ERROR (R323). -/
theorem frameResult_expect {ok : Prop} {came : Bool} (x : Exchange) (hok : came = true ↔ ok) :
    FrameResult ok x (x.res (expect came)) := by
  cases came with
  | true => exact frameResult_of x (.inl rfl) (iff_of_true rfl (hok.1 rfl))
  | false => exact frameResult_of x (.inr (.inr rfl)) (iff_of_false nofun fun h => Bool.false_ne_true (hok.2 h))

section
variable {s : State} {st : Station} (howns : s.Owns) (hst : s.here = some st) (hidle : st.phase = .idle)
  (hcancel : st.cancelReq = false)
include howns hst hidle hcancel

/-- A FRAME row whose exchange runs to the outcome `x` completes with the exchange's fields and the row's status
(R323). -/
theorem frame_runs {i : Instr} {send : Prog Exchange} {status : Exchange → Status} {ok : Prop} {x : Exchange}
    {chip rest : List Byte} {txns : List Txn} {n : Nat} (hchip : st.chipQ = chip) (hg : hostGate s.cfg i = none)
    (hp : programOf s.cfg i = some (send.bind fun y => endExchange y (status y))) (hwf : i.wf = true)
    (hrun : ∀ hw, send.run s.sel hw true chip = some ⟨x, txns, [], n, true, rest⟩) (hn : n < s.quantum)
    (hres : FrameResult ok x (x.res (status x))) :
    ∃ r, exec i s = .next (s.completed i txns s.lockOwner [] rest r) ∧ FrameResult ok x r :=
  ⟨_, frame_complete hchip howns hst hidle hcancel hg hp hwf
    (fun hw => Prog.run_map (fun y : Exchange => CmdEnd.done (y.res (status y))) (hrun hw)) rfl hn rfl, hres⟩

end

/-- Settles O43: each row is one exchange, with the success condition of its expected reply. -/
theorem framesRun : Obligations.FramesRun := by
  intro s st rest x m b lo hi k u d howns hst hidle hcancel
  have hrow := @frame_runs s st howns hst hidle hcancel
  have hexchange := fun c => outcome_ofExchange s.cfg c x
  refine ⟨fun hx hchip => ?_, fun hx hchip hk hu hn => ?_⟩
  · have hrun := fun f hw => toCard_run s.cfg s.sel hw s.cfg.cmdTransceive f rest x hx
    refine ⟨fun hn => ?_, fun hn => ?_, fun hu hn => ?_, fun hn => ?_, fun hn => ?_, fun hd hn => ?_⟩
    · exact hrow hchip rfl rfl rfl (fun hw => sendRequest_run s.cfg s.sel hw m rest x hx) hn
        (frameResult_of _ ((requestStatus_cases _).imp_right .inr) (requestStatus_eq_ok _))
    · exact hrow hchip rfl rfl rfl (fun hw => sendAnticoll_run s.cfg s.sel hw rest x hx) hn
        (frameResult_of _ (anticollStatus_cases _ (hexchange _)) (anticollStatus_eq_ok _))
    · have hwf : (Instr.frameSelect u lo hi).wf = true := by simp [Instr.wf, hu]
      exact hrow hchip rfl rfl hwf (hrun _) hn (frameResult_expect _ (selectOk_iff _))
    · exact hrow hchip rfl rfl rfl (hrun _) hn (frameResult_expect _ (readOk_iff _))
    · exact hrow hchip rfl rfl rfl (hrun _) hn (frameResult_expect _ (ackOk_iff _))
    · have hwf : (Instr.frameWritePhase2 d lo hi).wf = true := by simp [Instr.wf, hd]
      exact hrow hchip rfl rfl hwf (hrun _) hn (frameResult_expect _ (ackOk_iff _))
  · have hwf : (Instr.frameAuth m b k u).wf = true := by simp [Instr.wf, hk, hu]
    exact hrow hchip rfl rfl hwf (fun hw => toCard_run s.cfg s.sel hw _ _ rest x hx) hn
      (frameResult_of _ (hexchange _) Iff.rfl)

end Sys2Proof.Machine

/-! SUPPORT. The register access family: a low-level command is its sub-operation and the end with OK, and a read with
no listed answer takes the free value. -/

namespace Sys2Proof.Machine

open Sys2Proof

/-! ## Commands that end OK -/

theorem readRegister_run (p : Nat) (hw : Bool) (a : RegAddr) (v : Byte) (rest : List Byte) :
    (readRegister a).run p hw true (v :: rest) = some ⟨v, [rdTxn p a v], [], 1, true, rest⟩ := rfl

/-- A command of the lock's owner whose program is a sub-operation and the end with OK completes with the records of the
sub-operation (R312); the end is the one step more. -/
theorem completes_endOk {i : Instr} {op : Option Sub} {body : Prog Unit} {s : State} {answers rest : List Byte}
    {txns : List Txn} {n : Nat} (hready : s.Ready answers rest (n + 1)) (howns : s.Owns)
    (hg : hostGate s.cfg i = some ⟨.required, .held, op⟩) (hp : programOf s.cfg i = some (body.seq endOk))
    (hwf : i.wf = true) (hop : op = none)
    (hbody : ∀ hw, body.run s.sel hw true (answers ++ rest) = some ⟨(), txns, [], n, true, rest⟩) :
    exec i s = .next (s.completed i txns s.lockOwner [] rest (Res.ofStatus .ok)) :=
  ready_low hready howns hg hp hwf hop (fun hw => Prog.run_map _ (hbody hw)) rfl (Nat.lt_succ_self n) rfl

/-! ## A read with no listed answer -/

/-- The state after a read with no answer listed: a draw of the free value is recorded (R40, R210). -/
def State.readFree (a : RegAddr) (s : State) : State :=
  { s.record .rd a (Config.freeByte s.draws) with draws := s.draws + 1 }

theorem State.here_readFree {s : State} {st : Station} (a : RegAddr) (hst : s.here = some st) :
    (s.readFree a).here = some st := hst

/-- A read step of the owner with no answer listed takes the free value. -/
theorem cpeRun_rd_nil {prog : Prog CmdEnd} {a : RegAddr} {k : Byte → Prog CmdEnd} {s : State} {st : Station} (q : Nat)
    (hst : s.here = some st) (hbusy : st.phase = .busy) (hp : prog.resume st.pos = .rd a k) (howns : s.Owns)
    (hchip : st.chipQ = []) :
    cpeRun (q + 1) prog s = cpeRun q prog ((s.readFree a).answered (Config.freeByte s.draws)) := by
  rw [cpeRun_busy q hst hbusy hp, cpeNode, busRead_nil a howns hst hchip, State.answer_nil hst hchip]
  rfl

/-- REG_READ with no answer listed completes with the free value (R400). -/
theorem exec_regRead_free {addr : Byte} {s : State} (haddr : addr.toNat ≤ 0x3F) (howns : s.Owns)
    (hready : s.Ready [] [] 2) :
    exec (.regRead addr) s = .next { s.completed (.regRead addr)
      [rdTxn s.sel (regOf addr) (Config.freeByte s.draws)] s.lockOwner [] []
      { Res.ofStatus .ok with byte := some (Config.freeByte s.draws) } with draws := s.draws + 1 } := by
  obtain ⟨hq, st, hst, hidle, -, hinited, hchip : st.chipQ = []⟩ := hready
  obtain ⟨n, hn⟩ : ∃ n, s.quantum = n + 1 + 1 := ⟨s.quantum - 2, by omega⟩
  have hlock : s.lockOwner = some s.sel := howns
  have hempty : st = { st with chipQ := [] } := by rw [← hchip]
  have haccepted := here_accept (.regRead addr) hst
  have hread := here_answered (Config.freeByte s.draws) (State.here_readFree (regOf addr) haccepted)
  rw [exec_command rfl rfl, runCommand_accepts hst hidle rfl (by simp [Gate.check, hinited, hlock, haddr]), hn,
    cpeRun_rd_nil (prog := regReadProg addr) (n + 1) haccepted rfl rfl howns hchip, State.modifyHere_draws,
    cpeRun_done n hread rfl rfl]
  refine congrArg Host.Outcome.next ?_
  rw [State.completed, State.mk.injEq]
  refine ⟨rfl, ?_, rfl, rfl, rfl, rfl, rfl, rfl⟩
  exact (modify_three _ _ _ _ _ _ fun _ => rfl).trans (modify_at hst (by rw [hempty]; rfl))

/-! ## The commands -/

/-- Settles O24: a listed answer is read by the run of the program, the free value by its two atomic steps. -/
theorem regReadRuns : Obligations.RegReadRuns := by
  intro addr s
  refine ⟨fun haddr howns v rest hready => ?_, exec_regRead_free, unless_held rfl⟩
  exact ready_low hready howns rfl rfl rfl (if_pos haddr)
    (fun hw => Prog.run_map _ (readRegister_run s.sel hw (regOf addr) v rest)) rfl (Nat.lt_succ_self _) rfl

/-- Settles O25: the program is one write. -/
theorem regWriteRuns : Obligations.RegWriteRuns := by
  intro addr value s
  refine ⟨fun haddr howns rest hready => ?_, unless_held rfl⟩
  exact completes_endOk hready howns rfl rfl rfl (if_pos haddr)
    fun hw => writeRegister_run s.sel hw (regOf addr) value rest

/-- Settles O26: the program is `setBits`. -/
theorem setBitsRuns : Obligations.SetBitsRuns := by
  intro addr mask s
  refine ⟨fun haddr howns v rest hready => ?_, unless_held rfl⟩
  exact completes_endOk hready howns rfl rfl rfl (if_pos haddr)
    fun hw => setBits_run s.sel hw (regOf addr) mask v rest

/-- Settles O27: the program is `clearBits`. -/
theorem clearBitsRuns : Obligations.ClearBitsRuns := by
  intro addr mask s
  refine ⟨fun haddr howns v rest hready => ?_, unless_held rfl⟩
  exact completes_endOk hready howns rfl rfl rfl (if_pos haddr)
    fun hw => clearBits_run s.sel hw (regOf addr) mask v rest

/-- Settles O28: the program is one write of the reset code. -/
theorem chipResetRuns : Obligations.ChipResetRuns := by
  intro s
  refine ⟨fun howns rest hready => ?_, unless_held rfl⟩
  exact completes_endOk hready howns rfl rfl rfl rfl
    fun hw => writeRegister_run s.sel hw s.cfg.aCommand s.cfg.cmdSoftReset rest

/-- Settles O29: the two courses of `antennaOn`, without the write and with it. -/
theorem antennaOnRuns : Obligations.AntennaOnRuns := by
  intro s
  refine ⟨fun howns v rest hv hready => ?_, fun howns v w rest hv hready => ?_, unless_held rfl⟩
  · exact completes_endOk hready howns rfl rfl rfl rfl fun hw => antennaOn_run_on s.cfg s.sel hw v rest hv
  · exact completes_endOk hready howns rfl rfl rfl rfl fun hw => antennaOn_run_off s.cfg s.sel hw v w rest hv

end Sys2Proof.Machine

/-! SUPPORT. The card exchange family: the commands TO_CARD and CALC_CRC run alone, and every cancellation point inside
a command leads to the START_SEND clear and the abort of an exchange. -/

namespace Sys2Proof.Machine

open Sys2Proof

/-! ## The commands TO_CARD and CALC_CRC -/

/-- Settles O32: the run of the exchange, whose course is the script's. -/
theorem toCardRuns : Obligations.ToCardRuns := by
  intro c d s
  refine ⟨fun hd howns x rest hx hready => ?_, unless_held rfl⟩
  exact ready_low hready howns rfl rfl rfl (if_pos hd)
    (fun hw => Prog.run_map _ (toCard_run s.cfg s.sel hw c d rest x hx)) rfl (Nat.lt_succ_self _) rfl

/-- Settles O36: the run of the CRC, whose polls are the script's. -/
theorem calcCrcRuns : Obligations.CalcCrcRuns := by
  intro d s
  refine ⟨fun hd howns k rest hk hready => ?_, unless_held rfl⟩
  exact ready_low hready howns rfl rfl rfl (if_pos hd)
    (fun hw => Prog.run_map _ (calculateCrc_run s.cfg s.sel hw d rest k hk)) rfl (Nat.lt_succ_self _) rfl

/-! ## What a cancelled exchange does -/

/-- The rest of an exchange whose polls were cancelled: START_SEND is cleared and the command aborts (R451, R452). -/
def cancelledExchange {α : Type} (cfg : Config) : Prog α := (clearBits cfg.aBitFraming cfg.startSend).seq .abort

theorem cpeRun_suspend {prog : Prog CmdEnd} {k : Bool → Prog CmdEnd} {s : State} {st : Station} (q : Nat)
    (hst : s.here = some st) (hbusy : st.phase = .busy) (hp : prog.resume st.pos = .suspend k) :
    cpeRun (q + 1) prog s = cpeRun q prog (s.answered (flagByte st.cancelReq)) :=
  cpeRun_busy q hst hbusy hp

theorem cpeRun_rd_cons {prog : Prog CmdEnd} {a : RegAddr} {k : Byte → Prog CmdEnd} {s : State} {st : Station} {v : Byte}
    {rest : List Byte} (q : Nat) (hst : s.here = some st) (hbusy : st.phase = .busy)
    (hp : prog.resume st.pos = .rd a k) (howns : s.Owns) (hchip : st.chipQ = v :: rest) :
    cpeRun (q + 1) prog s =
      cpeRun q prog (((s.record .rd a v).modifyHere fun st => { st with chipQ := rest }).answered v) := by
  rw [cpeRun_busy q hst hbusy hp, cpeNode, busRead_cons a howns hst hchip, State.answer_cons hst hchip]
  rfl

theorem cpeRun_wr {prog k : Prog CmdEnd} {a : RegAddr} {v : Byte} {s : State} {st : Station} (q : Nat)
    (hst : s.here = some st) (hbusy : st.phase = .busy) (hp : prog.resume st.pos = .wr a v k) (howns : s.Owns) :
    cpeRun (q + 1) prog s = cpeRun q prog ((s.record .wr a v).answered 0) := by
  rw [cpeRun_busy q hst hbusy hp, cpeNode, busWrite_owned a v howns]
  rfl

/-- A cancel latched at a cancellation point that leads to the START_SEND clear: the read, the write and the CANCELLED
end (R452, R661). -/
theorem cpeRun_cancelledExchange {prog : Prog CmdEnd} {k : Bool → Prog CmdEnd} {s : State} {st : Station} {v : Byte}
    {rest : List Byte} {q : Nat} (hq : 4 ≤ q) (hst : s.here = some st) (hbusy : st.phase = .busy)
    (hcancel : st.cancelReq = true) (howns : s.Owns) (hchip : st.chipQ = v :: rest)
    (hp : prog.resume st.pos = .suspend k) (hk : k true = cancelledExchange s.cfg) :
    cpeRun q prog s = .next ({ s with
      trace := s.trace ++
        [rdTxn s.sel s.cfg.aBitFraming v, wrTxn s.sel s.cfg.aBitFraming (v &&& ~~~s.cfg.startSend)]
      stations := s.stations.modify s.sel fun st => { st with chipQ := rest } } : State).cancelled := by
  obtain ⟨n, rfl⟩ := Nat.exists_eq_add_of_le' hq
  have hread : prog.resume (st.pos ++ [flagByte true]) = cancelledExchange s.cfg := by
    rw [Prog.resume_snoc, hp, ← hk]
    exact Prog.resume_nil _
  have hwrite : prog.resume (st.pos ++ [flagByte true] ++ [v]) =
      .wr s.cfg.aBitFraming (v &&& ~~~s.cfg.startSend) .abort := by
    rw [Prog.resume_snoc, hread]
    rfl
  have habort : prog.resume (st.pos ++ [flagByte true] ++ [v] ++ [0]) = .abort := by
    rw [Prog.resume_snoc, hwrite]
    rfl
  have hst₁ := here_answered (flagByte true) hst
  have hst₂ := here_answered v (here_modify (s := (s.answered (flagByte true)).record .rd s.cfg.aBitFraming v)
    (f := fun st => { st with chipQ := rest }) hst₁)
  have hst₃ := here_answered 0 ((State.here_record .wr s.cfg.aBitFraming (v &&& ~~~s.cfg.startSend) _).trans hst₂)
  rw [cpeRun_suspend _ hst hbusy hp, hcancel, cpeRun_rd_cons _ hst₁ hbusy hread howns hchip,
    cpeRun_wr _ hst₂ hbusy hwrite howns, cpeRun_abort n hst₃ hbusy habort, abort_eq]
  refine congrArg Host.Outcome.next ?_
  simp only [State.cancelled, State.answered, State.modifyHere, State.record, List.modify_modify_eq,
    List.append_assoc]
  rfl

/-- An instruction with a program that the moving station is running goes on (R312). -/
theorem exec_continues {i : Instr} {prog : Prog CmdEnd} {s : State} {st : Station} (hp : programOf s.cfg i = some prog)
    (hst : s.here = some st) (hbusy : st.phase = .busy) (hcur : st.cur = some (.known i)) :
    exec i s = cpeRun s.quantum prog s := by
  cases hg : hostGate s.cfg i with
  | some gate => rw [exec_command hg hp, runCommand_continues hst hbusy hcur]
  | none => rw [exec_frame hg hp, runCommand_continues hst hbusy hcur]

/-! ## Where a cancellation point leads -/

/-- Every cancellation point of the program leads a cancelled command to the START_SEND clear and the abort. -/
def Prog.ClearsOnCancel {α : Type} (cfg : Config) : Prog α → Prop
  | .ret _ | .abort => True
  | .rd _ k => ∀ b, (k b).ClearsOnCancel cfg
  | .wr _ _ k | .acquire k | .release k | .put _ k => k.ClearsOnCancel cfg
  | .suspend k => k true = cancelledExchange cfg ∧ ∀ b, (k b).ClearsOnCancel cfg
  | .sampleHw k => ∀ b, (k b).ClearsOnCancel cfg

section
variable {α β : Type} {cfg : Config}

theorem Prog.ClearsOnCancel.bind {prog : Prog α} {f : α → Prog β} (h : prog.ClearsOnCancel cfg)
    (hf : ∀ a, (f a).ClearsOnCancel cfg) : (prog.bind f).ClearsOnCancel cfg := by
  induction prog with
  | ret a => exact hf a
  | abort => trivial
  | rd a k ih => exact fun b => ih b (h b)
  | wr a v k ih => exact ih h
  | suspend k ih =>
    obtain ⟨hcancel, hk⟩ := h
    exact ⟨congrArg (Prog.bind · f) hcancel, fun b => ih b (hk b)⟩
  | acquire k ih => exact ih h
  | release k ih => exact ih h
  | sampleHw k ih => exact fun b => ih b (h b)
  | put w k ih => exact ih h

theorem Prog.ClearsOnCancel.seq {prog : Prog α} {next : Prog β} (h : prog.ClearsOnCancel cfg)
    (hnext : next.ClearsOnCancel cfg) : (prog.seq next).ClearsOnCancel cfg := h.bind fun _ => hnext

theorem Prog.ClearsOnCancel.resume {prog : Prog α} (h : prog.ClearsOnCancel cfg) (answers : List Byte) :
    (prog.resume answers).ClearsOnCancel cfg := by
  induction answers generalizing prog with
  | nil => rwa [Prog.resume_nil]
  | cons b rest ih =>
    cases prog with
    | ret a => trivial
    | abort => trivial
    | rd a k => exact ih (h b)
    | wr a v k => exact ih h
    | suspend k => exact ih (h.2 _)
    | acquire k => exact ih h
    | release k => exact ih h
    | sampleHw k => exact ih (h _)
    | put w k => exact ih h

theorem setBits_clears (a : RegAddr) (m : Byte) : (setBits a m).ClearsOnCancel cfg := fun _ => trivial

theorem clearBits_clears (a : RegAddr) (m : Byte) : (clearBits a m).ClearsOnCancel cfg := fun _ => trivial

theorem antennaOn_clears : (antennaOn cfg).ClearsOnCancel cfg := by
  intro v
  dsimp only
  split
  · exact setBits_clears _ _
  · trivial

theorem pushFifo_clears (p : List Byte) : (pushFifo cfg p).ClearsOnCancel cfg := by
  induction p with
  | nil => trivial
  | cons b rest ih => exact ih

theorem issueWrites_clears (l : List (RegAddr × Byte)) : (issueWrites l).ClearsOnCancel cfg := by
  induction l with
  | nil => trivial
  | cons w rest ih => exact ih

/-- The polls alone answer a cancel with `cancelled`; what is said is about what the exchange makes of it. -/
theorem pollIrq_clears (wait : Byte) (n : Nat) {f : PollEnd → Prog α}
    (hcancelled : f .cancelled = cancelledExchange cfg) (hf : ∀ poll, (f poll).ClearsOnCancel cfg) :
    ((pollIrq cfg wait n).bind f).ClearsOnCancel cfg := by
  induction n with
  | zero => exact hf .timeout
  | succ left ih =>
    intro b
    dsimp only
    split
    · exact hf _
    · split
      · exact hf .timeout
      · refine ⟨hcancelled, fun c => ?_⟩
        cases c with
        | true => exact hf .cancelled
        | false => exact ih

theorem pollCrc_clears (n : Nat) : (pollCrc cfg n).ClearsOnCancel cfg := by
  induction n with
  | zero => trivial
  | succ left ih =>
    intro b
    dsimp only
    split
    · trivial
    · exact ih

theorem drainFifo_clears (n : Nat) : (drainFifo cfg n).ClearsOnCancel cfg := by
  induction n with
  | zero => trivial
  | succ left ih => exact fun _ => ih.bind fun _ => trivial

theorem finishExchange_clears (c en n : Byte) : (finishExchange cfg c en n).ClearsOnCancel cfg := by
  intro e
  dsimp only
  split
  · trivial
  · split
    · exact fun _ _ => (drainFifo_clears _).bind fun _ => trivial
    · trivial

theorem startExchange_clears (c : Byte) (p : List Byte) : (startExchange cfg c p).ClearsOnCancel cfg :=
  fun _ _ => (pushFifo_clears p).seq trivial

/-- The cancellation points of every command are those of its exchanges (R660). -/
theorem toCard_clears (c : Byte) (p : List Byte) : (toCard cfg c p).ClearsOnCancel cfg := by
  refine (startExchange_clears c p).seq (Prog.ClearsOnCancel.seq ?_ (pollIrq_clears _ _ rfl fun poll =>
    (clearBits_clears _ _).seq ?_))
  · split
    · exact setBits_clears _ _
    · trivial
  · cases poll with
    | fired n => exact finishExchange_clears _ _ _
    | timeout => trivial
    | cancelled => trivial

theorem calculateCrc_clears (p : List Byte) : (calculateCrc cfg p).ClearsOnCancel cfg :=
  fun _ _ => (pushFifo_clears p).seq ((pollCrc_clears _).seq fun _ _ => trivial)

theorem sendRequest_clears (m : Byte) : (sendRequest cfg m).ClearsOnCancel cfg := toCard_clears _ _

theorem sendAnticoll_clears : (sendAnticoll cfg).ClearsOnCancel cfg := toCard_clears _ _

theorem request_clears (m : Byte) : (request cfg m).ClearsOnCancel cfg := (sendRequest_clears m).bind fun _ => trivial

theorem anticollision_clears : (anticollision cfg).ClearsOnCancel cfg := sendAnticoll_clears.bind fun _ => trivial

theorem selectTag_clears (u : List Byte) : (selectTag cfg u).ClearsOnCancel cfg :=
  (calculateCrc_clears _).bind fun _ => (toCard_clears _ _).bind fun _ => trivial

theorem authenticate_clears (m b : Byte) (k u : List Byte) : (authenticate cfg m b k u).ClearsOnCancel cfg := by
  refine (toCard_clears _ _).bind fun x s2 => ?_
  dsimp only
  split <;> trivial

theorem stopCrypto_clears : (stopCrypto cfg).ClearsOnCancel cfg := clearBits_clears _ _

theorem readBlock_clears (b : Byte) : (readBlock cfg b).ClearsOnCancel cfg :=
  (calculateCrc_clears _).bind fun _ => (toCard_clears _ _).bind fun _ => trivial

theorem writeBlock_clears (b : Byte) (d : List Byte) : (writeBlock cfg b d).ClearsOnCancel cfg := by
  refine (calculateCrc_clears _).bind fun _ => (toCard_clears _ _).bind fun x => ?_
  split
  · exact (calculateCrc_clears _).bind fun _ => (toCard_clears _ _).bind fun _ => trivial
  · trivial

theorem preamble_clears : (preamble cfg).ClearsOnCancel cfg := by
  refine (request_clears _).bind fun r => ?_
  split
  · trivial
  · exact anticollision_clears.bind fun _ => trivial

theorem readBlocks_clears (blocks : List Byte) : (readBlocks cfg blocks).ClearsOnCancel cfg := by
  induction blocks with
  | nil => trivial
  | cons b rest ih =>
    refine (readBlock_clears b).bind fun r => ?_
    cases r with
    | none => trivial
    | some d => exact ih.bind fun _ => trivial

theorem writeBlocks_clears (parts : List (Byte × List Byte)) : (writeBlocks cfg parts).ClearsOnCancel cfg := by
  induction parts with
  | nil => trivial
  | cons part rest ih =>
    refine (writeBlock_clears _ _).bind fun st => ?_
    split
    · trivial
    · exact ih

theorem tryReadIdentifier_clears : (tryReadIdentifier cfg).ClearsOnCancel cfg := preamble_clears.bind fun _ => trivial

theorem sectorAttempt_clears (n : Byte) {body : Prog (Option (List Byte))} (hbody : body.ClearsOnCancel cfg) :
    (sectorAttempt cfg n body).ClearsOnCancel cfg := by
  refine preamble_clears.bind fun p => ?_
  cases p with
  | none => trivial
  | some u =>
    refine (selectTag_clears u).bind fun sel => ?_
    cases sel with
    | none => trivial
    | some _ =>
      refine (authenticate_clears _ _ _ _).bind fun a => ?_
      split
      · exact stopCrypto_clears.seq trivial
      · exact hbody.bind fun _ => stopCrypto_clears.seq trivial

theorem tryReadSector_clears (n : Byte) : (tryReadSector cfg n).ClearsOnCancel cfg :=
  sectorAttempt_clears n (readBlocks_clears _)

theorem tryWriteSector_clears (t : List Byte) (n : Byte) : (tryWriteSector cfg t n).ClearsOnCancel cfg :=
  sectorAttempt_clears n ((writeBlocks_clears _).bind fun _ => trivial)

theorem attempt_clears {body : Prog α} (hbody : body.ClearsOnCancel cfg) : (attempt body).ClearsOnCancel cfg :=
  hbody.bind fun _ => trivial

theorem once_clears {body : Prog Attempt} (hbody : body.ClearsOnCancel cfg)
    (found : BitVec 40 × List Byte → Option Bool → Res) : (once body found).ClearsOnCancel cfg := by
  refine (attempt_clears hbody).bind fun r => ?_
  split <;> trivial

theorem initProg_clears : (initProg cfg).ClearsOnCancel cfg := by
  intro b
  dsimp only
  split
  · exact (issueWrites_clears _).seq (antennaOn_clears.seq trivial)
  · trivial

/-- The round of a blocking command after its first cancellation point, the one before the attempt (R560). -/
theorem blocking_resume_clears {body : Prog Attempt} (hbody : body.ClearsOnCancel cfg)
    (found : BitVec 40 × List Byte → Option Bool → Res) {pos : List Byte} (hpos : pos ≠ []) :
    ((blocking body found).resume pos).ClearsOnCancel cfg := by
  cases pos with
  | nil => exact absurd rfl hpos
  | cons b rest =>
    refine Prog.ClearsOnCancel.resume ?_ rest
    dsimp only
    split
    · trivial
    · refine (attempt_clears hbody).bind fun r => ?_
      split <;> trivial

end

/-- A cancellation point inside a command is one between two polls of an exchange (R660). -/
theorem programOf_resume_clears {cfg : Config} {i : Instr} {prog : Prog CmdEnd} {pos : List Byte}
    (hp : programOf cfg i = some prog) (hpos : pos ≠ []) : (prog.resume pos).ClearsOnCancel cfg := by
  have hwhole : ∀ {body : Prog CmdEnd}, body.ClearsOnCancel cfg → (body.resume pos).ClearsOnCancel cfg :=
    fun h => h.resume pos
  cases i with
  | init => cases hp; exact hwhole initProg_clears
  | acquire => cases hp; exact hwhole trivial
  | release => cases hp; exact hwhole trivial
  | regRead a => cases hp; exact hwhole fun _ => trivial
  | regWrite a v => cases hp; exact hwhole trivial
  | setBits a m => cases hp; exact hwhole ((setBits_clears _ _).seq trivial)
  | clearBits a m => cases hp; exact hwhole ((clearBits_clears _ _).seq trivial)
  | chipReset => cases hp; exact hwhole trivial
  | antennaOn => cases hp; exact hwhole (antennaOn_clears.seq trivial)
  | toCard c d => cases hp; exact hwhole ((toCard_clears _ _).bind fun _ => trivial)
  | calcCrc d => cases hp; exact hwhole ((calculateCrc_clears _).bind fun _ => trivial)
  | request m => cases hp; exact hwhole ((request_clears _).bind fun _ => trivial)
  | anticoll => cases hp; exact hwhole (anticollision_clears.bind fun _ => trivial)
  | select u => cases hp; exact hwhole ((selectTag_clears _).bind fun _ => trivial)
  | auth m b k u => cases hp; exact hwhole ((authenticate_clears _ _ _ _).bind fun _ => trivial)
  | stopCrypto => cases hp; exact hwhole (stopCrypto_clears.seq trivial)
  | readBlock b => cases hp; exact hwhole ((readBlock_clears _).bind fun _ => trivial)
  | writeBlock b d => cases hp; exact hwhole ((writeBlock_clears _ _).bind fun _ => trivial)
  | tryReadId => cases hp; exact hwhole (once_clears tryReadIdentifier_clears _)
  | tryReadSector n => cases hp; exact hwhole (once_clears (tryReadSector_clears _) _)
  | tryWriteSector t n => cases hp; exact hwhole (once_clears (tryWriteSector_clears _ _) _)
  | readId => cases hp; exact blocking_resume_clears tryReadIdentifier_clears _ hpos
  | readSector n => cases hp; exact blocking_resume_clears (tryReadSector_clears _) _ hpos
  | writeSector t n => cases hp; exact blocking_resume_clears (tryWriteSector_clears _ _) _ hpos
  | frameRequest m => cases hp; exact hwhole ((sendRequest_clears _).bind fun _ => trivial)
  | frameAnticoll => cases hp; exact hwhole (sendAnticoll_clears.bind fun _ => trivial)
  | frameSelect u lo hi => cases hp; exact hwhole ((toCard_clears _ _).bind fun _ => trivial)
  | frameAuth m b k u => cases hp; exact hwhole ((toCard_clears _ _).bind fun _ => trivial)
  | frameRead b lo hi => cases hp; exact hwhole ((toCard_clears _ _).bind fun _ => trivial)
  | frameWritePhase1 b lo hi => cases hp; exact hwhole ((toCard_clears _ _).bind fun _ => trivial)
  | frameWritePhase2 d lo hi => cases hp; exact hwhole ((toCard_clears _ _).bind fun _ => trivial)
  | _ => cases hp

/-! ## Where an exchange stands -/

/-- After its start an exchange goes on with its polls (R451). -/
theorem startExchange_resume {β : Type} (cfg : Config) (c : Byte) (d m : List Byte) (irq flush : Byte)
    (f : Unit → Prog β) :
    ((startExchange cfg c d).bind f).resume ([0, irq, 0, flush, 0, 0] ++ List.replicate d.length 0 ++ [0] ++ m) =
      (f ()).resume m := by
  have hpush := pushFifo_resume cfg d ([0] ++ m) fun _ => (writeRegister cfg.aCommand c).bind f
  rw [← Prog.bind_assoc] at hpush
  rw [List.append_assoc, List.append_assoc]
  exact hpush

/-- The place after START_SEND is set, which TRANSCEIVE alone does (R451). -/
theorem setStartSend_resume {β : Type} (cfg : Config) (c framing : Byte) (m : List Byte) (f : Unit → Prog β) :
    ((if c = cfg.cmdTransceive then setBits cfg.aBitFraming cfg.startSend else .ret ()).bind f).resume
      ((if c = cfg.cmdTransceive then [framing, 0] else []) ++ m) = (f ()).resume m := by
  split <;> rfl

/-- After polls that fire nothing an exchange stands at a cancellation point (R452). -/
theorem toCard_resume {β : Type} (cfg : Config) (c : Byte) (d : List Byte) (x : ExchangeScript) (f : Exchange → Prog β)
    (hne : x.polls ≠ []) (hlen : x.polls.length < cfg.maxPolls)
    (hquiet : ∀ n ∈ x.polls, fires (irqMasks cfg c).2 n = false) :
    ∃ k, ((toCard cfg c d).bind f).resume (x.pollPosition cfg c d) = .suspend k := by
  rw [toCard, ExchangeScript.pollPosition, Prog.seq, Prog.bind_assoc, List.append_assoc, List.append_assoc,
    startExchange_resume, Prog.seq, Prog.bind_assoc, setStartSend_resume, Prog.bind_assoc]
  obtain ⟨k, -, hk⟩ := pollIrq_resume cfg (irqMasks cfg c).2 cfg.maxPolls x.polls _ hne hlen hquiet
  exact ⟨k, hk⟩

/-- The CRC polls without the flag are used up (R460). -/
theorem pollCrc_resume_quiet {β : Type} (cfg : Config) (n : Nat) (polls m : List Byte) (f : Unit → Prog β)
    (hquiet : ∀ b ∈ polls, b &&& cfg.crcDone = 0) :
    ((pollCrc cfg (polls.length + n)).bind f).resume (polls ++ m) = ((pollCrc cfg n).bind f).resume m := by
  induction polls with
  | nil => rw [List.length_nil, Nat.zero_add, List.nil_append]
  | cons b rest ih =>
    obtain ⟨hb, hrest⟩ := List.forall_mem_cons.1 hquiet
    rw [List.length_cons, Nat.add_right_comm, pollCrc, Prog.bind_rd, List.cons_append, Prog.resume,
      if_neg (not_not.2 hb)]
    exact ih hrest

/-- A poll with the flag set is the last (R460). -/
theorem pollCrc_resume_done {β : Type} (cfg : Config) (n : Nat) (b : Byte) (m : List Byte) (f : Unit → Prog β)
    (hdone : b &&& cfg.crcDone ≠ 0) : ((pollCrc cfg (n + 1)).bind f).resume (b :: m) = (f ()).resume m := by
  rw [pollCrc, Prog.bind_rd, Prog.resume, if_pos hdone, Prog.bind_ret]

/-- The place after the polls of a CRC: one has the flag set, or all are used up (R460, R461). -/
theorem pollCrc_resume {β : Type} {cfg : Config} {k : CrcScript} (hk : k.Fits cfg) (m : List Byte)
    (f : Unit → Prog β) :
    ((pollCrc cfg crcPolls).bind f).resume (k.polls ++ (k.last.toList ++ m)) = (f ()).resume m := by
  obtain ⟨hquiet, hend⟩ := hk
  cases hlast : k.last with
  | none =>
    rw [hlast] at hend
    have hpolls : crcPolls = k.polls.length + 0 := hend.symm
    rw [hpolls, pollCrc_resume_quiet cfg 0 k.polls _ f hquiet]
    rfl
  | some b =>
    rw [hlast] at hend
    obtain ⟨hlen, hdone⟩ := hend
    obtain ⟨n, hn⟩ := Nat.exists_eq_add_of_lt hlen
    have hpolls : crcPolls = k.polls.length + (n + 1) := hn
    rw [hpolls, pollCrc_resume_quiet cfg (n + 1) k.polls _ f hquiet]
    exact pollCrc_resume_done cfg n b m f hdone

/-- Where a program goes on after a CRC (R460). -/
theorem calculateCrc_resume {β : Type} {cfg : Config} (d : List Byte) {k : CrcScript} (hk : k.Fits cfg)
    (f : List Byte → Prog β) : ((calculateCrc cfg d).bind f).resume (k.position d) = f k.crc := by
  simp only [calculateCrc, clearBits, setBits, CrcScript.position, Prog.seq, Prog.bind_assoc, Prog.bind_rd,
    Prog.bind_wr, Prog.bind_ret, List.append_assoc, List.cons_append, List.nil_append, Prog.resume, pushFifo_resume]
  exact (pollCrc_resume hk [k.lo, k.hi] _).trans (Prog.resume_nil _)

/-! ## The exchanges of the commands -/

/-- The program begins with this exchange. -/
def Prog.OpensExchange {α : Type} (cfg : Config) (c : Byte) (payload : List Byte) (prog : Prog α) : Prop :=
  ∃ rest, prog = (toCard cfg c payload).bind rest

section
variable {α β : Type} {cfg : Config} {c : Byte} {payload : List Byte}

theorem toCard_opens (f : Exchange → Prog α) : ((toCard cfg c payload).bind f).OpensExchange cfg c payload := ⟨f, rfl⟩

theorem Prog.OpensExchange.bind {prog : Prog α} (h : prog.OpensExchange cfg c payload) (f : α → Prog β) :
    (prog.bind f).OpensExchange cfg c payload := by
  obtain ⟨rest, rfl⟩ := h
  exact ⟨_, Prog.bind_assoc _ _ _⟩

/-- REQUEST writes the bit framing before its exchange (R500). -/
theorem request_opens (m : Byte) (f : Status × Nat → Prog α) :
    (((request cfg m).bind f).resume [0]).OpensExchange cfg cfg.cmdTransceive [m] :=
  (toCard_opens _).bind f

/-- The preamble begins with REQUEST (R551). -/
theorem preamble_opens (f : Option (List Byte) → Prog α) :
    (((preamble cfg).bind f).resume [0]).OpensExchange cfg cfg.cmdTransceive [cfg.reqMode] := by
  rw [preamble, Prog.bind_assoc]
  exact request_opens _ _

/-- An attempt that begins with the preamble takes the lock first (R550). -/
theorem attempt_opens {body : Option (List Byte) → Prog α} (f : α → Prog β) :
    (((attempt ((preamble cfg).bind body)).bind f).resume [0, 0]).OpensExchange cfg cfg.cmdTransceive
      [cfg.reqMode] := by
  rw [attempt, Prog.bind_acquire, Prog.bind_assoc, Prog.bind_assoc]
  exact preamble_opens _

end

section
variable {cfg : Config} {i : Instr} {found : BitVec 40 × List Byte → Option Bool → Res}

theorem Prog.OpensExchange.exchanges {prog : Prog CmdEnd} {before : List Byte} {c : Byte} {payload : List Byte}
    (h : (prog.resume before).OpensExchange cfg c payload) (hp : programOf cfg i = some prog) :
    Exchanges cfg i before c payload := by
  obtain ⟨rest, hrest⟩ := h
  exact ⟨prog, rest, hp, hrest⟩

/-- A command that computes a CRC first comes to the exchange that sends it (R502, R506, R507). -/
theorem exchanges_of_crc {α : Type} {k : CrcScript} (hk : k.Fits cfg) {f : List Byte → Prog α} {g : α → Prog CmdEnd}
    {c : Byte} {d payload : List Byte} (hp : programOf cfg i = some (((calculateCrc cfg d).bind f).bind g))
    (hf : (f k.crc).OpensExchange cfg c payload) : Exchanges cfg i (k.position d) c payload := by
  refine Prog.OpensExchange.exchanges ?_ hp
  rw [Prog.bind_assoc, calculateCrc_resume d hk]
  exact hf.bind g

theorem exchanges_of_once {body : Option (List Byte) → Prog Attempt}
    (hp : programOf cfg i = some (once ((preamble cfg).bind body) found)) :
    Exchanges cfg i [0, 0] cfg.cmdTransceive [cfg.reqMode] :=
  Prog.OpensExchange.exchanges (attempt_opens _) hp

theorem exchanges_of_blocking {body : Option (List Byte) → Prog Attempt}
    (hp : programOf cfg i = some (blocking ((preamble cfg).bind body) found)) :
    Exchanges cfg i [0, 0, 0] cfg.cmdTransceive [cfg.reqMode] :=
  Prog.OpensExchange.exchanges (attempt_opens _) hp

end

/-- Settles O35: inside a command only an exchange has cancellation points, and the places named are found by the
answers that lead to them. -/
theorem toCardCancelled : Obligations.ToCardCancelled := by
  refine ⟨fun i prog k pos s v rest hp hpos hplace howns hrunning => ?_,
    fun cfg i before c d x hexchanges hne hlen hquiet => ?_, fun cfg c m b n d key u text k hk => ?_⟩
  · obtain ⟨hq, st, hst, hbusy, hcur, rfl, hcancel, hchip⟩ := hrunning
    have hclears : (Prog.suspend k).ClearsOnCancel s.cfg := hplace ▸ programOf_resume_clears hp hpos
    rw [exec_continues hp hst hbusy hcur]
    exact cpeRun_cancelledExchange hq hst hbusy hcancel howns hchip hplace hclears.1
  · obtain ⟨prog, rest, hp, hplace⟩ := hexchanges
    obtain ⟨k, hk⟩ := toCard_resume cfg c d x rest hne hlen hquiet
    exact ⟨prog, k, hp, by rw [Prog.resume_append, hplace, hk]⟩
  · refine ⟨⟨_, _, rfl, Prog.resume_nil _⟩, (request_opens m _).exchanges rfl,
      Prog.OpensExchange.exchanges ((toCard_opens _).bind _) rfl, exchanges_of_crc hk rfl (toCard_opens _),
      Prog.OpensExchange.exchanges ((toCard_opens _).bind _) rfl, exchanges_of_crc hk rfl (toCard_opens _),
      exchanges_of_crc hk rfl (toCard_opens _), fun i hi => ?_, fun i hi => ?_⟩
    · rcases hi with rfl | rfl | rfl <;> exact exchanges_of_once rfl
    · rcases hi with rfl | rfl | rfl <;> exact exchanges_of_blocking rfl

end Sys2Proof.Machine

/-! SUPPORT. The card command family: STOP_CRYPTO ends OK after its register access, and the status of REQUEST and
ANTICOLL is what their success condition makes of the exchange. -/

namespace Sys2Proof.Machine

open Sys2Proof

/-! ## Statuses -/

/-- An exchange that does not answer REQUEST ends it with ERROR, NOTAG too (R500). -/
theorem requestStatus_not_isAnswer {x : Exchange} (hanswer : ¬ x.isAnswer) : requestStatus x = .error :=
  (requestStatus_cases x).resolve_left fun hok => hanswer ((requestStatus_eq_ok x).1 hok)

/-- An OK exchange without a valid uid ends ANTICOLL with ERROR (R501). -/
theorem anticollStatus_not_isUid {x : Exchange} (hok : x.status = .ok) (huid : ¬ x.isUid) :
    anticollStatus x = .error := by
  have hcheck : checkByteOk x.bytes ≠ true := fun h => huid ⟨hok, (checkByteOk_iff _).1 h⟩
  rw [anticollStatus, if_pos hok, if_neg hcheck]

/-- NOTAG and ERROR pass through ANTICOLL (R501). -/
theorem anticollStatus_not_ok {x : Exchange} (hok : x.status ≠ .ok) : anticollStatus x = x.status := if_neg hok

/-! ## The commands -/

/-- Settles O30: the program is `clearBits` on status-register-2, so it writes back whatever it read. -/
theorem stopCryptoRuns : Obligations.StopCryptoRuns := by
  intro s
  refine ⟨fun howns v rest hready => ?_, unless_held rfl⟩
  exact completes_endOk hready howns rfl rfl rfl rfl
    fun hw => clearBits_run s.sel hw s.cfg.aStatus2 cryptoOn v rest

/-- Settles O37: the run of the REQUEST frame, whose status is OK exactly when the exchange answers it. -/
theorem requestRuns : Obligations.RequestRuns := by
  intro m s
  refine ⟨fun howns x rest hx hready => ?_, unless_held rfl⟩
  refine ⟨requestStatus (x.outcome s.cfg s.cfg.cmdTransceive), (requestStatus_eq_ok _).2, requestStatus_not_isAnswer,
    ?_⟩
  exact ready_low hready howns rfl rfl rfl rfl
    (fun hw => Prog.run_map _ (Prog.run_map _ (sendRequest_run s.cfg s.sel hw m rest x hx))) rfl
    (Nat.lt_succ_self _) rfl

/-- Settles O38: the run of the ANTICOLL frame, whose status keeps the exchange's but for an OK without a valid uid. -/
theorem anticollRuns : Obligations.AnticollRuns := by
  intro s
  refine ⟨fun howns x rest hx hready => ?_, unless_held rfl⟩
  refine ⟨anticollStatus (x.outcome s.cfg s.cfg.cmdTransceive), (anticollStatus_eq_ok _).2, anticollStatus_not_isUid,
    anticollStatus_not_ok, ?_⟩
  exact ready_low hready howns rfl rfl rfl rfl
    (fun hw => Prog.run_map _ (Prog.run_map _ (sendAnticoll_run s.cfg s.sel hw rest x hx))) rfl
    (Nat.lt_succ_self _) rfl

end Sys2Proof.Machine

/-! SUPPORT. The card session family: a session command waits at its acquire, and one attempt decides how it ends; a
blocking command ends in a round that finds a value and goes round its loop otherwise. -/

namespace Sys2Proof.Machine

open Sys2Proof

/-! ## Waiting for the lock -/

/-- Where ACQUIRE, a one-attempt command, and a blocking command after its cancellation point stand at their acquire
(R550, R560, R653). -/
theorem exists_acquire {cfg : Config} {i : Instr} {pos : List Byte}
    (h : pos = [] ∧ (i = .acquire ∨ i = .tryReadId ∨ (∃ n, i = .tryReadSector n) ∨ ∃ t n, i = .tryWriteSector t n) ∨
      pos = [0] ∧ (i = .readId ∨ (∃ n, i = .readSector n) ∨ ∃ t n, i = .writeSector t n)) :
    ∃ g prog k, hostGate cfg i = some g ∧ programOf cfg i = some prog ∧ prog.resume pos = .acquire k := by
  rcases h with ⟨rfl, rfl | rfl | ⟨n, rfl⟩ | ⟨t, n, rfl⟩⟩ | ⟨rfl, rfl | ⟨n, rfl⟩ | ⟨t, n, rfl⟩⟩ <;>
    exact ⟨_, _, _, rfl, rfl, rfl⟩

/-- A round of a blocking command begins with a cancellation point (R560). -/
theorem exists_suspend {cfg : Config} {i : Instr} (h : isBlocking i = true) :
    ∃ g f, hostGate cfg i = some g ∧ programOf cfg i = some (.suspend f) ∧ f true = .abort := by
  cases i with
  | readId | readSector n | writeSector t n => exact ⟨_, _, rfl, rfl, rfl⟩
  | _ => cases h

/-- Settles O23: the command stands at its acquire, or at the cancellation point its round begins with. -/
theorem waitForLock : Obligations.WaitForLock := by
  refine fun s i rest => ⟨fun owner pos hplace howner _ => ?_, fun hblocking hrunning => ?_⟩
  · obtain ⟨g, prog, k, hg, hp, hk⟩ := exists_acquire hplace
    exact wait_of hg hp hk howner
  · obtain ⟨g, f, hg, hp, hf⟩ := exists_suspend hblocking
    exact cancel_first hg hp rfl hf hrunning

/-! ## Operands -/

/-- The identifier of the first four bytes (R552). -/
theorem uidToId_be4_toNat (a b c d e : Byte) : (uidToId .be4 [a, b, c, d, e]).toNat =
    a.toNat * 2 ^ 24 + b.toNat * 2 ^ 16 + c.toNat * 2 ^ 8 + d.toNat := by
  simp only [uidToId, beNat, List.take_succ_cons, List.take_zero, List.foldl_cons, List.foldl_nil, BitVec.toNat_ofNat]
  omega

/-- The identifier of all five bytes (R552). -/
theorem uidToId_be5_toNat (a b c d e : Byte) : (uidToId .be5 [a, b, c, d, e]).toNat =
    a.toNat * 2 ^ 32 + b.toNat * 2 ^ 24 + c.toNat * 2 ^ 16 + d.toNat * 2 ^ 8 + e.toNat := by
  simp only [uidToId, beNat, List.take_succ_cons, List.take_zero, List.foldl_cons, List.foldl_nil, BitVec.toNat_ofNat]
  omega

/-- From 3 on the data blocks do not wrap (R553). -/
theorem dataBlocks_toNat {n : Byte} (h : 3 ≤ n.toNat) :
    (dataBlocks n).map BitVec.toNat = [n.toNat - 3, n.toNat - 2, n.toNat - 1] := by
  have hlt := n.isLt
  simp only [dataBlocks, List.map_cons, List.map_nil, BitVec.toNat_sub, BitVec.reduceToNat, List.cons.injEq, and_true]
  omega

theorem sectorPayload_length (pad : Byte) (t : List Byte) : (sectorPayload pad t).length = 48 := by
  simp only [sectorPayload, acceptedText, sectorBytes, List.length_append, List.length_replicate, List.length_take]
  omega

/-- 48 bytes are three blocks of 16 (R558). -/
theorem payloadBlock_length {d : List Byte} (hd : d.length = 48) {k : Nat} (hk : k < 3) :
    (payloadBlock d k).length = 16 := by
  simp only [payloadBlock, blockSize, List.length_take, List.length_drop, hd]
  omega

theorem payloadBlock_append {d : List Byte} (hd : d.length = 48) :
    payloadBlock d 0 ++ payloadBlock d 1 ++ payloadBlock d 2 = d := by
  have hlast : (d.drop 32).take 16 = d.drop 32 := List.take_of_length_le (by simp [hd])
  have hmid : (d.drop 16).take 16 ++ d.drop 32 = d.drop 16 := by
    simpa using List.take_append_drop 16 (d.drop 16)
  calc payloadBlock d 0 ++ payloadBlock d 1 ++ payloadBlock d 2
      = d.take 16 ++ ((d.drop 16).take 16 ++ (d.drop 32).take 16) := List.append_assoc _ _ _
    _ = d := by rw [hlast, hmid, List.take_append_drop]

/-- Settles O45: sums below 2^40, a legal trailer from 3 on, and a payload of 48 bytes. -/
theorem sessionOperands : Obligations.SessionOperands := by
  refine ⟨fun a b c d e => ⟨uidToId_be4_toNat a b c d e, uidToId_be5_toNat a b c d e⟩, fun n hn => ?_,
    fun pad t => ⟨rfl, rfl, ?_, fun k hk => payloadBlock_length (sectorPayload_length pad t) hk⟩⟩
  · have hthree : 3 ≤ n.toNat := by omega
    exact ⟨hthree, dataBlocks_toNat hthree⟩
  · exact (payloadBlock_append (sectorPayload_length pad t)).symm

/-! ## What an attempt finds -/

/-- The preamble that finds no card leaves no UID bytes (R551). -/
theorem CardScript.uid_eq_none {cfg : Config} {x : CardScript} (h : ∀ u, ¬ x.Finds cfg u) : x.uid cfg = none :=
  Option.eq_none_iff_forall_ne_some.2 fun u hu => h u (CardScript.uid_eq_some.1 hu)

/-- The value of an identifier attempt that finds the card with UID bytes `u` (R554). -/
theorem CardScript.value_found {cfg : Config} {x : CardScript} {u : List Byte} (h : x.Finds cfg u) :
    ((x.uid cfg).map fun u => (uidToId cfg.uidToId u, ([] : List Byte))) = some (uidToId cfg.uidToId u, []) := by
  rw [CardScript.uid_eq_some.2 h]
  rfl

/-- An identifier attempt that finds no card has no value (R554). -/
theorem CardScript.value_nothing {cfg : Config} {x : CardScript} (h : ∀ u, ¬ x.Finds cfg u) :
    ((x.uid cfg).map fun u => (uidToId cfg.uidToId u, ([] : List Byte))) = none := by
  rw [CardScript.uid_eq_none h]
  rfl

section
variable {cfg : Config} {u d : List Byte} {x : SectorScript} {P : Prop} {_ : Decidable P}

/-- An attempt that opens the sector and whose blocks all succeed (`P`) finds the identifier and its data (R555,
R557). -/
theorem SectorScript.attempt_found (hopens : x.Opens cfg) (hall : P) :
    (x.attempt cfg u (if P then some d else none)).value = some (uidToId cfg.uidToId u, d) := by
  rw [if_pos hall]
  exact if_pos hopens

/-- Any other attempt finds nothing (R559). -/
theorem SectorScript.attempt_nothing (h : ¬ (x.Opens cfg ∧ P)) :
    (x.attempt cfg u (if P then some d else none)).value = none := by
  by_cases hopens : x.Opens cfg
  · rw [if_neg fun hall => h ⟨hopens, hall⟩]
    exact if_pos hopens
  · exact if_neg hopens

end

/-! ## How the attempt ends the command -/

section
variable {i : Instr} {op : Option Sub} {body : Prog Attempt} {found : BitVec 40 × List Byte → Option Bool → Res}
  {s : State} {answers rest : List Byte} {a : Attempt} {txns : List Txn} {w ws : List RegWrite} {k : Nat}
  {v : BitVec 40 × List Byte} (hfree : s.lockOwner = none)
  (hbody : ∀ hw, body.run s.sel hw true (answers ++ rest) = some ⟨a, txns, w, k, true, rest⟩)
  (hws : ∀ st, applyWrites w st = applyWrites ws st)
include hfree hbody hws

/-- A one-attempt command whose attempt finds a value (R554, R555, R557). -/
theorem once_finds (hv : a.value = some v) (hg : hostGate s.cfg i = some ⟨.required, .notHeld, op⟩) (hop : op = none)
    (hp : programOf s.cfg i = some (once body found)) (hwf : i.wf = true) (hready : s.Ready answers rest (k + 3)) :
    exec i s = .next (s.completed i txns none ws rest (found v a.warn)) :=
  ready_session' hready hfree hg hp hwf hop (fun hw => once_run (hbody hw)) (by rw [hv]) (Nat.lt_succ_self _) rfl hws

/-- A one-attempt command whose attempt finds nothing (R554, R555, R557). -/
theorem once_nothing (hv : a.value = none) (hg : hostGate s.cfg i = some ⟨.required, .notHeld, op⟩) (hop : op = none)
    (hp : programOf s.cfg i = some (once body found)) (hwf : i.wf = true) (hready : s.Ready answers rest (k + 3)) :
    exec i s = .next (s.completed i txns none ws rest { Res.ofStatus .noValue with warn := a.warn }) :=
  ready_session' hready hfree hg hp hwf hop (fun hw => once_run (hbody hw)) (by rw [hv]) (Nat.lt_succ_self _) rfl hws

/-- A blocking command ends in a round whose attempt finds a value (R560). -/
theorem round_finds (hv : a.value = some v) (hg : hostGate s.cfg i = some ⟨.required, .notHeld, op⟩) (hop : op = none)
    (hp : programOf s.cfg i = some (blocking body found)) (hwf : i.wf = true)
    (hround : s.Ready answers rest (k + 4) ∨ s.Running i [] false answers rest (k + 4)) :
    exec i s = .next (s.completed i txns none ws rest (found v a.warn)) :=
  round_session hround hfree hg hp hwf hop (fun hw => blocking_run (hbody hw)) (by rw [hv]) (Nat.lt_succ_self _) rfl hws

/-- A round whose attempt finds nothing starts the next, or is the last (R560). -/
theorem round_nothing {g : Gate} {st : Station} {n m : Nat} (hv : a.value = none) (hg : hostGate s.cfg i = some g)
    (hp : programOf s.cfg i = some (blocking body found)) (hst : s.here = some st) (hq : s.quantum = k + 4 + m)
    (hrunning : s.Running i [] false answers rest n) :
    (s.cfg.maxAttempts ≠ some (st.attempts + 1) →
      exec i s = onNext (exec i { s.nextRound txns ws rest with quantum := m })
        fun t => .next { t with quantum := s.quantum }) ∧
    (s.cfg.maxAttempts = some (st.attempts + 1) →
      exec i s = .next (s.completed i txns none ws rest { Res.absent with status := some .noValue })) := by
  obtain ⟨-, st', hst', hbusy, hcur, hpos, hcancel, hchip⟩ := hrunning
  obtain rfl : st' = st := Option.some.inj (hst'.symm.trans hst)
  have hrun := blocking_run (found := found) (hbody st'.hwOk)
  rw [← hchip] at hrun
  exact blocking_round hg hp hst hfree hbusy hcur hpos hcancel hq hrun (by rw [hv]) rfl hws rfl rfl

end

/-! ## The commands -/

/-- Settles O44: the attempt is the preamble, whose UID bytes are there exactly when it finds a card. -/
theorem tryReadIdRuns : Obligations.TryReadIdRuns := by
  refine fun s => ⟨fun hfree x rest hx hready => ?_, if_held rfl⟩
  have hbody := fun hw => tryReadId_run s.cfg s.sel hw rest x hx
  refine ⟨fun u hfinds => ?_, fun hnone => ?_⟩
  · exact once_finds hfree hbody (fun _ => rfl) (CardScript.value_found hfinds) (i := .tryReadId) rfl rfl rfl rfl hready
  · exact once_nothing hfree hbody (fun _ => rfl) (CardScript.value_nothing hnone) rfl rfl rfl rfl hready

/-- Settles O46: the attempt's value is there exactly when the sector was opened and all its blocks were read. -/
theorem tryReadSectorRuns : Obligations.TryReadSectorRuns := by
  refine fun n s => ⟨fun htrailer hfree x body u rest hx hopened hclosed hready => ?_, if_held rfl⟩
  have hbody := fun hw => tryReadSector_run s.cfg s.sel hw n u rest x body hx hopened hclosed
  refine ⟨fun hopens hall => ?_, fun hnot => ?_⟩
  · exact once_finds hfree hbody (applyWrites_sector x) (SectorScript.attempt_found hopens hall)
      (i := .tryReadSector n) rfl (if_pos htrailer) rfl rfl hready
  · exact once_nothing hfree hbody (applyWrites_sector x) (SectorScript.attempt_nothing hnot)
      rfl (if_pos htrailer) rfl rfl hready

/-- Settles O47: the attempt's value is there exactly when the sector was opened and all its blocks were written. -/
theorem tryWriteSectorRuns : Obligations.TryWriteSectorRuns := by
  refine fun t n s => ⟨fun htrailer hfree x body u rest hx hopened hclosed hready => ?_, if_held rfl⟩
  have hbody := fun hw => tryWriteSector_run s.cfg s.sel hw t n u rest x body hx hopened hclosed
  refine ⟨fun hopens hall => ?_, fun hnot => ?_⟩
  · exact once_finds hfree hbody (applyWrites_sector x) (SectorScript.attempt_found hopens hall)
      (i := .tryWriteSector t n) rfl (if_pos htrailer) rfl rfl hready
  · exact once_nothing hfree hbody (applyWrites_sector x) (SectorScript.attempt_nothing hnot)
      rfl (if_pos htrailer) rfl rfl hready

/-- Settles O48: a round runs the attempt of the one-attempt command, and what that finds ends the command. -/
theorem blockingFinds : Obligations.BlockingFinds := by
  refine fun n t s => ⟨fun hfree x u rest hx hfinds hround => ?_,
    fun htrailer hfree x body u rest hx hopens hfit hall hround => ?_,
    fun htrailer hfree x body u rest hx hopens hfit hall hround => ?_, if_held rfl, if_held rfl, if_held rfl⟩
  · have hbody := fun hw => tryReadId_run s.cfg s.sel hw rest x hx
    exact round_finds hfree hbody (fun _ => rfl) (CardScript.value_found hfinds) (i := .readId) rfl rfl rfl rfl hround
  · have hbody := fun hw =>
      tryReadSector_run s.cfg s.sel hw n u rest x body hx (fun _ => hfit) fun hclosed => absurd hopens hclosed
    exact round_finds hfree hbody (applyWrites_sector x) (SectorScript.attempt_found hopens hall)
      (i := .readSector n) rfl (if_pos htrailer) rfl rfl hround
  · have hbody := fun hw =>
      tryWriteSector_run s.cfg s.sel hw t n u rest x body hx (fun _ => hfit) fun hclosed => absurd hopens hclosed
    exact round_finds hfree hbody (applyWrites_sector x) (SectorScript.attempt_found hopens hall)
      (i := .writeSector t n) rfl (if_pos htrailer) rfl rfl hround

/-- Settles O49: a round runs the attempt of the one-attempt command, and one that finds nothing is counted. -/
theorem blockingRetries : Obligations.BlockingRetries := by
  refine fun s st rest m hst hfree => ⟨fun x hx hnone hq hrunning => ?_,
    fun n x body u hx hopened hclosed hnot hq hrunning => ?_,
    fun t n x body u hx hopened hclosed hnot hq hrunning => ?_⟩
  · have hbody := fun hw => tryReadId_run s.cfg s.sel hw rest x hx
    exact round_nothing hfree hbody (fun _ => rfl) (CardScript.value_nothing hnone) rfl rfl hst hq hrunning
  · have hbody := fun hw => tryReadSector_run s.cfg s.sel hw n u rest x body hx hopened hclosed
    exact round_nothing hfree hbody (applyWrites_sector x) (SectorScript.attempt_nothing hnot) rfl rfl hst hq hrunning
  · have hbody := fun hw => tryWriteSector_run s.cfg s.sel hw t n u rest x body hx hopened hclosed
    exact round_nothing hfree hbody (applyWrites_sector x) (SectorScript.attempt_nothing hnot) rfl rfl hst hq hrunning

end Sys2Proof.Machine

/-! SUPPORT. The decoder and button family: an accepted edge runs its handler and the filter writes its line's time, a
rejected one moves the environment's clock alone, and one whose event does not fit is held. -/

namespace Sys2Proof.Machine

open Sys2Proof

/-! ## The handlers and the filter's time -/

/-- A transition neither sees nor changes the filter's times. -/
theorem afterTransition_setLastAcc (cfg : Config) (p : Nat) (sum : BitVec 4) (l : Line) (now : Nat) (st : Station) :
    afterTransition cfg p sum (st.setLastAcc l now) = (afterTransition cfg p sum st).setLastAcc l now := by
  have hwritten := afterTransition_lastAcc cfg p sum st
  simp only [← transition_eq] at hwritten ⊢
  cases l with
  | clk => simpa [Station.setLastAcc] using hwritten (some now) st.lastAccDt st.lastAccBtn
  | dt => simpa [Station.setLastAcc] using hwritten st.lastAccClk (some now) st.lastAccBtn
  | btn => simpa [Station.setLastAcc] using hwritten st.lastAccClk st.lastAccDt (some now)

/-- An accepted CLK or DT edge counts the transition to the sampled levels (R600, R603). -/
theorem acceptEdge_onEncoderEdge (cfg : Config) (p : Nat) (clk dt : Bool) (l : Line) (now : Nat) (st : Station) :
    st.acceptEdge l now (Station.onEncoderEdge cfg p clk dt) =
      (afterTransition cfg p (st.lastEnc ++ encOf clk dt) st).setLastAcc l now := by
  rw [Station.acceptEdge, onEncoderEdge_eq, afterTransition_setLastAcc, Station.setLastAcc_lastEnc]

/-- A transition that changes the event stream makes it longer (R608). -/
theorem afterTransition_emits {cfg : Config} {p : Nat} {sum : BitVec 4} {st : Station}
    (h : (afterTransition cfg p sum st).events ≠ st.events) :
    st.events.length < (afterTransition cfg p sum st).events.length := by
  obtain ⟨e, hevents⟩ := (after_events cfg p sum st).resolve_left h
  simp [hevents]

/-! ## Edges -/

/-- An accepted edge runs its handler, whose effect on the moving station's record is `g`. -/
theorem handleEdge_accepted_eq {l : Line} {now : Nat} {f g : Station → Station} {s : State} {st : Station}
    (hst : s.here = some st) (halive : st.phase ≠ .dead) (htime : st.InTime now)
    (hover : WindowOver (l.window s.cfg) now (st.lastAcc l))
    (hroom : st.Room s.cfg ∨ (st.acceptEdge l now f).events = st.events)
    (hg : ∀ st : Station, { st.acceptEdge l now f with envNow := some now } = g st) :
    handleEdge l now f s = .next (s.modifyHere g) := by
  rw [handleEdge_accepted hst halive htime ((accepts_iff ..).2 hover) hroom, hg, ← modifyHere_const hst]

/-- An accepted CLK or DT edge (R600, R603 to R606). -/
theorem handleEdge_encoder {l : Line} {now : Nat} {clk dt : Bool} {s : State} {st : Station}
    (hst : s.here = some st) (halive : st.phase ≠ .dead) (htime : st.InTime now)
    (hroom : st.Room s.cfg ∨ (afterTransition s.cfg s.sel (st.lastEnc ++ encOf clk dt) st).events = st.events)
    (hover : WindowOver (l.window s.cfg) now (st.lastAcc l)) :
    handleEdge l now (Station.onEncoderEdge s.cfg s.sel clk dt) s = .next (s.modifyHere fun st =>
      { (afterTransition s.cfg s.sel (st.lastEnc ++ encOf clk dt) st).setLastAcc l now with envNow := some now }) := by
  refine handleEdge_accepted_eq hst halive htime hover ?_ fun st => by rw [acceptEdge_onEncoderEdge]
  rwa [acceptEdge_onEncoderEdge, Station.setLastAcc_events]

/-- A DEAD station ignores a transition code (R602). -/
theorem handleSum_dead {sum : BitVec 4} {s : State} {st : Station} (hst : s.here = some st) (hdead : st.phase = .dead) :
    handleSum sum s = .next s := by
  simp only [handleSum, hst, if_pos hdead]

/-- Settles O52: the transition does not see the time that the filter has written, so the two are written at once. -/
theorem encoderEdgeAccepted : Obligations.EncoderEdgeAccepted :=
  fun _ _ _ _ _ _ hst halive htime hroom =>
    ⟨handleEdge_encoder (l := .clk) hst halive htime hroom, handleEdge_encoder (l := .dt) hst halive htime hroom⟩

/-- Settles O53: the low line emits into a stream with room, the high line emits nothing. -/
theorem buttonEdgeAccepted : Obligations.ButtonEdgeAccepted :=
  fun _ _ _ _ _ hst halive htime hover =>
    ⟨fun hroom => handleEdge_accepted_eq (l := .btn) hst halive htime hover (.inl hroom) fun _ => rfl,
      handleEdge_accepted_eq (l := .btn) hst halive htime hover (.inr rfl) fun _ => rfl⟩

/-- Settles O54: each way an edge is not accepted holds of the three lines alike. -/
theorem edgeRejected : Obligations.EdgeRejected := by
  intro now clk dt btn i s st hst
  refine ⟨fun halive htime hrejected => ?_, fun hedge => ?_, fun sum hcode hdead => ?_⟩
  · rcases hrejected with ⟨rfl, hinside⟩ | ⟨rfl, hinside⟩ | ⟨rfl, hinside⟩ <;>
      exact handleEdge_rejected hst halive htime (mt (accepts_iff ..).1 hinside)
  · rcases hedge with rfl | rfl | rfl <;> exact ⟨handleEdge_early hst, handleEdge_dead hst⟩
  · rw [handleSum_of hcode, handleSum_dead hst hdead]

/-! ## A full event stream -/

/-- An edge is held exactly when the filter accepts it, its handler would emit, and there is no room (R609). -/
theorem holdsEdge_iff (cfg : Config) (l : Line) (now : Nat) (f : Station → Station) (st : Station) :
    st.holdsEdge cfg l now f = true ↔ WindowOver (l.window cfg) now (st.lastAcc l) ∧
      st.events.length < (st.acceptEdge l now f).events.length ∧ ¬ st.Room cfg := by
  rw [Station.holdsEdge, Bool.and_eq_true, accepts_iff, blocked_iff]

/-- A held CLK or DT edge: its transition would emit (R609). -/
theorem holdsEdge_encoder {cfg : Config} {l : Line} {now p : Nat} {clk dt : Bool} {st : Station}
    (hover : WindowOver (l.window cfg) now (st.lastAcc l)) (hfull : ¬ st.Room cfg)
    (hemits : (afterTransition cfg p (st.lastEnc ++ encOf clk dt) st).events ≠ st.events) :
    st.holdsEdge cfg l now (Station.onEncoderEdge cfg p clk dt) = true := by
  refine (holdsEdge_iff ..).2 ⟨hover, ?_, hfull⟩
  rw [acceptEdge_onEncoderEdge, Station.setLastAcc_events]
  exact afterTransition_emits hemits

/-- A held BTN edge: the line is low (R607, R609). -/
theorem holdsEdge_button {cfg : Config} {now p : Nat} {st : Station}
    (hover : WindowOver cfg.wBtn now st.lastAccBtn) (hfull : ¬ st.Room cfg) :
    st.holdsEdge cfg .btn now (Station.onButtonEdge p false) = true := by
  refine (holdsEdge_iff ..).2 ⟨hover, ?_, hfull⟩
  simp [Station.acceptEdge, Station.onButtonEdge, Station.emit]

/-- A held edge has no move and stays with the environment (R609). -/
theorem edgeTurn_held {st : Station} {e : EdgeRec} {more : List EdgeRec} {i : Instr} (s : State)
    (hq : st.edgeQ = e :: more) (hd : decode (.inev e) = .ok i) (halive : st.phase ≠ .dead) (htime : st.InTime e.now)
    (hholds : holdsInput s.cfg s.sel i st = true) : edgeTurn st s = .next s := by
  have hd' : decodeInev e = .ok i := hd
  have hduty : st.tooEarly e.now = false := Bool.eq_false_iff.2 fun h => (tooEarly_iff ..).1 h htime
  have hstuck := And.intro hholds (And.intro halive hduty)
  simp only [edgeTurn, hq, hd', if_pos hstuck]

/-- Settles O56: on each of the three lines the edge is one that is held. -/
theorem fullStreamHolds : Obligations.FullStreamHolds := by
  rintro s st p turns ⟨line, now, clk, dt, btn⟩ more i hturns hst hq hd halive htime hfull ⟨hclk, hdt, hbtn⟩ hemits
  have hholds : holdsInput s.cfg p i st = true := by
    simp only [decode, decodeInev] at hd
    split at hd <;> cases hd
    · exact holdsEdge_encoder (hclk rfl) hfull hemits
    · exact holdsEdge_encoder (hdt rfl) hfull hemits
    · obtain rfl : btn = false := hemits
      exact holdsEdge_button (hbtn rfl) hfull
  rw [step_of_turns hturns]
  simp only [takeTurn, Turn.station, hst]
  exact edgeTurn_held _ hq hd halive htime hholds

end Sys2Proof.Machine

/-! SUPPORT. The bus arbiter family: RELEASE gives the lock back and ends, and a cancel ends a wait at an acquire,
whoever holds the lock. -/

namespace Sys2Proof.Machine

open Sys2Proof

/-! ## Steps on the lock -/

theorem State.releaseLock_owned {s : State} (howns : s.Owns) : s.releaseLock = { s with lockOwner := none } :=
  if_pos howns

theorem cpeRun_release {prog k : Prog CmdEnd} {s : State} {st : Station} (q : Nat) (hst : s.here = some st)
    (hbusy : st.phase = .busy) (hp : prog.resume st.pos = .release k) :
    cpeRun (q + 1) prog s = cpeRun q prog (s.releaseLock.answered 0) :=
  cpeRun_busy q hst hbusy hp

/-- A cancel latched at a running command that stands at its acquire ends it CANCELLED, whoever holds the lock (R652,
R661). -/
theorem cancel_at_acquire {i : Instr} {prog k : Prog CmdEnd} {s : State} {pos answers rest : List Byte}
    (hp : programOf s.cfg i = some prog) (hk : prog.resume pos = .acquire k)
    (hrunning : s.Running i pos true answers rest 1) : exec i s = .next s.cancelled := by
  obtain ⟨hq, st, hst, hbusy, hcur, rfl, hcancel, -⟩ := hrunning
  rw [exec_continues hp hst hbusy hcur]
  exact cpeRun_cancel _ hst hbusy hk hcancel hq

/-! ## The commands -/

theorem acquireProg_run (p : Nat) (hw : Bool) (chip : List Byte) :
    acquireProg.run p hw false chip = some ⟨.done (Res.ofStatus .ok), [], [], 1, true, chip⟩ := rfl

/-- ACQUIRE with the lock free takes it in its first step and ends OK in its second (R653). -/
theorem exec_acquire_free {s : State} {st : Station} (hst : s.here = some st) (hidle : st.phase = .idle)
    (hcancel : st.cancelReq = false) (hfree : s.lockOwner = none) (hq : 2 ≤ s.quantum) :
    exec .acquire s = .next (s.completed .acquire [] (some s.sel) [] st.chipQ (Res.ofStatus .ok)) := by
  rw [exec_command rfl rfl]
  exact runCommand_completes (owns := false) hst hidle hcancel rfl (by simp [Gate.check, hfree]) hfree
    (acquireProg_run s.sel st.hwOk st.chipQ) rfl hq

/-- ACQUIRE while another station holds the lock is accepted and stands at its acquire (R652, R653). -/
theorem exec_acquire_waits {s : State} {st : Station} {owner : Nat} (hst : s.here = some st)
    (hidle : st.phase = .idle) (hcancel : st.cancelReq = false) (howner : s.lockOwner = some owner)
    (hother : owner ≠ s.sel) :
    exec .acquire s = .next (s.modifyHere (Station.accept (.known .acquire))) := by
  rw [exec_command rfl rfl, runCommand_accepts hst hidle rfl (by simp [Gate.check, howner, hother])]
  exact cpeRun_hold _ (here_accept .acquire hst) rfl (Prog.resume_nil _) hcancel howner

/-- RELEASE of the owner frees the lock in its first step and ends OK in its second. It has no cancellation point, so a
latched cancel changes nothing (R654). -/
theorem exec_release_owned {s : State} {st : Station} (hst : s.here = some st) (hidle : st.phase = .idle)
    (howns : s.Owns) (hq : 2 ≤ s.quantum) :
    exec .release s = .next (s.completed .release [] none [] st.chipQ (Res.ofStatus .ok)) := by
  obtain ⟨n, hn⟩ : ∃ n, s.quantum = n + 1 + 1 := ⟨s.quantum - 2, by omega⟩
  have haccepted := here_accept .release hst
  have hreleased := here_answered 0 ((State.here_releaseLock _).trans haccepted)
  rw [exec_command rfl rfl, runCommand_accepts hst hidle rfl (by simpa [Gate.check, State.Owns] using howns), hn,
    cpeRun_release (prog := releaseProg) (n + 1) haccepted rfl (Prog.resume_nil _), cpeRun_done n hreleased rfl rfl,
    State.releaseLock_owned (s := s.modifyHere (Station.accept (.known .release))) howns]
  refine congrArg Host.Outcome.next ?_
  rw [State.completed, State.mk.injEq]
  exact ⟨rfl, (modify_three _ _ _ _ _ _ fun _ => rfl).trans (modify_at hst rfl), rfl, (List.append_nil _).symm, rfl,
    rfl, rfl, rfl⟩

/-- Settles O21: the owner is refused at acceptance, and for the others the lock and the cancel latch decide the step at
the acquire. -/
theorem acquireRuns : Obligations.AcquireRuns := by
  refine ⟨fun s st hst hidle hcancel hfree hq => exec_acquire_free hst hidle hcancel hfree hq,
    fun s st hst hidle howns => exec_refused rfl rfl hst hidle ?_,
    fun s st owner hst hidle hcancel howner hother => exec_acquire_waits hst hidle hcancel howner hother,
    fun s rest owner hrunning howner => (wait_of rfl rfl (Prog.resume_nil _) howner).1 hrunning,
    fun s rest hrunning => cancel_at_acquire rfl (Prog.resume_nil _) hrunning⟩
  simpa [Gate.check, State.Owns] using howns

/-- Settles O22: the owner's program is the release and the end, any other station is refused at acceptance. -/
theorem releaseRuns : Obligations.ReleaseRuns := by
  refine ⟨fun s st hst hidle howns hq => exec_release_owned hst hidle howns hq,
    fun s st hst hidle hnot => exec_refused rfl rfl hst hidle ?_⟩
  simpa [Gate.check, State.Owns] using hnot

end Sys2Proof.Machine

/-! SUPPORT. The reset and hazards family: what block reset gives every register, and the bounds on the transactions of
a command: each sub-operation's bound is said once, a command's is their sum, and the bus trace grows by what the
program has issued. -/

namespace Sys2Proof.Machine

open Sys2Proof

/-! ## Block reset -/

/-- Station `p` of a block at reset is reset with its own line levels. -/
theorem resetWith_station {cfg : Config} {first levels : Bool × Bool} {others : List (Bool × Bool)} {p : Nat}
    (h : (first :: others)[p]? = some levels) :
    (State.resetWith cfg first others).stations[p]? = some (Station.reset cfg levels) := by
  rw [State.resetWith, List.getElem?_map, h, Option.map_some]

/-- Settles O6: the registers of `Station.reset`, and `last_enc` by the policy. -/
theorem resetValues : Obligations.ResetValues := by
  intro cfg first others
  refine ⟨rfl, rfl, List.length_map _, fun p clk dt hlevels => ⟨_, resetWith_station hlevels, fun hsample => ?_,
    fun hzero => ?_, rfl, rfl, rfl, rfl, rfl, rfl, rfl, rfl, rfl, rfl, rfl, rfl, rfl, rfl⟩⟩
  · simp only [Station.reset, hsample]
  · simp only [Station.reset, hzero]

/-! ## The transactions a program issues -/

/-- A program run from here issues at most `n` bus transactions, whatever it is answered, and a value it ends with meets
`P`. -/
def Prog.Issues {α : Type} (prog : Prog α) (P : α → Prop) (n : Nat) : Prop :=
  match prog with
  | .ret a => P a
  | .abort => True
  | .rd _ k => ∃ m < n, ∀ b, (k b).Issues P m
  | .wr _ _ k => ∃ m < n, k.Issues P m
  | .suspend k => ∀ c, (k c).Issues P n
  | .acquire k | .release k | .put _ k => k.Issues P n
  | .sampleHw k => ∀ b, (k b).Issues P n

section
variable {α β : Type} {P : α → Prop} {Q : β → Prop} {m n : Nat}

theorem Prog.Issues.mono {prog : Prog α} (h : prog.Issues P m) (hle : m ≤ n) : prog.Issues P n := by
  induction prog with
  | ret a => exact h
  | abort => trivial
  | rd a k ih =>
    obtain ⟨l, hl, hk⟩ := h
    exact ⟨l, hl.trans_le hle, hk⟩
  | wr a v k ih =>
    obtain ⟨l, hl, hk⟩ := h
    exact ⟨l, hl.trans_le hle, hk⟩
  | suspend k ih => exact fun c => ih c (h c)
  | acquire k ih => exact ih h
  | release k ih => exact ih h
  | sampleHw k ih => exact fun b => ih b (h b)
  | put w k ih => exact ih h

/-- The bounds of a sequence add up. -/
theorem Prog.Issues.bind {prog : Prog α} {f : α → Prog β} (h : prog.Issues P m)
    (hf : ∀ a, P a → (f a).Issues Q n) : (prog.bind f).Issues Q (m + n) := by
  induction prog generalizing m with
  | ret a => exact (hf a h).mono (Nat.le_add_left n m)
  | abort => trivial
  | rd a k ih =>
    obtain ⟨l, hl, hk⟩ := h
    exact ⟨l + n, Nat.add_lt_add_right hl n, fun b => ih b (hk b)⟩
  | wr a v k ih =>
    obtain ⟨l, hl, hk⟩ := h
    exact ⟨l + n, Nat.add_lt_add_right hl n, ih hk⟩
  | suspend k ih => exact fun c => ih c (h c)
  | acquire k ih => exact ih h
  | release k ih => exact ih h
  | sampleHw k ih => exact fun b => ih b (h b)
  | put w k ih => exact ih h

theorem Prog.Issues.seq {prog : Prog α} {q : Prog β} (h : prog.Issues P m) (hq : q.Issues Q n) :
    (prog.seq q).Issues Q (m + n) := h.bind fun _ _ => hq

@[simp] theorem Prog.issued_nil (prog : Prog α) : prog.issued [] = 0 := by
  rw [Prog.issued]

/-- What has been issued on the answers so far and what may be issued from there on are within the bound. -/
theorem Prog.Issues.resume {prog : Prog α} (h : prog.Issues P n) (answers : List Byte) :
    ∃ left, prog.issued answers + left ≤ n ∧ (prog.resume answers).Issues P left := by
  induction answers generalizing prog n with
  | nil => exact ⟨n, by simp, (Prog.resume_nil prog).symm ▸ h⟩
  | cons b rest ih =>
    cases prog with
    | ret a => exact ⟨n, by simp [Prog.issued], h⟩
    | abort => exact ⟨n, by simp [Prog.issued], h⟩
    | rd a k =>
      obtain ⟨l, hl, hk⟩ := h
      obtain ⟨left, hleft, hrest⟩ := ih (hk b)
      exact ⟨left, by rw [Prog.issued]; omega, hrest⟩
    | wr a v k =>
      obtain ⟨l, hl, hk⟩ := h
      obtain ⟨left, hleft, hrest⟩ := ih hk
      exact ⟨left, by rw [Prog.issued]; omega, hrest⟩
    | suspend k => exact ih (h _)
    | acquire k => exact ih (prog := k) h
    | release k => exact ih (prog := k) h
    | sampleHw k => exact ih (h _)
    | put w k => exact ih (prog := k) h

theorem Prog.Issues.issued_le {prog : Prog α} (h : prog.Issues P n) (answers : List Byte) :
    prog.issued answers ≤ n := by
  obtain ⟨left, hleft, -⟩ := h.resume answers
  exact Nat.le_of_add_right_le hleft

/-- A place where the program has ended has a value that meets `P`. -/
theorem Prog.Issues.value {prog : Prog α} {answers : List Byte} {a : α} (h : prog.Issues P n)
    (hend : prog.resume answers = .ret a) : P a := by
  obtain ⟨left, -, hrest⟩ := h.resume answers
  rw [hend] at hrest
  exact hrest

/-- What is issued on more answers adds to what was issued on the first. -/
theorem Prog.issued_append (prog : Prog α) (l l' : List Byte) :
    prog.issued (l ++ l') = prog.issued l + (prog.resume l).issued l' := by
  induction l generalizing prog with
  | nil => simp
  | cons b rest ih =>
    cases prog with
    | ret a => cases l' <;> rfl
    | abort => cases l' <;> rfl
    | rd a k => simp only [List.cons_append, Prog.issued, Prog.resume, ih, Nat.add_right_comm]
    | wr a v k => simp only [List.cons_append, Prog.issued, Prog.resume, ih, Nat.add_right_comm]
    | suspend k => exact ih _
    | acquire k => exact ih k
    | release k => exact ih k
    | sampleHw k => exact ih _
    | put w k => exact ih k

end

/-! ## The bounds of the sub-operations -/

theorem readRegister_issues (a : RegAddr) : (readRegister a).Issues (fun _ => True) 1 :=
  ⟨0, Nat.zero_lt_one, fun _ => trivial⟩

theorem writeRegister_issues (a : RegAddr) (v : Byte) : (writeRegister a v).Issues (fun _ => True) 1 :=
  ⟨0, Nat.zero_lt_one, trivial⟩

theorem setBits_issues (a : RegAddr) (m : Byte) : (setBits a m).Issues (fun _ => True) 2 :=
  ⟨1, Nat.one_lt_two, fun _ => ⟨0, Nat.zero_lt_one, trivial⟩⟩

theorem clearBits_issues (a : RegAddr) (m : Byte) : (clearBits a m).Issues (fun _ => True) 2 :=
  ⟨1, Nat.one_lt_two, fun _ => ⟨0, Nat.zero_lt_one, trivial⟩⟩

theorem antennaOn_issues (cfg : Config) : (antennaOn cfg).Issues (fun _ => True) 3 := by
  refine ⟨2, Nat.lt_succ_self 2, fun v => ?_⟩
  dsimp only
  split
  · exact setBits_issues _ _
  · trivial

theorem issueWrites_issues (l : List (RegAddr × Byte)) : (issueWrites l).Issues (fun _ => True) l.length := by
  induction l with
  | nil => trivial
  | cons w rest ih => exact ⟨rest.length, Nat.lt_succ_self _, ih⟩

theorem pushFifo_issues (cfg : Config) (p : List Byte) : (pushFifo cfg p).Issues (fun _ => True) p.length := by
  induction p with
  | nil => trivial
  | cons b rest ih => exact ⟨rest.length, Nat.lt_succ_self _, ih⟩

theorem pollIrq_issues (cfg : Config) (wait : Byte) (k : Nat) : (pollIrq cfg wait k).Issues (fun _ => True) k := by
  induction k with
  | zero => trivial
  | succ left ih =>
    refine ⟨left, Nat.lt_succ_self left, fun n => ?_⟩
    dsimp only
    split
    · trivial
    · split
      · trivial
      · intro c
        dsimp only
        split
        · trivial
        · exact ih

theorem pollCrc_issues (cfg : Config) (k : Nat) : (pollCrc cfg k).Issues (fun _ => True) k := by
  induction k with
  | zero => trivial
  | succ left ih =>
    refine ⟨left, Nat.lt_succ_self left, fun n => ?_⟩
    dsimp only
    split
    · trivial
    · exact ih

theorem drainFifo_issues (cfg : Config) (k : Nat) : (drainFifo cfg k).Issues (fun _ => True) k := by
  induction k with
  | zero => trivial
  | succ left ih => exact ⟨left, Nat.lt_succ_self left, fun b => ih.bind (n := 0) fun _ _ => trivial⟩

/-- The FIFO level, the control register and at most MAX_FRAME bytes (R454). -/
theorem readReply_issues (cfg : Config) (st : Status) : (readReply cfg st).Issues (fun _ => True) 18 := by
  refine ⟨17, Nat.lt_succ_self 17, fun lvl => ⟨16, Nat.lt_succ_self 16, fun ctl => ?_⟩⟩
  exact .mono ((drainFifo_issues cfg _).bind (n := 0) fun _ _ => trivial) (Nat.min_le_right lvl.toNat maxFrame)

/-- The error register, and the reply of a TRANSCEIVE (R453). -/
theorem finishExchange_issues (cfg : Config) (c en n : Byte) :
    (finishExchange cfg c en n).Issues (fun _ => True) (if c = cfg.cmdTransceive then 19 else 1) := by
  refine ⟨if c = cfg.cmdTransceive then 18 else 0, by split <;> omega, fun e => ?_⟩
  dsimp only
  split
  · trivial
  · split
    · exact readReply_issues _ _
    · trivial

theorem startExchange_issues (cfg : Config) (c : Byte) (p : List Byte) :
    (startExchange cfg c p).Issues (fun _ => True) (7 + p.length) := by
  refine .mono ((writeRegister_issues _ _).seq <| (clearBits_issues _ _).seq <| (setBits_issues _ _).seq <|
    (writeRegister_issues _ _).seq <| (pushFifo_issues _ _).seq <| writeRegister_issues _ _) ?_
  omega

/-- An exchange: the start, START_SEND set for a TRANSCEIVE, the polls, START_SEND cleared, and the end (R451). -/
theorem toCard_issues (cfg : Config) (c : Byte) (p : List Byte) :
    (toCard cfg c p).Issues (fun _ => True)
      ((if c = cfg.cmdTransceive then 30 else 10) + cfg.maxPolls + p.length) := by
  have hsend : (if c = cfg.cmdTransceive then setBits cfg.aBitFraming cfg.startSend else .ret ()).Issues
      (fun _ => True) (if c = cfg.cmdTransceive then 2 else 0) := by
    split
    · exact setBits_issues _ _
    · trivial
  refine .mono ((startExchange_issues cfg c p).seq <| hsend.seq <| (pollIrq_issues cfg _ _).bind fun poll _ =>
    (clearBits_issues _ _).seq (n := if c = cfg.cmdTransceive then 19 else 1) ?_) ?_
  · cases poll with
    | fired n => exact finishExchange_issues cfg c _ n
    | timeout => trivial
    | cancelled => trivial
  · split <;> omega

/-- A TRANSCEIVE (R451). -/
theorem transceive_issues (cfg : Config) (p : List Byte) :
    (toCard cfg cfg.cmdTransceive p).Issues (fun _ => True) (30 + cfg.maxPolls + p.length) := by
  have h := toCard_issues cfg cfg.cmdTransceive p
  rwa [if_pos rfl] at h

/-- A CRC, which has two bytes, with all its polls (R215, R460). -/
theorem calculateCrc_issues (cfg : Config) (p : List Byte) :
    (calculateCrc cfg p).Issues (fun crc => crc.length = 2) (263 + p.length) := by
  have hresult : (Prog.rd cfg.aCrcL fun lo => .rd cfg.aCrcM fun hi => .ret [lo, hi]).Issues
      (fun crc : List Byte => crc.length = 2) 2 :=
    ⟨1, Nat.one_lt_two, fun _ => ⟨0, Nat.zero_lt_one, fun _ => rfl⟩⟩
  refine .mono ((clearBits_issues _ _).seq <| (setBits_issues _ _).seq <| (pushFifo_issues _ _).seq <|
    (writeRegister_issues _ _).seq <| (pollCrc_issues _ _).seq hresult) ?_
  rw [crcPolls]
  omega

/-- A frame `f` with its CRC, sent by a TRANSCEIVE (R323). -/
theorem frame_issues {α : Type} {P : α → Prop} (cfg : Config) (f : List Byte) {k : Exchange → Prog α} {n : Nat}
    (hk : ∀ x, (k x).Issues P n) :
    ((calculateCrc cfg f).bind fun crc => (toCard cfg cfg.cmdTransceive (f ++ crc)).bind k).Issues P
      (295 + cfg.maxPolls + 2 * f.length + n) := by
  refine .mono (m := 263 + f.length + (30 + cfg.maxPolls + (f.length + 2) + n))
    ((calculateCrc_issues cfg f).bind fun crc hcrc => ?_) (by omega)
  have hsend := transceive_issues cfg (f ++ crc)
  rw [List.length_append, hcrc] at hsend
  exact hsend.bind fun x _ => hk x

theorem request_issues (cfg : Config) (m : Byte) : (request cfg m).Issues (fun _ => True) (32 + cfg.maxPolls) := by
  refine .mono (((writeRegister_issues _ _).seq (transceive_issues cfg [m])).bind (n := 0) fun _ _ => trivial) ?_
  rw [List.length_singleton]
  omega

theorem anticollision_issues (cfg : Config) : (anticollision cfg).Issues (fun _ => True) (33 + cfg.maxPolls) := by
  refine .mono (((writeRegister_issues _ _).seq (transceive_issues cfg [0x93, 0x20])).bind (n := 0)
    fun _ _ => trivial) ?_
  rw [List.length_cons, List.length_singleton]
  omega

theorem selectTag_issues (cfg : Config) (u : List Byte) :
    (selectTag cfg u).Issues (fun _ => True) (299 + cfg.maxPolls + 2 * u.length) := by
  refine .mono (frame_issues cfg ([0x93, 0x70] ++ u) (n := 0) fun _ => trivial) ?_
  simp only [List.length_append, List.length_cons, List.length_nil]
  omega

/-- An AUTHENT exchange of `mode`, `block`, the key and four UID bytes, and the status register (R504). -/
theorem authenticate_issues (cfg : Config) (m b : Byte) (k u : List Byte)
    (hcodes : cfg.cmdAuthent ≠ cfg.cmdTransceive) :
    (authenticate cfg m b k u).Issues (fun _ => True) (17 + cfg.maxPolls + k.length) := by
  have hstatus : ∀ x : Exchange, (Prog.rd cfg.aStatus2 fun s2 =>
      if s2 &&& cryptoOn = 0 then .put (.authWarn true) (.ret (x.status, true)) else .ret (x.status, false)).Issues
      (fun _ => True) 1 := by
    refine fun x => ⟨0, Nat.zero_lt_one, fun s2 => ?_⟩
    dsimp only
    split <;> trivial
  have hsend := toCard_issues cfg cfg.cmdAuthent ([m, b] ++ k ++ u.take 4)
  refine .mono (hsend.bind fun x _ => hstatus x) ?_
  simp only [if_neg hcodes, List.length_append, List.length_cons, List.length_nil, List.length_take]
  omega

theorem readBlock_issues (cfg : Config) (b : Byte) : (readBlock cfg b).Issues (fun _ => True) (299 + cfg.maxPolls) :=
  .mono (frame_issues cfg [0x30, b] (n := 0) fun _ => trivial) (by
    simp only [List.length_cons, List.length_nil]
    omega)

/-- The frame of phase 1 and, when it was acknowledged, that of phase 2 (R507). -/
theorem writeBlock_issues (cfg : Config) (b : Byte) (d : List Byte) :
    (writeBlock cfg b d).Issues (fun _ => True) (594 + 2 * cfg.maxPolls + 2 * d.length) := by
  refine .mono (frame_issues cfg [0xA0, b] (n := 295 + cfg.maxPolls + 2 * d.length) fun x => ?_) ?_
  · split
    · exact frame_issues cfg d (n := 0) fun _ => trivial
    · trivial
  · simp only [List.length_cons, List.length_nil]
    omega

/-! ## The rows of R831 -/

theorem endOk_issues : endOk.Issues (· ≠ .again) 0 := nofun

theorem initProg_issues (cfg : Config) : (initProg cfg).Issues (· ≠ .again) (cfg.initWrites.length + 4) := by
  intro hwOk
  dsimp only
  split
  · have hconfigure : ((chipReset cfg).seq <| (issueWrites cfg.initWrites).seq <| (antennaOn cfg).seq <|
        .put .inited <| .release endOk).Issues (· ≠ .again) (1 + (cfg.initWrites.length + (3 + 0))) :=
      (writeRegister_issues _ _).seq <| (issueWrites_issues _).seq <| (antennaOn_issues _).seq endOk_issues
    exact hconfigure.mono (by omega)
  · nofun

/-- A command that computes its result from the value of its sub-operation issues what the sub-operation does. -/
theorem Prog.Issues.done {α : Type} {P : α → Prop} {sub : Prog α} {m n : Nat} (h : sub.Issues P m) (r : α → Res)
    (hle : m ≤ n) : (sub.bind fun a => .ret (CmdEnd.done (r a))).Issues (· ≠ CmdEnd.again) n :=
  .mono (h.bind (n := 0) fun _ _ => nofun) hle

/-- The rows of R831, each the sum of its command's parts. A command that passed its checks has operands of the lengths
that the rows count. -/
theorem programOf_issues {cfg : Config} {i : Instr} {n : Nat} {prog : Prog CmdEnd}
    (hbound : transactionBound cfg i = some n) (hp : programOf cfg i = some prog) (hpolls : cfg.maxPolls = 10)
    (hcodes : cfg.cmdAuthent ≠ cfg.cmdTransceive) (haccepted : Accepted cfg i) : prog.Issues (· ≠ .again) n := by
  obtain ⟨hwf, hoperand⟩ := haccepted
  cases i <;> cases hbound <;> cases hp
  case init => exact initProg_issues cfg
  case regRead a => exact (readRegister_issues _).done _ le_rfl
  case regWrite a v => exact (writeRegister_issues _ _).seq endOk_issues
  case setBits a m => exact (setBits_issues _ _).seq endOk_issues
  case clearBits a m => exact (clearBits_issues _ _).seq endOk_issues
  case chipReset => exact (writeRegister_issues _ _).seq endOk_issues
  case antennaOn => exact (antennaOn_issues cfg).seq endOk_issues
  case toCard c d =>
    refine (toCard_issues cfg c d).done _ ?_
    split <;> omega
  case calcCrc d => exact (calculateCrc_issues cfg d).done _ (by omega)
  case request m => exact (request_issues cfg m).done _ (by omega)
  case anticoll => exact (anticollision_issues cfg).done _ (by omega)
  case select u =>
    have hu : u.length = 5 := by simpa [Instr.wf] using hwf
    exact (selectTag_issues cfg u).done _ (by omega)
  case auth m b k u =>
    obtain ⟨hk, -⟩ : k.length = 6 ∧ u.length = 5 := by simpa [Instr.wf] using hwf
    exact (authenticate_issues cfg m b k u hcodes).done _ (by omega)
  case stopCrypto => exact (clearBits_issues _ _).seq endOk_issues
  case readBlock b => exact (readBlock_issues cfg b).done _ (by omega)
  case writeBlock b d =>
    have hd : d.length = 16 := by simpa using hoperand _ rfl
    exact (writeBlock_issues cfg b d).done _ (by omega)

/-! ## What the bus trace grows by -/

/-- From `s`, where the moving station's record is `st` and its program has `node` left, the card engine came to `t`:
the trace grew by what `node` issued on the answers it got, and they joined the position if the command still runs. -/
def Counted (node : Prog CmdEnd) (s t : State) (st : Station) : Prop :=
  ∃ st' answers, t.here = some st' ∧ (st'.phase = .busy → st'.pos = st.pos ++ answers) ∧
    t.trace.length = s.trace.length + node.issued answers

/-- A move that answers nothing and records nothing. -/
theorem Counted.silent {node : Prog CmdEnd} {s t : State} {st st' : Station} (hst : t.here = some st')
    (hpos : st'.phase = .busy → st'.pos = st.pos) (htrace : t.trace = s.trace) : Counted node s t st :=
  ⟨st', [], hst, fun hbusy => (hpos hbusy).trans (List.append_nil _).symm, by simp [htrace]⟩

/-- A request answered in the state `s'`. -/
theorem Counted.answered {node : Prog CmdEnd} {s s' : State} {st st' : Station} (b : Byte) (hst : s'.here = some st')
    (hpos : st'.pos = st.pos) (htrace : s'.trace.length = s.trace.length + node.issued [b]) :
    Counted node s (s'.answered b) st :=
  ⟨_, [b], here_answered b hst, fun _ => congrArg (· ++ [b]) hpos, htrace⟩

/-- A command has issued nothing when it is accepted (R312). -/
theorem Station.issued_accept (prog : Prog CmdEnd) (c : Command) (st : Station) : (st.accept c).issued prog = 0 := by
  rw [Station.issued, Station.accept_pos, Prog.issued_nil, ite_self]

theorem Station.finish_not_busy (r : Res) (st : Station) : (st.finish r).phase ≠ .busy := by
  rw [Station.finish_phase]
  split <;> nofun

theorem Counted.abort (node : Prog CmdEnd) {s : State} {st : Station} (hst : s.here = some st) :
    Counted node s s.abort st :=
  .silent (here_modify (s.here_releaseLock.trans hst)) (fun hbusy => absurd hbusy (Station.finish_not_busy _ st))
    (by simp)

/-- One atomic step of a program that asks for no other round: a transaction is one record, no other request makes one
(R220). -/
theorem cpeNode_counted {node : Prog CmdEnd} {s t : State} {st : Station} (hst : s.here = some st)
    (hround : node ≠ .ret .again) (h : cpeNode node st s = .next t) : Counted node s t st := by
  cases node with
  | ret e =>
    cases e with
    | done r =>
      cases h
      exact .silent (here_modify hst) (fun hbusy => absurd hbusy (Station.finish_not_busy r st)) rfl
    | again => exact absurd rfl hround
  | abort =>
    cases h
    exact .abort _ hst
  | rd a k =>
    obtain ⟨s', hbus, hnext⟩ := onNext_eq_next h
    cases hnext
    cases busRead_eq_next hbus
    exact .answered _ (State.here_takeAnswer (s := s.record .rd a s.answer) hst) rfl (by simp [Prog.issued])
  | wr a v k =>
    obtain ⟨s', hbus, hnext⟩ := onNext_eq_next h
    cases hnext
    cases busWrite_eq_next hbus
    exact .answered (s' := s.record .wr a v) 0 hst rfl (by simp [Prog.issued])
  | suspend k =>
    cases h
    exact .answered _ hst rfl (by simp [Prog.issued])
  | acquire k =>
    simp only [cpeNode] at h
    split at h
    · cases h
      exact .abort _ hst
    · split at h
      · cases h
        exact .answered (s' := s.takeLock) 0 hst rfl (by simp [Prog.issued])
      · cases h
        exact .silent hst (fun _ => rfl) rfl
  | release k =>
    cases h
    exact .answered 0 (s.here_releaseLock.trans hst) rfl (by simp [Prog.issued])
  | sampleHw k =>
    cases h
    exact .answered _ hst rfl (by simp [Prog.issued])
  | put w k =>
    cases h
    exact .answered (s' := s.modifyHere w.apply) 0 (here_modify hst) (by cases w <;> rfl) (by simp [Prog.issued])

/-- Any number of atomic steps of such a program. -/
theorem cpeRun_counted {prog : Prog CmdEnd} (q : Nat) {s t : State} {st : Station} (hst : s.here = some st)
    (hround : ∀ answers, prog.resume answers ≠ .ret .again) (h : cpeRun q prog s = .next t) :
    Counted (prog.resume st.pos) s t st := by
  induction q generalizing s st with
  | zero =>
    cases h
    exact .silent hst (fun _ => rfl) rfl
  | succ n ih =>
    by_cases hbusy : st.phase = .busy
    · rw [cpeRun_busy n hst hbusy rfl] at h
      obtain ⟨s', hnode, hrun⟩ := onNext_eq_next h
      obtain ⟨st', first, hst', hpos, htrace⟩ := cpeNode_counted hst (hround _) hnode
      by_cases hbusy' : st'.phase = .busy
      · obtain ⟨st'', rest, hst'', hpos', htrace'⟩ := ih hst' hrun
        rw [hpos hbusy'] at hpos' htrace'
        refine ⟨st'', first ++ rest, hst'', fun hb => by rw [hpos' hb, List.append_assoc], ?_⟩
        rw [htrace', htrace, Prog.issued_append, Prog.resume_append, Nat.add_assoc]
      · rw [cpeRun_rest n hst' hbusy'] at hrun
        cases hrun
        exact ⟨st', first, hst', hpos, htrace⟩
    · rw [cpeRun_rest _ hst hbusy] at h
      cases h
      exact .silent hst (fun _ => rfl) rfl

/-- What the steps of a BUSY station's command add to the trace, with what it has issued before. -/
theorem cpeRun_trace {prog : Prog CmdEnd} {n q : Nat} {s t : State} {st : Station} (hst : s.here = some st)
    (hbusy : st.phase = .busy) (hprog : prog.Issues (· ≠ .again) n) (h : cpeRun q prog s = .next t) :
    t.trace.length + st.issued prog ≤ s.trace.length + n ∧
      ∀ st', t.here = some st' → st'.phase = .busy →
        t.trace.length + st.issued prog = s.trace.length + st'.issued prog := by
  obtain ⟨st', answers, hst', hpos, htrace⟩ := cpeRun_counted q hst (fun _ hend => hprog.value hend rfl) h
  have hissued : t.trace.length + st.issued prog = s.trace.length + prog.issued (st.pos ++ answers) := by
    rw [htrace, Station.issued, if_pos hbusy, Prog.issued_append]
    omega
  refine ⟨hissued.le.trans (Nat.add_le_add_left (hprog.issued_le _) _), fun st'' hst'' hbusy' => ?_⟩
  cases hst'.symm.trans hst''
  rw [hissued, Station.issued, if_pos hbusy', hpos hbusy']

/-! ## A command's turn -/

/-- At an IDLE station a command turn ends the command with a failed check, or runs it from acceptance, its operand
check passed (R312, R712). -/
theorem runCommand_idle {i : Instr} {gate : Gate} {prog : Prog CmdEnd} {s t : State} {st : Station}
    (hst : s.here = some st) (hidle : st.phase = .idle) (h : runCommand i gate prog s = .next t) :
    (∃ sub, t = s.modifyHere fun st => (st.accept (.known i)).finish (Res.ofSub sub)) ∨
      (i.wf = true ∧ gate.operand = none ∧
        cpeRun s.quantum prog (s.modifyHere (Station.accept (.known i))) = .next t) := by
  simp only [runCommand, hst, hidle] at h
  split at h
  · rename_i hwf
    split at h
    · exact .inl ⟨_, (Host.Outcome.next.inj h).symm⟩
    · rename_i hcheck
      exact .inr ⟨hwf, Gate.check_none_operand hcheck, h⟩
  · cases h

/-- The same for whatever exec does with an instruction that has a program. -/
theorem exec_idle {i : Instr} {prog : Prog CmdEnd} {s t : State} {st : Station} (hp : programOf s.cfg i = some prog)
    (hst : s.here = some st) (hidle : st.phase = .idle) (h : exec i s = .next t) :
    (∃ sub, t = s.modifyHere fun st => (st.accept (.known i)).finish (Res.ofSub sub)) ∨
      (Accepted s.cfg i ∧ cpeRun s.quantum prog (s.modifyHere (Station.accept (.known i))) = .next t) := by
  cases hg : hostGate s.cfg i with
  | some gate =>
    rw [exec_command hg hp] at h
    refine (runCommand_idle hst hidle h).imp_right fun ⟨hwf, hoperand, hrun⟩ =>
      ⟨⟨hwf, fun g hg' => ?_⟩, hrun⟩
    cases hg.symm.trans hg'
    exact hoperand
  | none =>
    rw [exec_frame hg hp] at h
    refine (runCommand_idle hst hidle h).imp_right fun ⟨hwf, _, hrun⟩ => ⟨⟨hwf, fun g hg' => ?_⟩, hrun⟩
    cases hg.symm.trans hg'

/-- Settles O60: the steps of a turn add to the trace what the program issues, which is within the bound of its row. -/
theorem transactionBounds : Obligations.TransactionBounds := by
  intro i n prog s t st hbound hp hpolls hcodes hst hphase hexec
  have hprog := programOf_issues hbound hp hpolls hcodes
  rcases hphase with hidle | ⟨hbusy, hcur, haccepted⟩
  · have hnone : st.issued prog = 0 := if_neg (by simp [hidle])
    rcases exec_idle hp hst hidle hexec with ⟨sub, rfl⟩ | ⟨haccepted, hrun⟩
    · refine ⟨by simp [hnone], fun st' hst' hbusy' => absurd hbusy' ?_⟩
      cases (here_modify hst).symm.trans hst'
      exact Station.finish_not_busy _ _
    · have htrace := cpeRun_trace (here_accept i hst) rfl (hprog haccepted) hrun
      rwa [Station.issued_accept, ← hnone] at htrace
  · rw [exec_continues hp hst hbusy hcur] at hexec
    exact cpeRun_trace hst hbusy (hprog haccepted) hexec

end Sys2Proof.Machine
